-- ==== Sys2Proof/Word.lean ====
section
/-! DEFINITION. The word types of the engine (00_scope.md R44, 10_state.md R102, R147). -/

namespace Sys2Proof

/-- A register value, a packet word, an event word: 32 unsigned bits (R44). -/
abbrev Word := BitVec 32

/-- One byte of host memory, of the tuning buffer or of a data stream. -/
abbrev Byte := BitVec 8

/-- One FIFO word. The FIFO is `W` = 2, 4 or 8 bytes wide (R21); a narrower word stands in the low bytes. -/
abbrev Beat := BitVec 64

end Sys2Proof
end

