-- ==== Sys2Proof/Syntax.lean ====
section
/-! DEFINITION. What the engine is told to do: the operations of spec/opcode_table.json with their operands
(30_encoding.md), the steps of the environment agent BUS (60_exceptions.md section 5) and the stimuli that say which
agent moves next. -/

namespace Sys2Proof

/-- Direction of a data transfer (10_state.md R142). -/
inductive Dir where
  | read | write
  deriving DecidableEq, Repr, Inhabited

/-- Response type of a command (R302, `RESP`). -/
inductive RespType where
  | noResp | short | long | shortBusy
  deriving DecidableEq, Repr, Inhabited

/-- Who made a request: a SUBMIT or the tuning engine (R142). -/
inductive Origin where
  | host | tuning
  deriving DecidableEq, Repr, Inhabited

/-- Result codes (R306), in the order of their values 0x00 to 0x15. -/
inductive Code where
  | ok | cmdTimeout | cmdCrc | cmdRespErr | cmdHle | dataTimeout | dataCrc | dataStartBit | dataEndBit
  | fifoOverrun | fifoStarvation | dmaError | reqTimeout | noMedium | busyTimeout | hardFailure
  | noViableMode | dmaDeclined | queueFull | illegalOp | invalidArg | notReady
  deriving DecidableEq, Repr, Inhabited

/-- One scatter-list segment: host address and byte length (R142). -/
structure Seg where
  addr : Word
  len  : Word
  deriving DecidableEq, Repr, Inhabited

/-- The command of a request (R142). -/
structure CmdSpec where
  index : BitVec 6
  arg   : Word
  resp  : RespType
  crc   : Bool
  deriving DecidableEq, Repr, Inhabited

/-- The data transfer of a request (R142). A tuning read has an empty list: its bytes go to the tuning buffer (R601). -/
structure DataSpec where
  dir    : Dir
  blksz  : BitVec 16
  blocks : BitVec 16
  sg     : List Seg
  deriving DecidableEq, Repr, Inhabited

/-- What a request asks for (R142 without its result fields). -/
structure ReqOp where
  seq      : Word
  slot     : BitVec 4
  origin   : Origin
  cmd      : CmdSpec
  data     : Option DataSpec
  stopFlag : Bool
  deriving DecidableEq, Repr, Inhabited

/-- Every row of spec/opcode_table.json: the host-port operations with `SLOT` and their operand words as presented
(R300 to R303), the internal micro-operations with the operands their rules name, and the event words with their
payload (R304). -/
inductive Instr where
  -- host-port operations
  | submit         (slot : BitVec 4) (ws : List Word)
  | setBusTiming   (slot : BitVec 4) (ws : List Word)
  | setClock       (slot : BitVec 4) (ws : List Word)
  | getCardPresent (slot : BitVec 4) (ws : List Word)
  | tune           (slot : BitVec 4) (ws : List Word)
  | sdioIrqAck     (slot : BitVec 4) (ws : List Word)
  | controllerInit (slot : BitVec 4) (ws : List Word)
  -- internal micro-operations
  | enqueue (r : ReqOp)
  | dispatchNext
  | dispatch (r : ReqOp)
  | onEvent (w : Word)
  | settle
  | complete
  | cardScan
  | issueStop
  | updateClock (slot : BitVec 4)
  | runCtl
  | dpuRun
  | dmaPrepare (sg : List Seg)
  | dmaStart (dir : Dir)
  | dmaStop
  | dmaReset
  | pioPull (drain : Bool)
  | pioPush
  | tuneStart (tag : Word) (slot : BitVec 4) (mode : BitVec 4) (cmdIndex : BitVec 6) (pattern : List Byte)
  | tuneStep
  | tuneSelect
  | tuneFinish (code : Code)
  | resetFifo
  | resetController
  | waitNotBusy
  | recover
  | watchdogRecover
  | irqDispatch
  | watchdogCheck
  -- event words
  | evCmdDone    (payload : BitVec 24)
  | evDataErr    (payload : BitVec 24)
  | evRxReady    (payload : BitVec 24)
  | evTxReady    (payload : BitVec 24)
  | evDataOver   (payload : BitVec 24)
  | evDmaDone    (payload : BitVec 24)
  | evCardDetect (payload : BitVec 24)
  | evSdioIrq    (payload : BitVec 24)
  | evWatchdog   (payload : BitVec 24)
  deriving DecidableEq, Repr, Inhabited

/-- A step of the environment agent BUS with the values it draws (R760 to R768). -/
inductive BusAct where
  /-- R760, R764, R766: accept the command in `CMD`. -/
  | acceptCmd
  /-- R761: end the oldest accepted command's phase. `rto`, `rcrc`, `re` are its error bits, `resp0` to `resp3` the
  response drawn, `busy` whether the card signals busy after it (R767). -/
  | cmdDone (rto rcrc re busy : Bool) (resp0 resp1 resp2 resp3 : Word)
  /-- R762: push the next word of a read transfer. -/
  | pushWord (w : Beat)
  /-- R763: pop the next word of a write transfer and send it. -/
  | popWord
  /-- R762, R763: raise `RXDR` or `TXDR` and do nothing else, while the condition holds (log 16). -/
  | fifoReady
  /-- R763: the card goes busy after the last word of a write. -/
  | writeBusy
  /-- R762, R763: raise data error bits of the running transfer. -/
  | dataErr (bits : Word)
  /-- R762 to R764: the data transfer ended. -/
  | dataOver
  /-- R765: complete the selected resets (`CTRL` bit 0, bit 1, and the DMA reset). -/
  | resetDone (ctl fifo dma : Bool)
  /-- R767: the presence signal of a slot changes. -/
  | setPresent (slot : Nat) (b : Bool)
  /-- R767: an SDIO card signals an interrupt. -/
  | sdioInt (slot : Nat)
  /-- R767, R764: a card goes busy after a command whose response signals busy, in a later step than its `CMD_DONE`. -/
  | cardBusy (slot : Nat)
  /-- R767: a busy card becomes ready. -/
  | busyEnd (slot : Nat)
  deriving DecidableEq, Repr, Inhabited

/-- Where words come from: the host port (R300), a trace record that names a micro-operation (R318), or an event
word handed to the DPU (R304). -/
inductive Port where
  | host | trace | event
  deriving DecidableEq, Repr, Inhabited

/-- Which agent moves next, and what it is given. DESIGN CHOICE, log 1: the interleaving the spec leaves open is a
list of these in State. -/
inductive Stimulus where
  /-- HOST presents a packet, or a test harness names a micro-operation or an event word (R318). -/
  | feed (p : Port) (ws : List Word)
  /-- IRQ steps if the interrupt line is 1 (R728). -/
  | irq
  /-- TIMER steps (R151). -/
  | timer
  /-- DPU goes on with what it is doing, or starts a scheduled run (R450). -/
  | dpu
  /-- DMAC steps if it can (R564). -/
  | dmac
  /-- BUS steps (R760 to R768). -/
  | bus (a : BusAct)
  /-- HOST writes or reads host memory (R201). -/
  | hostWrite (addr : Nat) (bytes : List Byte)
  | hostRead (addr n : Nat)
  /-- Whether another agent steps before a poll's evaluation (R451). -/
  | yielding (b : Bool)
  /-- The DPU, between its micro-operations, reads or writes a register by offset and width in bytes (R102, R129, R201,
  R205, log 26). -/
  | regRead (off width : Nat)
  | regWrite (off width : Nat) (v : Beat)
  deriving DecidableEq, Repr, Inhabited

end Sys2Proof
end

