-- ==== Sys2Proof/WellFormed.lean ====
section
/-! DEFINITION. Which terms of `Instr` an encoding can carry (30_encoding.md R300 to R305). -/

namespace Sys2Proof

/-- A packet's operand words: `NWORDS` is a 16-bit count (R300). -/
def operandsFit (ws : List Word) : Bool := decide (ws.length < 65536)

/-- A request as operands: four words and two for each segment after the sequence number (R302, log 3), counted in 16 bits. -/
def ReqOp.wellFormed (r : ReqOp) : Bool :=
  match r.data with
  | none => true
  | some d => decide (2 * d.sg.length + 5 < 65536)

/-- An event's payload has only the bits R305 gives it. -/
def payloadWithin (p mask : BitVec 24) : Bool := decide (p &&& ~~~mask = 0#24)

/-- Well-formedness: the operand counts fit, a pattern's length fits `PLEN`, an event's payload is one of R305. -/
def Instr.wellFormed : Instr → Bool
  | .submit _ ws => operandsFit ws
  | .setBusTiming _ ws => operandsFit ws
  | .setClock _ ws => operandsFit ws
  | .getCardPresent _ ws => operandsFit ws
  | .tune _ ws => operandsFit ws
  | .sdioIrqAck _ ws => operandsFit ws
  | .controllerInit _ ws => operandsFit ws
  | .enqueue r => r.wellFormed
  | .dispatchNext => true
  | .dispatch r => r.wellFormed
  | .onEvent _ => true
  | .settle => true
  | .complete => true
  | .cardScan => true
  | .issueStop => true
  | .updateClock _ => true
  | .runCtl => true
  | .dpuRun => true
  | .dmaPrepare sg => decide (2 * sg.length + 1 < 65536)
  | .dmaStart _ => true
  | .dmaStop => true
  | .dmaReset => true
  | .pioPull _ => true
  | .pioPush => true
  | .tuneStart _ _ _ _ pattern => decide (pattern.length < 65536)
  | .tuneStep => true
  | .tuneSelect => true
  | .tuneFinish _ => true
  | .resetFifo => true
  | .resetController => true
  | .waitNotBusy => true
  | .recover => true
  | .watchdogRecover => true
  | .irqDispatch => true
  | .watchdogCheck => true
  | .evCmdDone p => payloadWithin p 0x001146#24
  | .evDataErr p => payloadWithin p 0x03AE80#24
  | .evRxReady p => payloadWithin p 0#24
  | .evTxReady p => payloadWithin p 0#24
  | .evDataOver p => payloadWithin p 0#24
  | .evDmaDone p => payloadWithin p 0x000003#24
  | .evCardDetect p => payloadWithin p 0#24
  | .evSdioIrq p => payloadWithin p 0x00FFFF#24
  | .evWatchdog _ => true

end Sys2Proof
end

