-- ==== Sys2Proof/Decode.lean ====
section
/-! DEFINITION. Words to instructions and back (30_encoding.md). A host-port packet is R300; a trace record that names
an internal micro-operation has the same operation word, and its operand words are the model's own (log 3: the spec
gives the micro-operations none); an event word is R304. -/

namespace Sys2Proof

/-- Why words are no instruction. -/
inductive DecodeError where
  /-- Fewer words than `NWORDS` says (R300). -/
  | truncated
  /-- A reserved value of `OP` (R301, R317). -/
  | reservedOp (op : Nat)
  /-- An internal micro-operation at the host port (R318). -/
  | internalOp (op : Nat)
  /-- A host-port operation where a micro-operation is meant. -/
  | hostOp (op : Nat)
  /-- A reserved bit that is not 0 (R317). -/
  | reservedBits
  /-- A trace record with another number of operand words than its micro-operation takes (log 3). -/
  | badLength
  /-- A trace record's operand out of range (log 3). -/
  | badOperand
  /-- A reserved event code or a set bit 7:4 (R319). -/
  | badEventCode
  deriving DecidableEq, Repr

/-- The unsigned field of `n` bits of `w` from bit `lo` (R44). -/
def bits (w : Word) (lo n : Nat) : Nat := w.toNat / 2 ^ lo % 2 ^ n

/-- One bit of `w`. -/
def bit (w : Word) (i : Nat) : Bool := decide (bits w i 1 = 1)

/-- A Bool as a bit value. -/
def bitVal (b : Bool) : Nat := if b then 1 else 0

/-- The fields of an operation word (R300). -/
structure Opw where
  op     : Nat
  slot   : BitVec 4
  rsv    : Nat
  nwords : Nat
  deriving DecidableEq, Repr

def Opw.ofWord (w : Word) : Opw :=
  ⟨bits w 0 8, BitVec.ofNat 4 (bits w 8 4), bits w 12 4, bits w 16 16⟩

/-- A packet's operation word and its operand words; words after the packet are not read (R300). -/
def splitPacket (ws : List Word) : Except DecodeError (Opw × List Word) :=
  match ws with
  | [] => .error .truncated
  | w :: rest =>
    if rest.length < (Opw.ofWord w).nwords then .error .truncated
    else .ok (Opw.ofWord w, rest.take (Opw.ofWord w).nwords)

/-- `RESP` of `CMDW` (R302). -/
def respOf (n : Nat) : RespType :=
  match n with
  | 0 => .noResp
  | 1 => .short
  | 2 => .long
  | _ => .shortBusy

def respVal : RespType → Nat
  | .noResp => 0
  | .short => 1
  | .long => 2
  | .shortBusy => 3

/-- Result codes by value (R306). -/
def codeOf (n : Nat) : Option Code :=
  match n with
  | 0 => some .ok
  | 1 => some .cmdTimeout
  | 2 => some .cmdCrc
  | 3 => some .cmdRespErr
  | 4 => some .cmdHle
  | 5 => some .dataTimeout
  | 6 => some .dataCrc
  | 7 => some .dataStartBit
  | 8 => some .dataEndBit
  | 9 => some .fifoOverrun
  | 10 => some .fifoStarvation
  | 11 => some .dmaError
  | 12 => some .reqTimeout
  | 13 => some .noMedium
  | 14 => some .busyTimeout
  | 15 => some .hardFailure
  | 16 => some .noViableMode
  | 17 => some .dmaDeclined
  | 18 => some .queueFull
  | 19 => some .illegalOp
  | 20 => some .invalidArg
  | 21 => some .notReady
  | _ => none

def codeVal : Code → Nat
  | .ok => 0
  | .cmdTimeout => 1
  | .cmdCrc => 2
  | .cmdRespErr => 3
  | .cmdHle => 4
  | .dataTimeout => 5
  | .dataCrc => 6
  | .dataStartBit => 7
  | .dataEndBit => 8
  | .fifoOverrun => 9
  | .fifoStarvation => 10
  | .dmaError => 11
  | .reqTimeout => 12
  | .noMedium => 13
  | .busyTimeout => 14
  | .hardFailure => 15
  | .noViableMode => 16
  | .dmaDeclined => 17
  | .queueFull => 18
  | .illegalOp => 19
  | .invalidArg => 20
  | .notReady => 21

/-- Words in pairs, as segments (R302). -/
def segsOf : List Word → List Seg
  | a :: l :: rest => ⟨a, l⟩ :: segsOf rest
  | _ => []

def segWords : List Seg → List Word
  | [] => []
  | g :: rest => g.addr :: g.len :: segWords rest

/-- The four bytes of a word, low byte first (R303). -/
def wordBytes (w : Word) : List Byte :=
  [BitVec.ofNat 8 (bits w 0 8), BitVec.ofNat 8 (bits w 8 8), BitVec.ofNat 8 (bits w 16 8), BitVec.ofNat 8 (bits w 24 8)]

/-- Bytes to words, low byte first, unused high bytes 0 (R303). -/
def packBytes : List Byte → List Word
  | a :: b :: c :: d :: rest =>
    BitVec.ofNat 32 (a.toNat + 2 ^ 8 * b.toNat + 2 ^ 16 * c.toNat + 2 ^ 24 * d.toNat) :: packBytes rest
  | [a, b, c] => [BitVec.ofNat 32 (a.toNat + 2 ^ 8 * b.toNat + 2 ^ 16 * c.toNat)]
  | [a, b] => [BitVec.ofNat 32 (a.toNat + 2 ^ 8 * b.toNat)]
  | [a] => [BitVec.ofNat 32 a.toNat]
  | [] => []

def unpackBytes : List Word → List Byte
  | [] => []
  | w :: rest => wordBytes w ++ unpackBytes rest

/-- Host-port packets (R300, R301). The operand words stay as they are: accepting or refusing them is the acceptance
step's (R401). -/
def decodePacket (ws : List Word) : Except DecodeError Instr :=
  match splitPacket ws with
  | .error e => .error e
  | .ok (p, ops) =>
    if p.rsv ≠ 0 then .error .reservedBits
    else match p.op with
      | 0x01 => .ok (.submit p.slot ops)
      | 0x02 => .ok (.setBusTiming p.slot ops)
      | 0x03 => .ok (.setClock p.slot ops)
      | 0x04 => .ok (.getCardPresent p.slot ops)
      | 0x05 => .ok (.tune p.slot ops)
      | 0x06 => .ok (.sdioIrqAck p.slot ops)
      | 0x07 => .ok (.controllerInit p.slot ops)
      | 0x20 | 0x21 | 0x22 | 0x23 | 0x24 | 0x25 | 0x26 | 0x27 | 0x28 | 0x29 | 0x2A
      | 0x30 | 0x31 | 0x32 | 0x33 | 0x38 | 0x39 | 0x40 | 0x41 | 0x42 | 0x43
      | 0x48 | 0x49 | 0x4A | 0x4B | 0x4C | 0x50 | 0x51 => .error (.internalOp p.op)
      | n => .error (.reservedOp n)

/-- Event words (R304, R319). -/
def decodeEvent (w : Word) : Except DecodeError Instr :=
  match bits w 0 8 with
  | 1 => .ok (.evCmdDone (BitVec.ofNat 24 (bits w 8 24)))
  | 2 => .ok (.evDataErr (BitVec.ofNat 24 (bits w 8 24)))
  | 3 => .ok (.evRxReady (BitVec.ofNat 24 (bits w 8 24)))
  | 4 => .ok (.evTxReady (BitVec.ofNat 24 (bits w 8 24)))
  | 5 => .ok (.evDataOver (BitVec.ofNat 24 (bits w 8 24)))
  | 6 => .ok (.evDmaDone (BitVec.ofNat 24 (bits w 8 24)))
  | 7 => .ok (.evCardDetect (BitVec.ofNat 24 (bits w 8 24)))
  | 8 => .ok (.evSdioIrq (BitVec.ofNat 24 (bits w 8 24)))
  | 9 => .ok (.evWatchdog (BitVec.ofNat 24 (bits w 8 24)))
  | _ => .error .badEventCode

/-- A record with no operand words. -/
def noOperands (i : Instr) (ops : List Word) : Except DecodeError Instr :=
  if ops.length = 0 then .ok i else .error .badLength

/-- The command of a request record: `CMDW` and `ARG` as R302 lays them out. -/
def cmdSpecOf (cmdw arg : Word) : CmdSpec :=
  ⟨BitVec.ofNat 6 (bits cmdw 0 6), arg, respOf (bits cmdw 6 2), bit cmdw 8⟩

/-- A request record's operands (log 3): the tag, `CMDW` with the origin in bit 12 (1: TUNING), `ARG` and, with `DATA`
set, `GEOM`, `NSG` and the segments as R302 lays them out. A record with no operand words has all of them 0. -/
def reqOpOf (slot : BitVec 4) (ops : List Word) : Except DecodeError ReqOp :=
  match ops with
  | [] => .ok ⟨0#32, slot, .host, cmdSpecOf 0#32 0#32, none, false⟩
  | seq :: cmdw :: arg :: rest =>
    if bits cmdw 13 19 ≠ 0 then .error .badOperand
    else
      let origin := if bit cmdw 12 then Origin.tuning else Origin.host
      if bit cmdw 9 then
        match rest with
        | geom :: nsg :: pairs =>
          if pairs.length ≠ 2 * nsg.toNat then .error .badLength
          else .ok ⟨seq, slot, origin, cmdSpecOf cmdw arg,
            some ⟨if bit cmdw 10 then .write else .read, BitVec.ofNat 16 (bits geom 0 16),
              BitVec.ofNat 16 (bits geom 16 16), segsOf pairs⟩, bit cmdw 11⟩
        | _ => .error .badLength
      else if bit cmdw 10 then .error .badOperand
      else if rest.length ≠ 0 then .error .badLength
      else .ok ⟨seq, slot, origin, cmdSpecOf cmdw arg, none, bit cmdw 11⟩
  | _ => .error .badLength

/-- One operand word below `n`; none stands for 0. -/
def smallOperand (n : Nat) (ops : List Word) : Except DecodeError Nat :=
  match ops with
  | [] => .ok 0
  | [w] => if w.toNat < n then .ok w.toNat else .error .badOperand
  | _ => .error .badLength

/-- A scatter list: `NSG` and the pairs (log 3). -/
def sgOf (ops : List Word) : Except DecodeError (List Seg) :=
  match ops with
  | [] => .ok []
  | nsg :: pairs => if pairs.length = 2 * nsg.toNat then .ok (segsOf pairs) else .error .badLength

/-- TUNE_START's operands (log 3): the tag, `MODE`, `CMD_INDEX` and `PLEN` as TUNE's first word has them (R303), and
the pattern words. DESIGN CHOICE, log 3: a record may give any `PLEN`, also 0 or more than `TUNE_BUF_LEN`, of which R43 and
R149 give no outcome, and TUNE_START begins the job with that pattern. -/
def tuneStartOf (slot : BitVec 4) (ops : List Word) : Except DecodeError Instr :=
  match ops with
  | [] => .ok (.tuneStart 0#32 slot 0#4 0#6 [])
  | tag :: w :: pat =>
    if bits w 4 4 ≠ 0 ∨ bits w 14 2 ≠ 0 then .error .badOperand
    else if pat.length ≠ (bits w 16 16 + 3) / 4 then .error .badLength
    else .ok (.tuneStart tag slot (BitVec.ofNat 4 (bits w 0 4)) (BitVec.ofNat 6 (bits w 8 6))
      ((unpackBytes pat).take (bits w 16 16)))
  | _ => .error .badLength

/-- Which of two directions a 0 or 1 names (the `WRITE` bit's values, R302). -/
def dirOf (n : Nat) : Dir := if n = 1 then .write else .read

def dirVal : Dir → Nat
  | .read => 0
  | .write => 1

/-- The micro-operation with opcode `op`, slot field `slot` and operand words `ops` (R301, log 3). -/
def microOf (op : Nat) (slot : BitVec 4) (ops : List Word) : Except DecodeError Instr :=
  match op with
  | 0x20 => (reqOpOf slot ops).map .enqueue
  | 0x21 => noOperands .dispatchNext ops
  | 0x22 => (reqOpOf slot ops).map .dispatch
  | 0x23 => match ops with
    | [] => .ok (.onEvent 1#32)
    | [w] => .ok (.onEvent w)
    | _ => .error .badLength
  | 0x24 => noOperands .settle ops
  | 0x25 => noOperands .complete ops
  | 0x26 => noOperands .cardScan ops
  | 0x27 => noOperands .issueStop ops
  | 0x28 => noOperands (.updateClock slot) ops
  | 0x29 => noOperands .runCtl ops
  | 0x2A => noOperands .dpuRun ops
  | 0x30 => (sgOf ops).map .dmaPrepare
  | 0x31 => (smallOperand 2 ops).map fun n => .dmaStart (dirOf n)
  | 0x32 => noOperands .dmaStop ops
  | 0x33 => noOperands .dmaReset ops
  | 0x38 => (smallOperand 2 ops).map fun n => .pioPull (decide (n = 1))
  | 0x39 => noOperands .pioPush ops
  | 0x40 => tuneStartOf slot ops
  | 0x41 => noOperands .tuneStep ops
  | 0x42 => noOperands .tuneSelect ops
  | 0x43 => match smallOperand 256 ops with
    | .error e => .error e
    | .ok n => match codeOf n with
      | some c => .ok (.tuneFinish c)
      | none => .error .badOperand
  | 0x48 => noOperands .resetFifo ops
  | 0x49 => noOperands .resetController ops
  | 0x4A => noOperands .waitNotBusy ops
  | 0x4B => noOperands .recover ops
  | 0x4C => noOperands .watchdogRecover ops
  | 0x50 => noOperands .irqDispatch ops
  | 0x51 => noOperands .watchdogCheck ops
  | 0x01 | 0x02 | 0x03 | 0x04 | 0x05 | 0x06 | 0x07 => .error (.hostOp op)
  | n => .error (.reservedOp n)

/-- Whether the micro-operation with opcode `op` has a slot field. -/
def slotField (op : Nat) : Bool :=
  decide (op = 0x20 ∨ op = 0x22 ∨ op = 0x28 ∨ op = 0x40)

/-- Trace records that name a micro-operation (R318, log 3). -/
def decodeMicro (ws : List Word) : Except DecodeError Instr :=
  match splitPacket ws with
  | .error e => .error e
  | .ok (p, ops) =>
    if p.rsv ≠ 0 then .error .reservedBits
    else if slotField p.op = false ∧ p.slot ≠ 0#4 then .error .reservedBits
    else microOf p.op p.slot ops

/-- The decoder: words at a port. -/
def decode (p : Port) (ws : List Word) : Except DecodeError Instr :=
  match p with
  | .host => decodePacket ws
  | .trace => decodeMicro ws
  | .event =>
    match ws with
    | [] => .error .truncated
    | w :: _ => decodeEvent w

/-- Where an instruction's words are read. -/
def Instr.port : Instr → Port
  | .submit _ _ => .host
  | .setBusTiming _ _ => .host
  | .setClock _ _ => .host
  | .getCardPresent _ _ => .host
  | .tune _ _ => .host
  | .sdioIrqAck _ _ => .host
  | .controllerInit _ _ => .host
  | .enqueue _ => .trace
  | .dispatchNext => .trace
  | .dispatch _ => .trace
  | .onEvent _ => .trace
  | .settle => .trace
  | .complete => .trace
  | .cardScan => .trace
  | .issueStop => .trace
  | .updateClock _ => .trace
  | .runCtl => .trace
  | .dpuRun => .trace
  | .dmaPrepare _ => .trace
  | .dmaStart _ => .trace
  | .dmaStop => .trace
  | .dmaReset => .trace
  | .pioPull _ => .trace
  | .pioPush => .trace
  | .tuneStart _ _ _ _ _ => .trace
  | .tuneStep => .trace
  | .tuneSelect => .trace
  | .tuneFinish _ => .trace
  | .resetFifo => .trace
  | .resetController => .trace
  | .waitNotBusy => .trace
  | .recover => .trace
  | .watchdogRecover => .trace
  | .irqDispatch => .trace
  | .watchdogCheck => .trace
  | .evCmdDone _ => .event
  | .evDataErr _ => .event
  | .evRxReady _ => .event
  | .evTxReady _ => .event
  | .evDataOver _ => .event
  | .evDmaDone _ => .event
  | .evCardDetect _ => .event
  | .evSdioIrq _ => .event
  | .evWatchdog _ => .event

/-! ### The encoder -/

/-- An operation word (R300). -/
def opwWord (op slot nwords : Nat) : Word :=
  BitVec.ofNat 32 (op + 2 ^ 8 * slot + 2 ^ 16 * nwords)

/-- A packet or record: the operation word and the operand words. -/
def packet (op : Nat) (slot : BitVec 4) (ops : List Word) : List Word :=
  opwWord op slot.toNat ops.length :: ops

/-- `CMDW.WRITE` of a data transfer (R302). -/
def writeVal : Option DataSpec → Nat
  | none => 0
  | some d => dirVal d.dir

/-- The origin bit of a request record (log 3). -/
def originVal : Origin → Nat
  | .host => 0
  | .tuning => 1

/-- `CMDW` (R302), with the origin in bit 12 (log 3). -/
def cmdwVal (r : ReqOp) : Nat :=
  r.cmd.index.toNat + 2 ^ 6 * respVal r.cmd.resp + 2 ^ 8 * bitVal r.cmd.crc
    + 2 ^ 9 * bitVal r.data.isSome
    + 2 ^ 10 * writeVal r.data
    + 2 ^ 11 * bitVal r.stopFlag
    + 2 ^ 12 * originVal r.origin

/-- The operand words of a request record (log 3). -/
def reqWords (r : ReqOp) : List Word :=
  r.seq :: BitVec.ofNat 32 (cmdwVal r) :: r.cmd.arg ::
    (match r.data with
     | none => []
     | some d => BitVec.ofNat 32 (d.blksz.toNat + 2 ^ 16 * d.blocks.toNat) :: BitVec.ofNat 32 d.sg.length
        :: segWords d.sg)

/-- An event word (R304). -/
def eventWord (code : Nat) (payload : BitVec 24) : Word :=
  BitVec.ofNat 32 (code + 2 ^ 8 * payload.toNat)

/-- The words of a well-formed instruction. -/
def encode : Instr → List Word
  | .submit s ws => packet 0x01 s ws
  | .setBusTiming s ws => packet 0x02 s ws
  | .setClock s ws => packet 0x03 s ws
  | .getCardPresent s ws => packet 0x04 s ws
  | .tune s ws => packet 0x05 s ws
  | .sdioIrqAck s ws => packet 0x06 s ws
  | .controllerInit s ws => packet 0x07 s ws
  | .enqueue r => packet 0x20 r.slot (reqWords r)
  | .dispatchNext => packet 0x21 0#4 []
  | .dispatch r => packet 0x22 r.slot (reqWords r)
  | .onEvent w => packet 0x23 0#4 [w]
  | .settle => packet 0x24 0#4 []
  | .complete => packet 0x25 0#4 []
  | .cardScan => packet 0x26 0#4 []
  | .issueStop => packet 0x27 0#4 []
  | .updateClock s => packet 0x28 s []
  | .runCtl => packet 0x29 0#4 []
  | .dpuRun => packet 0x2A 0#4 []
  | .dmaPrepare sg => packet 0x30 0#4 (BitVec.ofNat 32 sg.length :: segWords sg)
  | .dmaStart d => packet 0x31 0#4 [BitVec.ofNat 32 (dirVal d)]
  | .dmaStop => packet 0x32 0#4 []
  | .dmaReset => packet 0x33 0#4 []
  | .pioPull b => packet 0x38 0#4 [BitVec.ofNat 32 (bitVal b)]
  | .pioPush => packet 0x39 0#4 []
  | .tuneStart tag s mode idx pat => packet 0x40 s
      (tag :: BitVec.ofNat 32 (mode.toNat + 2 ^ 8 * idx.toNat + 2 ^ 16 * pat.length) :: packBytes pat)
  | .tuneStep => packet 0x41 0#4 []
  | .tuneSelect => packet 0x42 0#4 []
  | .tuneFinish c => packet 0x43 0#4 [BitVec.ofNat 32 (codeVal c)]
  | .resetFifo => packet 0x48 0#4 []
  | .resetController => packet 0x49 0#4 []
  | .waitNotBusy => packet 0x4A 0#4 []
  | .recover => packet 0x4B 0#4 []
  | .watchdogRecover => packet 0x4C 0#4 []
  | .irqDispatch => packet 0x50 0#4 []
  | .watchdogCheck => packet 0x51 0#4 []
  | .evCmdDone p => [eventWord 1 p]
  | .evDataErr p => [eventWord 2 p]
  | .evRxReady p => [eventWord 3 p]
  | .evTxReady p => [eventWord 4 p]
  | .evDataOver p => [eventWord 5 p]
  | .evDmaDone p => [eventWord 6 p]
  | .evCardDetect p => [eventWord 7 p]
  | .evSdioIrq p => [eventWord 8 p]
  | .evWatchdog p => [eventWord 9 p]

/-! ### Words numbered as spec/opcode_table.json numbers them -/

/-- Word `w` as the words a port reads: its 32-bit words, low word first, as many as its operation word's `NWORDS`
asks for; every bit above the table's is 0. -/
def tableWords (w : Nat) : List Word :=
  BitVec.ofNat 32 w ::
    (List.range (w / 2 ^ 16 % 2 ^ 16)).map fun i => BitVec.ofNat 32 (w / 2 ^ (32 * (i + 1)))

/-- The port of a table row's word (log 4): the table gives the event words and the internal rows 8 bits, the
host-port rows 16. -/
def tablePort (nbits w : Nat) : Port :=
  if 1 ≤ w % 2 ^ 8 ∧ w % 2 ^ 8 ≤ 9 then
    if nbits ≤ 8 ∨ 8 ≤ w % 2 ^ 8 then .event else .host
  else .trace

/-- The instruction the decoder reads from a row's word. -/
def decodeTableWord (nbits w : Nat) : Option Instr :=
  match decode (tablePort nbits w) (tableWords w) with
  | .ok i => some i
  | .error _ => none

end Sys2Proof
end

