-- ==== Sys2Proof/Config.lean ====
section
/-! DEFINITION. The parameters of an engine (00_scope.md section 5) and the free values of the spec. -/

namespace Sys2Proof

/-- A window of mapped host memory (20_memory.md R202). -/
structure Region where
  base : Nat
  size : Nat
  deriving DecidableEq, Repr, Inhabited

/-- The parameters R20 to R40, R42, R51 and the predicate `mapped` of R202. Durations are in milliseconds. -/
structure Config where
  nslots            : Nat
  w                 : Nat
  clkSrcHz          : Nat
  fifoDepth         : Nat
  dmaPresent        : Bool
  ndesc             : Nat
  descMaxLen        : Nat
  dmaAlign          : Nat
  dmaMinBytes       : Nat
  ringBase          : Nat
  fineTune          : Bool
  /-- `MIN_RUN(div)` for `div` = 0, 1, …; a divider past the end of the list has the default 1. -/
  minRun            : List Nat
  tuneRetryMax      : Nat
  drvSeq            : List Nat
  tunePrevHeuristic : Bool
  stopRetryMax      : Nat
  reqTimeout        : Nat
  resetTimeout      : Nat
  busyTimeout       : Nat
  cmdAcceptTimeout  : Nat
  qdepth            : Nat
  tickUs            : Nat
  maxSg             : Nat
  mapped            : List Region
  deriving DecidableEq, Repr, Inhabited

namespace Config

/-- The defaults of R20 to R51. DESIGN CHOICE, log 12: `ringBase` has no default; the value is the one the spec's
examples use. DESIGN CHOICE, log 10: all of host memory is mapped. -/
def standard : Config where
  nslots            := 1
  w                 := 4
  clkSrcHz          := 100000000
  fifoDepth         := 32
  dmaPresent        := true
  ndesc             := 256
  descMaxLen        := 4096
  dmaAlign          := 4
  dmaMinBytes       := 16
  ringBase          := 0x10000
  fineTune          := false
  minRun            := []
  tuneRetryMax      := 0
  drvSeq            := []
  tunePrevHeuristic := false
  stopRetryMax      := 2
  reqTimeout        := 20000
  resetTimeout      := 500
  busyTimeout       := 500
  cmdAcceptTimeout  := 500
  qdepth            := 16
  tickUs            := 1
  maxSg             := 128
  mapped            := [⟨0, 2 ^ 32⟩]

/-- `ADDR_W` (R30): host addresses have 32 bits. -/
def addrSpace : Nat := 2 ^ 32

/-- `DATA_OFFSET` (R41). -/
def dataOffset : Nat := 0x200

/-- `TUNE_BUF_LEN` (R43). -/
def tuneBufLen : Nat := 128

/-- The ranges R20 to R51 state, and that the arena lies in the address space (R551). DESIGN CHOICE, log 29: the spec
states no range for QDEPTH, MAX_SG, TICK_US and the four timeouts (R36 to R40, R42, R51); here each is above 0. -/
def Valid (c : Config) : Prop :=
  1 ≤ c.nslots ∧ c.nslots ≤ 16 ∧
  (c.w = 2 ∨ c.w = 4 ∨ c.w = 8) ∧
  0 < c.clkSrcHz ∧ c.clkSrcHz < 2 ^ 32 ∧
  8 ≤ c.fifoDepth ∧ c.fifoDepth ≤ 4096 ∧
  1 ≤ c.ndesc ∧ c.ndesc ≤ 1024 ∧
  1 ≤ c.descMaxLen ∧ c.descMaxLen ≤ 8191 ∧ c.descMaxLen % c.dmaAlign = 0 ∧
  0 < c.dmaAlign ∧ c.dmaAlign % c.w = 0 ∧
  c.ringBase % 16 = 0 ∧ c.ringBase + 16 * c.ndesc ≤ addrSpace ∧
  (∀ m ∈ c.minRun, 1 ≤ m ∧ m ≤ if c.fineTune then 16 else 8) ∧
  c.tuneRetryMax ≤ 7 ∧ c.tuneRetryMax ≤ c.drvSeq.length ∧ (∀ d ∈ c.drvSeq, d < 16) ∧
  c.stopRetryMax ≤ 7 ∧
  0 < c.reqTimeout ∧ 0 < c.resetTimeout ∧ 0 < c.busyTimeout ∧ 0 < c.cmdAcceptTimeout ∧
  0 < c.qdepth ∧ 0 < c.tickUs ∧ 0 < c.maxSg

/-- Which agent steps once the agenda is used up: a free value (93 I25, log 1). Nothing constrains it. -/
opaque schedule : Nat → Stimulus

/-- A byte HOST writes in a window it must not, or reads in a buffer that is the engine's or at an unmapped address (93 I20,
log 15). Nothing constrains it. -/
opaque freeByte : Nat → Byte

end Config

end Sys2Proof
end

