-- ==== Sys2Proof/Machine/State.lean ====
section
/-! DEFINITION. The state of one controller instance as plain data (10_state.md): the register block, the internal
state `st`, the environment's signals `env`, host memory, and the model's own bookkeeping `ctl`. -/

namespace Sys2Proof.Machine

/-- The stored registers of the block (10_state.md section 2). `MINTSTS`, `STATUS`, `CDETECT`, `HCON`, `DSCADDR` and
the `FSM` field of `IDSTS` are computed from other state; `PLDMND` and `DATA` hold nothing of their own. -/
structure Regs where
  ctrl     : Word
  clkdiv   : Word
  clkena   : Word
  tmout    : Word
  ctype    : Word
  blksiz   : Word
  bytcnt   : Word
  intmask  : Word
  cmdarg   : Word
  cmd      : Word
  resp0    : Word
  resp1    : Word
  resp2    : Word
  resp3    : Word
  rintsts  : Word
  fifoth   : Word
  uhs      : Word
  bmod     : Word
  dbaddr   : Word
  idsts    : Word
  idinten  : Word
  smplCtrl : Word
  deriving DecidableEq, Repr, Inhabited

/-- The names of the 32-bit registers (R102). -/
inductive Reg where
  | CTRL | CLKDIV | CLKENA | TMOUT | CTYPE | BLKSIZ | BYTCNT | INTMASK | CMDARG | CMD
  | RESP0 | RESP1 | RESP2 | RESP3 | MINTSTS | RINTSTS | STATUS | FIFOTH | CDETECT | HCON
  | UHS_REG | BMOD | PLDMND | DBADDR | IDSTS | IDINTEN | DSCADDR | SMPL_CTRL
  deriving DecidableEq, Repr, Inhabited

/-- Command-phase states (R140). -/
inductive CState where
  | cIdle | cIssuing | cStop | cRecovery
  deriving DecidableEq, Repr, Inhabited

/-- Data-phase states (R140). -/
inductive DState where
  | dIdle | dXfer | dBusy | dRecovery
  deriving DecidableEq, Repr, Inhabited

/-- How the active request's data move (R141). -/
inductive Path where
  | none | dma | pio
  deriving DecidableEq, Repr, Inhabited

/-- A Request record (R142): what was asked, and its result fields. -/
structure Request extends ReqOp where
  resp0    : Word
  resp1    : Word
  resp2    : Word
  resp3    : Word
  stopResp : Word
  cmdErr   : Option Code
  dataErr  : Option Code
  stopErr  : Option Code
  reqErr   : Option Code
  fatalErr : Option Code
  nomedium : Option Code
  deriving DecidableEq, Repr, Inhabited

/-- The active request with its per-request flags (R141). -/
structure Active extends Request where
  cmdComplete   : Bool
  stopIssued    : Bool
  stopDone      : Bool
  stopTries     : Nat
  dbusyChecked  : Bool
  cbusyChecked  : Bool
  sbusyChecked  : Bool
  dataOk        : Bool
  recovPending  : Bool
  recovered     : Bool
  path          : Path
  dmaDone       : Bool
  bytesDone     : Nat
  pioLen        : Nat
  txdone        : Bool
  deriving DecidableEq, Repr, Inhabited

/-- A slot's tuning result (R143). -/
structure Tuned where
  valid  : Bool
  mode   : BitVec 4
  phase  : Nat
  bitmap : BitVec 16
  deriving DecidableEq, Repr, Inhabited

/-- Per-slot state (R143). -/
structure Slot where
  queue     : List Request
  present   : Bool
  mode      : BitVec 4
  width     : BitVec 4
  needInit  : Bool
  tuned     : Tuned
  prevPhase : Option Nat
  smpl      : Word
  sdioEn    : Bool
  deriving DecidableEq, Repr, Inhabited

/-- A control operation with its operands (R144, R401). -/
inductive CtlOp where
  | setBusTiming (mode width : BitVec 4)
  | setClock (rate : Word)
  | tune (mode : BitVec 4) (cmdIndex : BitVec 6) (pattern : List Byte)
  | sdioIrqAck
  | controllerInit
  deriving DecidableEq, Repr, Inhabited

/-- An entry of `st.ctlq` (R144). -/
structure CtlEntry where
  op   : CtlOp
  tag  : Word
  slot : BitVec 4
  deriving DecidableEq, Repr, Inhabited

/-- The request watchdog (R144, R745). -/
structure Watchdog where
  armed    : Bool
  deadline : Nat
  seq      : Word
  deriving DecidableEq, Repr, Inhabited

/-- The descriptors built by `prepare` (R145). -/
structure Chain where
  count : Nat
  total : Nat
  deriving DecidableEq, Repr, Inhabited

/-- The PIO cursor (R145). -/
structure Pio where
  seg       : Nat
  off       : Nat
  remaining : Nat
  deriving DecidableEq, Repr, Inhabited

/-- States of the DMA engine (R146). -/
inductive DmacState where
  | stopped | running | suspended
  deriving DecidableEq, Repr, Inhabited

/-- Who owns the descriptor arena (R146). -/
inductive Owner where
  | block | engine
  deriving DecidableEq, Repr, Inhabited

/-- A descriptor the DMA engine holds (R561). -/
structure Desc where
  des0 : Word
  bs1  : Nat
  bap1 : Word
  bap2 : Word
  deriving DecidableEq, Repr, Inhabited

/-- The DMA engine (R146, R561). -/
structure Dmac where
  state : DmacState
  cur   : Word
  owner : Owner
  dir   : Dir
  moved : Nat
  desc  : Option Desc
  deriving DecidableEq, Repr, Inhabited

/-- The tuning context (R149). -/
structure TuneCtx where
  tag       : Word
  slot      : BitVec 4
  mode      : BitVec 4
  cmdIndex  : BitVec 6
  pattern   : List Byte
  idx       : Nat
  bitmap    : BitVec 16
  scan      : Nat
  savedSmpl : Word
  await     : Bool
  deriving DecidableEq, Repr, Inhabited

/-- Kinds of completion records (R312). -/
inductive Kind where
  | req | ctl | cd | sdio
  deriving DecidableEq, Repr, Inhabited

/-- A completion or notification record (R312). -/
structure Completion where
  kind     : Kind
  tag      : Word
  slot     : Nat
  code     : Code
  resp0    : Word
  resp1    : Word
  resp2    : Word
  resp3    : Word
  stopResp : Word
  bytes    : Nat
  payload  : Word
  deriving DecidableEq, Repr, Inhabited

/-- The internal state of the engine, the spec's `st` (10_state.md section 3). -/
structure Engine where
  cst      : CState
  dst      : DState
  active   : Option Active
  slots    : List Slot
  rr       : Nat
  curSlot  : Option Nat
  clkRate  : Nat
  clkDiv   : Nat
  fatal    : Bool
  tuning   : Bool
  ctlq     : List CtlEntry
  nextSeq  : Word
  wd       : Watchdog
  inited   : Bool
  baseMask : Word
  chain    : Option Chain
  pio      : Pio
  partBuf  : List Byte
  dmac     : Dmac
  fifo     : List Beat
  evq      : List Word
  tctx     : Option TuneCtx
  tbuf     : List Byte
  now      : Nat
  cport    : List Completion
  dpuSched : Bool
  deriving DecidableEq, Repr, Inhabited

/-- A command BUS has accepted and whose `CMD_DONE` has not come, with what BUS latched for it (R760). -/
structure WireCmd where
  cmd    : Word
  arg    : Word
  smpl   : Word
  blksiz : Word
  bytcnt : Word
  ctype  : Word
  uhs    : Word
  /-- Its response type signals busy: a SHORT_BUSY command or the stop (R767, log 16). -/
  signals : Bool
  deriving DecidableEq, Repr, Inhabited

/-- The data transfer on the wire (R762 to R764): `total` bytes, `moved` FIFO words so far, `sent` bytes on the wire. -/
structure WireXfer where
  slot    : Nat
  dir     : Dir
  total   : Nat
  moved   : Nat
  sent    : Nat
  smpl    : Word
  failed  : Bool
  aborted : Bool
  /-- The `CMD_DONE` of its command carried `RTO` or `RE` and no word has moved since: BUS may never start it (R762), and one
  that had moved words before may or may not go on (DESIGN CHOICE, log 16). -/
  doubtful : Bool
  deriving DecidableEq, Repr, Inhabited

/-- The environment's state: the signals of R155, R156, R770 and what the BUS contract makes BUS remember
(60_exceptions.md section 5). -/
structure Env where
  present   : List Bool
  busy      : List Bool
  lastSlot  : Option Nat
  cmds      : List WireCmd
  xfer      : Option WireXfer
  effDiv    : Word
  effEna    : Word
  /-- Per slot: a command whose response signals busy has ended and no other has been accepted since, so that the card
  may go busy (R767, log 16). -/
  signalled : List Bool
  deriving DecidableEq, Repr, Inhabited

/-- What a poll waits for (R47 and its callers). -/
inductive PollCond where
  /-- `CMD[31] = 0` (R412, R460, R692). -/
  | startClear
  /-- The `CTRL` reset bits of the mask read 0 (R684, R685). -/
  | resetClear (mask : Word)
  /-- `CTRL[2] = 0` and `BMOD[0] = 0` (R566). -/
  | dmaResetClear
  /-- `IDSTS[16:13] = 0` (R565). -/
  | dmaStopped
  /-- `STATUS[9] = 0` (R686). -/
  | notBusy
  deriving DecidableEq, Repr, Inhabited

/-- What a poll's expiry does. -/
inductive PollEnd where
  /-- `raise FATAL` (R724). -/
  | fatal
  /-- Answers BUSY_TIMEOUT (R686). -/
  | busy
  /-- Answers HARD_FAILURE without raising (R565, `DMA_STOP_NOFAIL`). -/
  | noFail
  deriving DecidableEq, Repr, Inhabited

/-- What the DPU still has to do, outermost last: the model's own form of "a poll waits while other agents step"
(R451). A micro-operation is a list of these. -/
inductive Work where
  /-- Ends a micro-operation that a trace named. -/
  | halt
  /-- The loop of DPU_RUN (R450) and the settle pass (R490); each turn is a step of its own (R451). -/
  | dpuLoop
  | settleLoop
  /-- A poll about to begin, and one that has begun and ends at tick `deadline` (R47). -/
  | await (c : PollCond) (e : PollEnd)
  | poll (c : PollCond) (deadline : Nat) (e : PollEnd)
  /-- Parts of 42_dma.md R565, R566 and 45_recovery.md R684 to R686. -/
  | dmaOff
  | dmaRelease
  | assertDmaReset
  | assertReset (mask : Word)
  | clearPartBuf
  | busyAgain
  /-- Parts of R412 and R692. -/
  | writeUpdateClock (slot : BitVec 4)
  | writeStop
  /-- Slot manager and dispatch (R456, R460). -/
  | dispatchNext
  | dispatch (r : Request)
  | writeCommand
  /-- ON_EVENT (R465) and the move to DRecovery (R472, R491, R492). -/
  | event (w : Word)
  | toDRecovery
  /-- Ends of the settle firings R491, R493, R494, R496, R499, R500. -/
  | wdEnd
  | dataBusyEnd
  | dataEnd
  | cmdBusyEnd
  | stopBusyEnd
  | recoverEnd
  | recovered
  /-- FATAL_FLUSH after the DMA stop (R515). -/
  | flushRest
  /-- CARD_SCAN (R505): the whole scan, the slots still to look at, the end of a removed slot's request, the rest of
  a removal. -/
  | cardScan
  | scan (cd : Word) (todo : List Nat)
  | cancelActive
  | removed (slot : Nat)
  /-- RUN_CTL (R417) and parts of its operations (R408, R411, R811). -/
  | runCtl
  | setTiming (slot : BitVec 4) (mode width : BitVec 4)
  | clkGate (slot : BitVec 4) (on : Bool)
  | clkSetDiv (div : Nat)
  | clkStopped
  | clkDone (div : Nat)
  | initRegs
  | ctlEnd (tag : Word) (slot : BitVec 4) (payload : Word)
  /-- TUNE_STEP (R634). -/
  | tuneStep
  deriving DecidableEq, Repr, Inhabited

/-- An acceptance triple (R400). -/
structure Acceptance where
  status : Code
  tag    : Word
  value  : Word
  deriving DecidableEq, Repr, Inhabited

/-- The model's own bookkeeping. Not the spec's state, but for `accepted`, the triple HOST received last (R400). -/
structure Control where
  /-- What the DPU still has to do; empty when it is between runs. -/
  dpu      : List Work
  /-- The code and the count the last DPU micro-operation returned (45_recovery.md return convention, R603). -/
  ret      : Code
  retCount : Nat
  /-- The scheduler lets another agent step before each poll evaluation (log 5). -/
  yields   : Bool
  /-- The stimuli still to come (log 1). -/
  agenda   : List Stimulus
  accepted : Acceptance
  /-- What the last register read by offset returned (log 26). -/
  busData  : Beat
  /-- What HOST's last read of host memory returned (R201). -/
  hostData : List Byte
  /-- Buffers of DMA requests completed HARD_FAILURE since the last CONTROLLER_INIT that completed (R790 (c), log 15). -/
  kept     : List Seg
  /-- Counter the free values of Config are applied to (log 1, log 15). -/
  free     : Nat
  deriving DecidableEq, Repr, Inhabited

/-- The whole machine. -/
structure State where
  cfg  : Config
  regs : Regs
  st   : Engine
  env  : Env
  mem  : List Host.Cell
  ctl  : Control
  deriving DecidableEq, Repr, Inhabited

/-- Model faults (60_exceptions.md R723): states the spec says the engine or its environment never reaches. All are
safe: the model stops. -/
inductive Fault where
  /-- A `DATA` read with an empty FIFO (R830). Raised by the PIO operations and by a register read. -/
  | dataPortEmpty
  /-- A `DATA` write with a full FIFO (R830). -/
  | dataPortFull
  /-- A `DATA` access while `CTRL.DMA_ENABLE = 1` (R830). -/
  | dataPortDmaEnabled
  /-- The DPU accesses an unmapped host address (R202, R551). -/
  | unmapped (addr : Nat)
  /-- A PIO drain leaves bytes outstanding without a data error (R604). -/
  | pioDrainShort
  /-- The PIO cursor is past the end of the scatter list or of the tuning buffer (R601): no address exists. -/
  | pioCursor
  /-- The DPU writes the descriptor arena while the DMA engine owns it, or `prepare` is performed then (R224,
  R157 (c)). -/
  | arenaOwned
  /-- HOST writes the descriptor arena while the DMA engine owns it (R224). The breach is HOST's, and no agent of the
  engine faults (R790, R791, log 15). Raised by HOST's memory write only. -/
  | hostWroteArena
  /-- The DMA engine would own the arena with no active request on the DMA path (R157 (b)): DMA_START without one, or
  COMPLETE, named or as a settle firing, while it owns the arena. -/
  | ownerWithoutRequest
  /-- DISPATCH while a request is active (R157 (a), R520). -/
  | requestActive
  /-- A slot number of NSLOTS or more where a request's slot is meant (R142). -/
  | noSuchSlot
  /-- A micro-operation whose operand is the active request, with none (R510, R690, R692). -/
  | noActiveRequest
  /-- A micro-operation whose operand is the tuning context, with none (R637, R647). -/
  | noTuningJob
  /-- A BUS step outside its contract (R769). -/
  | busContract
  /-- A reserved event word in the event queue (R319). -/
  | badEventWord
  /-- A trace names a DPU micro-operation while the DPU is inside another one (R221, R735). -/
  | dpuBusy
  deriving DecidableEq, Repr, Inhabited

/-- What the model has no meaning for. All are safe: the model stops. -/
inductive Refusal where
  /-- An instruction whose arm is not written. Raised by the dispatcher only. -/
  | notModelled (mnemonic : String)
  /-- Fewer words than `NWORDS` says: not a packet (R300). -/
  | truncatedPacket
  /-- A trace record that names no micro-operation with operands it can take (R318, log 3). -/
  | badTraceRecord
  /-- A register access of another width or alignment than R205 allows, or at an offset of 0x400 or more, outside the register
  space of R102 (DESIGN CHOICE, log 26). -/
  | registerAccess
  deriving DecidableEq, Repr, Inhabited

/-- The outcome of a step. -/
abbrev Res := Host.Outcome State Fault Refusal

/-- A slot at reset (R143). -/
def Slot.reset : Slot where
  queue     := []
  present   := false
  mode      := 0#4
  width     := 1#4
  needInit  := true
  tuned     := ⟨false, 0#4, 0, 0#16⟩
  prevPhase := none
  smpl      := 0#32
  sdioEn    := false

/-- The register block at reset (10_state.md section 2). -/
def Regs.reset (c : Config) : Regs where
  ctrl     := 0#32
  clkdiv   := 0#32
  clkena   := 0#32
  tmout    := 0xFFFFFF40#32
  ctype    := 0#32
  blksiz   := 0x200#32
  bytcnt   := 0x200#32
  intmask  := 0#32
  cmdarg   := 0#32
  cmd      := 0#32
  resp0    := 0#32
  resp1    := 0#32
  resp2    := 0#32
  resp3    := 0#32
  rintsts  := 0#32
  fifoth   := BitVec.ofNat 32 ((c.fifoDepth - 1) * 2 ^ 16)
  uhs      := 0#32
  bmod     := 0#32
  dbaddr   := 0#32
  idsts    := 0#32
  idinten  := 0#32
  smplCtrl := 0#32

/-- The internal state at reset (R800, 10_state.md section 3). -/
def Engine.reset (c : Config) : Engine where
  cst      := .cIdle
  dst      := .dIdle
  active   := none
  slots    := List.replicate c.nslots Slot.reset
  rr       := c.nslots - 1
  curSlot  := none
  clkRate  := 0
  clkDiv   := 0
  fatal    := false
  tuning   := false
  ctlq     := []
  nextSeq  := 0#32
  wd       := ⟨false, 0, 0#32⟩
  inited   := false
  baseMask := 0#32
  chain    := none
  pio      := ⟨0, 0, 0⟩
  partBuf  := []
  dmac     := ⟨.stopped, 0#32, .block, .read, 0, none⟩
  fifo     := []
  evq      := []
  tctx     := none
  tbuf     := List.replicate Config.tuneBufLen 0#8
  now      := 0
  cport    := []
  dpuSched := false

/-- The environment when a run begins. DESIGN CHOICE, log 11: the spec gives it no reset value (R155, R156). -/
def Env.reset (c : Config) : Env where
  present   := List.replicate c.nslots false
  busy      := List.replicate c.nslots false
  lastSlot  := none
  cmds      := []
  xfer      := none
  effDiv    := 0#32
  effEna    := 0#32
  signalled := List.replicate c.nslots false

/-- The model's own bookkeeping when a run begins. DESIGN CHOICE, log 11. -/
def Control.reset : Control where
  dpu      := []
  ret      := .ok
  retCount := 0
  yields   := false
  agenda   := []
  accepted := ⟨.ok, 0#32, 0#32⟩
  busData  := 0#64
  hostData := []
  kept     := []
  free     := 0

/-- The machine with parameters `c` right after engine reset (R800). Memory lists nothing (log 9). -/
def State.init (c : Config) : State where
  cfg  := c
  regs := Regs.reset c
  st   := Engine.reset c
  env  := Env.reset c
  mem  := []
  ctl  := Control.reset

/-- The machine right after reset, with the parameters' default values (log 12). -/
def State.reset : State := State.init Config.standard

end Sys2Proof.Machine
end

