-- ==== Sys2Proof/Machine/Ops.lean ====
section
/-! DEFINITION. The shared operations: host memory, the FIFO, the register block, slots, events, completion records,
and the engine's counterpart of taking an exception, `raiseFatal` (60_exceptions.md R724; the engine has no traps,
R722). -/

namespace Sys2Proof.Machine

/-! ### Outcomes -/

/-- Goes on with `f` from a next state; a stop stays a stop. -/
def Res.andThen (r : Res) (f : State → Res) : Res :=
  match r with
  | .next s => f s
  | .fault e => .fault e
  | .refused e => .refused e

/-! ### Values of the parameters -/

/-- `ticks(T)` for a duration in milliseconds (R42, R746). -/
def ticks (c : Config) (ms : Nat) : Nat := (ms * 1000 + (c.tickUs - 1)) / c.tickUs

/-- `NPH` (R31). -/
def nph (c : Config) : Nat := if c.fineTune then 16 else 8

/-- `MIN_RUN(div)` (R32). -/
def minRunAt (c : Config) (div : Nat) : Nat := c.minRun.getD div 1

/-- `ceil(a / b)` (R48). -/
def ceilDiv (a b : Nat) : Nat := (a + b - 1) / b

/-- Bits `s` for `s < NSLOTS`. -/
def slotMask (c : Config) : Word := BitVec.ofNat 32 (2 ^ c.nslots - 1)

/-- Bit `i` of a register value. -/
def bitAt (i : Nat) : Word := BitVec.ofNat 32 (2 ^ i)

/-- Whether any bit of `mask` is 1 in `v`. -/
def anyBit (v mask : Word) : Bool := decide (v &&& mask ≠ 0#32)

/-! ### Bytes, little-endian (R203, R204) -/

/-- The low `n` bytes of `v`, low byte first. -/
def leBytes : Nat → Nat → List Byte
  | 0, _ => []
  | n + 1, v => BitVec.ofNat 8 v :: leBytes n (v / 256)

/-- The value of bytes, low byte first. -/
def leVal : List Byte → Nat
  | [] => 0
  | b :: rest => b.toNat + 256 * leVal rest

/-- A FIFO word of the bytes given (R204). -/
def beatOf (bs : List Byte) : Beat := BitVec.ofNat 64 (leVal bs)

/-- The `n` low bytes of a FIFO word (R204). -/
def beatBytes (n : Nat) (b : Beat) : List Byte := leBytes n b.toNat

/-! ### Host memory (20_memory.md) -/

/-- Host memory: the bytes that differ from what an unlisted address reads as, by rising address. -/
abbrev Memory := List Host.Cell

namespace Memory

/-- What an address not listed reads as. DESIGN CHOICE, log 9. -/
def unlisted : Byte := 0#8

/-- The canonical form: addresses strictly rising, nothing listed that reads as `unlisted`. -/
abbrev wf (m : Memory) : Prop :=
  List.Pairwise (fun a b : Host.Cell => a.1 < b.1) m ∧ ∀ c ∈ m, c.2 ≠ unlisted

/-- The byte at an address. -/
def read : Memory → Nat → Byte
  | [], _ => unlisted
  | (a, b) :: rest, x => if a = x then b else read rest x

/-- A byte written; the form is kept. -/
def write : Memory → Nat → Byte → Memory
  | [], x, v => if v = unlisted then [] else [(x, v)]
  | (a, b) :: rest, x, v =>
    if x < a then (if v = unlisted then (a, b) :: rest else (x, v) :: (a, b) :: rest)
    else if x = a then (if v = unlisted then rest else (x, v) :: rest)
    else (a, b) :: write rest x v

/-- The `n` bytes from `x` upward. -/
def readBytes (m : Memory) (x : Nat) : Nat → List Byte
  | 0 => []
  | n + 1 => read m x :: readBytes m (x + 1) n

/-- Bytes written from `x` upward. -/
def writeBytes (m : Memory) (x : Nat) : List Byte → Memory
  | [] => m
  | b :: rest => writeBytes (write m x b) (x + 1) rest

end Memory

/-- `mapped(addr)` (R202): inside the 32-bit space and in one of the platform's windows (log 10). -/
def mapped (c : Config) (a : Nat) : Bool :=
  decide (a < Config.addrSpace) && c.mapped.any fun r => decide (r.base ≤ a ∧ a < r.base + r.size)

/-- Whether the `n` bytes from `a` are mapped. -/
def mappedRange (c : Config) (a : Nat) : Nat → Bool
  | 0 => true
  | n + 1 => mapped c a && mappedRange c (a + 1) n

/-- `MemRead(a, n)` (R46, R203); none where a byte is unmapped: the access does not complete (R202). -/
def memLoad (s : State) (a n : Nat) : Option Nat :=
  if mappedRange s.cfg a n then some (leVal (Memory.readBytes s.mem a n)) else none

/-- `MemWrite(a, n, v)` (R46, R203); none where a byte is unmapped, and then nothing is written (R202). -/
def memStore (s : State) (a n v : Nat) : Option State :=
  if mappedRange s.cfg a n then some { s with mem := Memory.writeBytes s.mem a (leBytes n v) } else none

/-- The descriptor arena holds address `a` (R211). -/
def inArena (c : Config) (a : Nat) : Bool := decide (c.ringBase ≤ a ∧ a < c.ringBase + 16 * c.ndesc)

/-! ### Slots (R143) -/

/-- Slot `i`; there is none for `i >= NSLOTS`, and the value given then has an absent card. -/
def slotAt (s : State) (i : Nat) : Slot := s.st.slots.getD i Slot.reset

/-- Changes slot `i`; nothing for `i >= NSLOTS`. -/
def modSlot (i : Nat) (f : Slot → Slot) (s : State) : State :=
  { s with st := { s.st with slots := s.st.slots.modify i f } }

/-! ### The register block (10_state.md section 2) -/

/-- A list of Bools as bits, the first lowest. -/
def boolsVal : List Bool → Nat
  | [] => 0
  | b :: rest => bitVal b + 2 * boolsVal rest

/-- `MINTSTS` (R114). -/
def mintsts (r : Regs) : Word := r.rintsts &&& r.intmask

/-- `FIFOTH.RX_WMARK` and `TX_WMARK` (R117). -/
def rxWmark (r : Regs) : Nat := bits r.fifoth 16 12
def txWmark (r : Regs) : Nat := bits r.fifoth 0 12

/-- `STATUS.DATA_BUSY`: the busy signal of the slot of the last accepted command, 0 before any (R156, R770). DESIGN
CHOICE, log 30: 0 also where that command's `CARD_NUMBER` names no slot. -/
def dataBusy (s : State) : Bool :=
  match s.env.lastSlot with
  | none => false
  | some i => s.env.busy.getD i false

/-- `STATUS` (R116). -/
def statusVal (s : State) : Word :=
  let n := s.st.fifo.length
  BitVec.ofNat 32 (bitVal (decide (rxWmark s.regs < n)) + 2 * bitVal (decide (n ≤ txWmark s.regs))
    + 4 * bitVal (decide (n = 0)) + 8 * bitVal (decide (n = s.cfg.fifoDepth))
    + 2 ^ 9 * bitVal (dataBusy s) + 2 ^ 17 * n)

/-- `CDETECT`: bit `s` is 0 when a card is present (R118). -/
def cdetectVal (s : State) : Word := BitVec.ofNat 32 (boolsVal (s.env.present.map fun b => !b))

/-- `HCON` (R128). -/
def hconVal (c : Config) : Word :=
  BitVec.ofNat 32 (2 * (c.nslots - 1)
    + 2 ^ 7 * (if c.w = 2 then 0 else if c.w = 4 then 1 else 2)
    + 2 ^ 16 * bitVal c.dmaPresent)

/-- `IDSTS` with its `FSM` field (R123, R560). -/
def idstsVal (s : State) : Word :=
  s.regs.idsts ||| (if s.st.dmac.state = .running then 0x2000#32 else 0#32)

/-- `RegRead` of a 32-bit register (R45). -/
def regRead (r : Reg) (s : State) : Word :=
  match r with
  | .CTRL => s.regs.ctrl
  | .CLKDIV => s.regs.clkdiv
  | .CLKENA => s.regs.clkena
  | .TMOUT => s.regs.tmout
  | .CTYPE => s.regs.ctype
  | .BLKSIZ => s.regs.blksiz
  | .BYTCNT => s.regs.bytcnt
  | .INTMASK => s.regs.intmask
  | .CMDARG => s.regs.cmdarg
  | .CMD => s.regs.cmd
  | .RESP0 => s.regs.resp0
  | .RESP1 => s.regs.resp1
  | .RESP2 => s.regs.resp2
  | .RESP3 => s.regs.resp3
  | .MINTSTS => mintsts s.regs
  | .RINTSTS => s.regs.rintsts
  | .STATUS => statusVal s
  | .FIFOTH => s.regs.fifoth
  | .CDETECT => cdetectVal s
  | .HCON => hconVal s.cfg
  | .UHS_REG => s.regs.uhs
  | .BMOD => s.regs.bmod
  | .PLDMND => 0#32
  | .DBADDR => s.regs.dbaddr
  | .IDSTS => idstsVal s
  | .IDINTEN => s.regs.idinten
  | .DSCADDR => s.st.dmac.cur
  | .SMPL_CTRL => s.regs.smplCtrl

/-- The DMA engine stopped where it stands; it holds no descriptor then (R560, log 11). -/
def Dmac.halted (d : Dmac) : Dmac := { d with state := .stopped, desc := none }

/-- `CTRL.START_CMD`'s guard: a command is waiting for BUS (R112). -/
def startCmd (s : State) : Bool := bit s.regs.cmd 31

/-- `CTRL` (R103): reset bits written 1 stay until the reset completes, reserved bits ignore the write; clearing
`DMA_ENABLE` stops the DMA engine (R560). -/
def writeCtrl (v : Word) (s : State) : State :=
  let s' := { s with regs := { s.regs with
    ctrl := (v &&& 0x02000030#32) ||| ((s.regs.ctrl ||| v) &&& 0x7#32) } }
  if bit v 5 then s' else { s' with st := { s'.st with dmac := s'.st.dmac.halted } }

/-- `BMOD` (R120): `SWR` written 1 stays until the reset completes; clearing `DE` stops the DMA engine (R560). `FB` and
the burst-length field, bits 10 to 8, are stored (93 I15, log 20). -/
def writeBmod (v : Word) (s : State) : State :=
  let s' := { s with regs := { s.regs with bmod := (v &&& 0x782#32) ||| ((s.regs.bmod ||| v) &&& 0x1#32) } }
  if bit v 7 then s' else { s' with st := { s'.st with dmac := s'.st.dmac.halted } }

/-- `PLDMND` (R121, R560): starts a Stopped DMA engine, resumes a Suspended one. DESIGN CHOICE, log 6: without a DMA
engine, where no rule of 42_dma.md runs, the write has no effect. -/
def writePldmnd (s : State) : State :=
  if s.cfg.dmaPresent && bit s.regs.bmod 7 && bit s.regs.ctrl 5 && bit s.regs.ctrl 25 then
    match s.st.dmac.state with
    | .stopped => { s with st := { s.st with
        dmac := { s.st.dmac with state := .running, cur := s.regs.dbaddr, moved := 0 } } }
    | .suspended => { s with st := { s.st with dmac := { s.st.dmac with state := .running } } }
    | .running => s
  else s

/-- `RINTSTS.HLE` set: `CMD` or `CMDARG` written while a command waits (R111, R112, R760). -/
def setHle (s : State) : State :=
  { s with regs := { s.regs with rintsts := s.regs.rintsts ||| 0x1000#32 } }

/-- `RegWrite` of a 32-bit register (R45) with that register's write semantics; a read-only register ignores it. -/
def regWrite (r : Reg) (v : Word) (s : State) : State :=
  match r with
  | .CTRL => writeCtrl v s
  | .CLKDIV => { s with regs := { s.regs with clkdiv := v &&& 0xFF#32 } }
  | .CLKENA => { s with regs := { s.regs with
      clkena := v &&& (slotMask s.cfg ||| slotMask s.cfg <<< 16) } }
  | .TMOUT => { s with regs := { s.regs with tmout := v } }
  | .CTYPE => { s with regs := { s.regs with
      ctype := v &&& (slotMask s.cfg ||| slotMask s.cfg <<< 16) } }
  | .BLKSIZ => { s with regs := { s.regs with blksiz := v &&& 0xFFFF#32 } }
  | .BYTCNT => { s with regs := { s.regs with bytcnt := v } }
  | .INTMASK => { s with regs := { s.regs with
      intmask := v &&& (0xFFFF#32 ||| slotMask s.cfg <<< 16) } }
  | .CMDARG => if startCmd s then setHle s else { s with regs := { s.regs with cmdarg := v } }
  | .CMD => if startCmd s then setHle s else { s with regs := { s.regs with cmd := v &&& 0x803FFFFF#32 } }
  | .RESP0 => s
  | .RESP1 => s
  | .RESP2 => s
  | .RESP3 => s
  | .MINTSTS => s
  | .RINTSTS => { s with regs := { s.regs with rintsts := s.regs.rintsts &&& ~~~v } }
  | .STATUS => s
  | .FIFOTH => { s with regs := { s.regs with fifoth := v &&& 0x7FFF0FFF#32 } }
  | .CDETECT => s
  | .HCON => s
  | .UHS_REG => { s with regs := { s.regs with uhs := v &&& slotMask s.cfg <<< 16 } }
  | .BMOD => writeBmod v s
  | .PLDMND => writePldmnd s
  | .DBADDR => { s with regs := { s.regs with dbaddr := v } }
  | .IDSTS => { s with regs := { s.regs with idsts := s.regs.idsts &&& ~~~(v &&& 0x337#32) } }
  | .IDINTEN => { s with regs := { s.regs with idinten := v &&& 0x337#32 } }
  | .DSCADDR => s
  | .SMPL_CTRL => { s with regs := { s.regs with smplCtrl := v &&& 0xFF#32 } }

/-- `RegSet` and `RegClr` (R45). -/
def regSet (r : Reg) (mask : Word) (s : State) : State := regWrite r (regRead r s ||| mask) s
def regClr (r : Reg) (mask : Word) (s : State) : State := regWrite r (regRead r s &&& ~~~mask) s

/-- Register offsets (R102). -/
def Reg.ofOffset (off : Nat) : Option Reg :=
  match off with
  | 0x000 => some .CTRL
  | 0x008 => some .CLKDIV
  | 0x010 => some .CLKENA
  | 0x014 => some .TMOUT
  | 0x018 => some .CTYPE
  | 0x01C => some .BLKSIZ
  | 0x020 => some .BYTCNT
  | 0x024 => some .INTMASK
  | 0x028 => some .CMDARG
  | 0x02C => some .CMD
  | 0x030 => some .RESP0
  | 0x034 => some .RESP1
  | 0x038 => some .RESP2
  | 0x03C => some .RESP3
  | 0x040 => some .MINTSTS
  | 0x044 => some .RINTSTS
  | 0x048 => some .STATUS
  | 0x04C => some .FIFOTH
  | 0x050 => some .CDETECT
  | 0x070 => some .HCON
  | 0x074 => some .UHS_REG
  | 0x080 => some .BMOD
  | 0x084 => some .PLDMND
  | 0x088 => some .DBADDR
  | 0x08C => some .IDSTS
  | 0x090 => some .IDINTEN
  | 0x094 => some .DSCADDR
  | 0x180 => some .SMPL_CTRL
  | _ => none

/-! ### The FIFO (R147) -/

/-- `FifoPush(w)`: the low `W` bytes of `w` become the newest word. -/
def fifoAppend (w : Beat) (s : State) : State :=
  { s with st := { s.st with fifo := s.st.fifo ++ [beatOf (beatBytes s.cfg.w w)] } }

/-- The FIFO without its oldest word. -/
def fifoTail (s : State) : State := { s with st := { s.st with fifo := s.st.fifo.tail } }

/-- A read of `DATA` (R127): pops a word; a model fault in the cases of R830. -/
def dataRead (s : State) : Except Fault (Beat × State) :=
  if bit s.regs.ctrl 5 then .error .dataPortDmaEnabled
  else match s.st.fifo with
    | [] => .error .dataPortEmpty
    | w :: _ => .ok (w, fifoTail s)

/-- A write of `DATA` (R127): pushes a word; a model fault in the cases of R830. -/
def dataWrite (w : Beat) (s : State) : Except Fault State :=
  if bit s.regs.ctrl 5 then .error .dataPortDmaEnabled
  else if s.st.fifo.length < s.cfg.fifoDepth then .ok (fifoAppend w s)
  else .error .dataPortFull

/-! ### Events (R148) and completion records (R402) -/

/-- `CODE` of an event word, with its reserved bits. -/
def eventCode (e : Word) : Nat := bits e 0 8

/-- How a newer event merges into a queued one of its code (R148). -/
def mergeEvent (old new : Word) : Word :=
  if eventCode new = 1 ∨ eventCode new = 2 ∨ eventCode new = 8 then old ||| new
  else if eventCode new = 9 then new
  else old

/-- `post(e)` on a queue (R148). -/
def postTo (e : Word) (q : List Word) : List Word :=
  if q.any fun x => decide (eventCode x = eventCode e) then
    q.map fun x => if eventCode x = eventCode e then mergeEvent x e else x
  else q ++ [e]

/-- `post(e)`. -/
def post (e : Word) (s : State) : State :=
  { s with st := { s.st with evq := postTo e s.st.evq } }

/-- `complete(...)`: a record appended to the completion port (R402). -/
def deliver (c : Completion) (s : State) : State :=
  { s with st := { s.st with cport := s.st.cport ++ [c] } }

/-- A record with no response and no byte count (R312). -/
def plainRecord (k : Kind) (tag : Word) (slot : Nat) (code : Code) (payload : Word) : Completion where
  kind     := k
  tag      := tag
  slot     := slot
  code     := code
  resp0    := 0#32
  resp1    := 0#32
  resp2    := 0#32
  resp3    := 0#32
  stopResp := 0#32
  bytes    := 0
  payload  := payload

/-! ### The DPU's work and results -/

/-- Work put in front of what the DPU still has to do. -/
def push (ws : List Work) (s : State) : State :=
  { s with ctl := { s.ctl with dpu := ws ++ s.ctl.dpu } }

/-- The result code of the micro-operation under way. -/
def setRet (c : Code) (s : State) : State := { s with ctl := { s.ctl with ret := c } }

/-- `raise FATAL` (R47, R724): `st.fatal` is set and the micro-operation's result is HARD_FAILURE. Every caller then
ends without doing more work: the DPU passes over the work of theirs that is left (Dpu.lean). -/
def raiseFatal (s : State) : State :=
  { s with st := { s.st with fatal := true }, ctl := { s.ctl with ret := .hardFailure } }

/-- The active request changed; nothing while none is. -/
def modActive (f : Active → Active) (s : State) : State :=
  { s with st := { s.st with active := s.st.active.map f } }

def setCst (c : CState) (s : State) : State := { s with st := { s.st with cst := c } }
def setDst (d : DState) (s : State) : State := { s with st := { s.st with dst := d } }

end Sys2Proof.Machine
end

