-- ==== Sys2Proof/Machine/Flags.lean ====
section
/-! DEFINITION. Computed conditions: the interrupt line, error classification, and the guards of the DPU's loop and of
the settle rules (41_state_machine.md, 60_exceptions.md). -/

namespace Sys2Proof.Machine

/-- The interrupt line (R728). -/
def irqLine (s : State) : Bool :=
  bit s.regs.ctrl 4 && (decide (mintsts s.regs ≠ 0#32) || anyBit (idstsVal s &&& s.regs.idinten) 0x337#32)

/-- `classify_cmd(p, crc)` (R512). -/
def classifyCmd (p : Word) (crc : Bool) : Option Code :=
  if bit p 8 then some .cmdTimeout
  else if bit p 6 && crc then some .cmdCrc
  else if bit p 1 then some .cmdRespErr
  else if bit p 12 then some .cmdHle
  else none

/-- `classify_data(p)` (R513). DESIGN CHOICE, log 31: a payload with none of the bits R513 lists gives none, so DATA_ERR
then records no data error, and the recovery is pending all the same (R472). -/
def classifyData (p : Word) : Option Code :=
  if bit p 9 then some .dataTimeout
  else if bit p 13 then some .dataStartBit
  else if bit p 7 then some .dataCrc
  else if bit p 15 then some .dataEndBit
  else if bit p 11 then some .fifoOverrun
  else if bit p 10 then some .fifoStarvation
  else if bit p 16 || bit p 17 then some .dmaError
  else none

/-- The first that is not none. -/
def firstCode : List (Option Code) → Option Code
  | [] => none
  | some c :: _ => some c
  | none :: rest => firstCode rest

/-- `summary(A)` (R511). -/
def summary (a : Active) : Code :=
  (firstCode [a.fatalErr, a.nomedium, a.reqErr, a.cmdErr, a.dataErr, a.stopErr]).getD .ok

/-- `stop_needed(A)` (R497). -/
def stopNeeded (a : Active) : Bool :=
  a.data.isSome && (a.stopFlag || a.cmdErr.isSome || a.dataErr.isSome || a.reqErr.isSome)

/-- `stop_settled` (R495). -/
def stopSettled (a : Active) : Bool := !stopNeeded a || a.stopDone

/-- `deep(A)` (R690). -/
def deep (a : Active) : Bool :=
  decide (a.dataErr = some .fifoOverrun) || decide (a.dataErr = some .fifoStarvation)
    || decide (a.dataErr = some .dmaError) || decide (a.dataErr = some .busyTimeout)
    || decide (a.cmdErr = some .busyTimeout) || a.stopErr.isSome || a.reqErr.isSome

/-- `A.data.blksz * A.data.blocks`, 0 without data (R510, R494). -/
def dataLen (r : ReqOp) : Nat :=
  match r.data with
  | none => 0
  | some d => d.blksz.toNat * d.blocks.toNat

/-- The scatter list of a request; empty without data (R50). -/
def reqSegs (r : ReqOp) : List Seg :=
  match r.data with
  | none => []
  | some d => d.sg

/-- A data transfer of the direction given. -/
def dirIs (r : ReqOp) (d : Dir) : Bool :=
  match r.data with
  | none => false
  | some x => decide (x.dir = d)

/-- `st.dst in {DXfer, DBusy}`. -/
def dataMoving (d : DState) : Bool := decide (d = .dXfer) || decide (d = .dBusy)

/-- `cmd_phase_done` (R495). -/
def cmdPhaseDone (c : CState) (a : Active) : Bool := a.cmdComplete && decide (c = .cIdle)

/-- `data_phase_done` (R495). -/
def dataPhaseDone (d : DState) (a : Active) : Bool :=
  a.data.isNone || decide (d = .dIdle) || decide (d = .dRecovery)

/-- `st.ctlq` holds an SDIO_IRQ_ACK entry (R417). -/
def isAck (c : CtlEntry) : Bool := decide (c.op = .sdioIrqAck)

/-- An entry of `st.ctlq` is a CONTROLLER_INIT (R450, R515). -/
def isInit (c : CtlEntry) : Bool := decide (c.op = .controllerInit)

/-- `flushable()` (R450). -/
def flushable (s : State) : Bool :=
  s.st.active.isSome || s.st.slots.any (fun x => decide (x.queue ≠ [])) || s.st.tuning
    || s.st.ctlq.any (fun c => !isInit c)

/-- Some slot queue is non-empty (R450). -/
def anyQueued (s : State) : Bool := s.st.slots.any fun x => decide (x.queue ≠ [])

/-- A tuning read is in flight (R149). -/
def tuneAwaiting (s : State) : Bool :=
  match s.st.tctx with
  | none => false
  | some c => c.await

/-- TUNE_STEP's guard (R450, R634). -/
def tuneReady (s : State) : Bool := s.st.active.isNone && s.st.tuning && !tuneAwaiting s

/-- RUN_CTL's guard for an entry other than SDIO_IRQ_ACK (R417). -/
def ctlReady (s : State) : Bool := s.st.active.isNone && !s.st.tuning && decide (s.st.ctlq ≠ [])

/-- DISPATCH_NEXT's guard (R456). -/
def dispatchReady (s : State) : Bool :=
  s.st.active.isNone && !s.st.tuning && !s.st.fatal && decide (s.st.ctlq = []) && anyQueued s

/-- The settle rules, by number (R490). -/
inductive SettleRule where
  /-- R503: fatal. -/
  | fatal
  /-- R491: watchdog recovery, data phase (firing 1) and command phase (firing 2). -/
  | wdData
  | wdCmd
  /-- R492: a command error aborts the data phase. -/
  | cmdAbort
  /-- R493, R494: data busy, data phase done. -/
  | dataBusy
  | dataDone
  /-- R496: command busy. -/
  | cmdBusy
  /-- R498, R499: issue the stop, stop busy. -/
  | issueStop
  | stopBusy
  /-- R500, R501: recovery, completion. -/
  | recover
  | complete
  deriving DecidableEq, Repr

/-- The first settle rule for the active request whose guard holds, in the order of R490. -/
def settleRuleFor (c : CState) (d : DState) (a : Active) : Option SettleRule :=
  if c = .cRecovery then
    if dataMoving d then some .wdData else some .wdCmd
  else if a.cmdComplete && a.cmdErr.isSome && a.data.isSome && dataMoving d then some .cmdAbort
  else if decide (d = .dBusy) && !a.dbusyChecked then some .dataBusy
  else if decide (d = .dBusy) && a.dbusyChecked && (decide (a.path ≠ .dma) || a.dmaDone) then some .dataDone
  else if a.cmdComplete && decide (c = .cIdle) && decide (a.cmd.resp = .shortBusy) && a.data.isNone
      && a.cmdErr.isNone && !a.cbusyChecked then some .cmdBusy
  else if cmdPhaseDone c a && stopNeeded a && !a.stopIssued
      && (decide (d = .dIdle) || decide (d = .dRecovery)) then some .issueStop
  else if a.stopDone && a.stopErr.isNone && !a.sbusyChecked then some .stopBusy
  else if a.recovPending && !a.recovered && cmdPhaseDone c a && dataPhaseDone d a && stopSettled a then
    some .recover
  else if cmdPhaseDone c a && decide (d = .dIdle) && stopSettled a && (!a.recovPending || a.recovered)
      && (decide (a.cmd.resp ≠ .shortBusy) || a.data.isSome || a.cmdErr.isSome || a.cbusyChecked)
      && (!a.stopDone || a.stopErr.isSome || a.sbusyChecked) then some .complete
  else none

/-- The first settle rule whose guard holds (R490). -/
def settleRule (s : State) : Option SettleRule :=
  if s.st.fatal && flushable s then some .fatal
  else match s.st.active with
    | none => none
    | some a => settleRuleFor s.st.cst s.st.dst a

end Sys2Proof.Machine
end

