-- ==== Sys2Proof/Machine/Operands.lean ====
section
/-! DEFINITION. The operand words of the host-port operations: their expected number, their reserved bits, their
ranges and their meaning (30_encoding.md R302, R303; 40_host_ops.md R405, R406). -/

namespace Sys2Proof.Machine

/-- The host-port operations (R301). -/
inductive HostOp where
  | submit | setBusTiming | setClock | getCardPresent | tune | sdioIrqAck | controllerInit
  deriving DecidableEq, Repr

/-- Operand word `i` of a packet, counted from 1 as the spec counts; 0 where there is none. -/
def operand (ws : List Word) (i : Nat) : Word := ws.getD (i - 1) 0#32

/-- `expected_len` (R302, R303, R405): the operand count is the one the operation takes. -/
def lengthOk (op : HostOp) (ws : List Word) : Bool :=
  match op with
  | .submit =>
    if ws.length < 2 then false
    else if bit (operand ws 1) 9 then
      decide (4 ≤ ws.length) && decide (ws.length = 4 + 2 * (operand ws 4).toNat)
    else decide (ws.length = 2)
  | .setBusTiming => decide (ws.length = 1)
  | .setClock => decide (ws.length = 1)
  | .getCardPresent => decide (ws.length = 0)
  | .tune => decide (ws.length = 1 + ceilDiv (bits (operand ws 1) 16 16) 4)
  | .sdioIrqAck => decide (ws.length = 0)
  | .controllerInit => decide (ws.length = 0)

/-- The bytes TUNE's pattern words carry (R303). -/
def patternBytes (ws : List Word) : List Byte := unpackBytes ws.tail

/-- `reserved_bits_set` (R405). -/
def reservedSet (op : HostOp) (ws : List Word) : Bool :=
  match op with
  | .submit => decide (bits (operand ws 1) 12 20 ≠ 0)
  | .setBusTiming => decide (bits (operand ws 1) 12 20 ≠ 0) || decide (bits (operand ws 1) 4 4 ≠ 0)
  | .setClock => false
  | .getCardPresent => false
  | .tune => decide (bits (operand ws 1) 4 4 ≠ 0) || decide (bits (operand ws 1) 14 2 ≠ 0)
      || ((patternBytes ws).drop (bits (operand ws 1) 16 16)).any fun b => decide (b ≠ 0#8)
  | .sdioIrqAck => false
  | .controllerInit => false

/-- The bytes a scatter list covers. -/
def sgTotal (sg : List Seg) : Nat := (sg.map fun g => g.len.toNat).sum

/-- A segment overlaps the descriptor arena (R405). -/
def overlapsArena (c : Config) (g : Seg) : Bool :=
  decide (g.addr.toNat < c.ringBase + 16 * c.ndesc) && decide (c.ringBase < g.addr.toNat + g.len.toNat)

/-- A segment is in range (R405). -/
def segOk (c : Config) (g : Seg) : Bool :=
  decide (g.len ≠ 0#32) && decide (g.addr.toNat + g.len.toNat ≤ Config.addrSpace)
    && !(c.dmaPresent && overlapsArena c g)

/-- SUBMIT's data operands (R302): direction, geometry and segments, if `DATA = 1`. -/
def submitData (ws : List Word) : Option DataSpec :=
  if bit (operand ws 1) 9 then
    some { dir    := if bit (operand ws 1) 10 then .write else .read
           blksz  := BitVec.ofNat 16 (bits (operand ws 3) 0 16)
           blocks := BitVec.ofNat 16 (bits (operand ws 3) 16 16)
           sg     := segsOf (ws.drop 4) }
  else none

/-- `fields_in_range` (R405). -/
def inRange (c : Config) (op : HostOp) (slot : BitVec 4) (ws : List Word) : Bool :=
  decide (slot.toNat < c.nslots) &&
  match op with
  | .submit =>
    match submitData ws with
    | none => !bit (operand ws 1) 10 && !bit (operand ws 1) 11
    | some d => decide (d.blksz ≠ 0#16) && decide (d.blocks ≠ 0#16) && decide (d.sg ≠ [])
        && decide (d.sg.length ≤ c.maxSg) && d.sg.all (segOk c)
        && decide (sgTotal d.sg = d.blksz.toNat * d.blocks.toNat)
  | .setBusTiming => decide (bits (operand ws 1) 0 4 ≤ 9)
      && (decide (bits (operand ws 1) 8 4 = 1) || decide (bits (operand ws 1) 8 4 = 4)
        || decide (bits (operand ws 1) 8 4 = 8))
  | .setClock => true
  | .getCardPresent => true
  | .tune => decide (bits (operand ws 1) 0 4 ≤ 9) && decide (bits (operand ws 1) 16 16 ≠ 0)
      && decide (bits (operand ws 1) 16 16 ≤ Config.tuneBufLen)
  | .sdioIrqAck => true
  | .controllerInit => decide (slot = 0#4)

/-- A Request record before anything happened to it (R406, R142). -/
def Request.fresh (r : ReqOp) : Request where
  toReqOp  := r
  resp0    := 0#32
  resp1    := 0#32
  resp2    := 0#32
  resp3    := 0#32
  stopResp := 0#32
  cmdErr   := none
  dataErr  := none
  stopErr  := none
  reqErr   := none
  fatalErr := none
  nomedium := none

/-- `request_of(tag, s, w)` (R406). -/
def requestOf (tag : Word) (slot : BitVec 4) (ws : List Word) : Request :=
  Request.fresh { seq := tag, slot := slot, origin := .host
                  cmd := cmdSpecOf (operand ws 1) (operand ws 2)
                  data := submitData ws
                  stopFlag := bit (operand ws 1) 11 }

end Sys2Proof.Machine
end

