-- ==== Sys2Proof/Machine/Dma.lean ====
section
/-! DEFINITION. The DMA path: `prepare`, `start`, the parts of `stop` and `reset`, and the steps of the DMA engine
agent (42_dma.md). -/

namespace Sys2Proof.Machine

/-- One of the `n` bytes from `a` is in the descriptor arena while the DMA engine owns it (R224). -/
def inOwnedArena (s : State) (a n : Nat) : Bool :=
  s.cfg.dmaPresent && decide (s.st.dmac.owner = .engine) && (List.range n).any fun i => inArena s.cfg (a + i)

/-- A host-memory write by the DPU: a model fault on an unmapped byte (R202), and on the arena while the DMA
engine owns it (R224). -/
def guardedStore (s : State) (a n v : Nat) : Except Fault State :=
  if inOwnedArena s a n then .error .arenaOwned
  else match memStore s a n v with
    | some s' => .ok s'
    | none => .error (.unmapped a)

/-- The chunks of one segment (R553). -/
def segChunks (maxLen : Nat) (g : Seg) : List (Nat × Nat) :=
  (List.range (ceilDiv g.len.toNat maxLen)).map fun m =>
    (g.addr.toNat + m * maxLen, min maxLen (g.len.toNat - m * maxLen))

/-- `chunks(sg)`: address and length of each descriptor's bytes, in stream order (R553). -/
def chunks (maxLen : Nat) (sg : List Seg) : List (Nat × Nat) := sg.flatMap (segChunks maxLen)

/-- `DES0` of chain position `j` of `k` (R311). -/
def des0 (j k : Nat) : Nat :=
  0x80000010 + (if j = 0 then 0x08 else 0) + (if j + 1 = k then 0x04 else 0x02)

/-- The address of descriptor slot `j` (R550). -/
def descAddr (c : Config) (j : Nat) : Nat := c.ringBase + 16 * j

/-- `DES3` of chain position `j` of `k` (R311). -/
def des3 (c : Config) (j k : Nat) : Nat := if j + 1 = k then 0 else descAddr c (j + 1)

/-- One descriptor written, `DES0` last (R552, R210). -/
def writeDesc (j k : Nat) (ch : Nat × Nat) (s : State) : Except Fault State := do
  let s1 ← guardedStore s (descAddr s.cfg j + 4) 4 ch.2
  let s2 ← guardedStore s1 (descAddr s.cfg j + 8) 4 ch.1
  let s3 ← guardedStore s2 (descAddr s.cfg j + 12) 4 (des3 s.cfg j k)
  guardedStore s3 (descAddr s.cfg j) 4 (des0 j k)

/-- The descriptors of positions `j`, `j + 1`, … of a chain of `k` (R552). -/
def writeChain (k : Nat) : Nat → List (Nat × Nat) → State → Except Fault State
  | _, [], s => .ok s
  | j, ch :: rest, s => do
    let s1 ← writeDesc j k ch s
    writeChain k (j + 1) rest s1

/-- The alignment check of R552. -/
def sgAligned (c : Config) (sg : List Seg) : Bool :=
  sg.all fun g => decide (g.addr.toNat % c.dmaAlign = 0) && decide (g.len.toNat % c.dmaAlign = 0)

/-- `DMA_PREPARE` declines the list (R555). -/
def prepareDeclines (c : Config) (sg : List Seg) : Bool :=
  !sgAligned c sg || decide (sgTotal sg < c.dmaMinBytes)
    || decide (c.ndesc < (chunks c.descMaxLen sg).length)

/-- DMA_PREPARE (R552); a model fault while the DMA engine owns the arena (R157 (c)). -/
def prepare (sg : List Seg) (s : State) : Except Fault (Code × State) :=
  if s.st.dmac.owner = .engine then .error .arenaOwned
  else if prepareDeclines s.cfg sg then .ok (.dmaDeclined, s)
  else do
    let ch := chunks s.cfg.descMaxLen sg
    let s1 ← writeChain ch.length 0 ch s
    .ok (.ok, { s1 with st := { s1.st with chain := some ⟨ch.length, sgTotal sg⟩ } })

/-- DMA_START (R557). -/
def dmaStart (dir : Dir) (s : State) : State :=
  let s0 := { s with st := { s.st with dmac := { s.st.dmac with owner := .engine, dir := dir } } }
  let s1 := regWrite .IDSTS 0x337#32 s0
  let s2 := regWrite .DBADDR (BitVec.ofNat 32 s.cfg.ringBase) s1
  let s3 := regSet .CTRL 0x02000020#32 s2
  let s4 := regSet .BMOD 0x80#32 s3
  regWrite .PLDMND 1#32 s4

/-- The first part of DMA_STOP: the enables cleared (R565). -/
def dmaOff (s : State) : State := regClr .CTRL 0x02000020#32 (regClr .BMOD 0x80#32 s)

/-- The last part of DMA_STOP and DMA_RESET: the arena returns to the block (R565, R566). -/
def dmaRelease (s : State) : State :=
  { s with st := { s.st with dmac := { s.st.dmac with owner := .block }, chain := none } }

/-- The first part of DMA_RESET (R566). -/
def assertDmaReset (s : State) : State := regSet .BMOD 0x1#32 (regSet .CTRL 0x4#32 s)

/-- The effect of a DMA reset when BUS completes it (R566, R682). -/
def dmaResetEffect (s : State) : State :=
  { s with
    regs := { s.regs with idsts := 0#32, bmod := s.regs.bmod &&& ~~~0x81#32, ctrl := s.regs.ctrl &&& ~~~0x4#32 }
    st := { s.st with dmac := { s.st.dmac with state := .stopped, cur := 0#32, moved := 0, desc := none } } }

/-! ### The DMA engine agent (R560 to R564) -/

/-- Bits of `IDSTS` set (R123). -/
def setIdsts (v : Word) (s : State) : State :=
  { s with regs := { s.regs with idsts := s.regs.idsts ||| v } }

/-- A bus error (R563): `FBE`, `AIS`, Stopped. -/
def dmacBusError (s : State) : State :=
  setIdsts 0x204#32 { s with st := { s.st with dmac := s.st.dmac.halted } }

/-- A fetch step (R561). -/
def dmacFetch (s : State) : State :=
  let a := s.st.dmac.cur.toNat
  match memLoad s a 4 with
  | none => dmacBusError s
  | some d0 =>
    if bit (BitVec.ofNat 32 d0) 31 = false then
      setIdsts 0x210#32 { s with st := { s.st with dmac := { s.st.dmac with state := .suspended } } }
    else
      match memLoad s (a + 4) 4, memLoad s (a + 8) 4, memLoad s (a + 12) 4 with
      | some d1, some d2, some d3 =>
        { s with st := { s.st with dmac := { s.st.dmac with
            desc := some ⟨BitVec.ofNat 32 d0, d1 % 2 ^ 13, BitVec.ofNat 32 d2, BitVec.ofNat 32 d3⟩ } } }
      | _, _, _ => dmacBusError s

/-- `moved` after a beat (R562). -/
def dmacAdvance (s : State) : State :=
  { s with st := { s.st with dmac := { s.st.dmac with moved := s.st.dmac.moved + s.cfg.w } } }

/-- A beat step (R562); no step where the FIFO is not ready (R564). -/
def dmacBeat (d : Desc) (s : State) : State :=
  match s.st.dmac.dir with
  | .read =>
    match s.st.fifo with
    | [] => s
    | w :: _ =>
      match memStore (fifoTail s) (d.bap1.toNat + s.st.dmac.moved) s.cfg.w w.toNat with
      | none => dmacBusError s
      | some s' => dmacAdvance s'
  | .write =>
    if s.st.fifo.length < s.cfg.fifoDepth then
      match memLoad s (d.bap1.toNat + s.st.dmac.moved) s.cfg.w with
      | none => dmacBusError s
      | some v => dmacAdvance (fifoAppend (BitVec.ofNat 64 v) s)
    else s

/-- A card error is latched: the value of `CES` at a write-back (R562). -/
def cardError (s : State) : Bool := anyBit s.regs.rintsts 0xAE80#32

/-- `DES0` written back: `OWN = 0`, `CES` as given (R562). -/
def des0Back (d : Word) (ces : Bool) : Word :=
  (d &&& 0x3FFFFFFF#32) ||| (if ces then 0x40000000#32 else 0#32)

/-- A write-back step (R562, R568). -/
def dmacWriteBack (d : Desc) (s : State) : State :=
  match memStore s s.st.dmac.cur.toNat 4 (des0Back d.des0 (cardError s)).toNat with
  | none => dmacBusError s
  | some s1 =>
    let s2 := if cardError s then setIdsts 0x220#32 s1 else s1
    if bit d.des0 2 then
      let s3 := if bit d.des0 1 then s2
        else setIdsts (match s.st.dmac.dir with | .read => 0x102#32 | .write => 0x101#32) s2
      { s3 with st := { s3.st with dmac := s3.st.dmac.halted } }
    else { s2 with st := { s2.st with dmac := { s2.st.dmac with cur := d.bap2, moved := 0, desc := none } } }

/-- A step of the DMA engine agent; it has one only while Running (R564). -/
def dmacStep (s : State) : State :=
  match s.st.dmac.state with
  | .stopped => s
  | .suspended => s
  | .running =>
    match s.st.dmac.desc with
    | none => dmacFetch s
    | some d => if d.bs1 ≤ s.st.dmac.moved then dmacWriteBack d s else dmacBeat d s

end Sys2Proof.Machine
end

