-- ==== Sys2Proof/Machine/Bus.lean ====
section
/-! DEFINITION. The environment agent BUS: the steps 60_exceptions.md section 5 admits. A step outside them is a model
fault (R769). The values a step draws come with it. -/

namespace Sys2Proof.Machine

/-- A guarded BUS step. -/
def busStepIf (ok : Bool) (s : State) : Res := if ok then .next s else .fault .busContract

/-- FIFO words of a transfer (R762, R763). -/
def xferWords (c : Config) (x : WireXfer) : Nat := ceilDiv x.total c.w

/-- A transfer is running on the wire for certain: it has not failed, been abandoned or been left unstarted. It keeps a
command waiting that waits for the previous data (R112, log 17), and raises the FIFO-ready bits (R762, R763). -/
def xferHolds (s : State) : Bool :=
  match s.env.xfer with
  | none => false
  | some x => !x.failed && !x.aborted && !x.doubtful

def setXfer (x : Option WireXfer) (s : State) : State := { s with env := { s.env with xfer := x } }

/-- Bits of `RINTSTS` set by BUS (R115). -/
def raise (v : Word) (s : State) : State :=
  { s with regs := { s.regs with rintsts := s.regs.rintsts ||| v } }

/-- The FIFO-ready bit whose watermark condition holds for the transfer on the wire, unless it is abandoned (R762, R763,
R764, R115). -/
def readyBits (s : State) : Word :=
  match s.env.xfer with
  | none => 0#32
  | some x =>
    if x.aborted then 0#32
    else match x.dir with
      | .read => if rxWmark s.regs < s.st.fifo.length then 0x20#32 else 0#32
      | .write => if s.st.fifo.length ≤ txWmark s.regs ∧ x.moved < xferWords s.cfg x then 0x10#32 else 0#32

/-- `RXDR` or `TXDR` is set where its condition holds during a transfer (R762, R763). -/
def raiseReady (s : State) : State := raise (if xferHolds s then readyBits s else 0#32) s

/-- The response type of the command in `CMD` signals busy: the stop, or the active request's SHORT_BUSY command (R767,
R496, R499). DESIGN CHOICE, log 16: `CMD` has no bit for it, so it is the active request's when BUS accepts the
command. -/
def busySignalled (s : State) : Bool :=
  bit s.regs.cmd 14 || match s.st.active with
    | none => false
    | some a => decide (a.cmd.resp = .shortBusy)

/-- What BUS latches when it accepts the command in `CMD` (R760). -/
def latch (s : State) : WireCmd where
  cmd     := s.regs.cmd
  arg     := s.regs.cmdarg
  smpl    := s.regs.smplCtrl
  blksiz  := s.regs.blksiz
  bytcnt  := s.regs.bytcnt
  ctype   := s.regs.ctype
  uhs     := s.regs.uhs
  signals := busySignalled s

/-- `CARD_NUMBER` of a command word (R112). -/
def cardNumber (cmd : Word) : Nat := bits cmd 16 5

/-- The transfer a data command may run (R762, R763). -/
def xferOf (r : Regs) : WireXfer where
  slot    := cardNumber r.cmd
  dir     := if bit r.cmd 10 then .write else .read
  total   := r.bytcnt.toNat
  moved   := 0
  sent    := 0
  smpl    := r.smplCtrl
  failed  := false
  aborted := false
  doubtful := false

/-- A stop abandons the transfer on its slot (R764). -/
def abortOn (slot : Nat) (x : WireXfer) : WireXfer :=
  if x.slot = slot then { x with aborted := true } else x

/-- The transfer after a stop's `CMD_DONE`: an abandoned one of the stop's slot sets no more bits and is over (R764). -/
def endAbandoned (slot : Nat) (x : Option WireXfer) : Option WireXfer :=
  x.filter fun t => !(t.aborted && decide (t.slot = slot))

/-- BUS accepts the command waiting in `CMD` (R760, R764, R766). -/
def acceptCommand (s : State) : State :=
  let r := s.regs
  let s1 := { s with
    regs := { r with cmd := r.cmd &&& 0x7FFFFFFF#32 }
    env := { s.env with lastSlot := some (cardNumber r.cmd) } }
  if bit r.cmd 21 then { s1 with env := { s1.env with effDiv := r.clkdiv, effEna := r.clkena } }
  else
    let s2 := { s1 with env := { s1.env with
      cmds := s1.env.cmds ++ [latch s], signalled := s1.env.signalled.set (cardNumber r.cmd) false } }
    let s3 := if bit r.cmd 14 then setXfer (s2.env.xfer.map (abortOn (cardNumber r.cmd))) s2 else s2
    if bit r.cmd 9 then setXfer (some (xferOf r)) s3 else s3

/-- The response registers a command's end writes (R113, R761). -/
def writeResp (c : WireCmd) (r0 r1 r2 r3 : Word) (r : Regs) : Regs :=
  if bit c.cmd 7 then { r with resp0 := r0, resp1 := r1, resp2 := r2, resp3 := r3 } else { r with resp0 := r0 }

/-- After a data command's `CMD_DONE` with `RTO` or `RE` BUS may never start its transfer (R762). DESIGN CHOICE, log 16: a
transfer that had moved words before it is treated alike, since R762 does not say whether it goes on. -/
def doubt (c : WireCmd) (err : Bool) (x : Option WireXfer) : Option WireXfer :=
  x.map fun t => if err && bit c.cmd 9 && decide (t.slot = cardNumber c.cmd) then { t with doubtful := true } else t

/-- The response of `c` signals busy: its response type does and it expects a response (R767). -/
def WireCmd.signalsBusy (c : WireCmd) : Bool := bit c.cmd 6 && c.signals

/-- The end of the command phase of `c` (R761, R764, R767). A card that goes busy after it does so in this step or, as
`signalled` then admits, in a later one (log 16). -/
def commandEnd (c : WireCmd) (rto rcrc re busy : Bool) (r0 r1 r2 r3 : Word) (s : State) : State :=
  let s1 := { s with
    regs := if bit c.cmd 6 && !rto then writeResp c r0 r1 r2 r3 s.regs else s.regs
    env := { s.env with
      cmds := s.env.cmds.tail
      xfer := doubt c (rto || re) (if bit c.cmd 14 then endAbandoned (cardNumber c.cmd) s.env.xfer else s.env.xfer)
      busy := if busy then s.env.busy.set (cardNumber c.cmd) true else s.env.busy
      signalled := if c.signalsBusy then s.env.signalled.set (cardNumber c.cmd) true else s.env.signalled } }
  raise (0x4#32 ||| (if rto then 0x100#32 else 0#32) ||| (if rcrc then 0x40#32 else 0#32)
    ||| (if re then 0x2#32 else 0#32)) s1

/-- A word of the transfer waits for the FIFO: the next push finds it full on a read, the next pop finds it empty on a
write (R762, R763). -/
def fifoStalled (s : State) (x : WireXfer) : Bool :=
  decide (x.moved < xferWords s.cfg x) && match x.dir with
    | .read => decide (s.st.fifo.length = s.cfg.fifoDepth)
    | .write => decide (s.st.fifo = [])

/-- The data error bits BUS may raise for a transfer: `FRUN` and `HTO` only while a word waits for the FIFO (R762,
R763, log 16). -/
def errorMask (s : State) (x : WireXfer) : Word :=
  (match x.dir with
    | .read => 0xA280#32
    | .write => 0x8080#32) ||| if fifoStalled s x then 0xC00#32 else 0#32

/-- The effect of a controller reset when BUS completes it (R680). -/
def controllerResetEffect (s : State) : State :=
  { s with
    regs := { s.regs with cmd := s.regs.cmd &&& 0x7FFFFFFF#32, ctrl := s.regs.ctrl &&& ~~~0x1#32 }
    st := { s.st with fifo := [] }
    env := { s.env with cmds := [], xfer := none } }

/-- The effect of a FIFO reset when BUS completes it (R681). -/
def fifoResetEffect (s : State) : State :=
  { s with regs := { s.regs with ctrl := s.regs.ctrl &&& ~~~0x2#32 }, st := { s.st with fifo := [] } }

/-- A DMA reset is under way (R682, R765). -/
def dmaResetPending (s : State) : Bool := bit s.regs.ctrl 2 || bit s.regs.bmod 0

/-- The resets named complete (R765). -/
def completeResets (ctl fifo dma : Bool) (s : State) : State :=
  let s1 := if ctl then controllerResetEffect s else s
  let s2 := if fifo then fifoResetEffect s1 else s1
  if dma then dmaResetEffect s2 else s2

/-- A word moved by a transfer, which has started then (R762, R763). -/
def moveWord (c : Config) (x : WireXfer) : WireXfer :=
  { x with moved := x.moved + 1, sent := min x.total (c.w * (x.moved + 1)), doubtful := false }

/-- What a step of BUS does beside the FIFO-ready bits of a running transfer. A pushed word is a draw whole, its bytes
beyond `BYTCNT` too (R204, 93 I1, log 13). -/
def busAct (b : BusAct) (s : State) : Res :=
  match b with
  | .acceptCmd =>
    busStepIf (startCmd s && !(bit s.regs.cmd 13 && xferHolds s)) (acceptCommand s)
  | .cmdDone rto rcrc re busy r0 r1 r2 r3 =>
    match s.env.cmds with
    | [] => .fault .busContract
    | c :: _ => if (!(rto || rcrc || re) || bit c.cmd 6) && (!busy || c.signalsBusy) then
        .next (commandEnd c rto rcrc re busy r0 r1 r2 r3 s) else .fault .busContract
  | .pushWord w =>
    match s.env.xfer with
    | none => .fault .busContract
    | some x => busStepIf (decide (x.dir = .read) && !x.aborted && decide (s.st.fifo.length < s.cfg.fifoDepth)
        && decide (x.moved < xferWords s.cfg x))
        (setXfer (some (moveWord s.cfg x)) (fifoAppend w s))
  | .popWord =>
    match s.env.xfer with
    | none => .fault .busContract
    | some x => busStepIf (decide (x.dir = .write) && !x.aborted && decide (s.st.fifo ≠ [])
        && decide (x.moved < xferWords s.cfg x)) (setXfer (some (moveWord s.cfg x)) (fifoTail s))
  | .fifoReady => busStepIf (decide (readyBits s ≠ 0#32)) (raise (readyBits s) s)
  | .writeBusy =>
    match s.env.xfer with
    | none => .fault .busContract
    | some x => busStepIf (decide (x.dir = .write) && !x.aborted && decide (xferWords s.cfg x ≤ x.moved))
        { s with env := { s.env with busy := s.env.busy.set x.slot true } }
  | .dataErr v =>
    match s.env.xfer with
    | none => .fault .busContract
    | some x => busStepIf (!x.aborted && decide (v ≠ 0#32) && decide (v &&& ~~~errorMask s x = 0#32))
        (setXfer (some { x with failed := true }) (raise v s))
  | .dataOver =>
    match s.env.xfer with
    | none => .fault .busContract
    | some x => busStepIf (x.failed || x.aborted || decide (xferWords s.cfg x ≤ x.moved))
        (setXfer none (raise 0x8#32 s))
  | .resetDone ctl fifo dma =>
    busStepIf ((!ctl || bit s.regs.ctrl 0) && (!fifo || bit s.regs.ctrl 1) && (!dma || dmaResetPending s))
      (completeResets ctl fifo dma s)
  | .setPresent slot b =>
    busStepIf (decide (slot < s.cfg.nslots) && decide (s.env.present.getD slot false ≠ b))
      (raise 0x1#32 { s with env := { s.env with present := s.env.present.set slot b } })
  | .sdioInt slot =>
    busStepIf (decide (slot < s.cfg.nslots) && s.env.present.getD slot false) (raise (bitAt (16 + slot)) s)
  | .cardBusy slot =>
    busStepIf (s.env.signalled.getD slot false)
      { s with env := { s.env with busy := s.env.busy.set slot true } }
  | .busyEnd slot =>
    busStepIf (s.env.busy.getD slot false)
      { s with env := { s.env with busy := s.env.busy.set slot false } }

/-- A step of BUS. Every one leaves `RXDR` or `TXDR` set where its condition holds for the running transfer (R762, R763,
R115, log 16). -/
def busStep (b : BusAct) (s : State) : Res := Res.andThen (busAct b s) fun t => .next (raiseReady t)

end Sys2Proof.Machine
end

