-- ==== Sys2Proof/Machine/Tune.lean ====
section
/-! DEFINITION. The tuning engine (44_tuning.md). -/

namespace Sys2Proof.Machine

/-- `pos(i)`: the phase position tried `i`-th (R634). -/
def tunePos (c : Config) (i : Nat) : Nat :=
  if c.fineTune then (if i < 8 then 2 * i else 2 * (i - 8) + 1) else i

/-- `SMPL_CTRL` for a phase position (R313, R632). -/
def phaseWord (c : Config) (p drv : Nat) : Word :=
  if c.fineTune then BitVec.ofNat 32 (drv * 16 + (p % 2) * 8 + p / 2) else BitVec.ofNat 32 (drv * 16 + p)

/-- `set_phase(s, p, drv)` (R632). -/
def setPhase (slot : Nat) (p drv : Nat) (s : State) : State :=
  let w := phaseWord s.cfg p drv
  let s1 := modSlot slot (fun x => { x with smpl := w }) s
  let s2 := regWrite .SMPL_CTRL w s1
  { s2 with st := { s2.st with curSlot := some slot } }

/-- The drive-strength code of a scan (R643). -/
def drive0 (c : TuneCtx) : Nat := bits c.savedSmpl 4 4
def driveCode (cfg : Config) (c : TuneCtx) : Nat :=
  match c.scan with
  | 0 => drive0 c
  | i + 1 => cfg.drvSeq.getD i 0

/-- `L(s)`, counting at most `k` more positions (R636). -/
def runFrom (b : BitVec 16) (n : Nat) : Nat → Nat → Nat
  | 0, _ => 0
  | k + 1, s => if b.getLsbD (s % n) then 1 + runFrom b n k (s + 1) else 0

/-- `L(s)` (R636). -/
def runLen (b : BitVec 16) (n s : Nat) : Nat := runFrom b n n s

/-- The largest of a list of numbers, 0 for none. -/
def listMax : List Nat → Nat
  | [] => 0
  | x :: rest => max x (listMax rest)

/-- `Lmax` (R636). -/
def runMax (b : BitVec 16) (n : Nat) : Nat := listMax ((List.range n).map (runLen b n))

/-- `s*`: the least start of a longest run (R639). -/
def runStart (b : BitVec 16) (n : Nat) : Nat :=
  ((List.range n).find? fun s => decide (runLen b n s = runMax b n)).getD 0

/-- The median of the longest run (R637). -/
def medianPhase (b : BitVec 16) (n : Nat) : Nat := (runStart b n + (runMax b n - 1) / 2) % n

/-- Circular distance (R642). -/
def circDist (n a b : Nat) : Nat := min ((a + n - b % n) % n) ((b + n - a % n) % n)

/-- The secondary heuristic (R641). -/
def heuristicPhase (b : BitVec 16) (n q : Nat) : Nat :=
  let m0 := (runStart b n + runMax b n / 2 - 1) % n
  let m1 := (m0 + 1) % n
  if circDist n m1 q < circDist n m0 q then m1 else m0

/-- The phase TUNE_SELECT chooses for an accepted bitmap (R637). -/
def chosenPhase (c : Config) (b : BitVec 16) (prev : Option Nat) : Nat :=
  match prev with
  | none => medianPhase b (nph c)
  | some q =>
    if c.tunePrevHeuristic && decide (runMax b (nph c) % 2 = 0) then heuristicPhase b (nph c) q
    else medianPhase b (nph c)

/-- A scan is accepted (R638). -/
def scanAccepted (c : Config) (div : Nat) (b : BitVec 16) : Bool :=
  decide (max 1 (minRunAt c div) ≤ runMax b (nph c))

/-- `p | (b << 16)` (R312). -/
def tunePayload (p : Nat) (b : BitVec 16) : Word := BitVec.ofNat 32 (p + 2 ^ 16 * b.toNat)

/-- TUNE_START (R631). DESIGN CHOICE, log 7: a trace that names it for a slot of NSLOTS or more, of which R631 gives no
outcome, gets the record of an absent card. -/
def tuneStart (tag : Word) (slot : BitVec 4) (mode : BitVec 4) (cmdIndex : BitVec 6) (pattern : List Byte)
    (s : State) : State :=
  let sl := slotAt s slot.toNat
  if sl.present = false then deliver (plainRecord .ctl tag slot.toNat .noMedium 0#32) s
  else if mode ≠ sl.mode then deliver (plainRecord .ctl tag slot.toNat .invalidArg 0#32) s
  else if sl.tuned.valid = true ∧ sl.tuned.mode = mode then
    deliver (plainRecord .ctl tag slot.toNat .ok (tunePayload sl.tuned.phase sl.tuned.bitmap)) s
  else { s with st := { s.st with
    tuning := true
    tctx := some { tag := tag, slot := slot, mode := mode, cmdIndex := cmdIndex, pattern := pattern
                   idx := 0, bitmap := 0#16, scan := 0, savedSmpl := sl.smpl, await := false } } }

/-- The tuning read (R633). Its bytes go to the tuning buffer, so its list of segments is empty (R601). -/
def tuneRead (c : TuneCtx) : ReqOp where
  seq      := c.tag
  slot     := c.slot
  origin   := .tuning
  cmd      := ⟨c.cmdIndex, 0#32, .short, true⟩
  data     := some ⟨.read, BitVec.ofNat 16 c.pattern.length, 1#16, []⟩
  stopFlag := false

/-- The job ends: no context, a record (R644, R647). -/
def tuneEnd (c : TuneCtx) (code : Code) (payload : Word) (s : State) : State :=
  deliver (plainRecord .ctl c.tag c.slot.toNat code payload)
    { s with st := { s.st with tuning := false, tctx := none } }

/-- TUNE_FINISH (R646, R647). -/
def tuneFinish (code : Code) (s : State) : State :=
  match s.st.tctx with
  | none => s
  | some c =>
    if code = .noViableMode then
      let s1 := modSlot c.slot.toNat (fun x => { x with smpl := c.savedSmpl }) s
      let s2 := regWrite .SMPL_CTRL c.savedSmpl s1
      tuneEnd c code (tunePayload 0 c.bitmap) { s2 with st := { s2.st with curSlot := some c.slot.toNat } }
    else tuneEnd c code 0#32 s

/-- `tune_success(p, b)` (R644). -/
def tuneSuccess (c : TuneCtx) (p : Nat) (b : BitVec 16) (s : State) : State :=
  let s1 := setPhase c.slot.toNat p (driveCode s.cfg c) s
  tuneEnd c .ok (tunePayload p b)
    (modSlot c.slot.toNat (fun x => { x with tuned := ⟨true, c.mode, p, b⟩, prevPhase := some p }) s1)

/-- TUNE_SELECT (R637). -/
def tuneSelect (s : State) : State :=
  match s.st.tctx with
  | none => s
  | some c =>
    if scanAccepted s.cfg s.st.clkDiv c.bitmap then
      tuneSuccess c (chosenPhase s.cfg c.bitmap (slotAt s c.slot.toNat).prevPhase) c.bitmap s
    else if c.scan < s.cfg.tuneRetryMax then
      { s with st := { s.st with tctx := some { c with scan := c.scan + 1, idx := 0, bitmap := 0#16 } } }
    else tuneFinish .noViableMode s

/-- TUNE_RESULT(code) (R635). DESIGN CHOICE, log 7: without a tuning job it has no effect. -/
def tuneResult (code : Code) (s : State) : State :=
  match s.st.tctx with
  | none => s
  | some c =>
    if code = .noMedium ∨ code = .hardFailure then
      tuneFinish code { s with st := { s.st with tctx := some { c with await := false } } }
    else
      let pass := decide (code = .ok) && decide (s.st.tbuf.take c.pattern.length = c.pattern)
      { s with st := { s.st with tctx := some { c with
          await := false
          bitmap := if pass then c.bitmap ||| (1#16 <<< tunePos s.cfg c.idx) else c.bitmap
          idx := c.idx + 1 } } }

end Sys2Proof.Machine
end

