-- ==== Sys2Proof/Machine/Complete.lean ====
section
/-! DEFINITION. COMPLETE and the fatal flush (41_state_machine.md section 6). -/

namespace Sys2Proof.Machine

/-- The completion record of a request (R510). -/
def reqRecord (a : Active) : Completion where
  kind     := .req
  tag      := a.seq
  slot     := a.slot.toNat
  code     := summary a
  resp0    := a.resp0
  resp1    := a.resp1
  resp2    := a.resp2
  resp3    := a.resp3
  stopResp := a.stopResp
  bytes    := if a.dataOk then dataLen a.toReqOp else 0
  payload  := 0#32

/-- No request is active any more (R510). -/
def clearActive (s : State) : State :=
  { s with st := { s.st with
    wd := { s.st.wd with armed := false }, active := none, cst := .cIdle, dst := .dIdle } }

/-- The buffers of a DMA request that completes HARD_FAILURE stay the engine's (R790 (c), R812, log 15). -/
def keepBuffers (a : Active) (s : State) : State :=
  if a.path = .dma ∧ summary a = .hardFailure then
    { s with ctl := { s.ctl with kept := s.ctl.kept ++ reqSegs a.toReqOp } }
  else s

/-- COMPLETE (R510). The record of a request of origin TUNING goes to the tuning job. -/
def completeActive (s : State) : State :=
  match s.st.active with
  | none => s
  | some a =>
    match a.origin with
    | .host => deliver (reqRecord a) (keepBuffers a (clearActive s))
    | .tuning => tuneResult (summary a) (clearActive s)

/-- Records for the requests of a queue, in order (R505, R515). -/
def queueRecords (slot : Nat) (code : Code) (q : List Request) : List Completion :=
  q.map fun r => plainRecord .req r.seq slot code 0#32

def deliverAll (cs : List Completion) (s : State) : State :=
  { s with st := { s.st with cport := s.st.cport ++ cs } }

/-- The records FATAL_FLUSH gives the queued requests: slot by slot, in queue order (R515). -/
def flushRecords : Nat → List Slot → List Completion
  | _, [] => []
  | i, sl :: rest => queueRecords i .hardFailure sl.queue ++ flushRecords (i + 1) rest

/-- FATAL_FLUSH after the active request: the tuning job, the slot queues, the control queue (R515). -/
def flushQueues (s : State) : State :=
  let s1 := if s.st.tuning then tuneFinish .hardFailure s else s
  let s2 := deliverAll (flushRecords 0 s1.st.slots) s1
  let s3 := { s2 with st := { s2.st with slots := s2.st.slots.map fun x => { x with queue := [] } } }
  let s4 := deliverAll ((s3.st.ctlq.filter fun c => !isInit c).map fun c =>
    plainRecord .ctl c.tag c.slot.toNat .hardFailure 0#32) s3
  { s4 with st := { s4.st with ctlq := s4.st.ctlq.filter isInit } }

/-- FATAL_FLUSH after the DMA stop, whose timeout is ignored (R515). -/
def flushRest (s : State) : State :=
  flushQueues (completeActive (modActive (fun a => { a with fatalErr := some .hardFailure }) (setRet .ok s)))

end Sys2Proof.Machine
end

