-- ==== Sys2Proof/Machine/Pio.lean ====
section
/-! DEFINITION. The PIO controller (43_pio.md). -/

namespace Sys2Proof.Machine

/-- `next_byte()` on a scatter list from segment number `seg`, byte `off`: the byte's address and the cursor after it
(R601). -/
def nextByte : List Seg → Nat → Nat → Option (Nat × Nat × Nat)
  | [], _, _ => none
  | g :: rest, seg, off =>
    if off < g.len.toNat then
      some (g.addr.toNat + off, if off + 1 = g.len.toNat then (seg + 1, 0) else (seg, off + 1))
    else nextByte rest (seg + 1) 0

/-- The scatter list of the active request; empty without one. -/
def activeSg (s : State) : List Seg :=
  match s.st.active with
  | none => []
  | some a => reqSegs a.toReqOp

/-- The active request is a tuning read: its stream is the tuning buffer (R601, R609). -/
def onTuneBuffer (s : State) : Bool :=
  match s.st.active with
  | none => false
  | some a => decide (a.origin = .tuning)

def setCursor (seg off : Nat) (s : State) : State :=
  { s with st := { s.st with pio := { s.st.pio with seg := seg, off := off } } }

/-- A stream byte stored at the cursor (R601, R207). -/
def storeByte (b : Byte) (s : State) : Except Fault State :=
  if onTuneBuffer s then
    if s.st.pio.off < s.st.tbuf.length then
      .ok (setCursor s.st.pio.seg (s.st.pio.off + 1) { s with st := { s.st with tbuf := s.st.tbuf.set s.st.pio.off b } })
    else .error .pioCursor
  else match nextByte ((activeSg s).drop s.st.pio.seg) s.st.pio.seg s.st.pio.off with
    | none => .error .pioCursor
    | some (a, seg, off) => (guardedStore s a 1 b.toNat).map (setCursor seg off)

/-- A stream byte loaded at the cursor (R601, R207). -/
def loadByte (s : State) : Except Fault (Byte × State) :=
  if onTuneBuffer s then
    match s.st.tbuf[s.st.pio.off]? with
    | some b => .ok (b, setCursor s.st.pio.seg (s.st.pio.off + 1) s)
    | none => .error .pioCursor
  else match nextByte ((activeSg s).drop s.st.pio.seg) s.st.pio.seg s.st.pio.off with
    | none => .error .pioCursor
    | some (a, seg, off) => match memLoad s a 1 with
      | none => .error (.unmapped a)
      | some v => .ok (BitVec.ofNat 8 v, setCursor seg off s)

/-- Stream bytes stored in order. -/
def storeBytes : List Byte → State → Except Fault State
  | [], s => .ok s
  | b :: rest, s => do
    let s1 ← storeByte b s
    storeBytes rest s1

/-- The next `n` stream bytes. -/
def loadBytes : Nat → State → Except Fault (List Byte × State)
  | 0, s => .ok ([], s)
  | n + 1, s => do
    let (b, s1) ← loadByte s
    let (bs, s2) ← loadBytes n s1
    .ok (b :: bs, s2)

/-- `st.pio.remaining` less `k`. -/
def takeRemaining (k : Nat) (s : State) : State :=
  { s with st := { s.st with pio := { s.st.pio with remaining := s.st.pio.remaining - k } } }

/-- The bytes of the next FIFO word that belong to the stream (R603, R605). -/
def wordShare (s : State) : Nat := min s.cfg.w s.st.pio.remaining

/-- `n` words pulled; `m` counts the bytes moved (R603). -/
def pullWords : Nat → Nat → State → Except Fault (Nat × State)
  | 0, m, s => .ok (m, s)
  | n + 1, m, s => do
    let (w, s1) ← dataRead s
    let s2 ← storeBytes ((beatBytes s.cfg.w w).take (wordShare s)) s1
    pullWords n (m + wordShare s) (takeRemaining (wordShare s) s2)

/-- `n` words pushed; `m` counts the bytes moved (R605, R606). -/
def pushWords : Nat → Nat → State → Except Fault (Nat × State)
  | 0, m, s => .ok (m, s)
  | n + 1, m, s => do
    let (bs, s1) ← loadBytes (wordShare s) s
    let s2 ← dataWrite (beatOf bs) s1
    pushWords n (m + wordShare s) (takeRemaining (wordShare s) s2)

/-- Words the stream still needs. -/
def wordsLeft (s : State) : Nat := ceilDiv s.st.pio.remaining s.cfg.w

/-- Words a PIO_PULL moves (R603). -/
def pullCount (s : State) : Nat := min (bits (regRead .STATUS s) 17 13) (wordsLeft s)

/-- Words a PIO_PUSH moves (R605). -/
def pushCount (s : State) : Nat := min (s.cfg.fifoDepth - bits (regRead .STATUS s) 17 13) (wordsLeft s)

/-- The bytes moved are the micro-operation's answer (R603, R605). -/
def setCount (n : Nat) (s : State) : State := { s with ctl := { s.ctl with retCount := n } }

/-- A data error is recorded for the active request. -/
def hasDataErr (s : State) : Bool :=
  match s.st.active with
  | none => false
  | some a => a.dataErr.isSome

/-- PIO_PULL (R603), with R604's model fault at a drain. -/
def pioPull (drain : Bool) (s : State) : Except Fault State := do
  let (m, s1) ← pullWords (pullCount s) 0 s
  if drain && decide (s1.st.pio.remaining ≠ 0) && !hasDataErr s1 then .error .pioDrainShort
  else .ok (setCount m s1)

/-- The end of a PIO write: `txdone`, and TXDR masked (R605). -/
def txFinish (s : State) : State :=
  match s.st.active with
  | none => s
  | some a =>
    if s.st.pio.remaining = 0 ∧ a.txdone = false then
      regWrite .INTMASK s.st.baseMask { s with st := { s.st with active := some { a with txdone := true } } }
    else s

/-- PIO_PUSH (R605). -/
def pioPush (s : State) : Except Fault State := do
  let (m, s1) ← pushWords (pushCount s) 0 s
  .ok (setCount m (txFinish s1))

/-- PIO_SETUP (R602). -/
def pioSetup (d : DataSpec) (s : State) : State :=
  let s1 := { s with st := { s.st with
    pio := ⟨0, 0, d.blksz.toNat * d.blocks.toNat⟩, partBuf := []
    active := s.st.active.map fun a => { a with txdone := false } } }
  regWrite .INTMASK (s.st.baseMask ||| (match d.dir with | .read => 0x20#32 | .write => 0x10#32)) s1

end Sys2Proof.Machine
end

