-- ==== Sys2Proof/Machine/Recovery.lean ====
section
/-! DEFINITION. The recovery primitives as lists of work, and the state changes between their polls
(45_recovery.md, 42_dma.md R565, R566, 40_host_ops.md R412). -/

namespace Sys2Proof.Machine

/-! ### Micro-operations as lists of work -/

/-- DMA_STOP (R565). -/
def dmaStopProg : List Work := [.dmaOff, .await .dmaStopped .fatal, .dmaRelease]

/-- `DMA_STOP_NOFAIL` (R565): no FATAL, and the arena stays with the DMA engine on a timeout. -/
def dmaStopNofailProg : List Work := [.dmaOff, .await .dmaStopped .noFail, .dmaRelease]

/-- DMA_RESET (R566). -/
def dmaResetProg : List Work := [.assertDmaReset, .await .dmaResetClear .fatal, .dmaRelease]

/-- RESET_FIFO (R684). -/
def resetFifoProg : List Work := [.assertReset 0x2#32, .await (.resetClear 0x2#32) .fatal, .clearPartBuf]

/-- RESET_CONTROLLER (R685). -/
def resetControllerProg : List Work := [.assertReset 0x7#32, .await (.resetClear 0x7#32) .fatal, .clearPartBuf]

/-- WAIT_NOT_BUSY (R686): the second window is `busyAgain`'s. -/
def waitNotBusyProg : List Work := [.await .notBusy .busy, .busyAgain]

/-- UPDATE_CLOCK (R412). -/
def updateClockProg (slot : BitVec 4) : List Work :=
  [.await .startClear .fatal, .writeUpdateClock slot, .await .startClear .fatal]

/-- ISSUE_STOP (R692). -/
def issueStopProg : List Work := [.await .startClear .fatal, .writeStop]

/-- RECOVER for the active request `a` (R690). -/
def recoverProg (a : Active) : List Work :=
  (if a.path = .dma then dmaStopProg ++ dmaResetProg else []) ++ resetFifoProg
    ++ (if deep a then resetControllerProg else []) ++ [.recoverEnd]

/-! ### Polls (R47) -/

/-- The condition of a poll, by register reads. -/
def pollHolds (c : PollCond) (s : State) : Bool :=
  match c with
  | .startClear => !bit (regRead .CMD s) 31
  | .resetClear mask => !anyBit (regRead .CTRL s) mask
  | .dmaResetClear => !bit (regRead .CTRL s) 2 && !bit (regRead .BMOD s) 0
  | .dmaStopped => decide (bits (regRead .IDSTS s) 13 4 = 0)
  | .notBusy => !bit (regRead .STATUS s) 9

/-- The timeout of a poll in milliseconds (R412, R565, R566, R684 to R686, R692). -/
def pollTimeout (c : PollCond) (cfg : Config) : Nat :=
  match c with
  | .startClear => cfg.cmdAcceptTimeout
  | .resetClear _ => cfg.resetTimeout
  | .dmaResetClear => cfg.resetTimeout
  | .dmaStopped => cfg.resetTimeout
  | .notBusy => cfg.busyTimeout

/-- What a poll's expiry does. -/
def pollExpire (e : PollEnd) (s : State) : State :=
  match e with
  | .fatal => raiseFatal s
  | .busy => setRet .busyTimeout s
  | .noFail => setRet .hardFailure s

/-- One evaluation of a poll: the state after the poll if it ended, none while it goes on (R47). -/
def pollOnce (c : PollCond) (deadline : Nat) (e : PollEnd) (s : State) : Option State :=
  if s.st.now < deadline then (if pollHolds c s then some s else none) else some (pollExpire e s)

/-! ### Between the polls -/

/-- Empties `st.part_buf` (R684, R685). -/
def clearPartBuf (s : State) : State := { s with st := { s.st with partBuf := [] } }

/-- After the first busy window: on its expiry a controller reset and the second window (R686). -/
def busyAgain (s : State) : State :=
  if s.ctl.ret = .busyTimeout then
    push (resetControllerProg ++ [.await .notBusy .busy]) (setRet .ok s)
  else s

/-- UPDATE_CLOCK's command (R412, R309). -/
def writeUpdateClock (slot : BitVec 4) (s : State) : State :=
  regWrite .CMD (0x80202000#32 ||| (slot.zeroExtend 32 <<< 16)) s

/-- ISSUE_STOP's command (R692, R309). -/
def writeStop (s : State) : State :=
  match s.st.active with
  | none => s
  | some a =>
    setCst .cStop (regWrite .CMD (0x8000414C#32 ||| (a.slot.zeroExtend 32 <<< 16)) (regWrite .CMDARG 0#32 s))

/-- RECOVER's end (R690). -/
def recoverEnd (s : State) : State :=
  let s1 := regWrite .RINTSTS 0xFFFE#32 s
  let s2 := if s.cfg.dmaPresent then regWrite .IDSTS 0x337#32 s1 else s1
  let s3 := regWrite .INTMASK s.st.baseMask s2
  { s3 with st := { s3.st with pio := ⟨0, 0, 0⟩, partBuf := [] } }

/-- The data phase enters DRecovery; on the PIO path the FIFO-ready interrupts are masked (R472, R491, R492). -/
def toDRecovery (s : State) : State :=
  match s.st.active with
  | none => s
  | some a =>
    setDst .dRecovery (if a.path = .pio then regWrite .INTMASK s.st.baseMask s else s)

/-- The data phase is quiesced: on the DMA path DMA_STOP first (R472, R491, R492). -/
def quiesceData (s : State) : State :=
  match s.st.active with
  | none => s
  | some a => if a.path = .dma then push (dmaStopProg ++ [.toDRecovery]) s else toDRecovery s

end Sys2Proof.Machine
end

