-- ==== Sys2Proof/Machine/Slots.lean ====
section
/-! DEFINITION. The slot manager, dispatch and card presence (41_state_machine.md sections 2, 3 and 7). -/

namespace Sys2Proof.Machine

/-- ENQUEUE (R455). -/
def enqueue (r : Request) (s : State) : State :=
  modSlot r.slot.toNat (fun x => { x with queue := x.queue ++ [r] }) s

/-- The active record of a request just dispatched, its flags at R141's values. -/
def Active.fresh (r : Request) : Active where
  toRequest    := r
  cmdComplete  := false
  stopIssued   := false
  stopDone     := false
  stopTries    := 0
  dbusyChecked := false
  cbusyChecked := false
  sbusyChecked := false
  dataOk       := false
  recovPending := false
  recovered    := false
  path         := .none
  dmaDone      := false
  bytesDone    := 0
  pioLen       := 0
  txdone       := false

/-- `cmdw(R)` (R308). -/
def cmdwOf (r : ReqOp) (needInit : Bool) : Word :=
  BitVec.ofNat 32 (r.cmd.index.toNat
    + 2 ^ 6 * bitVal (decide (r.cmd.resp ≠ .noResp))
    + 2 ^ 7 * bitVal (decide (r.cmd.resp = .long))
    + 2 ^ 8 * bitVal r.cmd.crc
    + 2 ^ 9 * bitVal r.data.isSome
    + 2 ^ 10 * bitVal (dirIs r .write)
    + 2 ^ 13
    + 2 ^ 15 * bitVal needInit
    + 2 ^ 16 * r.slot.toNat
    + 2 ^ 31)

/-- DISPATCH up to the data path: the request becomes active, the watchdog is armed, the slot's phase, the status
clear and `INTMASK` are written (R460, R645). -/
def dispatchArm (r : Request) (s : State) : State :=
  let s1 := { s with st := { s.st with
    active := some (Active.fresh r)
    wd := ⟨true, s.st.now + ticks s.cfg s.cfg.reqTimeout, r.seq⟩ } }
  let s2 := if s.st.curSlot = some r.slot.toNat then s1
    else
      let s' := regWrite .SMPL_CTRL (slotAt s r.slot.toNat).smpl s1
      { s' with st := { s'.st with curSlot := some r.slot.toNat } }
  regWrite .INTMASK s.st.baseMask (regWrite .RINTSTS 0x30#32 s2)

/-- DISPATCH's DMA attempt: the list offered to DMA_PREPARE if there is a DMA engine and the request is HOST's (R460). -/
def dispatchPrepare (r : Request) (d : DataSpec) (s : State) : Except Fault (Code × State) :=
  if s.cfg.dmaPresent && decide (r.origin = .host) then prepare d.sg s else .ok (.dmaDeclined, s)

/-- DISPATCH's data path: DMA if `prepare` accepts the list, else PIO (R460). -/
def dispatchData (r : Request) (d : DataSpec) (s : State) : Except Fault State := do
  let s1 := regWrite .BYTCNT (BitVec.ofNat 32 (d.blksz.toNat * d.blocks.toNat))
    (regWrite .BLKSIZ (d.blksz.zeroExtend 32) s)
  let (c, s2) ← dispatchPrepare r d s1
  if c = .ok then
    .ok (setDst .dXfer (dmaStart d.dir (modActive (fun a => { a with path := .dma }) s2)))
  else
    .ok (setDst .dXfer (pioSetup d (modActive (fun a => { a with path := .pio }) s2)))

/-- DISPATCH's data path: none for a command with no data (R460). -/
def dispatchPath (r : Request) (s : State) : Except Fault State :=
  match r.data with
  | none => .ok s
  | some d => dispatchData r d s

/-- DISPATCH up to the command-accept poll, which it leaves as work (R460). A model fault while a request is active
(R520) or on a slot that does not exist (R142). -/
def dispatchBegin (r : Request) (s : State) : Except Fault State :=
  if s.st.active.isSome then .error .requestActive
  else if s.cfg.nslots ≤ r.slot.toNat then .error .noSuchSlot
  else do
    let s2 ← dispatchPath r (dispatchArm r s)
    .ok (push [.await .startClear .fatal, .writeCommand] s2)

/-- DISPATCH's command write (R460, R308). -/
def writeCommand (s : State) : State :=
  match s.st.active with
  | none => s
  | some a =>
    let s1 := regWrite .CMDARG a.cmd.arg s
    let s2 := regWrite .CMD (cmdwOf a.toReqOp (slotAt s a.slot.toNat).needInit) s1
    setCst .cIssuing (modSlot a.slot.toNat (fun x => { x with needInit := false }) s2)

/-- The slot DISPATCH_NEXT serves: the first after `st.rr` with a request queued (R456). -/
def nextSlot (s : State) : Option Nat :=
  ((List.range s.cfg.nslots).map fun k => (s.st.rr + k + 1) % s.cfg.nslots).find? fun i =>
    decide ((slotAt s i).queue ≠ [])

/-- DISPATCH_NEXT (R456); no step while it is not enabled (log 6). -/
def dispatchNext (s : State) : Except Fault State :=
  if dispatchReady s then
    match nextSlot s with
    | none => .ok s
    | some i =>
      match (slotAt s i).queue with
      | [] => .ok s
      | r :: rest =>
        let s1 := modSlot i (fun x => { x with queue := rest }) s
        dispatchBegin r { s1 with st := { s1.st with rr := i } }
  else .ok s

/-! ### Card presence (R505) -/

/-- A slot's fields after an insertion (R505). -/
def Slot.inserted (x : Slot) : Slot :=
  { x with present := true, mode := 0#4, width := 1#4, needInit := true
           tuned := { x.tuned with valid := false }, prevPhase := none, smpl := 0#32 }

/-- An insertion (R505). -/
def cardInserted (i : Nat) (s : State) : State :=
  let s1 := modSlot i Slot.inserted s
  let s2 := regClr .CTYPE (bitAt i ||| bitAt (16 + i)) s1
  let s3 := regClr .UHS_REG (bitAt (16 + i)) s2
  deliver (plainRecord .cd 0#32 i .ok 1#32)
    { s3 with st := { s3.st with curSlot := if s3.st.curSlot = some i then none else s3.st.curSlot } }

/-- The active request belongs to slot `i`. -/
def activeOn (i : Nat) (s : State) : Bool :=
  match s.st.active with
  | none => false
  | some a => decide (a.slot.toNat = i)

/-- The active request moves its data on the path given. -/
def activePath (p : Path) (s : State) : Bool :=
  match s.st.active with
  | none => false
  | some a => decide (a.path = p)

/-- A removal up to the slot's queued requests (R505): the slot's active request is quiesced, the controller reset and
the request completed; what is left is work. -/
def cardRemoved (i : Nat) (rest : List Work) (s : State) : State :=
  let s1 := modSlot i (fun x => { x with present := false }) s
  if activeOn i s1 then
    let s2 := if activePath .pio s1 then regWrite .INTMASK s1.st.baseMask s1 else s1
    push ((if activePath .dma s1 then dmaStopProg ++ dmaResetProg else []) ++ resetControllerProg
      ++ [.cancelActive, .removed i] ++ rest) s2
  else push (.removed i :: rest) s1

/-- The removed slot's active request completes with NO_MEDIUM (R505). -/
def cancelActive (s : State) : State :=
  completeActive (modActive (fun a => { a with nomedium := some .noMedium }) s)

/-- The tuning job is slot `i`'s. -/
def tuningOn (i : Nat) (s : State) : Bool :=
  match s.st.tctx with
  | none => false
  | some c => s.st.tuning && decide (c.slot.toNat = i)

/-- The end of a removal: the queued requests, the tuning job, the notification (R505). -/
def removalEnd (i : Nat) (s : State) : State :=
  let s1 := deliverAll (queueRecords i .noMedium (slotAt s i).queue) s
  let s2 := modSlot i (fun x => { x with queue := [] }) s1
  let s3 := if tuningOn i s2 && s2.st.active.isNone then tuneFinish .noMedium s2 else s2
  deliver (plainRecord .cd 0#32 i .ok 0#32) s3

/-- CARD_SCAN's look at the next slot of `todo`, with `cd` the value read from `CDETECT` (R505). -/
def scanStep (cd : Word) (todo : List Nat) (s : State) : State :=
  match todo with
  | [] => s
  | i :: rest =>
    let p := !bit cd i
    if p && !(slotAt s i).present then push [.scan cd rest] (cardInserted i s)
    else if !p && (slotAt s i).present then cardRemoved i [.scan cd rest] s
    else push [.scan cd rest] s

/-- CARD_SCAN begins: `CDETECT` is read once (R505). -/
def cardScan (s : State) : State := push [.scan (regRead .CDETECT s) (List.range s.cfg.nslots)] s

end Sys2Proof.Machine
end

