-- ==== Sys2Proof/Machine/HostPort.lean ====
section
/-! DEFINITION. The host-port operations: the acceptance step (40_host_ops.md R400, R401, R405). One meaning for each
operation; each leaves the acceptance triple in `ctl.accepted`. -/

namespace Sys2Proof.Machine

/-- The acceptance triple HOST receives (R400). -/
def answer (status : Code) (tag value : Word) (s : State) : State :=
  { s with ctl := { s.ctl with accepted := ⟨status, tag, value⟩ } }

/-- A refusal: no other effect (R307). -/
def refuse (c : Code) (s : State) : State := answer c 0#32 0#32 s

/-- The checks of R401 on the packet, the engine's state and the slot, in the order written: the first that fails. -/
def refusalOf (op : HostOp) (slot : BitVec 4) (ws : List Word) (s : State) : Option Code :=
  if !lengthOk op ws then some .invalidArg
  else if reservedSet op ws then some .illegalOp
  else if !inRange s.cfg op slot ws then some .invalidArg
  else if decide (op ≠ .controllerInit) && !s.st.inited then some .notReady
  else if decide (op ≠ .controllerInit) && s.st.fatal then some .hardFailure
  else if (decide (op = .submit) || decide (op = .setBusTiming) || decide (op = .tune))
      && !(slotAt s slot.toNat).present then some .noMedium
  else if decide (op = .submit) && decide ((slotAt s slot.toNat).queue.length = s.cfg.qdepth) then some .queueFull
  else if decide (op ≠ .submit) && decide (op ≠ .getCardPresent)
      && decide (s.st.ctlq.length = s.cfg.qdepth) then some .queueFull
  else none

/-- An accepted operation takes the next tag, schedules the DPU, and its status is OK (R401, R404). -/
def takeTag (s : State) : State :=
  answer .ok s.st.nextSeq 0#32
    { s with st := { s.st with nextSeq := s.st.nextSeq + 1#32, dpuSched := true } }

/-- An accepted control operation joins `st.ctlq` (R401). -/
def queueCtl (op : CtlOp) (slot : BitVec 4) (s : State) : State :=
  takeTag { s with st := { s.st with ctlq := s.st.ctlq ++ [⟨op, s.st.nextSeq, slot⟩] } }

/-- A control operation's acceptance step. -/
def acceptCtl (op : HostOp) (c : CtlOp) (slot : BitVec 4) (ws : List Word) (s : State) : State :=
  match refusalOf op slot ws s with
  | some code => refuse code s
  | none => queueCtl c slot s

/-- SUBMIT (R406). -/
def execSubmit (slot : BitVec 4) (ws : List Word) (s : State) : Res :=
  match refusalOf .submit slot ws s with
  | some code => .next (refuse code s)
  | none => .next (takeTag (enqueue (requestOf s.st.nextSeq slot ws) s))

/-- SET_BUS_TIMING (R407). -/
def execSetBusTiming (slot : BitVec 4) (ws : List Word) (s : State) : Res :=
  .next (acceptCtl .setBusTiming (.setBusTiming (BitVec.ofNat 4 (bits (operand ws 1) 0 4))
    (BitVec.ofNat 4 (bits (operand ws 1) 8 4))) slot ws s)

/-- SET_CLOCK (R409). -/
def execSetClock (slot : BitVec 4) (ws : List Word) (s : State) : Res :=
  .next (acceptCtl .setClock (.setClock (operand ws 1)) slot ws s)

/-- GET_CARD_PRESENT (R413): the engine's presence flag, no tag, nothing queued. -/
def execGetCardPresent (slot : BitVec 4) (ws : List Word) (s : State) : Res :=
  match refusalOf .getCardPresent slot ws s with
  | some code => .next (refuse code s)
  | none => .next (answer .ok 0#32 (if (slotAt s slot.toNat).present then 1#32 else 0#32) s)

/-- TUNE (R414). -/
def execTune (slot : BitVec 4) (ws : List Word) (s : State) : Res :=
  .next (acceptCtl .tune (.tune (BitVec.ofNat 4 (bits (operand ws 1) 0 4)) (BitVec.ofNat 6 (bits (operand ws 1) 8 6))
    ((patternBytes ws).take (bits (operand ws 1) 16 16))) slot ws s)

/-- SDIO_IRQ_ACK's acceptance (R415, R401). -/
def execSdioIrqAck (slot : BitVec 4) (ws : List Word) (s : State) : Res :=
  .next (acceptCtl .sdioIrqAck .sdioIrqAck slot ws s)

/-- CONTROLLER_INIT's acceptance (R416). -/
def execControllerInit (slot : BitVec 4) (ws : List Word) (s : State) : Res :=
  .next (acceptCtl .controllerInit .controllerInit slot ws s)

end Sys2Proof.Machine
end

