-- ==== Sys2Proof/Machine/Irq.lean ====
section
/-! DEFINITION. The interrupt agent IRQ and the agent TIMER (60_exceptions.md sections 2 and 4). -/

namespace Sys2Proof.Machine

/-- An event if `b`. -/
def eventIf (b : Bool) (code : Nat) (payload : Word) : List Word :=
  if b then [eventWord code (payload.truncate 24)] else []

/-- DATA_ERR's payload for a snapshot (R305). -/
def dataErrPayload (m d : Word) : Word :=
  (m &&& 0xAE80#32) ||| (if bit d 2 then 0x10000#32 else 0#32) ||| (if bit d 4 then 0x20000#32 else 0#32)

/-- The events of a snapshot, in the order they are posted (R730, R731). -/
def irqEvents (m d : Word) : List Word :=
  eventIf (bit m 0) 7 0#32
    ++ eventIf (anyBit m 0x1146#32) 1 (m &&& 0x1146#32)
    ++ eventIf (anyBit m 0xAE80#32 || bit d 2 || bit d 4) 2 (dataErrPayload m d)
    ++ eventIf (bit m 5) 3 0#32
    ++ eventIf (bit m 4) 4 0#32
    ++ eventIf (bit m 3) 5 0#32
    ++ eventIf (bit d 0 || bit d 1) 6 (d &&& 0x3#32)
    ++ eventIf (anyBit m 0xFFFF0000#32) 8 (m >>> 16)

/-- Events posted in order. -/
def postAll : List Word → State → State
  | [], s => s
  | e :: rest, s => postAll rest (post e s)

/-- The `IDSTS` bits of a snapshot (R730). -/
def idstsSnapshot (s : State) : Word := regRead .IDSTS s &&& regRead .IDINTEN s &&& 0x337#32

/-- IRQ_DISPATCH (R730): one snapshot acknowledged and its events posted. -/
def irqDispatch (s : State) : State :=
  let m := regRead .MINTSTS s
  let d := idstsSnapshot s
  let s1 := regWrite .IDSTS d (regWrite .RINTSTS m s)
  let s2 := postAll (irqEvents m d) s1
  { s2 with st := { s2.st with dpuSched := true } }

/-- IRQ_DISPATCH. -/
def execIrqDispatch (s : State) : Res := .next (irqDispatch s)

/-- The watchdog has expired at time `t` (R745). -/
def watchdogExpired (w : Watchdog) (t : Nat) : Bool := w.armed && decide (w.deadline ≤ t)

/-- WATCHDOG_CHECK: the tick and the check in one step (R745, R151). -/
def watchdogCheck (s : State) : State :=
  let s1 := { s with st := { s.st with now := s.st.now + 1 } }
  if watchdogExpired s.st.wd (s.st.now + 1) then
    let s2 := post (eventWord 9 (s.st.wd.seq.truncate 24)) s1
    { s2 with st := { s2.st with wd := { s2.st.wd with armed := false }, dpuSched := true } }
  else s1

/-- WATCHDOG_CHECK. -/
def execWatchdogCheck (s : State) : Res := .next (watchdogCheck s)

end Sys2Proof.Machine
end

