-- ==== Sys2Proof/Machine/Control.lean ====
section
/-! DEFINITION. Running control operations (40_host_ops.md sections 3 to 9, 70_reset_and_hazards.md R811). -/

namespace Sys2Proof.Machine

/-- `divider(rate)` for a rate above 0 (R410). -/
def clockDivider (c : Config) (rate : Nat) : Nat :=
  if c.clkSrcHz ≤ rate then 0 else min 255 (ceilDiv c.clkSrcHz (2 * rate))

/-- `actual(div)` (R410). -/
def clockRate (c : Config) (div : Nat) : Nat := if div = 0 then c.clkSrcHz else c.clkSrcHz / (2 * div)

/-- SDIO_IRQ_ACK's execution (R415). -/
def runAck (tag : Word) (slot : BitVec 4) (s : State) : State :=
  let m := bitAt (16 + slot.toNat)
  let s1 := modSlot slot.toNat (fun x => { x with sdioEn := true }) s
  let s2 := { s1 with st := { s1.st with baseMask := s1.st.baseMask ||| m } }
  deliver (plainRecord .ctl tag slot.toNat .ok 0#32) (regSet .INTMASK m s2)

/-- SET_BUS_TIMING's register writes (R408, R315). -/
def setTiming (slot mode width : BitVec 4) (s : State) : State :=
  let i := slot.toNat
  let c := (regRead .CTYPE s &&& ~~~(bitAt i ||| bitAt (16 + i)))
    ||| (if width = 4#4 then bitAt i else 0#32) ||| (if width = 8#4 then bitAt (16 + i) else 0#32)
  let s1 := regWrite .CTYPE c s
  let u := (regRead .UHS_REG s1 &&& ~~~bitAt (16 + i))
    ||| (if mode = 7#4 ∨ mode = 8#4 then bitAt (16 + i) else 0#32)
  modSlot i (fun x => { x with
    tuned := { x.tuned with valid := decide (mode = x.mode) && x.tuned.valid }
    mode := mode, width := width }) (regWrite .UHS_REG u s1)

/-- `CLKENA[s]` cleared or set (R411). -/
def clkGate (slot : BitVec 4) (on : Bool) (s : State) : State :=
  if on then regSet .CLKENA (bitAt slot.toNat) s else regClr .CLKENA (bitAt slot.toNat) s

/-- SET_CLOCK's end for rate 0 (R411). -/
def clkStopped (s : State) : State := { s with st := { s.st with clkRate := 0 } }

/-- SET_CLOCK's end (R411). -/
def clkDone (div : Nat) (s : State) : State :=
  { s with st := { s.st with clkDiv := div, clkRate := clockRate s.cfg div } }

/-- SET_CLOCK's work between the busy wait and the completion (R411). -/
def setClockProg (c : Config) (slot : BitVec 4) (rate : Word) : List Work :=
  [.clkGate slot false] ++ updateClockProg slot ++
  (if rate = 0#32 then [.clkStopped]
   else [.clkSetDiv (clockDivider c rate.toNat)] ++ updateClockProg slot ++ [.clkGate slot true]
     ++ updateClockProg slot ++ [.clkDone (clockDivider c rate.toNat)])

/-- SET_CLOCK's payload (R411). -/
def setClockPayload (c : Config) (rate : Word) : Word :=
  if rate = 0#32 then 0#32 else BitVec.ofNat 32 (clockRate c (clockDivider c rate.toNat))

/-- A slot's fields after CONTROLLER_INIT (R811). -/
def Slot.initialised (x : Slot) : Slot :=
  { x with present := false, mode := 0#4, width := 1#4, needInit := true
           tuned := { x.tuned with valid := false }, prevPhase := none, smpl := 0#32, sdioEn := false }

/-- `FIFOTH` as CONTROLLER_INIT writes it (R117, R811). DESIGN CHOICE, log 32: `FIFO_DEPTH/2` of an odd `FIFO_DEPTH` is rounded
down. -/
def initFifoth (c : Config) : Word :=
  BitVec.ofNat 32 (2 * 2 ^ 28 + (c.fifoDepth / 2 - 1) * 2 ^ 16 + c.fifoDepth / 2)

/-- CONTROLLER_INIT's writes to the engine's fields (R811). -/
def initFields (s : State) : State :=
  { s with st := { s.st with
    evq := [], wd := { s.st.wd with armed := false }, curSlot := none, rr := s.cfg.nslots - 1
    clkRate := 0, clkDiv := 0, slots := s.st.slots.map Slot.initialised } }

/-- CONTROLLER_INIT between its resets and its scan (R811); HOST's buffers are its own again (R790 (c)). -/
def initRegs (s : State) : State :=
  let s1 := regWrite .RINTSTS 0xFFFFFFFF#32 s
  let s2 := if s.cfg.dmaPresent then regWrite .IDSTS 0x337#32 s1 else s1
  let s3 := initFields s2
  let s4 := regWrite .UHS_REG 0#32 (regWrite .CTYPE 0#32 (regWrite .CLKDIV 0#32 (regWrite .CLKENA 0#32 s3)))
  let s5 := regWrite .SMPL_CTRL 0#32 s4
  let s6 := { s5 with st := { s5.st with baseMask := 0xBFCF#32 } }
  let s7 := regWrite .TMOUT 0xFFFFFFFF#32 (regWrite .FIFOTH (initFifoth s.cfg) (regWrite .INTMASK 0xBFCF#32 s6))
  let s8 := if s.cfg.dmaPresent then
      regWrite .IDINTEN 0x317#32 (regWrite .DBADDR (BitVec.ofNat 32 s.cfg.ringBase) s7) else s7
  let s9 := regSet .CTRL 0x10#32 s8
  { s9 with st := { s9.st with inited := true, fatal := false }, ctl := { s9.ctl with kept := [] } }

/-- CONTROLLER_INIT's work (R811). -/
def initProg (c : Config) (tag : Word) : List Work :=
  resetControllerProg ++ (if c.dmaPresent then dmaResetProg else [])
    ++ [.initRegs, .cardScan, .ctlEnd tag 0#4 0#32]

/-- The end of a control operation that polls: its completion record, HARD_FAILURE or BUSY_TIMEOUT if a primitive
failed (R408, R411, R419, R811). -/
def ctlEnd (tag : Word) (slot : BitVec 4) (payload : Word) (s : State) : State :=
  deliver (plainRecord .ctl tag slot.toNat s.ctl.ret (if s.ctl.ret = .ok then payload else 0#32)) s

/-- One entry of `st.ctlq`, already removed, is run (R417). -/
def runEntry (e : CtlEntry) (s : State) : State :=
  match e.op with
  | .sdioIrqAck => runAck e.tag e.slot s
  | .setBusTiming mode width =>
    if (slotAt s e.slot.toNat).present then
      push (waitNotBusyProg ++ resetFifoProg ++ [.setTiming e.slot mode width, .ctlEnd e.tag e.slot 0#32]) s
    else deliver (plainRecord .ctl e.tag e.slot.toNat .noMedium 0#32) s
  | .setClock rate =>
    push (waitNotBusyProg ++ setClockProg s.cfg e.slot rate
      ++ [.ctlEnd e.tag e.slot (setClockPayload s.cfg rate)]) s
  | .tune mode cmdIndex pattern => tuneStart e.tag e.slot mode cmdIndex pattern s
  | .controllerInit => push (initProg s.cfg e.tag) s

/-- The first entry that satisfies `p`, and the others in order. -/
def takeFirst (p : CtlEntry → Bool) : List CtlEntry → Option (CtlEntry × List CtlEntry)
  | [] => none
  | e :: rest => if p e then some (e, rest) else (takeFirst p rest).map fun x => (x.1, e :: x.2)

/-- RUN_CTL (R417): the oldest SDIO_IRQ_ACK at any time, else the head entry when the engine is idle; no step
otherwise (log 6). -/
def runCtl (s : State) : State :=
  match takeFirst isAck s.st.ctlq with
  | some (e, rest) => runEntry e { s with st := { s.st with ctlq := rest } }
  | none =>
    if ctlReady s then
      match s.st.ctlq with
      | [] => s
      | e :: rest => runEntry e { s with st := { s.st with ctlq := rest } }
    else s

end Sys2Proof.Machine
end

