-- ==== Sys2Proof/Machine/Events.lean ====
section
/-! DEFINITION. What each event does (41_state_machine.md section 4), and the settle firings (section 5). -/

namespace Sys2Proof.Machine

/-- `PAYLOAD` of an event word as a 32-bit value (R304). -/
def eventPayload (e : Word) : Word := e >>> 8

/-- CMD_DONE in CIssuing (R470). -/
def primaryDone (p : Word) (a : Active) (s : State) : State :=
  let err := classifyCmd p a.cmd.crc
  let a' := { a with
    resp0 := if a.cmd.resp = .noResp then a.resp0 else regRead .RESP0 s
    resp1 := if a.cmd.resp = .long then regRead .RESP1 s else a.resp1
    resp2 := if a.cmd.resp = .long then regRead .RESP2 s else a.resp2
    resp3 := if a.cmd.resp = .long then regRead .RESP3 s else a.resp3
    cmdErr := if err.isSome then err else a.cmdErr
    recovPending := err.isSome || a.recovPending
    cmdComplete := true }
  setCst .cIdle { s with st := { s.st with active := some a' } }

/-- CMD_DONE in CStop (R471). -/
def stopDone (p : Word) (a : Active) (s : State) : State :=
  let err := classifyCmd p true
  if err.isSome ∧ a.stopTries < s.cfg.stopRetryMax then
    push issueStopProg { s with st := { s.st with
      active := some { a with stopResp := regRead .RESP0 s, stopTries := a.stopTries + 1 } } }
  else
    setCst .cIdle { s with st := { s.st with active := some { a with
      stopResp := regRead .RESP0 s
      stopErr := if err.isSome then err else a.stopErr
      recovPending := err.isSome || a.recovPending
      stopDone := true } } }

/-- CMD_DONE (R465). -/
def onCmdDone (p : Word) (s : State) : State :=
  match s.st.active with
  | none => s
  | some a =>
    match s.st.cst with
    | .cIssuing => primaryDone p a s
    | .cStop => stopDone p a s
    | .cIdle => s
    | .cRecovery => s

/-- DATA_ERR (R472). -/
def onDataErr (p : Word) (s : State) : State :=
  match s.st.active with
  | none => s
  | some a =>
    if dataMoving s.st.dst then
      quiesceData { s with st := { s.st with active := some { a with
        dataErr := if a.dataErr.isSome then a.dataErr else classifyData p
        recovPending := true } } }
    else s

/-- The active request's data move by PIO in direction `d`, in DXfer (R465). -/
def pioMoving (d : Dir) (s : State) : Bool :=
  match s.st.active with
  | none => false
  | some a => decide (s.st.dst = .dXfer) && decide (a.path = .pio) && dirIs a.toReqOp d

/-- RX_READY (R473). -/
def onRxReady (s : State) : Except Fault State := if pioMoving .read s then pioPull false s else .ok s

/-- TX_READY (R474). -/
def onTxReady (s : State) : Except Fault State := if pioMoving .write s then pioPush s else .ok s

/-- The drain of a PIO read at DATA_OVER (R475, R604). -/
def drainRead (s : State) : Except Fault State := if pioMoving .read s then pioPull true s else .ok s

/-- DATA_OVER (R475). -/
def onDataOver (s : State) : Except Fault State :=
  match s.st.active with
  | none => .ok s
  | some a =>
    if s.st.dst = .dXfer then do
      let s1 ← drainRead s
      let s2 := if a.path = .pio then regWrite .INTMASK s1.st.baseMask s1 else s1
      .ok (setDst .dBusy s2)
    else .ok s

/-- DMA_DONE (R476). -/
def onDmaDone (s : State) : State :=
  if activePath .dma s && dataMoving s.st.dst then modActive (fun a => { a with dmaDone := true }) s else s

/-- WATCHDOG (R477); a stale one is discarded by its sequence number (R466). -/
def onWatchdog (p : Word) (s : State) : State :=
  match s.st.active with
  | none => s
  | some a =>
    if p = a.seq &&& 0xFFFFFF#32 then
      setCst .cRecovery { s with st := { s.st with
        active := some { a with reqErr := some .reqTimeout, recovPending := true } } }
    else s

/-- SDIO_IRQ for one slot (R740). -/
def sdioNotify (i : Nat) (s : State) : State :=
  let m := bitAt (16 + i)
  let s1 := modSlot i (fun x => { x with sdioEn := false }) s
  let s2 := { s1 with st := { s1.st with baseMask := s1.st.baseMask &&& ~~~m } }
  deliver (plainRecord .sdio 0#32 i .ok 0#32) (regClr .INTMASK m s2)

/-- SDIO_IRQ with slot mask `p`, for the slots of a list in order (R740). -/
def onSdioIrq (p : Word) : List Nat → State → State
  | [], s => s
  | i :: rest, s =>
    onSdioIrq p rest (if bit p i && (slotAt s i).sdioEn then sdioNotify i s else s)

/-- Lifts an operation that may meet a model fault to an outcome. -/
def Res.ofExcept (x : Except Fault State) : Res :=
  match x with
  | .ok s => .next s
  | .error e => .fault e

/-- ON_EVENT (R465): the row of the event's code; an event of no row that matches is discarded (R466). A word of a
reserved code is no event: a model fault (R319, 93 I19, log 19). -/
def applyEvent (e : Word) (s : State) : Res :=
  match eventCode e with
  | 1 => .next (onCmdDone (eventPayload e) s)
  | 2 => .next (onDataErr (eventPayload e) s)
  | 3 => .ofExcept (onRxReady s)
  | 4 => .ofExcept (onTxReady s)
  | 5 => .ofExcept (onDataOver s)
  | 6 => .next (onDmaDone s)
  | 7 => .next (cardScan s)
  | 8 => .next (onSdioIrq (eventPayload e) (List.range s.cfg.nslots) s)
  | 9 => .next (onWatchdog (eventPayload e) s)
  | _ => .fault .badEventWord

/-! ### Settle firings -/

/-- R491, firing 2, after the controller reset. -/
def wdEnd (s : State) : State :=
  match s.st.active with
  | none => s
  | some a =>
    let pending := a.stopIssued && !a.stopDone
    setCst .cIdle { s with st := { s.st with active := some { a with
      stopDone := pending || a.stopDone
      stopErr := if pending && a.stopErr.isNone then some .reqTimeout else a.stopErr
      cmdComplete := true } } }

/-- R493 after its busy wait. -/
def dataBusyEnd (s : State) : State :=
  match s.st.active with
  | none => s
  | some a =>
    if s.ctl.ret = .busyTimeout then
      setDst .dRecovery (setRet .ok { s with st := { s.st with active := some { a with
        dbusyChecked := true
        dataErr := if a.dataErr.isSome then a.dataErr else some .busyTimeout
        recovPending := true } } })
    else { s with st := { s.st with active := some { a with dbusyChecked := true } } }

/-- R494 after its DMA_STOP. -/
def dataEnd (s : State) : State :=
  match s.st.active with
  | none => s
  | some a =>
    setDst .dIdle { s with st := { s.st with
      active := some { a with dataOk := true, bytesDone := dataLen a.toReqOp } } }

/-- R496 after its busy wait. -/
def cmdBusyEnd (s : State) : State :=
  match s.st.active with
  | none => s
  | some a =>
    if s.ctl.ret = .busyTimeout then
      setRet .ok { s with st := { s.st with active := some { a with
        cbusyChecked := true, cmdErr := some .busyTimeout, recovPending := true } } }
    else { s with st := { s.st with active := some { a with cbusyChecked := true } } }

/-- R499 after its busy wait. -/
def stopBusyEnd (s : State) : State :=
  match s.st.active with
  | none => s
  | some a =>
    if s.ctl.ret = .busyTimeout then
      setRet .ok { s with st := { s.st with active := some { a with
        sbusyChecked := true, stopErr := some .busyTimeout, recovPending := true } } }
    else { s with st := { s.st with active := some { a with sbusyChecked := true } } }

/-- R500 after RECOVER. -/
def recovered (s : State) : State :=
  match s.st.active with
  | none => s
  | some a => setDst .dIdle { s with st := { s.st with active := some { a with recovered := true } } }

/-- FATAL_FLUSH (R515): on the DMA path DMA_STOP_NOFAIL first. -/
def fatalFlush (s : State) : State :=
  if activePath .dma s then push (dmaStopNofailProg ++ [.flushRest]) s else flushRest s

/-- RECOVER for the active request (R690). -/
def recoverBegin (s : State) : State :=
  match s.st.active with
  | none => s
  | some a => push (recoverProg a) s

/-- R493: the busy wait of a write; a read has none. -/
def dataBusyBegin (s : State) : State :=
  match s.st.active with
  | none => s
  | some a => if dirIs a.toReqOp .write then push (waitNotBusyProg ++ [.dataBusyEnd]) s else dataBusyEnd s

/-- R494: on the DMA path DMA_STOP first. -/
def dataDoneBegin (s : State) : State :=
  if activePath .dma s then push (dmaStopProg ++ [.dataEnd]) s else dataEnd s

/-- R498. -/
def issueStopBegin (s : State) : State :=
  push issueStopProg (modActive (fun a => { a with stopIssued := true, stopTries := 0 }) s)

/-- One firing of a settle rule (R490). -/
def settleFire (r : SettleRule) (s : State) : State :=
  match r with
  | .fatal => fatalFlush s
  | .wdData => quiesceData s
  | .wdCmd => push (resetControllerProg ++ [.wdEnd]) s
  | .cmdAbort => quiesceData s
  | .dataBusy => dataBusyBegin s
  | .dataDone => dataDoneBegin s
  | .cmdBusy => push (waitNotBusyProg ++ [.cmdBusyEnd]) s
  | .issueStop => issueStopBegin s
  | .stopBusy => push (waitNotBusyProg ++ [.stopBusyEnd]) s
  | .recover => recoverBegin (push [.recovered] s)
  | .complete => completeActive s

end Sys2Proof.Machine
end

