-- ==== Sys2Proof/Machine/Dpu.lean ====
section
/-! DEFINITION. How the DPU works off its work: polls as step boundaries, the settle pass and the run loop
(41_state_machine.md R450, R451, R490), and the tuning step (44_tuning.md R634). -/

namespace Sys2Proof.Machine

/-- TUNE_STEP (R634); no step while it is not enabled (log 6). -/
def tuneStep (s : State) : Except Fault State :=
  if tuneReady s then
    match s.st.tctx with
    | none => .ok s
    | some c =>
      if c.idx < nph s.cfg then
        let s1 := setPhase c.slot.toNat (tunePos s.cfg c.idx) (driveCode s.cfg c) s
        dispatchBegin (Request.fresh (tuneRead c))
          { s1 with st := { s1.st with tctx := some { c with await := true } } }
      else .ok (tuneSelect s)
  else .ok s

/-- Work that runs even when the micro-operation before it returned something else than OK: it is the caller's
handling of that result. All other work is then passed over (R724). -/
def Work.handles : Work → Bool
  | .busyAgain => true
  | .dataBusyEnd => true
  | .cmdBusyEnd => true
  | .stopBusyEnd => true
  | .ctlEnd _ _ _ => true
  | .flushRest => true
  | _ => false

/-- What one piece of work does; loops, polls under way and `halt` are `drive`'s. -/
def perform (w : Work) (s : State) : Res :=
  match w with
  | .halt => .next s
  | .dpuLoop => .next s
  | .settleLoop => .next s
  | .await c e => .next (push [.poll c (s.st.now + ticks s.cfg (pollTimeout c s.cfg)) e] s)
  | .poll _ _ _ => .next s
  | .dmaOff => .next (dmaOff s)
  | .dmaRelease => .next (dmaRelease s)
  | .assertDmaReset => .next (assertDmaReset s)
  | .assertReset mask => .next (regSet .CTRL mask s)
  | .clearPartBuf => .next (clearPartBuf s)
  | .busyAgain => .next (busyAgain s)
  | .writeUpdateClock slot => .next (writeUpdateClock slot s)
  | .writeStop => .next (writeStop s)
  | .dispatchNext => .ofExcept (dispatchNext s)
  | .dispatch r => .ofExcept (dispatchBegin r s)
  | .writeCommand => .next (writeCommand s)
  | .event e => applyEvent e s
  | .toDRecovery => .next (toDRecovery s)
  | .wdEnd => .next (wdEnd s)
  | .dataBusyEnd => .next (dataBusyEnd s)
  | .dataEnd => .next (dataEnd s)
  | .cmdBusyEnd => .next (cmdBusyEnd s)
  | .stopBusyEnd => .next (stopBusyEnd s)
  | .recoverEnd => .next (recoverEnd s)
  | .recovered => .next (recovered s)
  | .flushRest => .next (flushRest s)
  | .cardScan => .next (cardScan s)
  | .scan cd todo => .next (scanStep cd todo s)
  | .cancelActive => .next (cancelActive s)
  | .removed i => .next (removalEnd i s)
  | .runCtl => .next (runCtl s)
  | .setTiming slot mode width => .next (setTiming slot mode width s)
  | .clkGate slot on => .next (clkGate slot on s)
  | .clkSetDiv div => .next (regWrite .CLKDIV (BitVec.ofNat 32 div) s)
  | .clkStopped => .next (clkStopped s)
  | .clkDone div => .next (clkDone div s)
  | .initRegs => .next (initRegs s)
  | .ctlEnd tag slot payload => .next (ctlEnd tag slot payload s)
  | .tuneStep => .ofExcept (tuneStep s)

/-- The state with the work given as all that is left. -/
def setDpu (ws : List Work) (s : State) : State := { s with ctl := { s.ctl with dpu := ws } }

/-- Works off the DPU's work up to the next step boundary (R451): a poll whose condition does not hold yet, a poll's
evaluation while the scheduler yields (log 5), a turn of a loop, the end. `n` bounds the pieces of one step; a step
that reaches the bound is one more boundary (log 23). -/
def drive : Nat → State → Res
  | 0, s => .next s
  | n + 1, s =>
    match s.ctl.dpu with
    | [] => .next s
    | .halt :: ws => .next (setDpu ws s)
    | .dpuLoop :: _ => .next s
    | .settleLoop :: _ => .next s
    | .poll c t e :: ws =>
      if s.ctl.yields then .next s
      else match pollOnce c t e (setDpu ws s) with
        | some s' => drive n s'
        | none => .next s
    | w :: ws =>
      if s.ctl.ret ≠ .ok ∧ w.handles = false then drive n (setDpu ws s)
      else Res.andThen (perform w (setDpu ws s)) (drive n)

/-- The bound of one step (log 23). -/
def driveBound : Nat := 512

/-- A micro-operation a trace names: the work `ws`, up to its end or its first step boundary. -/
def runProg (ws : List Work) (s : State) : Res :=
  drive driveBound (push (ws ++ [.halt]) (setRet .ok s))

/-- One turn of the settle pass whose loop is the first work left (R490): a firing, or the end of the pass. A request
completed while the DMA engine owns the arena is a model fault (R157 (b)). -/
def settleTurn (ws : List Work) (s : State) : Res :=
  match settleRule s with
  | none => drive driveBound (setRet .ok (setDpu ws s))
  | some r =>
    if r = .complete ∧ s.st.dmac.owner = .engine then .fault .ownerWithoutRequest
    else drive driveBound (settleFire r (setRet .ok s))

/-- An event word is none of R304's (R319). -/
def reservedEvent (e : Word) : Bool := decide (eventCode e = 0 ∨ 10 ≤ eventCode e)

/-- What one turn of DPU_RUN's loop does (R450); none ends the run. -/
def loopBody (s : State) : Option State :=
  if s.st.fatal && flushable s then some (fatalFlush s)
  else match s.st.evq with
    | e :: q => some (push [.event e, .settleLoop] { s with st := { s.st with evq := q } })
    | [] =>
      if s.st.ctlq.any isAck then some (push [.runCtl] s)
      else if tuneReady s then some (push [.tuneStep] s)
      else if ctlReady s then some (push [.runCtl] s)
      else if dispatchReady s then some (push [.dispatchNext] s)
      else none

/-- One turn of DPU_RUN's loop, which is the first work left (R450). An event queue that holds a reserved word is a model
fault (R319). -/
def loopTurn (ws : List Work) (s : State) : Res :=
  if s.st.evq.any reservedEvent then .fault .badEventWord
  else match loopBody (setRet .ok s) with
    | some s' => drive driveBound s'
    | none => drive driveBound (setRet .ok (setDpu ws s))

/-- A step of the DPU agent: it goes on where it stands, or starts a run if one is scheduled (R450); no step
otherwise. -/
def dpuStep (s : State) : Res :=
  match s.ctl.dpu with
  | [] =>
    if s.st.dpuSched then
      loopTurn [] (setDpu [.dpuLoop] { s with st := { s.st with dpuSched := false } })
    else .next s
  | .dpuLoop :: ws => loopTurn ws s
  | .settleLoop :: ws => settleTurn ws s
  | .poll c t e :: ws =>
    match pollOnce c t e (setDpu ws s) with
    | none => .next s
    | some s' => if s.ctl.yields then .next s' else drive driveBound s'
  | _ :: _ => drive driveBound s

end Sys2Proof.Machine
end

