-- ==== Sys2Proof/Machine/Micro.lean ====
section
/-! DEFINITION. The internal micro-operations of the DPU as a trace names them (30_encoding.md R301, R318). Those
without a poll end in their step; the others end in it unless a poll has to wait, and then go on in later steps of the
DPU (log 5). -/

namespace Sys2Proof.Machine

/-- A micro-operation with no poll: its result is OK. -/
def finish (s : State) : Res := .next (setRet .ok s)

/-- ENQUEUE (R455). DESIGN CHOICE, log 7: on a queue that already holds QDEPTH requests, where a trace names it though R455
presupposes the acceptance step's check and R143 bounds the queue, it appends all the same. -/
def execEnqueue (r : ReqOp) (s : State) : Res :=
  if s.cfg.nslots ≤ r.slot.toNat then .fault .noSuchSlot else .next (enqueue (Request.fresh r) s)

/-- DISPATCH_NEXT (R456). -/
def execDispatchNext (s : State) : Res := runProg [.dispatchNext] s

/-- DISPATCH (R460). -/
def execDispatch (r : ReqOp) (s : State) : Res := runProg [.dispatch (Request.fresh r)] s

/-- ON_EVENT (R465). -/
def execOnEvent (w : Word) (s : State) : Res := runProg [.event w] s

/-- SETTLE (R490): its first firing; the pass goes on in the DPU's next steps, one firing a step (R451). -/
def execSettle (s : State) : Res := settleTurn (.halt :: s.ctl.dpu) (push [.settleLoop, .halt] s)

/-- COMPLETE (R510); a model fault while the DMA engine owns the arena (R157 (b), R567). -/
def execComplete (s : State) : Res :=
  match s.st.active with
  | none => .fault .noActiveRequest
  | some _ => if s.st.dmac.owner = .engine then .fault .ownerWithoutRequest else finish (completeActive s)

/-- CARD_SCAN (R505). -/
def execCardScan (s : State) : Res := runProg [.cardScan] s

/-- ISSUE_STOP (R692). -/
def execIssueStop (s : State) : Res :=
  match s.st.active with
  | none => .fault .noActiveRequest
  | some _ => runProg issueStopProg s

/-- UPDATE_CLOCK (R412). -/
def execUpdateClock (slot : BitVec 4) (s : State) : Res := runProg (updateClockProg slot) s

/-- RUN_CTL (R417). -/
def execRunCtl (s : State) : Res := runProg [.runCtl] s

/-- DPU_RUN (R450): the first turn of its loop; the run goes on in the DPU's next steps, one turn a step (R451). No
step while none is scheduled (log 6). -/
def execDpuRun (s : State) : Res :=
  if s.st.dpuSched then
    loopTurn (.halt :: s.ctl.dpu) (push [.dpuLoop, .halt] { s with st := { s.st with dpuSched := false } })
  else .next s

/-- DMA_PREPARE (R552); no step without a DMA engine (log 6). -/
def execDmaPrepare (sg : List Seg) (s : State) : Res :=
  if s.cfg.dmaPresent then
    match prepare sg s with
    | .ok (c, s') => .next (setRet c s')
    | .error e => .fault e
  else .next s

/-- DMA_START (R557); no step without a DMA engine (log 6), a model fault without an active request on the DMA path
(R157 (b)). DESIGN CHOICE, log 7: a trace that names it with no chain built, or with another direction than the active
request's, where R557 presupposes both, arms and runs the DMA engine all the same. -/
def execDmaStart (dir : Dir) (s : State) : Res :=
  if s.cfg.dmaPresent then
    if activePath .dma s then finish (dmaStart dir s) else .fault .ownerWithoutRequest
  else .next s

/-- DMA_STOP (R565); no step without a DMA engine (log 6). -/
def execDmaStop (s : State) : Res := if s.cfg.dmaPresent then runProg dmaStopProg s else .next s

/-- DMA_RESET (R566); no step without a DMA engine (log 6). -/
def execDmaReset (s : State) : Res := if s.cfg.dmaPresent then runProg dmaResetProg s else .next s

/-- PIO_PULL (R603, R604). -/
def execPioPull (drain : Bool) (s : State) : Res := .ofExcept (pioPull drain (setRet .ok s))

/-- PIO_PUSH (R605). -/
def execPioPush (s : State) : Res := .ofExcept (pioPush (setRet .ok s))

/-- TUNE_START (R631). -/
def execTuneStart (tag : Word) (slot : BitVec 4) (mode : BitVec 4) (cmdIndex : BitVec 6) (pattern : List Byte)
    (s : State) : Res :=
  finish (tuneStart tag slot mode cmdIndex pattern s)

/-- TUNE_STEP (R634). -/
def execTuneStep (s : State) : Res := runProg [.tuneStep] s

/-- TUNE_SELECT (R637). -/
def execTuneSelect (s : State) : Res :=
  match s.st.tctx with
  | none => .fault .noTuningJob
  | some _ => finish (tuneSelect s)

/-- TUNE_FINISH (R647). -/
def execTuneFinish (code : Code) (s : State) : Res :=
  match s.st.tctx with
  | none => .fault .noTuningJob
  | some _ => finish (tuneFinish code s)

/-- RESET_FIFO (R684). -/
def execResetFifo (s : State) : Res := runProg resetFifoProg s

/-- RESET_CONTROLLER (R685). -/
def execResetController (s : State) : Res := runProg resetControllerProg s

/-- WAIT_NOT_BUSY (R686). -/
def execWaitNotBusy (s : State) : Res := runProg waitNotBusyProg s

/-- RECOVER (R690). -/
def execRecover (s : State) : Res :=
  match s.st.active with
  | none => .fault .noActiveRequest
  | some a => runProg (recoverProg a) s

/-- WATCHDOG_RECOVER (R491): the firing its phases ask for; no step while its guard does not hold (log 6). -/
def execWatchdogRecover (s : State) : Res :=
  if s.st.active.isSome ∧ s.st.cst = .cRecovery then
    drive driveBound
      (settleFire (if dataMoving s.st.dst then .wdData else .wdCmd) (push [.halt] (setRet .ok s)))
  else .next s

/-! ### Event words handed to the DPU: each is ON_EVENT of that word (R465) -/

/-- CMD_DONE (R470, R471). -/
def execEvCmdDone (p : BitVec 24) (s : State) : Res := runProg [.event (eventWord 1 p)] s

/-- DATA_ERR (R472). -/
def execEvDataErr (p : BitVec 24) (s : State) : Res := runProg [.event (eventWord 2 p)] s

/-- RX_READY (R473). -/
def execEvRxReady (p : BitVec 24) (s : State) : Res := runProg [.event (eventWord 3 p)] s

/-- TX_READY (R474). -/
def execEvTxReady (p : BitVec 24) (s : State) : Res := runProg [.event (eventWord 4 p)] s

/-- DATA_OVER (R475). -/
def execEvDataOver (p : BitVec 24) (s : State) : Res := runProg [.event (eventWord 5 p)] s

/-- DMA_DONE (R476). -/
def execEvDmaDone (p : BitVec 24) (s : State) : Res := runProg [.event (eventWord 6 p)] s

/-- CARD_DETECT (R478). -/
def execEvCardDetect (p : BitVec 24) (s : State) : Res := runProg [.event (eventWord 7 p)] s

/-- SDIO_IRQ (R479). -/
def execEvSdioIrq (p : BitVec 24) (s : State) : Res := runProg [.event (eventWord 8 p)] s

/-- WATCHDOG (R477). -/
def execEvWatchdog (p : BitVec 24) (s : State) : Res := runProg [.event (eventWord 9 p)] s

end Sys2Proof.Machine
end

