-- ==== Sys2Proof/Machine/Dispatch.lean ====
section
/-! DEFINITION. The dispatcher: one arm for each row of the opcode table. -/

namespace Sys2Proof.Machine

def exec (i : Instr) (s : State) : Host.Outcome State Fault Refusal :=
  match i with
  -- host-port operations
  | .submit slot ws => Sys2Proof.Machine.execSubmit slot ws s
  | .setBusTiming slot ws => Sys2Proof.Machine.execSetBusTiming slot ws s
  | .setClock slot ws => Sys2Proof.Machine.execSetClock slot ws s
  | .getCardPresent slot ws => Sys2Proof.Machine.execGetCardPresent slot ws s
  | .tune slot ws => Sys2Proof.Machine.execTune slot ws s
  | .sdioIrqAck slot ws => Sys2Proof.Machine.execSdioIrqAck slot ws s
  | .controllerInit slot ws => Sys2Proof.Machine.execControllerInit slot ws s
  -- internal micro-operations
  | .enqueue r => Sys2Proof.Machine.execEnqueue r s
  | .dispatchNext => Sys2Proof.Machine.execDispatchNext s
  | .dispatch r => Sys2Proof.Machine.execDispatch r s
  | .onEvent w => Sys2Proof.Machine.execOnEvent w s
  | .settle => Sys2Proof.Machine.execSettle s
  | .complete => Sys2Proof.Machine.execComplete s
  | .cardScan => Sys2Proof.Machine.execCardScan s
  | .issueStop => Sys2Proof.Machine.execIssueStop s
  | .updateClock slot => Sys2Proof.Machine.execUpdateClock slot s
  | .runCtl => Sys2Proof.Machine.execRunCtl s
  | .dpuRun => Sys2Proof.Machine.execDpuRun s
  | .dmaPrepare sg => Sys2Proof.Machine.execDmaPrepare sg s
  | .dmaStart dir => Sys2Proof.Machine.execDmaStart dir s
  | .dmaStop => Sys2Proof.Machine.execDmaStop s
  | .dmaReset => Sys2Proof.Machine.execDmaReset s
  | .pioPull drain => Sys2Proof.Machine.execPioPull drain s
  | .pioPush => Sys2Proof.Machine.execPioPush s
  | .tuneStart tag slot mode cmdIndex pattern => Sys2Proof.Machine.execTuneStart tag slot mode cmdIndex pattern s
  | .tuneStep => Sys2Proof.Machine.execTuneStep s
  | .tuneSelect => Sys2Proof.Machine.execTuneSelect s
  | .tuneFinish code => Sys2Proof.Machine.execTuneFinish code s
  | .resetFifo => Sys2Proof.Machine.execResetFifo s
  | .resetController => Sys2Proof.Machine.execResetController s
  | .waitNotBusy => Sys2Proof.Machine.execWaitNotBusy s
  | .recover => Sys2Proof.Machine.execRecover s
  | .watchdogRecover => Sys2Proof.Machine.execWatchdogRecover s
  | .irqDispatch => Sys2Proof.Machine.execIrqDispatch s
  | .watchdogCheck => Sys2Proof.Machine.execWatchdogCheck s
  -- event words
  | .evCmdDone p => Sys2Proof.Machine.execEvCmdDone p s
  | .evDataErr p => Sys2Proof.Machine.execEvDataErr p s
  | .evRxReady p => Sys2Proof.Machine.execEvRxReady p s
  | .evTxReady p => Sys2Proof.Machine.execEvTxReady p s
  | .evDataOver p => Sys2Proof.Machine.execEvDataOver p s
  | .evDmaDone p => Sys2Proof.Machine.execEvDmaDone p s
  | .evCardDetect p => Sys2Proof.Machine.execEvCardDetect p s
  | .evSdioIrq p => Sys2Proof.Machine.execEvSdioIrq p s
  | .evWatchdog p => Sys2Proof.Machine.execEvWatchdog p s

end Sys2Proof.Machine
end

