-- ==== Sys2Proof/Machine/Agents.lean ====
section
/-! DEFINITION. What a stimulus does: which agent moves, and with what (00_scope.md R10, log 1). -/

namespace Sys2Proof.Machine

/-- A micro-operation of the DPU, which runs one at a time (R221); ENQUEUE is the acceptance step's, IRQ_DISPATCH the
IRQ agent's, WATCHDOG_CHECK the TIMER's. -/
def ofDpu : Instr → Bool
  | .enqueue _ => false
  | .irqDispatch => false
  | .watchdogCheck => false
  | _ => true

/-- HOST presents a packet (R400, R401). An operation word that is none of R301's, or has a reserved bit set, is
refused ILLEGAL_OP. -/
def feedHost (ws : List Word) (s : State) : Res :=
  match decodePacket ws with
  | .ok i => exec i s
  | .error .truncated => .refused .truncatedPacket
  | .error _ => .next (refuse .illegalOp s)

/-- A trace record names a micro-operation (R318, log 3). -/
def feedTrace (ws : List Word) (s : State) : Res :=
  match decodeMicro ws with
  | .ok i => if ofDpu i ∧ s.ctl.dpu ≠ [] then .fault .dpuBusy else exec i s
  | .error _ => .refused .badTraceRecord

/-- An event word is handed to the DPU (R304, R319). -/
def feedEvent (ws : List Word) (s : State) : Res :=
  match decode .event ws with
  | .ok i => if s.ctl.dpu ≠ [] then .fault .dpuBusy else exec i s
  | .error .truncated => .refused .truncatedPacket
  | .error _ => .fault .badEventWord

/-- Words at a port. -/
def feed (p : Port) (ws : List Word) (s : State) : Res :=
  match p with
  | .host => feedHost ws s
  | .trace => feedTrace ws s
  | .event => feedEvent ws s

/-- The DPU reads a register by offset (R102, R129, R205); the value read is left in `ctl.busData` (log 26). DESIGN CHOICE,
log 26: an offset of 0x400 or more, outside the register space, of which no rule speaks, is refused. -/
def readRegister (off width : Nat) (s : State) : Res :=
  if off = Config.dataOffset then
    if width = s.cfg.w then
      match dataRead s with
      | .ok (w, s') => .next { s' with ctl := { s'.ctl with busData := w } }
      | .error e => .fault e
    else .refused .registerAccess
  else if off < 0x400 ∧ off % 4 = 0 ∧ width = 4 then
    .next { s with ctl := { s.ctl with busData := match Reg.ofOffset off with
      | some r => (regRead r s).zeroExtend 64
      | none => 0#64 } }
  else .refused .registerAccess

/-- The DPU writes a register by offset (R102, R129, R205). DESIGN CHOICE, log 26: as in `readRegister`, an offset of 0x400 or
more is refused. -/
def writeRegister (off width : Nat) (v : Beat) (s : State) : Res :=
  if off = Config.dataOffset then
    if width = s.cfg.w then .ofExcept (dataWrite v s) else .refused .registerAccess
  else if off < 0x400 ∧ off % 4 = 0 ∧ width = 4 then
    match Reg.ofOffset off with
    | some r => .next (regWrite r (v.truncate 32) s)
    | none => .next s
  else .refused .registerAccess

/-- The buffers that are the engine's: of the requests accepted and not yet completed (R226), and of the DMA requests
completed HARD_FAILURE since the last CONTROLLER_INIT (R790 (c), R812). -/
def heldSegs (s : State) : List Seg :=
  activeSg s ++ (s.st.slots.flatMap fun x => x.queue.flatMap fun r => reqSegs r.toReqOp) ++ s.ctl.kept

/-- Address `a` is in a buffer that is the engine's (R226, R790 (a) and (c)). -/
def inHeldBuffer (s : State) (a : Nat) : Bool :=
  (heldSegs s).any fun g => decide (g.addr.toNat ≤ a ∧ a < g.addr.toNat + g.len.toNat)

/-- Address `a` is in a window HOST must not write: the descriptor arena, a buffer that is the engine's (R201, R226,
R790). -/
def reservedForHost (s : State) (a : Nat) : Bool := (s.cfg.dmaPresent && inArena s.cfg a) || inHeldBuffer s a

/-- The next free byte, and the counter advanced (log 15). -/
def takeFree (s : State) : Byte × State :=
  (Config.freeByte s.ctl.free, { s with ctl := { s.ctl with free := s.ctl.free + 1 } })

/-- A byte HOST stores. DESIGN CHOICE, log 15: at an unmapped address, where the spec gives HOST's write no effect,
nothing is stored. -/
def hostStore (a : Nat) (b : Byte) (s : State) : State :=
  if mapped s.cfg a then { s with mem := Memory.write s.mem a b } else s

/-- HOST's bytes written from `a` upward (R201). In a window HOST must not write the byte's contents are unspecified
(R790): the free value `Config.freeByte` is stored (log 15). -/
def hostWrite (a : Nat) : List Byte → State → State
  | [], s => s
  | b :: rest, s =>
    if reservedForHost s a then hostWrite (a + 1) rest (hostStore a (takeFree s).1 (takeFree s).2)
    else hostWrite (a + 1) rest (hostStore a b s)

/-- HOST writes bytes (R201). A write that reaches the descriptor arena while the DMA engine owns it is the hazard R224
names, and the model faults on it: the fault is HOST's, no agent of the engine has one (R790, R791, log 15). -/
def hostStep (a : Nat) (bytes : List Byte) (s : State) : Res :=
  if inOwnedArena s a bytes.length then .fault .hostWroteArena else .next (hostWrite a bytes s)

/-- The `n` bytes HOST reads from `a` upward (R201): memory as it is, the arena's descriptors too (R217, R225). In a
buffer that is the engine's, and at an unmapped address, it may see any value (R226, 93 I20): a free value (log 15). -/
def hostBytes (a : Nat) : Nat → State → List Byte × State
  | 0, s => ([], s)
  | n + 1, s =>
    let x := if inHeldBuffer s a || !mapped s.cfg a then takeFree s else (Memory.read s.mem a, s)
    let y := hostBytes (a + 1) n x.2
    (x.1 :: y.1, y.2)

/-- HOST reads host memory; the bytes are left in `ctl.hostData` (R201). -/
def hostRead (a n : Nat) (s : State) : State :=
  let x := hostBytes a n s
  { x.2 with ctl := { x.2.ctl with hostData := x.1 } }

/-- An access of the DPU to a register, which it makes between its micro-operations (R201, R221, log 8, log 26). -/
def betweenRuns (r : State → Res) (s : State) : Res := if s.ctl.dpu ≠ [] then .fault .dpuBusy else r s

/-- One stimulus. An agent that has no step then leaves the state as it is (log 6). -/
def react (t : Stimulus) (s : State) : Res :=
  match t with
  | .feed p ws => feed p ws s
  | .irq => if irqLine s then exec .irqDispatch s else .next s
  | .timer => exec .watchdogCheck s
  | .dpu => dpuStep s
  | .dmac => if s.cfg.dmaPresent then .next (dmacStep s) else .next s
  | .bus b => busStep b s
  | .hostWrite a bytes => hostStep a bytes s
  | .hostRead a n => .next (hostRead a n s)
  | .yielding b => .next { s with ctl := { s.ctl with yields := b } }
  | .regRead off width => betweenRuns (readRegister off width) s
  | .regWrite off width v => betweenRuns (writeRegister off width v) s

/-- The next stimulus and the state without it: the agenda's first, and past its end the free value
`Config.schedule` (log 1). -/
def nextStimulus (s : State) : Stimulus × State :=
  match s.ctl.agenda with
  | t :: rest => (t, { s with ctl := { s.ctl with agenda := rest } })
  | [] => (Config.schedule s.ctl.free, { s with ctl := { s.ctl with free := s.ctl.free + 1 } })

/-- A step of the machine. -/
def advance (s : State) : Res := react (nextStimulus s).1 (nextStimulus s).2

/-- `s` with words at a port as its next stimulus; the DPU is between runs when they name one of its
micro-operations (log 2). -/
def present (p : Port) (ws : List Word) (s : State) : State :=
  { s with ctl := { s.ctl with
    agenda := .feed p ws :: s.ctl.agenda
    dpu := match p with
      | .host => s.ctl.dpu
      | .trace => []
      | .event => [] } }

end Sys2Proof.Machine
end

