-- ==== Sys2Proof/Machine/Step.lean ====
section
/-! DEFINITION. One step of the machine, and how a table row's word is placed for the next step. -/

namespace Sys2Proof.Machine

/-- One step: the next stimulus acts (log 1). -/
def step (s : State) : Host.Outcome State Fault Refusal := advance s

/-- `s` with a table row's word as the next thing its port reads (log 2, log 4). -/
def State.withFetchWord (s : State) (nbits w : Nat) : State := present (tablePort nbits w) (tableWords w) s

end Sys2Proof.Machine
end

