-- ==== Sys2Proof/Safety.lean ====
section
/-! DEFINITION. What claims are stated in terms of: the invariants of a running machine, and the schedules in which the
environment answers at once. -/

namespace Sys2Proof.Machine

/-- With no request active both phases are idle (10_state.md R157 (e)). -/
def IdlePhases (s : State) : Prop := s.st.active = none → s.st.cst = .cIdle ∧ s.st.dst = .dIdle

/-- The FIFO holds at most `FIFO_DEPTH` words (R147). -/
def FifoBounded (s : State) : Prop := s.st.fifo.length ≤ s.cfg.fifoDepth

/-- The event queue holds at most one event of each code, and no reserved word (R148, R319). -/
def EventsLegal (s : State) : Prop :=
  s.st.evq.Pairwise (fun a b => eventCode a ≠ eventCode b) ∧
  ∀ e ∈ s.st.evq, 1 ≤ eventCode e ∧ eventCode e ≤ 9

/-- Every slot, presence signal and busy signal exists, and the tuning buffer has its size (R143, R150, R155, R156). -/
def ShapeOk (s : State) : Prop :=
  s.st.slots.length = s.cfg.nslots ∧ s.env.present.length = s.cfg.nslots ∧
  s.env.busy.length = s.cfg.nslots ∧ s.st.tbuf.length = Config.tuneBufLen ∧ s.env.signalled.length = s.cfg.nslots

/-- The DMA engine holds a descriptor only while Running (R561, R560). -/
def DescHeld (s : State) : Prop := s.st.dmac.desc ≠ none → s.st.dmac.state = .running

/-- Bits `s` and `16 + s` for `s < NSLOTS` (R105, R107). -/
def slotPairBits (c : Config) : Word := slotMask c ||| slotMask c <<< 16

/-- The bits `INTMASK` has (R110). -/
def intmaskBits (c : Config) : Word := 0xFFFF#32 ||| slotMask c <<< 16

/-- Reserved bits of the registers read 0 (10_state.md section 2). -/
structure Regs.Legal (c : Config) (r : Regs) : Prop where
  ctrl     : r.ctrl &&& 0xFDFFFFC8#32 = 0#32
  clkdiv   : r.clkdiv &&& 0xFFFFFF00#32 = 0#32
  cmd      : r.cmd &&& 0x7FC00000#32 = 0#32
  bmod     : r.bmod &&& 0xFFFFF87C#32 = 0#32
  smplCtrl : r.smplCtrl &&& 0xFFFFFF00#32 = 0#32
  rintsts  : r.rintsts &&& 0x4000#32 = 0#32
  idsts    : r.idsts &&& 0xFFFFFCC8#32 = 0#32
  idinten  : r.idinten &&& 0xFFFFFCC8#32 = 0#32
  fifoth   : r.fifoth &&& 0x8000F000#32 = 0#32
  blksiz   : r.blksiz &&& 0xFFFF0000#32 = 0#32
  clkena   : r.clkena &&& ~~~slotPairBits c = 0#32
  ctype    : r.ctype &&& ~~~slotPairBits c = 0#32
  intmask  : r.intmask &&& ~~~intmaskBits c = 0#32
  uhs      : r.uhs &&& ~~~(slotMask c <<< 16) = 0#32

/-- Reserved bits of the registers read 0. -/
abbrev RegsLegal (s : State) : Prop := Regs.Legal s.cfg s.regs

/-- The machine after BUS has completed every reset under way (R765) and the DPU has gone on. -/
def serveResets (s : State) : Res :=
  Res.andThen (busStep (.resetDone (bit s.regs.ctrl 0) (bit s.regs.ctrl 1) (dmaResetPending s)) s) dpuStep

/-- The machine after BUS has accepted the command waiting in `CMD` (R760) and the DPU has gone on. -/
def serveCommand (s : State) : Res := Res.andThen (busStep .acceptCmd s) dpuStep

/-- One operation after another, stopping at a stop. -/
def Res.chain (r : Res) (fs : List (State → Res)) : Res :=
  match fs with
  | [] => r
  | f :: rest => Res.chain (Res.andThen r f) rest

end Sys2Proof.Machine
end

