-- ==== Sys2Proof/Certificates/Slice0/Obligations.lean ====
section
/-! DEFINITION. The statements for the provers, and the words they are made of. A statement's docstring names the rules
of spec/ it rests on. -/

namespace Sys2Proof.Machine

/-- The instruction of a host-port operation (R301). -/
def hostInstr : HostOp → BitVec 4 → List Word → Instr
  | .submit, slot, ws => .submit slot ws
  | .setBusTiming, slot, ws => .setBusTiming slot ws
  | .setClock, slot, ws => .setClock slot ws
  | .getCardPresent, slot, ws => .getCardPresent slot ws
  | .tune, slot, ws => .tune slot ws
  | .sdioIrqAck, slot, ws => .sdioIrqAck slot ws
  | .controllerInit, slot, ws => .controllerInit slot ws

/-- The checks of R405 on the packet alone pass. -/
def operandsLegal (c : Config) (op : HostOp) (slot : BitVec 4) (ws : List Word) : Bool :=
  lengthOk op ws && !reservedSet op ws && inRange c op slot ws

/-- Initialised and not fatal (R801, R812). -/
def InService (s : State) : Prop := s.st.inited = true ∧ s.st.fatal = false

/-- The scatter list of a SUBMIT is in range (R405). -/
def ScatterInRange (c : Config) (d : DataSpec) : Prop :=
  d.blksz ≠ 0#16 ∧ d.blocks ≠ 0#16 ∧ d.sg ≠ [] ∧ d.sg.length ≤ c.maxSg ∧
  (∀ g ∈ d.sg, g.len ≠ 0#32 ∧ g.addr.toNat + g.len.toNat ≤ 2 ^ 32 ∧
    (c.dmaPresent = true → g.addr.toNat + g.len.toNat ≤ c.ringBase ∨ c.ringBase + 16 * c.ndesc ≤ g.addr.toNat)) ∧
  (d.sg.map fun g => g.len.toNat).sum = d.blksz.toNat * d.blocks.toNat

/-- The next tag taken, the DPU scheduled, the triple (OK, tag, 0) (R401, R404). -/
def accepted (s : State) : State :=
  { s with
    st := { s.st with nextSeq := s.st.nextSeq + 1#32, dpuSched := true }
    ctl := { s.ctl with accepted := ⟨.ok, s.st.nextSeq, 0#32⟩ } }

/-- A Request at the end of a slot's queue (R455). -/
def queued (slot : BitVec 4) (r : Request) (s : State) : State :=
  { s with st := { s.st with slots := s.st.slots.modify slot.toNat fun x => { x with queue := x.queue ++ [r] } } }

/-- A control operation at the end of `st.ctlq`, under the next tag (R401). -/
def ctlQueued (op : CtlOp) (slot : BitVec 4) (s : State) : State :=
  { s with st := { s.st with ctlq := s.st.ctlq ++ [⟨op, s.st.nextSeq, slot⟩] } }

/-- The parameters are in their ranges and no other agent steps before a poll's evaluation (log 5). -/
def Prompt (s : State) : Prop := s.cfg.Valid ∧ s.ctl.yields = false

/-- The card number field of a command word (R112). -/
def cardField (slot : BitVec 4) : Word := slot.zeroExtend 32 <<< 16

/-- The command word of a request (R308). -/
def cmdWord (r : ReqOp) (needInit : Bool) : Word :=
  0x80002000#32 + r.cmd.index.zeroExtend 32
    + (if r.cmd.resp = .noResp then 0#32 else 0x40#32) + (if r.cmd.resp = .long then 0x80#32 else 0#32)
    + (if r.cmd.crc then 0x100#32 else 0#32) + (if r.data.isSome then 0x200#32 else 0#32)
    + (if ∃ d ∈ r.data, d.dir = .write then 0x400#32 else 0#32) + (if needInit then 0x8000#32 else 0#32)
    + cardField r.slot

/-- DISPATCH's first lines: the request active with its flags at R141's values, the watchdog armed, the slot's phase,
the status clear and `INTMASK` written (R460). -/
def armed (r : ReqOp) (s : State) : State :=
  { s with
    regs := { s.regs with
      smplCtrl := if s.st.curSlot = some r.slot.toNat then s.regs.smplCtrl else (slotAt s r.slot.toNat).smpl &&& 0xFF#32
      rintsts := s.regs.rintsts &&& ~~~0x30#32
      intmask := s.st.baseMask &&& intmaskBits s.cfg }
    st := { s.st with
      active := some (Active.fresh (Request.fresh r))
      wd := ⟨true, s.st.now + ticks s.cfg s.cfg.reqTimeout, r.seq⟩
      curSlot := some r.slot.toNat } }

/-- The active request's path, and the data phase under way. -/
def moving (p : Path) (s : State) : State :=
  { s with st := { s.st with active := s.st.active.map (fun a => { a with path := p }), dst := .dXfer } }

/-- The transfer's geometry written (R460). -/
def sized (d : DataSpec) (s : State) : State :=
  { s with regs := { s.regs with
      blksiz := d.blksz.zeroExtend 32, bytcnt := BitVec.ofNat 32 (d.blksz.toNat * d.blocks.toNat) } }

/-- PIO_SETUP: the cursor, and the FIFO-ready interrupt of the direction unmasked (R602). -/
def pioReady (d : DataSpec) (s : State) : State :=
  { s with
    regs := { s.regs with
      intmask := (s.st.baseMask ||| (if d.dir = .read then 0x20#32 else 0x10#32)) &&& intmaskBits s.cfg }
    st := { s.st with pio := ⟨0, 0, d.blksz.toNat * d.blocks.toNat⟩, partBuf := [] } }

/-- DMA_START on a stopped DMA engine: it owns the arena and runs from the first descriptor (R557, R560). -/
def dmaStarted (dir : Dir) (s : State) : State :=
  { s with
    regs := { s.regs with
      idsts := s.regs.idsts &&& ~~~0x337#32, dbaddr := BitVec.ofNat 32 s.cfg.ringBase
      ctrl := s.regs.ctrl ||| 0x02000020#32, bmod := s.regs.bmod ||| 0x80#32 }
    st := { s.st with dmac := { s.st.dmac with
      state := .running, cur := BitVec.ofNat 32 s.cfg.ringBase, owner := .engine, dir := dir, moved := 0 } } }

/-- DISPATCH's last lines: the command written, the slot's initialisation sent (R460). The result is OK. -/
def issued (r : ReqOp) (s : State) : State :=
  setRet .ok { s with
    regs := { s.regs with cmdarg := r.cmd.arg, cmd := cmdWord r (slotAt s r.slot.toNat).needInit }
    st := { s.st with
      slots := s.st.slots.modify r.slot.toNat fun x => { x with needInit := false }
      cst := .cIssuing } }

/-- Some row of R465's table matches the event word (its code in bits 7:0, its payload in bits 31:8). -/
def rowMatches (w : Word) (s : State) : Prop :=
  bits w 0 8 = 7 ∨ bits w 0 8 = 8 ∨ ∃ a ∈ s.st.active,
    (bits w 0 8 = 1 ∧ (s.st.cst = .cIssuing ∨ s.st.cst = .cStop)) ∨
    (bits w 0 8 = 2 ∧ (s.st.dst = .dXfer ∨ s.st.dst = .dBusy)) ∨
    (bits w 0 8 = 3 ∧ s.st.dst = .dXfer ∧ a.path = .pio ∧ ∃ d ∈ a.data, d.dir = .read) ∨
    (bits w 0 8 = 4 ∧ s.st.dst = .dXfer ∧ a.path = .pio ∧ ∃ d ∈ a.data, d.dir = .write) ∨
    (bits w 0 8 = 5 ∧ s.st.dst = .dXfer) ∨
    (bits w 0 8 = 6 ∧ a.path = .dma ∧ (s.st.dst = .dXfer ∨ s.st.dst = .dBusy)) ∨
    (bits w 0 8 = 9 ∧ bits w 8 24 = bits a.seq 0 24)

/-- The row of R465's table the event word matches moves data by PIO (R473 to R475). -/
def movesByPio (w : Word) (s : State) : Prop :=
  ∃ a ∈ s.st.active, s.st.dst = .dXfer ∧ a.path = .pio ∧ ∃ d ∈ a.data,
    (d.dir = .read ∧ (bits w 0 8 = 3 ∨ bits w 0 8 = 5)) ∨ (d.dir = .write ∧ bits w 0 8 = 4)

/-- The active request replaced; nothing else changes. -/
def withActive (a : Active) (s : State) : State := { s with st := { s.st with active := some a } }

/-- The stop command written: `CMDARG` 0, index 12 with its flags (R692, R309). -/
def stopWritten (slot : BitVec 4) (s : State) : State :=
  { s with regs := { s.regs with cmdarg := 0#32, cmd := 0x8000414C#32 ||| cardField slot }, st := { s.st with cst := .cStop } }

/-- On the PIO path the FIFO-ready interrupts are masked; on another nothing happens (R472, R475). -/
def pioMasked (a : Active) (s : State) : State :=
  { s with regs := { s.regs with
      intmask := if a.path = .pio then s.st.baseMask &&& intmaskBits s.cfg else s.regs.intmask } }

/-- DMA_STOP done: the enables cleared, the engine stopped, the arena the block's again, no chain (R565). -/
def dmaStopped (s : State) : State :=
  { s with
    regs := { s.regs with ctrl := s.regs.ctrl &&& ~~~0x02000020#32, bmod := s.regs.bmod &&& ~~~0x80#32 }
    st := { s.st with dmac := { s.st.dmac with state := .stopped, desc := none, owner := .block }, chain := none } }

/-- Slot `i` is named by an SDIO_IRQ's mask and its SDIO interrupt is enabled (R740). -/
def sdioHit (mask : BitVec 24) (s : State) (i : Nat) : Bool := mask.getLsbD i && (slotAt s i).sdioEn

/-- Bits `16 + i` of the slots in a list cleared. -/
def clearSlotBits (l : List Nat) (v : Word) : Word := l.foldl (fun m i => m &&& ~~~(1#32 <<< (16 + i))) v

/-- No reset bit reads 1 (R683). -/
def NoReset (s : State) : Prop := s.regs.ctrl &&& 0x7#32 = 0#32 ∧ s.regs.bmod &&& 0x1#32 = 0#32

/-- Status bits raised in `RINTSTS` (R115). -/
def raised (v : Word) (s : State) : State := { s with regs := { s.regs with rintsts := s.regs.rintsts ||| v } }

/-- FIFO words of a transfer (R762, R763). -/
def wordsOf (c : Config) (x : WireXfer) : Nat := (x.total + c.w - 1) / c.w

/-- `RXDR` or `TXDR` where its watermark condition holds for the transfer on the wire; none for a transfer that has failed,
been abandoned, or may never have started (R762 to R764, R115). -/
def fifoReadyBits (s : State) : Word :=
  match s.env.xfer with
  | none => 0#32
  | some x =>
    if x.failed = true ∨ x.aborted = true ∨ x.doubtful = true then 0#32
    else match x.dir with
      | .read => if bits s.regs.fifoth 16 12 < s.st.fifo.length then 0x20#32 else 0#32
      | .write => if s.st.fifo.length ≤ bits s.regs.fifoth 0 12 ∧ x.moved < wordsOf s.cfg x then 0x10#32 else 0#32

/-- What every step of BUS leaves: the FIFO-ready bits of the running transfer set (R762, R763). -/
def readied (s : State) : State := raised (fifoReadyBits s) s

/-- RESET_FIFO done (R684, R681). A write of `CTRL` with `DMA_ENABLE = 0` leaves the DMA engine stopped (R560). A write
transfer still on the wire finds the FIFO empty in the step that completes the reset (R763). -/
def fifoReset (s : State) : State :=
  readied { s with st := { s.st with
      fifo := [], partBuf := [], dmac := if bit s.regs.ctrl 5 then s.st.dmac else s.st.dmac.halted } }

/-- RESET_CONTROLLER done: controller, FIFO and DMA engine reset; the arena's owner stays (R685, R680 to R682). -/
def controllerReset (s : State) : State :=
  { s with
    regs := { s.regs with cmd := s.regs.cmd &&& 0x7FFFFFFF#32, idsts := 0#32, bmod := s.regs.bmod &&& ~~~0x80#32 }
    st := { s.st with
      fifo := [], partBuf := []
      dmac := { s.st.dmac with state := .stopped, cur := 0#32, moved := 0, desc := none } }
    env := { s.env with cmds := [], xfer := none } }

/-- DMA_RESET done: the DMA engine reset, the arena the block's again, no chain; the FIFO-ready bits of a transfer still on
the wire are set in the step that completes the reset (R566, R682, R762, R763). -/
def dmaReset (s : State) : State :=
  readied { s with
    regs := { s.regs with idsts := 0#32, bmod := s.regs.bmod &&& ~~~0x80#32 }
    st := { s.st with
      dmac := { s.st.dmac with state := .stopped, cur := 0#32, owner := .block, moved := 0, desc := none }
      chain := none } }

/-! #### Completion and settling -/

/-- `A.data.blksz * A.data.blocks`, 0 without data. -/
def transferBytes (r : ReqOp) : Nat := match r.data with
  | none => 0
  | some d => d.blksz.toNat * d.blocks.toNat

/-- No request active, both phases idle, the watchdog disarmed (R510). -/
def cleared (s : State) : State :=
  { s with st := { s.st with
    wd := { s.st.wd with armed := false }, active := none, cst := .cIdle, dst := .dIdle } }

/-- A HOST request completes with a code: cleared, and one REQ record; after HARD_FAILURE on the DMA path its buffers
stay the engine's (R510, R312, R790, log 15). -/
def completed (a : Active) (code : Code) (s : State) : State :=
  { cleared s with
    st := { (cleared s).st with
      cport := s.st.cport ++ [⟨.req, a.seq, a.slot.toNat, code, a.resp0, a.resp1, a.resp2, a.resp3, a.stopResp,
        if a.dataOk then transferBytes a.toReqOp else 0, 0#32⟩] }
    ctl := { s.ctl with
      kept := if a.path = .dma ∧ code = .hardFailure then s.ctl.kept ++ reqSegs a.toReqOp else s.ctl.kept } }

/-- The data transfer is on the wire or the card may still be busy after it. -/
def WireMoving (s : State) : Prop := s.st.dst = .dXfer ∨ s.st.dst = .dBusy

/-- `cmd_phase_done`, `stop_needed(A)`, `stop_settled` (R495, R497). -/
def CmdPhaseDone (a : Active) (s : State) : Prop := a.cmdComplete = true ∧ s.st.cst = .cIdle
def StopNeeded (a : Active) : Prop :=
  a.data ≠ none ∧ (a.stopFlag = true ∨ a.cmdErr ≠ none ∨ a.dataErr ≠ none ∨ a.reqErr ≠ none)
def StopSettled (a : Active) : Prop := ¬ StopNeeded a ∨ a.stopDone = true

/-- `flushable()` (R450). -/
def CanFlush (s : State) : Prop :=
  s.st.active ≠ none ∨ (∃ x ∈ s.st.slots, x.queue ≠ []) ∨ s.st.tuning = true ∨ ∃ c ∈ s.st.ctlq, c.op ≠ .controllerInit

/-- The guards of the settle rules, R491's by its two firings (R491 to R503). -/
def SettleGuard (r : SettleRule) (s : State) : Prop :=
  match r with
  | .fatal => s.st.fatal = true ∧ CanFlush s
  | .wdData => s.st.active ≠ none ∧ s.st.cst = .cRecovery ∧ WireMoving s
  | .wdCmd => s.st.active ≠ none ∧ s.st.cst = .cRecovery ∧ ¬ WireMoving s
  | .cmdAbort => ∃ a ∈ s.st.active, a.cmdComplete = true ∧ a.cmdErr ≠ none ∧ a.data ≠ none ∧ WireMoving s
  | .dataBusy => ∃ a ∈ s.st.active, s.st.dst = .dBusy ∧ a.dbusyChecked = false
  | .dataDone => ∃ a ∈ s.st.active, s.st.dst = .dBusy ∧ a.dbusyChecked = true ∧ (a.path ≠ .dma ∨ a.dmaDone = true)
  | .cmdBusy => ∃ a ∈ s.st.active, a.cmdComplete = true ∧ s.st.cst = .cIdle ∧ a.cmd.resp = .shortBusy ∧ a.data = none ∧
      a.cmdErr = none ∧ a.cbusyChecked = false
  | .issueStop => ∃ a ∈ s.st.active, CmdPhaseDone a s ∧ StopNeeded a ∧ a.stopIssued = false ∧
      (s.st.dst = .dIdle ∨ s.st.dst = .dRecovery)
  | .stopBusy => ∃ a ∈ s.st.active, a.stopDone = true ∧ a.stopErr = none ∧ a.sbusyChecked = false
  | .recover => ∃ a ∈ s.st.active, a.recovPending = true ∧ a.recovered = false ∧ CmdPhaseDone a s ∧
      (a.data = none ∨ s.st.dst = .dIdle ∨ s.st.dst = .dRecovery) ∧ StopSettled a
  | .complete => ∃ a ∈ s.st.active, CmdPhaseDone a s ∧ s.st.dst = .dIdle ∧ StopSettled a ∧
      (a.recovPending = false ∨ a.recovered = true) ∧
      (a.cmd.resp ≠ .shortBusy ∨ a.data ≠ none ∨ a.cmdErr ≠ none ∨ a.cbusyChecked = true) ∧
      (a.stopDone = false ∨ a.stopErr ≠ none ∨ a.sbusyChecked = true)

/-- The order of R490: R503, R491, R492, R493, R494, R496, R498, R499, R500, R501. -/
def settleRank : SettleRule → Nat
  | .fatal => 0
  | .wdData => 1
  | .wdCmd => 2
  | .cmdAbort => 3
  | .dataBusy => 4
  | .dataDone => 5
  | .cmdBusy => 6
  | .issueStop => 7
  | .stopBusy => 8
  | .recover => 9
  | .complete => 10

/-- The first rule whose guard holds is `r`. -/
def SettlesBy (r : SettleRule) (s : State) : Prop :=
  SettleGuard r s ∧ ∀ q, settleRank q < settleRank r → ¬ SettleGuard q s

/-- A firing is done and the settle pass goes on in the DPU's next step (R451, log 5). -/
def settling (s : State) : State := push [.settleLoop, .halt] (setRet .ok s)

/-- FATAL_FLUSH's records for the queued requests and control operations, and the queues after it (R515). -/
def flushed (s : State) : State :=
  { s with st := { s.st with
    slots := s.st.slots.map fun x => { x with queue := [] }
    ctlq := s.st.ctlq.filter fun c => decide (c.op = .controllerInit)
    tuning := false
    tctx := if s.st.tuning then none else s.st.tctx
    cport := s.st.cport
      ++ (if s.st.tuning then s.st.tctx.toList.map (fun c => plainRecord .ctl c.tag c.slot.toNat .hardFailure 0#32) else [])
      ++ (s.st.slots.zipIdx.flatMap fun x => x.1.queue.map fun r => plainRecord .req r.seq x.2 .hardFailure 0#32)
      ++ (s.st.ctlq.filter fun c => decide (c.op ≠ .controllerInit)).map fun c =>
        plainRecord .ctl c.tag c.slot.toNat .hardFailure 0#32 } }

/-- The active request after R491's second firing: a stop under way is given up, the command phase is complete. -/
def watchdogEnded (a : Active) : Active :=
  { a with
    cmdComplete := true
    stopDone := a.stopIssued || a.stopDone
    stopErr := if a.stopIssued = true ∧ a.stopDone = false then a.stopErr.or (some .reqTimeout) else a.stopErr }

/-- `deep(A)` (R690). -/
def deepError (a : Active) : Bool :=
  decide (a.dataErr = some .fifoOverrun ∨ a.dataErr = some .fifoStarvation ∨ a.dataErr = some .dmaError ∨
    a.dataErr = some .busyTimeout ∨ a.cmdErr = some .busyTimeout ∨ a.stopErr ≠ none ∨ a.reqErr ≠ none)

/-- How many resets RECOVER waits for: the DMA reset on the DMA path, the FIFO reset, the controller reset when deep
(R690). -/
def recoverResets (a : Active) : Nat :=
  (if a.path = .dma then 1 else 0) + 1 + (if deepError a then 1 else 0)

/-- RECOVER's effect: the resets, then the status cleared but for CD and SDIO, `INTMASK` the base mask, the PIO state
empty (R690). -/
def afterRecover (a : Active) (s : State) : State :=
  let r := (if deepError a then controllerReset else id)
    (fifoReset ((if a.path = .dma then dmaReset ∘ dmaStopped else id) s))
  { r with
    regs := { r.regs with
      rintsts := r.regs.rintsts &&& ~~~0xFFFE#32
      idsts := if r.cfg.dmaPresent then r.regs.idsts &&& ~~~0x337#32 else r.regs.idsts
      intmask := r.st.baseMask &&& intmaskBits r.cfg }
    st := { r.st with pio := ⟨0, 0, 0⟩, partBuf := [] } }

/-! #### Card presence -/

/-- The tuning job a removal of slot `i` ends (R505). -/
def removedJob (s : State) (i : Nat) : List TuneCtx :=
  if s.st.tuning = true ∧ s.st.active = none then s.st.tctx.toList.filter fun c => decide (c.slot.toNat = i) else []

/-- A removal's effect on slot `i` once no request of the slot is active: flag, queue, tuning job, records (R505). -/
def slotEmptied (i : Nat) (s : State) : State :=
  { s with st := { s.st with
    slots := s.st.slots.modify i fun x => { x with present := false, queue := [] }
    tuning := s.st.tuning && decide (removedJob s i = [])
    tctx := if removedJob s i = [] then s.st.tctx else none
    cport := s.st.cport ++ (slotAt s i).queue.map (fun r => plainRecord .req r.seq i .noMedium 0#32)
      ++ (removedJob s i).map (fun c => plainRecord .ctl c.tag i .noMedium 0#32)
      ++ [plainRecord .cd 0#32 i .ok 0#32] } }

/-- CARD_SCAN's look at slot `i`, where no removed slot has a request active (R505). -/
def scanned (s : State) (i : Nat) : State :=
  if s.env.present.getD i false = true ∧ (slotAt s i).present = false then
    { s with
      regs := { s.regs with
        ctype := s.regs.ctype &&& ~~~(1#32 <<< i ||| 1#32 <<< (16 + i)), uhs := s.regs.uhs &&& ~~~(1#32 <<< (16 + i)) }
      st := { s.st with
        slots := s.st.slots.modify i fun x => { x with
          present := true, mode := 0#4, width := 1#4, needInit := true, tuned := { x.tuned with valid := false }
          prevPhase := none, smpl := 0#32 }
        curSlot := if s.st.curSlot = some i then none else s.st.curSlot
        cport := s.st.cport ++ [plainRecord .cd 0#32 i .ok 1#32] } }
  else if s.env.present.getD i false = false ∧ (slotAt s i).present = true then slotEmptied i s
  else s

/-! #### Resets, polls and the clock -/

/-- The state at another tick. -/
def atTick (n : Nat) (s : State) : State := { s with st := { s.st with now := n } }

/-- FATAL raised at tick `n`: the flag and the result HARD_FAILURE, nothing else (R47, R724). -/
def fatalAt (n : Nat) (s : State) : State :=
  { s with st := { s.st with now := n, fatal := true }, ctl := { s.ctl with ret := .hardFailure } }

/-- Reset bits written 1 and not yet served: those of `CTRL`, and `SWR`. A write of `CTRL` or `BMOD` with the DMA
engine's enable 0 leaves it stopped (R683, R560). -/
def asserted (ctrl swr : Word) (s : State) : State :=
  { s with
    regs := { s.regs with ctrl := s.regs.ctrl ||| ctrl, bmod := s.regs.bmod ||| swr }
    st := { s.st with
      dmac := if bit s.regs.ctrl 5 = true ∧ (swr = 0#32 ∨ bit s.regs.bmod 7 = true) then s.st.dmac else s.st.dmac.halted } }

/-- An update-clock command accepted: BUS has loaded `CLKDIV` and `CLKENA` (R412, R766). -/
def clockUpdated (slot : BitVec 4) (s : State) : State :=
  { s with
    regs := { s.regs with cmd := 0x00202000#32 ||| cardField slot }
    env := { s.env with lastSlot := some slot.toNat, effDiv := s.regs.clkdiv, effEna := s.regs.clkena } }

/-- A slot's bit of `CLKENA` written, `CLKDIV` written, an update-clock command written (R411, R412). -/
def gated (slot : BitVec 4) (on : Bool) (s : State) : State :=
  { s with regs := { s.regs with
      clkena := if on then s.regs.clkena ||| 1#32 <<< slot.toNat else s.regs.clkena &&& ~~~(1#32 <<< slot.toNat) } }
def divided (div : Nat) (s : State) : State := { s with regs := { s.regs with clkdiv := BitVec.ofNat 32 div } }
def updateSent (slot : BitVec 4) (s : State) : State :=
  { s with regs := { s.regs with cmd := 0x80202000#32 ||| cardField slot } }

/-! #### The data paths -/

/-- `n` steps of the DMA engine agent. -/
def dmacSteps : Nat → State → State
  | 0, s => s
  | n + 1, s => dmacSteps n (dmacStep s)

/-- A card error is latched (R562). -/
def CardErrorLatched (s : State) : Prop := s.regs.rintsts &&& 0xAE80#32 ≠ 0#32

/-- `IDSTS` and the DMA engine after a descriptor's write-back: `des0` and `des3` of the descriptor, `n` bytes moved
(R562, R568). -/
def descriptorDone (des0 des3 : Word) (n : Nat) (s : State) : State :=
  { s with
    regs := { s.regs with idsts := s.regs.idsts
      ||| (if s.regs.rintsts &&& 0xAE80#32 = 0#32 then 0#32 else 0x220#32)
      ||| (if bit des0 2 = true ∧ bit des0 1 = false then (if s.st.dmac.dir = .read then 0x102#32 else 0x101#32)
           else 0#32) }
    st := { s.st with
      dmac := if bit des0 2 = true then { s.st.dmac with state := .stopped, moved := n, desc := none }
        else { s.st.dmac with cur := des3, moved := 0, desc := none } } }

/-- A bus error of the DMA engine: `FBE` and `AIS`, Stopped (R563). -/
def busErrored (s : State) : State :=
  { s with
    regs := { s.regs with idsts := s.regs.idsts ||| 0x204#32 }
    st := { s.st with dmac := { s.st.dmac with state := .stopped, desc := none } } }

/-- The host addresses of a scatter list's bytes, in stream order (R601). -/
def streamAddrs (sg : List Seg) : List Nat :=
  sg.flatMap fun g => (List.range g.len.toNat).map fun i => g.addr.toNat + i

/-- The cursor stands before stream byte `k` (R600, R601). -/
def CursorAt (sg : List Seg) (k : Nat) (p : Pio) : Prop :=
  (p.off = 0 ∨ ∃ g, sg[p.seg]? = some g ∧ p.off < g.len.toNat) ∧
  ((sg.take p.seg).map fun g => g.len.toNat).sum + p.off = k

/-- Bytes written at addresses, in order. -/
def writeAt (m : Memory) (l : List (Nat × Byte)) : Memory := l.foldl (fun m x => m.write x.1 x.2) m

/-- The words a PIO_PULL moves (R603) and a PIO_PUSH moves (R605). -/
def pulledWords (s : State) : Nat := min s.st.fifo.length ((s.st.pio.remaining + s.cfg.w - 1) / s.cfg.w)
def pushedWords (s : State) : Nat :=
  min (s.cfg.fifoDepth - s.st.fifo.length) ((s.st.pio.remaining + s.cfg.w - 1) / s.cfg.w)

/-- The stream bytes in the words a PIO_PULL moves (R603, R606). -/
def pulledBytes (s : State) : List Byte :=
  ((s.st.fifo.take (pulledWords s)).flatMap (beatBytes s.cfg.w)).take s.st.pio.remaining

/-- A PIO operation has answered `n` bytes moved. -/
def counted (n : Nat) (s : State) : State := { s with ctl := { s.ctl with ret := .ok, retCount := n } }

/-- After the last byte of a PIO write: `txdone`, and TXDR masked (R605). -/
def pushEnded (a : Active) (s : State) : State :=
  if s.st.pio.remaining = 0 ∧ a.txdone = false then
    { withActive { a with txdone := true } s with
      regs := { s.regs with intmask := s.st.baseMask &&& intmaskBits s.cfg } }
  else s

/-! #### Tuning -/

/-- `drv(scan)` (R643). -/
def scanDrive (c : Config) (t : TuneCtx) : Nat :=
  if t.scan = 0 then bits t.savedSmpl 4 4 else c.drvSeq.getD (t.scan - 1) 0

/-- `SMPL_CTRL` written for a slot, and kept as the slot's phase (R632). -/
def phaseSet (slot : BitVec 4) (v : Word) (s : State) : State :=
  { s with
    regs := { s.regs with smplCtrl := v &&& 0xFF#32 }
    st := { s.st with
      slots := s.st.slots.modify slot.toNat fun x => { x with smpl := v }
      curSlot := some slot.toNat } }

/-- The tuning read (R633). -/
def probe (t : TuneCtx) : ReqOp :=
  ⟨t.tag, t.slot, .tuning, ⟨t.cmdIndex, 0#32, .short, true⟩, some (probeData t), false⟩
where
  probeData (t : TuneCtx) : DataSpec := ⟨.read, BitVec.ofNat 16 t.pattern.length, 1#16, []⟩

/-- The tuning job's context changed. -/
def withTune (t : TuneCtx) (s : State) : State := { s with st := { s.st with tctx := some t } }

/-- TUNE_STEP's tuning read issued at trial `idx`: phase `idx` of 8, or of two passes of 8 (R634, R648). -/
def probing (t : TuneCtx) (s : State) : State :=
  issued (probe t) (moving .pio (pioReady (probe.probeData t) (sized (probe.probeData t) (armed (probe t)
    (phaseSet t.slot (BitVec.ofNat 32 (16 * scanDrive s.cfg t + t.idx)) (withTune { t with await := true } s))))))

/-- Positions `p`, `p + 1`, …, `l` of them (mod `n`), pass (R636). -/
def RunAt (b : BitVec 16) (n p l : Nat) : Prop := ∀ i, i < l → b.getLsbD ((p + i) % n) = true

/-- `p` is the least start of a longest run, of length `l` (R636, R639). -/
def LongestRun (b : BitVec 16) (n p l : Nat) : Prop :=
  p < n ∧ 1 ≤ l ∧ l ≤ n ∧ RunAt b n p l ∧ (∀ q, q < p → ¬ RunAt b n q l) ∧
  (l < n → ∀ q, q < n → ¬ RunAt b n q (l + 1))

/-- Circular distance (R642). -/
def circular (n p q : Nat) : Int := min (((p : Int) - q) % n) (((q : Int) - p) % n)

/-- The job ends with a record (R644, R647). -/
def tuneEnded (t : TuneCtx) (code : Code) (payload : Word) (s : State) : State :=
  { s with st := { s.st with
    tuning := false, tctx := none
    cport := s.st.cport ++ [plainRecord .ctl t.tag t.slot.toNat code payload] } }

/-- `tune_success(p, b)` (R644, R313). -/
def tuneAccepted (t : TuneCtx) (p : Nat) (s : State) : State :=
  tuneEnded t .ok (BitVec.ofNat 32 (p + 2 ^ 16 * t.bitmap.toNat))
    (phaseSet t.slot (BitVec.ofNat 32 (16 * scanDrive s.cfg t + if s.cfg.fineTune then 8 * (p % 2) + p / 2 else p))
      { s with st := { s.st with slots := s.st.slots.modify t.slot.toNat fun x =>
        { x with tuned := ⟨true, t.mode, p, t.bitmap⟩, prevPhase := some p } } })

/-- TUNE_FINISH(NO_VIABLE_MODE) (R646, R647). -/
def tuneRejected (t : TuneCtx) (s : State) : State :=
  tuneEnded t .noViableMode (t.bitmap.zeroExtend 32 <<< 16) (phaseSet t.slot t.savedSmpl s)

/-! #### Control operations and the run loop -/

/-- The control queue replaced; a record appended. -/
def withCtlq (q : List CtlEntry) (s : State) : State := { s with st := { s.st with ctlq := q } }
def recorded (c : Completion) (s : State) : State := { s with st := { s.st with cport := s.st.cport ++ [c] } }

/-- No SDIO_IRQ_ACK waits. -/
def NoAck (q : List CtlEntry) : Prop := ∀ e ∈ q, e.op ≠ .sdioIrqAck

/-- SDIO_IRQ_ACK's execution (R415). -/
def ackRun (tag : Word) (slot : BitVec 4) (s : State) : State :=
  recorded (plainRecord .ctl tag slot.toNat .ok 0#32) { s with
    regs := { s.regs with intmask := (s.regs.intmask ||| 1#32 <<< (16 + slot.toNat)) &&& intmaskBits s.cfg }
    st := { s.st with
      slots := s.st.slots.modify slot.toNat fun x => { x with sdioEn := true }
      baseMask := s.st.baseMask ||| 1#32 <<< (16 + slot.toNat) } }

/-- SET_BUS_TIMING's effect after its FIFO reset (R408). -/
def timingSet (tag : Word) (slot mode width : BitVec 4) (s : State) : State :=
  recorded (plainRecord .ctl tag slot.toNat .ok 0#32) { s with
    regs := { s.regs with
      ctype := (s.regs.ctype &&& ~~~(1#32 <<< slot.toNat ||| 1#32 <<< (16 + slot.toNat))
        ||| (if width = 4#4 then 1#32 <<< slot.toNat else 0#32)
        ||| (if width = 8#4 then 1#32 <<< (16 + slot.toNat) else 0#32)) &&& slotPairBits s.cfg
      uhs := (s.regs.uhs &&& ~~~(1#32 <<< (16 + slot.toNat))
        ||| (if mode = 7#4 ∨ mode = 8#4 then 1#32 <<< (16 + slot.toNat) else 0#32)) &&& (slotMask s.cfg <<< 16) }
    st := { s.st with slots := s.st.slots.modify slot.toNat fun x => { x with
      mode := mode, width := width
      tuned := { x.tuned with valid := if mode = x.mode then x.tuned.valid else false } } } }

/-- The divider and the rate it gives (R410). -/
def dividerFor (src rate : Nat) : Nat := if src ≤ rate then 0 else min 255 ((src + 2 * rate - 1) / (2 * rate))
def rateOf (src div : Nat) : Nat := if div = 0 then src else src / (2 * div)

/-- CONTROLLER_INIT between its resets and its scan (R811). -/
def initialised (s : State) : State :=
  let d := s.cfg.dmaPresent
  { s with
    regs := { s.regs with
      rintsts := 0#32, clkena := 0#32, clkdiv := 0#32, ctype := 0#32, uhs := 0#32, smplCtrl := 0#32
      intmask := 0xBFCF#32, tmout := 0xFFFFFFFF#32
      fifoth := 0x20000000#32 ||| BitVec.ofNat 32 (s.cfg.fifoDepth / 2 - 1) <<< 16 ||| BitVec.ofNat 32 (s.cfg.fifoDepth / 2)
      idsts := if d then s.regs.idsts &&& ~~~0x337#32 else s.regs.idsts
      dbaddr := if d then BitVec.ofNat 32 s.cfg.ringBase else s.regs.dbaddr
      idinten := if d then 0x317#32 else s.regs.idinten
      ctrl := s.regs.ctrl ||| 0x10#32 }
    st := { s.st with
      evq := [], wd := { s.st.wd with armed := false }, curSlot := none, rr := s.cfg.nslots - 1
      clkRate := 0, clkDiv := 0, baseMask := 0xBFCF#32, inited := true, fatal := false
      slots := s.st.slots.map fun x => { x with
        present := false, mode := 0#4, width := 1#4, needInit := true, tuned := { x.tuned with valid := false }
        prevPhase := none, smpl := 0#32, sdioEn := false } }
    ctl := { s.ctl with kept := [] } }

/-- A turn of DPU_RUN's loop is done; the loop goes on in the DPU's next step (R451, log 5). -/
def looping (s : State) : State := push [.dpuLoop, .halt] (setRet .ok s)

/-- CMD_DONE with payload `p` ends the command phase of `a` (R470). -/
def commandEnded (p : BitVec 24) (a : Active) (s : State) : State :=
  withActive { a with
    resp0 := if a.cmd.resp = .noResp then a.resp0 else s.regs.resp0
    resp1 := if a.cmd.resp = .long then s.regs.resp1 else a.resp1
    resp2 := if a.cmd.resp = .long then s.regs.resp2 else a.resp2
    resp3 := if a.cmd.resp = .long then s.regs.resp3 else a.resp3
    cmdErr := (classifyCmd (p.zeroExtend 32) a.cmd.crc).or a.cmdErr
    recovPending := (classifyCmd (p.zeroExtend 32) a.cmd.crc).isSome || a.recovPending
    cmdComplete := true } { s with st := { s.st with cst := .cIdle } }

/-! #### Interrupts and whole-machine forms -/

/-- The events of an interrupt snapshot, codes and payloads, in the order they are posted (R730). -/
def snapshotEvents (m d : Word) : List (Nat × Word) :=
  (if bit m 0 then [(7, 0#32)] else [])
  ++ (if m &&& 0x1146#32 ≠ 0#32 then [(1, m &&& 0x1146#32)] else [])
  ++ (if m &&& 0xAE80#32 ≠ 0#32 ∨ bit d 2 = true ∨ bit d 4 = true then
      [(2, (m &&& 0xAE80#32) ||| (if bit d 2 then 0x10000#32 else 0#32) ||| (if bit d 4 then 0x20000#32 else 0#32))]
    else [])
  ++ (if bit m 5 then [(3, 0#32)] else [])
  ++ (if bit m 4 then [(4, 0#32)] else [])
  ++ (if bit m 3 then [(5, 0#32)] else [])
  ++ (if bit d 0 = true ∨ bit d 1 = true then [(6, d &&& 0x3#32)] else [])
  ++ (if m &&& 0xFFFF0000#32 ≠ 0#32 then [(8, m >>> 16)] else [])

/-- What is queued of code `c` after a snapshot with payload `new` of that code: a queued event keeps its place and takes
the payload in if it is of CMD_DONE, DATA_ERR or SDIO_IRQ, else the event is added (R148). -/
def queuedAfter (c : Nat) (old new : Option Word) : Option Word :=
  match old, new with
  | none, none => none
  | some e, none => some e
  | none, some p => some (p <<< 8 ||| BitVec.ofNat 32 c)
  | some e, some p => some (if c = 1 ∨ c = 2 ∨ c = 8 then e ||| p <<< 8 else e)

/-- The queued event of a code. -/
def queuedEvent (c : Nat) (q : List Word) : Option Word := q.find? fun e => decide (bits e 0 8 = c)

/-- The forms every step keeps (10_state.md R157 (e), R147, R148, R143, R561, and the reserved bits). -/
structure Forms (s : State) : Prop where
  idle  : IdlePhases s
  fifo  : FifoBounded s
  evq   : EventsLegal s
  shape : ShapeOk s
  desc  : DescHeld s
  regs  : RegsLegal s

end Sys2Proof.Machine

open Sys2Proof Sys2Proof.Machine

/-! ### Encodings -/

/-- Words written out decode to the instructions they stand for: the host-port and event words from the spec's encodings;
the layout of the two trace records, the slot of UPDATE_CLOCK in `SLOT`, is the model's choice (log 3; R300 to R304,
R318). -/
def Obligations.SpecWordsDecode : Prop :=
  decode .host [0x00060001#32, 0x00000351#32, 0x00000000#32, 0x00010200#32, 0x00000001#32, 0x00001000#32, 0x00000200#32]
    = .ok (.submit 0#4 [0x00000351#32, 0x00000000#32, 0x00010200#32, 0x00000001#32, 0x00001000#32, 0x00000200#32]) ∧
  decode .host [0x00010002#32, 0x00000406#32] = .ok (.setBusTiming 0#4 [0x00000406#32]) ∧
  decode .host [0x00010103#32, 0x00061A80#32] = .ok (.setClock 1#4 [0x00061A80#32]) ∧
  decode .host [0x00000007#32] = .ok (.controllerInit 0#4 []) ∧
  decode .host [0x00000021#32] = .error (.internalOp 0x21) ∧
  decode .host [0x00000008#32] = .error (.reservedOp 0x08) ∧
  decode .host [0x00001004#32] = .error .reservedBits ∧
  decode .trace [0x00000128#32] = .ok (.updateClock 1#4) ∧
  decode .trace [0x00000050#32] = .ok .irqDispatch ∧
  decode .event [0x00000401#32] = .ok (.evCmdDone 0x000004#24) ∧
  decode .event [0x00008002#32] = .ok (.evDataErr 0x000080#24) ∧
  decode .event [0x0000000A#32] = .error .badEventCode

/-- Decoding an encoded well-formed instruction gives it back, every operand at every value the encoding admits. The
operand words of a trace record are the model's choice (log 3). -/
def Obligations.EncodeDecodeRoundTrip : Prop :=
  ∀ i : Instr, i.wellFormed = true → decode i.port (encode i) = .ok i

/-- A step runs the instruction its port's words decode to, on the state without that stimulus: from the agenda, and
as State.withFetchWord places a table word (log 1, log 2). A packet whose operation is none of the seven host-port
operations, or whose reserved bits 15:12 are not 0, is refused ILLEGAL_OP and has no other effect (R401, R317, R318). -/
def Obligations.StepRunsDecodedInstruction : Prop :=
  (∀ (s : State) (p : Port) (ws : List Word) (rest : List Stimulus) (i : Instr),
    s.ctl.agenda = .feed p ws :: rest → decode p ws = .ok i →
    (p = .host ∨ ofDpu i = false ∨ s.ctl.dpu = []) →
    step s = exec i { s with ctl := { s.ctl with agenda := rest } }) ∧
  (∀ (s : State) (nbits w : Nat) (i : Instr), decodeTableWord nbits w = some i →
    (tablePort nbits w = .host → step (s.withFetchWord nbits w) = exec i s) ∧
    (tablePort nbits w ≠ .host → step (s.withFetchWord nbits w) = exec i { s with ctl := { s.ctl with dpu := [] } })) ∧
  (∀ (s : State) (w : Word) (ops : List Word) (rest : List Stimulus),
    s.ctl.agenda = .feed .host (w :: ops) :: rest → bits w 16 16 ≤ ops.length →
    (bits w 12 4 ≠ 0 ∨ bits w 0 8 = 0 ∨ 7 < bits w 0 8) →
    step s = .next { s with ctl := { s.ctl with agenda := rest, accepted := ⟨.illegalOp, 0#32, 0#32⟩ } })

/-! ### The host port -/

/-- Every host-port operation answers in its own step: OK, or one of the six refusal codes with no other effect
(R307). -/
def Obligations.HostPortAnswersAtOnce : Prop :=
  ∀ (op : HostOp) (slot : BitVec 4) (ws : List Word) (s : State),
    ∃ t, exec (hostInstr op slot ws) s = .next t ∧
      (t.ctl.accepted.status = .ok ∨
        (t.ctl.accepted.status ∈ [Code.queueFull, .illegalOp, .invalidArg, .notReady, .noMedium, .hardFailure] ∧
          t = { s with ctl := { s.ctl with accepted := ⟨t.ctl.accepted.status, 0#32, 0#32⟩ } }))

/-- An acceptance step leaves the triple to HOST and nothing else, or takes the next tag, schedules the DPU and appends one
entry: SUBMIT one Request to its slot's queue, a control operation one entry to `st.ctlq` (R401, R404). -/
def Obligations.AcceptanceStepFrame : Prop :=
  ∀ (op : HostOp) (slot : BitVec 4) (ws : List Word) (s t : State), exec (hostInstr op slot ws) s = .next t →
    (t = { s with ctl := { s.ctl with accepted := t.ctl.accepted } } ∧ t.ctl.accepted.tag = 0#32) ∨
    (op = .submit ∧ ∃ r : Request, r.seq = s.st.nextSeq ∧ r.slot = slot ∧ t = accepted (queued slot r s)) ∨
    (op ≠ .submit ∧ op ≠ .getCardPresent ∧ ∃ c : CtlOp, t = accepted (ctlQueued c slot s))

/-- SUBMIT in range, the engine in service, the card present and the queue not full: the Request, as the packet's
fields give it, joins the slot's queue under the next tag, and the DPU is scheduled (R302, R401, R406). -/
def Obligations.SubmitAccepted : Prop :=
  ∀ (s : State) (slot : BitVec 4) (index : BitVec 6) (resp : RespType) (crc : Bool) (arg : Word),
    InService s → slot.toNat < s.cfg.nslots → (slotAt s slot.toNat).present = true →
    (slotAt s slot.toNat).queue.length ≠ s.cfg.qdepth →
    exec (.submit slot [BitVec.ofNat 32 (index.toNat + 64 * respVal resp + 256 * bitVal crc), arg]) s
      = .next (accepted (queued slot (Request.fresh ⟨s.st.nextSeq, slot, .host, ⟨index, arg, resp, crc⟩, none, false⟩) s))
    ∧ ∀ (d : DataSpec) (stop : Bool), 2 * d.sg.length + 4 < 65536 → ScatterInRange s.cfg d →
      exec (.submit slot (BitVec.ofNat 32 (index.toNat + 64 * respVal resp + 256 * bitVal crc + 512
          + 1024 * dirVal d.dir + 2048 * bitVal stop) :: arg ::
          BitVec.ofNat 32 (d.blksz.toNat + 65536 * d.blocks.toNat) :: BitVec.ofNat 32 d.sg.length :: segWords d.sg)) s
        = .next (accepted
            (queued slot (Request.fresh ⟨s.st.nextSeq, slot, .host, ⟨index, arg, resp, crc⟩, some d, stop⟩) s))

/-- A control operation in range joins `st.ctlq` with its operands as the packet's fields give them (R303, R401, R407,
R409, R414 to R416); CONTROLLER_INIT in every state of the engine, the others in service, SET_BUS_TIMING and TUNE with the
card present. GET_CARD_PRESENT answers the slot's presence flag, takes no tag and changes nothing else (R413). -/
def Obligations.ControlOperationsAccepted : Prop :=
  ∀ (s : State) (slot : BitVec 4), slot.toNat < s.cfg.nslots →
    (InService s → exec (.getCardPresent slot []) s = .next { s with ctl := { s.ctl with
      accepted := ⟨.ok, 0#32, if (slotAt s slot.toNat).present = true then 1#32 else 0#32⟩ } }) ∧
    (s.st.ctlq.length ≠ s.cfg.qdepth → slot = 0#4 → exec (.controllerInit slot []) s = .next (accepted (ctlQueued .controllerInit slot s))) ∧
    (s.st.ctlq.length ≠ s.cfg.qdepth → InService s →
      exec (.sdioIrqAck slot []) s = .next (accepted (ctlQueued .sdioIrqAck slot s)) ∧
      (∀ rate : Word, exec (.setClock slot [rate]) s = .next (accepted (ctlQueued (.setClock rate) slot s))) ∧
      ((slotAt s slot.toNat).present = true →
        (∀ mode width : BitVec 4, mode.toNat ≤ 9 → (width = 1#4 ∨ width = 4#4 ∨ width = 8#4) →
          exec (.setBusTiming slot [BitVec.ofNat 32 (mode.toNat + 256 * width.toNat)]) s
            = .next (accepted (ctlQueued (.setBusTiming mode width) slot s))) ∧
        (∀ (mode : BitVec 4) (index : BitVec 6) (pattern : List Byte), mode.toNat ≤ 9 → pattern ≠ [] →
          pattern.length ≤ 128 →
          exec (.tune slot (BitVec.ofNat 32 (mode.toNat + 256 * index.toNat + 65536 * pattern.length)
              :: packBytes pattern)) s
            = .next (accepted (ctlQueued (.tune mode index pattern) slot s)))))

/-- Operands of another number, with a reserved bit set or out of range are refused, whatever the engine's state, in
the order of the acceptance step's checks (R302, R303, R401, R405). -/
def Obligations.IllFormedOperandsRefused : Prop :=
  ∀ (s : State) (slot : BitVec 4) (ws : List Word),
    -- the number of operand words
    (ws.length ≠ 2 → (ws.length < 4 ∨ bit (operand ws 1) 9 = false ∨ ws.length ≠ 4 + 2 * (operand ws 4).toNat) →
      exec (.submit slot ws) s = .next (refuse .invalidArg s)) ∧
    (ws.length = 2 → bit (operand ws 1) 9 = true → exec (.submit slot ws) s = .next (refuse .invalidArg s)) ∧
    (ws.length ≠ 1 → exec (.setBusTiming slot ws) s = .next (refuse .invalidArg s) ∧
      exec (.setClock slot ws) s = .next (refuse .invalidArg s)) ∧
    (ws ≠ [] → exec (.getCardPresent slot ws) s = .next (refuse .invalidArg s) ∧
      exec (.sdioIrqAck slot ws) s = .next (refuse .invalidArg s) ∧
      exec (.controllerInit slot ws) s = .next (refuse .invalidArg s)) ∧
    (ws.length ≠ 1 + (bits (operand ws 1) 16 16 + 3) / 4 → exec (.tune slot ws) s = .next (refuse .invalidArg s)) ∧
    -- reserved bits
    (∀ w arg : Word, bit w 9 = false → bits w 12 20 ≠ 0 →
      exec (.submit slot [w, arg]) s = .next (refuse .illegalOp s)) ∧
    (∀ (w arg geom : Word) (sg : List Seg), sg.length < 2 ^ 32 → bit w 9 = true → bits w 12 20 ≠ 0 →
      exec (.submit slot (w :: arg :: geom :: BitVec.ofNat 32 sg.length :: segWords sg)) s
        = .next (refuse .illegalOp s)) ∧
    (∀ w : Word, (bits w 12 20 ≠ 0 ∨ bits w 4 4 ≠ 0) →
      exec (.setBusTiming slot [w]) s = .next (refuse .illegalOp s)) ∧
    (∀ (w : Word) (pat : List Word), pat.length = (bits w 16 16 + 3) / 4 →
      (bits w 4 4 ≠ 0 ∨ bits w 14 2 ≠ 0 ∨ ∃ b ∈ (unpackBytes pat).drop (bits w 16 16), b ≠ 0#8) →
      exec (.tune slot (w :: pat)) s = .next (refuse .illegalOp s)) ∧
    -- ranges
    (∀ w arg : Word, bit w 9 = false → bits w 12 20 = 0 →
      (s.cfg.nslots ≤ slot.toNat ∨ bit w 10 = true ∨ bit w 11 = true) →
      exec (.submit slot [w, arg]) s = .next (refuse .invalidArg s)) ∧
    (∀ (w arg geom : Word) (sg : List Seg), sg.length < 2 ^ 32 → bit w 9 = true → bits w 12 20 = 0 →
      (s.cfg.nslots ≤ slot.toNat ∨ bits geom 0 16 = 0 ∨ bits geom 16 16 = 0 ∨ sg = [] ∨ s.cfg.maxSg < sg.length ∨
        (∃ g ∈ sg, g.len = 0#32 ∨ 2 ^ 32 < g.addr.toNat + g.len.toNat ∨
          (s.cfg.dmaPresent = true ∧ g.addr.toNat < s.cfg.ringBase + 16 * s.cfg.ndesc ∧
            s.cfg.ringBase < g.addr.toNat + g.len.toNat)) ∨
        (sg.map fun g => g.len.toNat).sum ≠ bits geom 0 16 * bits geom 16 16) →
      exec (.submit slot (w :: arg :: geom :: BitVec.ofNat 32 sg.length :: segWords sg)) s
        = .next (refuse .invalidArg s)) ∧
    (∀ w : Word, bits w 12 20 = 0 → bits w 4 4 = 0 →
      (s.cfg.nslots ≤ slot.toNat ∨ 9 < bits w 0 4 ∨
        (bits w 8 4 ≠ 1 ∧ bits w 8 4 ≠ 4 ∧ bits w 8 4 ≠ 8)) →
      exec (.setBusTiming slot [w]) s = .next (refuse .invalidArg s)) ∧
    (∀ (w : Word) (pattern : List Byte), pattern.length = bits w 16 16 → bits w 4 4 = 0 → bits w 14 2 = 0 →
      (s.cfg.nslots ≤ slot.toNat ∨ 9 < bits w 0 4 ∨ pattern = [] ∨ 128 < pattern.length) →
      exec (.tune slot (w :: packBytes pattern)) s = .next (refuse .invalidArg s)) ∧
    (∀ w : Word, s.cfg.nslots ≤ slot.toNat → exec (.setClock slot [w]) s = .next (refuse .invalidArg s)) ∧
    (s.cfg.nslots ≤ slot.toNat → exec (.getCardPresent slot []) s = .next (refuse .invalidArg s) ∧
      exec (.sdioIrqAck slot []) s = .next (refuse .invalidArg s)) ∧
    ((s.cfg.nslots ≤ slot.toNat ∨ slot ≠ 0#4) →
      exec (.controllerInit slot []) s = .next (refuse .invalidArg s))

/-- Well-formed operations are refused by the engine's state in the order of the acceptance step: NOT_READY before
initialisation, HARD_FAILURE while fatal, NO_MEDIUM without a card, QUEUE_FULL at a full queue; CONTROLLER_INIT only
for a full control queue (R401, R801, R812). -/
def Obligations.RefusalsByState : Prop :=
  ∀ (op : HostOp) (slot : BitVec 4) (ws : List Word) (s : State), operandsLegal s.cfg op slot ws = true →
    (op ≠ .controllerInit →
      (s.st.inited = false → exec (hostInstr op slot ws) s = .next (refuse .notReady s)) ∧
      (s.st.inited = true → s.st.fatal = true → exec (hostInstr op slot ws) s = .next (refuse .hardFailure s)) ∧
      (InService s → (op = .submit ∨ op = .setBusTiming ∨ op = .tune) → (slotAt s slot.toNat).present = false →
        exec (hostInstr op slot ws) s = .next (refuse .noMedium s))) ∧
    ((op = .controllerInit ∨ InService s) →
      ((op = .submit ∨ op = .setBusTiming ∨ op = .tune) → (slotAt s slot.toNat).present = true) →
      (op = .submit → (slotAt s slot.toNat).queue.length = s.cfg.qdepth →
        exec (hostInstr op slot ws) s = .next (refuse .queueFull s)) ∧
      (op ≠ .submit → op ≠ .getCardPresent → s.st.ctlq.length = s.cfg.qdepth →
        exec (hostInstr op slot ws) s = .next (refuse .queueFull s)))

/-! ### Slot manager and dispatch -/

/-- ENQUEUE puts the Request at the end of its slot's queue; no other slot and nothing else changes. That it does so on a
queue of QDEPTH requests or more, which only a trace reaches, is the model's choice (log 7; R455). -/
def Obligations.EnqueueAppends : Prop :=
  ∀ (r : ReqOp) (s : State), ShapeOk s → r.slot.toNat < s.cfg.nslots →
    ∃ t, exec (.enqueue r) s = .next t ∧
      t = { s with st := { s.st with slots := t.st.slots } } ∧ t.st.slots.length = s.st.slots.length ∧
      (slotAt t r.slot.toNat) = { slotAt s r.slot.toNat with
        queue := (slotAt s r.slot.toNat).queue ++ [Request.fresh r] } ∧
      ∀ i, i ≠ r.slot.toNat → slotAt t i = slotAt s i

/-- DISPATCH of a request without data: the request active, the watchdog armed, `SMPL_CTRL` written on a change of slot,
stale status cleared, `CMDARG` and the command word written, CIssuing; nothing else changes (R460, R308). -/
def Obligations.DispatchWithoutData : Prop :=
  ∀ (r : ReqOp) (s : State), Prompt s → s.st.active = none → r.slot.toNat < s.cfg.nslots → bit s.regs.cmd 31 = false →
    r.data = none → exec (.dispatch r) s = .next (issued r (armed r s))

/-- DISPATCH of a data request by PIO: without a DMA engine, for a tuning read, or where DMA_PREPARE declines the list;
the data path is armed before the command is written, DXfer (R460, R602). -/
def Obligations.DispatchByPio : Prop :=
  ∀ (r : ReqOp) (d : DataSpec) (s : State), Prompt s → s.st.active = none → r.slot.toNat < s.cfg.nslots →
    bit s.regs.cmd 31 = false → r.data = some d →
    (s.cfg.dmaPresent = false ∨ r.origin = .tuning ∨
      ∃ p, exec (.dmaPrepare d.sg) s = .next p ∧ p.ctl.ret = .dmaDeclined) →
    exec (.dispatch r) s = .next (issued r (moving .pio (pioReady d (sized d (armed r s)))))

/-- DISPATCH of a data request whose list DMA_PREPARE accepts: the chain it wrote, the DMA engine started, DXfer
(R460, R557). -/
def Obligations.DispatchByDma : Prop :=
  ∀ (r : ReqOp) (d : DataSpec) (s p : State), Prompt s → RegsLegal s → s.st.active = none →
    r.slot.toNat < s.cfg.nslots → bit s.regs.cmd 31 = false → s.st.dmac.state = .stopped → r.data = some d →
    s.cfg.dmaPresent = true → r.origin = .host → exec (.dmaPrepare d.sg) s = .next p → p.ctl.ret = .ok →
    exec (.dispatch r) s = .next (issued r (moving .dma (dmaStarted d.dir (sized d (armed r
      { s with mem := p.mem, st := { s.st with chain := p.st.chain } })))))

/-- DISPATCH_NEXT serves the first slot after `st.rr`, in circular order, that has a request queued: the head leaves
the queue, `st.rr` names the slot, the request is dispatched; while it is not enabled the state stays, the
model's choice (R456, log 6). -/
def Obligations.DispatchNextRoundRobin : Prop :=
  (∀ (s : State) (k : Nat) (r : ReqOp) (rest : List Request),
    s.st.active = none → s.st.tuning = false → s.st.fatal = false → s.st.ctlq = [] → ShapeOk s →
    1 ≤ k → k ≤ s.cfg.nslots →
    (∀ j, 1 ≤ j → j < k → (slotAt s ((s.st.rr + j) % s.cfg.nslots)).queue = []) →
    (slotAt s ((s.st.rr + k) % s.cfg.nslots)).queue = Request.fresh r :: rest →
    exec .dispatchNext s = exec (.dispatch r) { s with st := { s.st with
      slots := s.st.slots.modify ((s.st.rr + k) % s.cfg.nslots) fun x => { x with queue := rest }
      rr := (s.st.rr + k) % s.cfg.nslots } } ∧
    (Prompt s → bit s.regs.cmd 31 = false → r.data = none → r.slot.toNat < s.cfg.nslots →
      ∃ t, exec .dispatchNext s = .next t ∧ t.st.active = some (Active.fresh (Request.fresh r)) ∧
        t.st.rr = (s.st.rr + k) % s.cfg.nslots ∧ t.st.cst = .cIssuing)) ∧
  (∀ s : State, (s.st.active ≠ none ∨ s.st.tuning = true ∨ s.st.fatal = true ∨ s.st.ctlq ≠ [] ∨
      ∀ x ∈ s.st.slots, x.queue = []) → exec .dispatchNext s = .next (setRet .ok s))

/-- Where a micro-operation's operand does not exist the model stops by name: COMPLETE, ISSUE_STOP and RECOVER without
an active request, TUNE_SELECT and TUNE_FINISH without a tuning job, DISPATCH while a request is active (R157, R520) and
the slot operations on a slot that is not there. The names are the model's (log 7). -/
def Obligations.MissingOperandsStop : Prop :=
  ∀ s : State,
    (s.st.active = none → exec .complete s = .fault .noActiveRequest ∧ exec .issueStop s = .fault .noActiveRequest ∧
      exec .recover s = .fault .noActiveRequest) ∧
    (s.st.tctx = none → exec .tuneSelect s = .fault .noTuningJob ∧
      ∀ c, exec (.tuneFinish c) s = .fault .noTuningJob) ∧
    (s.st.active ≠ none → ∀ r, exec (.dispatch r) s = .fault .requestActive) ∧
    (∀ r : ReqOp, s.cfg.nslots ≤ r.slot.toNat → exec (.enqueue r) s = .fault .noSuchSlot ∧
      (s.st.active = none → exec (.dispatch r) s = .fault .noSuchSlot))

/-! ### Events -/

/-- An event word handed to the DPU is ON_EVENT of the word whose low byte is its code and whose upper bits are its
payload. ON_EVENT answers a next state on every event word and in every state but where its row moves data by PIO; there RX_READY
is PIO_PULL(false) and TX_READY is PIO_PUSH. A word of a reserved code is a model fault where ON_EVENT is handed it (93 I19,
log 19; R304, R319, R465, R473, R474). -/
def Obligations.EventWordsAreOnEvent : Prop :=
  ∀ (p : BitVec 24) (s : State),
    exec (.evCmdDone p) s = exec (.onEvent (p ++ 0x01#8 : BitVec 32)) s ∧
    exec (.evDataErr p) s = exec (.onEvent (p ++ 0x02#8 : BitVec 32)) s ∧
    exec (.evRxReady p) s = exec (.onEvent (p ++ 0x03#8 : BitVec 32)) s ∧
    exec (.evTxReady p) s = exec (.onEvent (p ++ 0x04#8 : BitVec 32)) s ∧
    exec (.evDataOver p) s = exec (.onEvent (p ++ 0x05#8 : BitVec 32)) s ∧
    exec (.evDmaDone p) s = exec (.onEvent (p ++ 0x06#8 : BitVec 32)) s ∧
    exec (.evCardDetect p) s = exec (.onEvent (p ++ 0x07#8 : BitVec 32)) s ∧
    exec (.evSdioIrq p) s = exec (.onEvent (p ++ 0x08#8 : BitVec 32)) s ∧
    exec (.evWatchdog p) s = exec (.onEvent (p ++ 0x09#8 : BitVec 32)) s ∧
    ∀ w : Word,
      ((bits w 0 8 = 0 ∨ 9 < bits w 0 8) → exec (.onEvent w) s = .fault .badEventWord) ∧
      (1 ≤ bits w 0 8 → bits w 0 8 ≤ 9 → ¬ movesByPio w s → ∃ t, exec (.onEvent w) s = .next t) ∧
      (movesByPio w s → bits w 0 8 = 3 → exec (.onEvent w) s = exec (.pioPull false) s) ∧
      (movesByPio w s → bits w 0 8 = 4 → exec (.onEvent w) s = exec .pioPush s)

/-- An event, a word of one of the nine codes, that matches no row of R465's table is discarded: ON_EVENT answers OK and
changes no state (R466). -/
def Obligations.StaleEventsDiscarded : Prop :=
  ∀ (w : Word) (s : State), 1 ≤ bits w 0 8 → bits w 0 8 ≤ 9 → ¬ rowMatches w s →
    exec (.onEvent w) s = .next (setRet .ok s)

/-- CMD_DONE in CIssuing: the response registers the response type has are copied, the error is classified and kept, the
command phase ends. In CStop with an error and tries left the stop is issued again and CStop stays; else the stop is done,
its error kept, the command phase ends. The data phase and memory stay (R470, R471, R692, R452). -/
def Obligations.CmdDoneEndsCommandOrStop : Prop :=
  ∀ (p : BitVec 24) (a : Active) (s : State), s.st.active = some a →
    (s.st.cst = .cIssuing → exec (.evCmdDone p) s = .next (setRet .ok (commandEnded p a s))) ∧
    (s.st.cst = .cStop → classifyCmd (p.zeroExtend 32) true ≠ none → a.stopTries < s.cfg.stopRetryMax → Prompt s →
      bit s.regs.cmd 31 = false →
      exec (.evCmdDone p) s = .next (setRet .ok (stopWritten a.slot (withActive { a with
        stopResp := s.regs.resp0, stopTries := a.stopTries + 1 } s)))) ∧
    (s.st.cst = .cStop → (classifyCmd (p.zeroExtend 32) true = none ∨ s.cfg.stopRetryMax ≤ a.stopTries) →
      exec (.evCmdDone p) s = .next (setRet .ok (withActive { a with
        stopResp := s.regs.resp0
        stopErr := (classifyCmd (p.zeroExtend 32) true).or a.stopErr
        recovPending := (classifyCmd (p.zeroExtend 32) true).isSome || a.recovPending
        stopDone := true } { s with st := { s.st with cst := .cIdle } })))

/-- DATA_ERR in DXfer or DBusy: the first error kept, recovery pending, the DMA engine quiesced on the DMA path, the
FIFO-ready interrupts masked on the PIO path, DRecovery; the command phase stays. That a payload with none of R513's bits
records no error is the model's choice (log 31; R472, R565). -/
def Obligations.DataErrorEntersRecovery : Prop :=
  ∀ (p : BitVec 24) (a : Active) (s : State), s.st.active = some a → (s.st.dst = .dXfer ∨ s.st.dst = .dBusy) →
    (a.path ≠ .dma → exec (.evDataErr p) s = .next (setRet .ok (pioMasked a (withActive { a with
      dataErr := a.dataErr.or (classifyData (p.zeroExtend 32)), recovPending := true }
      { s with st := { s.st with dst := .dRecovery } })))) ∧
    (a.path = .dma → Prompt s → RegsLegal s →
      exec (.evDataErr p) s = .next (setRet .ok (dmaStopped (withActive { a with
        dataErr := a.dataErr.or (classifyData (p.zeroExtend 32)), recovPending := true }
        { s with st := { s.st with dst := .dRecovery } }))))

/-- DATA_OVER in DXfer: a PIO read is drained as PIO_PULL(true) does, the FIFO-ready interrupts are masked on the PIO
path, DBusy (R475). -/
def Obligations.DataOverEntersBusy : Prop :=
  ∀ (p : BitVec 24) (a : Active) (s : State), s.st.active = some a → s.st.dst = .dXfer →
    ((a.path ≠ .pio ∨ ∀ d ∈ a.data, d.dir = .write) →
      exec (.evDataOver p) s = .next (setRet .ok (pioMasked a { s with st := { s.st with dst := .dBusy } }))) ∧
    (∀ d t, a.path = .pio → a.data = some d → d.dir = .read → exec (.pioPull true) s = .next t →
      exec (.evDataOver p) s = .next (pioMasked a { t with st := { t.st with dst := .dBusy } }))

/-- DMA_DONE on the DMA path in DXfer or DBusy records the DMA engine's end; WATCHDOG for the active request records the
timeout and enters CRecovery; each changes nothing else (R476, R477). -/
def Obligations.DmaDoneAndWatchdogRecorded : Prop :=
  ∀ (p : BitVec 24) (a : Active) (s : State), s.st.active = some a →
    (a.path = .dma → (s.st.dst = .dXfer ∨ s.st.dst = .dBusy) →
      exec (.evDmaDone p) s = .next (setRet .ok (withActive { a with dmaDone := true } s))) ∧
    (p = a.seq.truncate 24 →
      exec (.evWatchdog p) s = .next (setRet .ok (withActive { a with reqErr := some .reqTimeout, recovPending := true }
        { s with st := { s.st with cst := .cRecovery } })))

/-- SDIO_IRQ: each slot of the mask whose SDIO interrupt is enabled is disabled, its bit leaves the base mask and
`INTMASK`, and one SDIO record each is appended in slot order; the other slots and everything else stay (R740, R479). -/
def Obligations.SdioInterruptReported : Prop :=
  ∀ (p : BitVec 24) (s : State), ShapeOk s → RegsLegal s → s.cfg.nslots ≤ 16 →
    exec (.evSdioIrq p) s = .next (setRet .ok { s with
      regs := { s.regs with
        intmask := clearSlotBits ((List.range s.cfg.nslots).filter (sdioHit p s)) s.regs.intmask }
      st := { s.st with
        slots := s.st.slots.mapIdx fun i x => if sdioHit p s i then { x with sdioEn := false } else x
        baseMask := clearSlotBits ((List.range s.cfg.nslots).filter (sdioHit p s)) s.st.baseMask
        cport := s.st.cport ++ ((List.range s.cfg.nslots).filter (sdioHit p s)).map fun i =>
          ⟨.sdio, 0#32, i, .ok, 0#32, 0#32, 0#32, 0#32, 0#32, 0, 0#32⟩ } })

/-! ### Settling and completion -/

/-- `summary(A)`, `classify_cmd(p, crc)` and `classify_data(p)`. The last case of `classify_data`, none for a payload with
no listed bit, is the model's choice (log 31; R511, R512, R513). -/
def Obligations.ResultsClassified : Prop :=
  (∀ a : Active, some (summary a) =
    (a.fatalErr.or (a.nomedium.or (a.reqErr.or (a.cmdErr.or (a.dataErr.or (a.stopErr.or (some .ok)))))))) ∧
  (∀ (p : Word) (crc : Bool), classifyCmd p crc =
    if p.getLsbD 8 then some .cmdTimeout else if p.getLsbD 6 ∧ crc then some .cmdCrc
    else if p.getLsbD 1 then some .cmdRespErr else if p.getLsbD 12 then some .cmdHle else none) ∧
  (∀ p : Word, classifyData p =
    if p.getLsbD 9 then some .dataTimeout else if p.getLsbD 13 then some .dataStartBit
    else if p.getLsbD 7 then some .dataCrc else if p.getLsbD 15 then some .dataEndBit
    else if p.getLsbD 11 then some .fifoOverrun else if p.getLsbD 10 then some .fifoStarvation
    else if p.getLsbD 16 ∨ p.getLsbD 17 then some .dmaError else none)

/-- COMPLETE of a HOST request: its REQ record with the summary code and the whole transfer's bytes or none, no request
active, both phases idle, the watchdog disarmed, nothing else but the buffers kept after HARD_FAILURE on the DMA path
(log 15). COMPLETE of any request while the DMA engine owns the arena is a model fault (R510, R157, R567). -/
def Obligations.CompleteDeliversRecord : Prop :=
  ∀ (a : Active) (s : State), s.st.active = some a →
    (a.origin = .host → s.st.dmac.owner = .block → exec .complete s = .next (setRet .ok (completed a (summary a) s))) ∧
    (s.st.dmac.owner = .engine → exec .complete s = .fault .ownerWithoutRequest)

/-- Where R491's first firing or R492 is the first rule whose guard holds, the data phase is quiesced and enters
DRecovery; the command phase stays. WATCHDOG_RECOVER in that state does the same (R490 to R492). -/
def Obligations.SettleQuiescesData : Prop :=
  ∀ (a : Active) (s : State), s.st.active = some a → Prompt s → RegsLegal s →
    ((SettlesBy .wdData s ∨ SettlesBy .cmdAbort s) →
      exec .settle s = .next (settling ((if a.path = .dma then dmaStopped else pioMasked a)
        { s with st := { s.st with dst := .dRecovery } }))) ∧
    (SettleGuard .wdData s →
      exec .watchdogRecover s = .next (setRet .ok ((if a.path = .dma then dmaStopped else pioMasked a)
        { s with st := { s.st with dst := .dRecovery } })))

/-- R491's second firing: after the controller reset, which BUS completes, a stop under way is given up with
REQ_TIMEOUT, the command phase is complete and idle (R491, R685). -/
def Obligations.WatchdogResetsController : Prop :=
  ∀ (a : Active) (s : State), s.st.active = some a → Prompt s → RegsLegal s → NoReset s →
    (SettlesBy .wdCmd s → ∃ u, exec .settle s = .next u ∧
      serveResets u = .next (settling (withActive (watchdogEnded a) { controllerReset s with
        st := { (controllerReset s).st with cst := .cIdle } }))) ∧
    (SettleGuard .wdCmd s → ∃ u, exec .watchdogRecover s = .next u ∧
      serveResets u = .next (setRet .ok (withActive (watchdogEnded a) { controllerReset s with
        st := { (controllerReset s).st with cst := .cIdle } })))

/-- R493 on a read, and on a write whose card is not busy, and R496 and R499 with the card not busy: the busy wait is over
and changes nothing else. R494: the data arrived whole, the DMA engine stopped on the DMA path, DIdle. R498: the stop
command is written whatever the card's state, CStop (R490, R493, R494, R496, R498, R499, R692). -/
def Obligations.SettlePhases : Prop :=
  ∀ (a : Active) (s : State), s.st.active = some a → Prompt s →
    (SettlesBy .dataBusy s → ((∀ d ∈ a.data, d.dir = .read) ∨ bit (regRead .STATUS s) 9 = false) →
      exec .settle s = .next (settling (withActive { a with dbusyChecked := true } s))) ∧
    (SettlesBy .dataDone s → RegsLegal s →
      exec .settle s = .next (settling ((if a.path = .dma then dmaStopped else id) (withActive { a with
        dataOk := true, bytesDone := transferBytes a.toReqOp } { s with st := { s.st with dst := .dIdle } })))) ∧
    (SettlesBy .cmdBusy s → bit (regRead .STATUS s) 9 = false →
      exec .settle s = .next (settling (withActive { a with cbusyChecked := true } s))) ∧
    (SettlesBy .stopBusy s → bit (regRead .STATUS s) 9 = false →
      exec .settle s = .next (settling (withActive { a with sbusyChecked := true } s))) ∧
    (SettlesBy .issueStop s → bit s.regs.cmd 31 = false →
      exec .settle s = .next (settling (stopWritten a.slot (withActive { a with stopIssued := true, stopTries := 0 } s))))

/-- The end of the second busy window with the card still busy is BUSY_TIMEOUT: recorded for the phase that waited,
recovery pending; the data phase enters DRecovery (R493, R496, R499, R686). -/
def Obligations.BusyTimeoutRecorded : Prop :=
  ∀ (a : Active) (s : State) (t : Nat) (rest : List Work), s.st.active = some a → s.ctl.yields = false →
    t ≤ s.st.now →
    (s.ctl.dpu = .poll .notBusy t .busy :: .dataBusyEnd :: .settleLoop :: rest →
      dpuStep s = .next (setDpu (.settleLoop :: rest) (setRet .ok (withActive { a with
        dbusyChecked := true, dataErr := a.dataErr.or (some .busyTimeout), recovPending := true }
        { s with st := { s.st with dst := .dRecovery } })))) ∧
    (s.ctl.dpu = .poll .notBusy t .busy :: .cmdBusyEnd :: .settleLoop :: rest →
      dpuStep s = .next (setDpu (.settleLoop :: rest) (setRet .ok (withActive { a with
        cbusyChecked := true, cmdErr := some .busyTimeout, recovPending := true } s)))) ∧
    (s.ctl.dpu = .poll .notBusy t .busy :: .stopBusyEnd :: .settleLoop :: rest →
      dpuStep s = .next (setDpu (.settleLoop :: rest) (setRet .ok (withActive { a with
        sbusyChecked := true, stopErr := some .busyTimeout, recovPending := true } s))))

/-- R501 does what COMPLETE does, for a request of either origin and with the model fault of R157 (b); a settle pass in a
state in which no guard holds ends at once and changes nothing (R157, R490, R501, R502, R510). -/
def Obligations.SettleCompletesOrEnds : Prop :=
  (∀ (a : Active) (s : State), s.st.active = some a → SettlesBy .complete s →
    (s.st.dmac.owner = .block →
      (a.origin = .host → exec .settle s = .next (settling (completed a (summary a) s))) ∧
      ∃ t, exec .complete s = .next t ∧ exec .settle s = .next (settling t)) ∧
    (s.st.dmac.owner = .engine → exec .settle s = .fault .ownerWithoutRequest)) ∧
  ∀ s : State, (∀ r, ¬ SettleGuard r s) → exec .settle s = .next (setRet .ok s)

/-- FATAL_FLUSH, the first settle rule: the active request, the tuning job, the queued requests slot by slot and the
control operations but CONTROLLER_INIT complete with HARD_FAILURE in that order; no stop is sent (R503, R515). -/
def Obligations.FatalFlushCompletesAll : Prop :=
  ∀ s : State, Prompt s → RegsLegal s → s.st.fatal = true → CanFlush s → (s.st.tuning = true → s.st.tctx ≠ none) →
    (s.st.active = none → exec .settle s = .next (settling (flushed s))) ∧
    (∀ a, s.st.active = some a → a.origin = .host → s.st.tuning = false →
      exec .settle s = .next (settling (flushed (completed a .hardFailure
        ((if a.path = .dma then dmaStopped else id) s))))) ∧
    (∀ a, s.st.active = some a → a.origin = .tuning → s.st.tuning = true → a.path ≠ .dma →
      exec .settle s = .next (settling (flushed (cleared s))))

/-! ### Card presence -/

/-- CARD_SCAN looks at the slots in order: insertions and removals as R505 says, one CD record for each change, a
removed slot's queued requests completed first; a slot without a change is left alone. CARD_DETECT is CARD_SCAN
(R505, R478, R742). -/
def Obligations.CardScanReportsChanges : Prop :=
  ∀ s : State, ShapeOk s → RegsLegal s → s.cfg.nslots ≤ 16 →
    (∀ a ∈ s.st.active, (slotAt s a.slot.toNat).present = true → s.env.present.getD a.slot.toNat false = true) →
    exec .cardScan s = .next (setRet .ok ((List.range s.cfg.nslots).foldl scanned s)) ∧
    ∀ p, exec (.evCardDetect p) s = .next (setRet .ok ((List.range s.cfg.nslots).foldl scanned s))

/-- A removal of the active HOST request's slot, no other slot changed: the data path quiesced, the controller reset (on
the DMA path after the DMA reset), the request completed NO_MEDIUM before the slot's queued ones, then the CD record; no
stop is sent (R505, R693). -/
def Obligations.RemovalCancelsActive : Prop :=
  ∀ (a : Active) (s : State), Prompt s → ShapeOk s → RegsLegal s → NoReset s → s.st.active = some a →
    a.origin = .host → a.slot.toNat < s.cfg.nslots → s.st.tuning = false → a.fatalErr = none →
    (slotAt s a.slot.toNat).present = true → s.env.present.getD a.slot.toNat false = false →
    (∀ j, j < s.cfg.nslots → j ≠ a.slot.toNat → (slotAt s j).present = s.env.present.getD j false) →
    Res.chain (exec .cardScan s) (List.replicate (if a.path = .dma then 2 else 1) serveResets)
      = .next (setRet .ok (slotEmptied a.slot.toNat (completed a .noMedium (controllerReset
        ((if a.path = .dma then dmaReset ∘ dmaStopped else pioMasked a) s)))))

/-! ### Resets, polls, recovery -/

/-- RESET_FIFO, RESET_CONTROLLER and DMA_RESET wait until BUS completes their resets and then leave what the rules list;
a second one after the first leaves the same state. Without a DMA engine DMA_RESET leaves the state as it is, the model's
choice (log 6; R680 to R685, R566, R696). -/
def Obligations.ResetPrimitives : Prop :=
  ∀ s : State, Prompt s → RegsLegal s → NoReset s →
    (∃ u v, exec .resetFifo s = .next u ∧ serveResets u = .next (setRet .ok (fifoReset s)) ∧
      exec .resetFifo (setRet .ok (fifoReset s)) = .next v ∧ serveResets v = .next (setRet .ok (fifoReset s))) ∧
    (∃ u v, exec .resetController s = .next u ∧ serveResets u = .next (setRet .ok (controllerReset s)) ∧
      exec .resetController (setRet .ok (controllerReset s)) = .next v ∧
      serveResets v = .next (setRet .ok (controllerReset s))) ∧
    (s.cfg.dmaPresent = true → ∃ u v, exec .dmaReset s = .next u ∧ serveResets u = .next (setRet .ok (dmaReset s)) ∧
      exec .dmaReset (setRet .ok (dmaReset s)) = .next v ∧ serveResets v = .next (setRet .ok (dmaReset s))) ∧
    (s.cfg.dmaPresent = false → exec .dmaReset s = .next s)

/-- WAIT_NOT_BUSY: OK at the first evaluation while the card is not busy; else at the end of the first window the
controller reset, which BUS completes, and one more window: OK once the card is ready, BUSY_TIMEOUT at its end; FATAL if
the reset is not completed (R686, R687, R156). -/
def Obligations.WaitNotBusyTwoWindows : Prop :=
  ∀ s : State, Prompt s →
    (bit (regRead .STATUS s) 9 = false → exec .waitNotBusy s = .next (setRet .ok s)) ∧
    (∀ n : Nat, RegsLegal s → NoReset s → bit (regRead .STATUS s) 9 = true →
      s.st.now + ticks s.cfg s.cfg.busyTimeout ≤ n →
      ∃ u v w, exec .waitNotBusy s = .next u ∧ dpuStep (atTick n u) = .next v ∧ serveResets v = .next w ∧
        (∀ e : Env, dataBusy { s with env := e } = false →
          dpuStep { w with env := e } = .next (setRet .ok { atTick n (controllerReset s) with env := e })) ∧
        (∀ m, n + ticks s.cfg s.cfg.busyTimeout ≤ m →
          dpuStep (atTick m w) = .next (setRet .busyTimeout (atTick m (controllerReset s)))) ∧
        (∀ m, n + ticks s.cfg s.cfg.resetTimeout ≤ m →
          dpuStep (atTick m v) = .next (fatalAt m (asserted 0x7#32 0#32 s))))

/-- RECOVER: on the DMA path the engine stopped and reset, the FIFO reset, the controller reset when the error is deep;
then the status cleared but for CD and SDIO, `INTMASK` the base mask, the PIO state empty. The settle rule R500 is
RECOVER, then `recovered` and DIdle. BUS completes the resets one after the other (R690, R490, R500). -/
def Obligations.RecoverRestores : Prop :=
  ∀ (a : Active) (s : State), s.st.active = some a → Prompt s → RegsLegal s → NoReset s →
    Res.chain (exec .recover s) (List.replicate (recoverResets a) serveResets)
      = .next (setRet .ok (afterRecover a s)) ∧
    (SettlesBy .recover s → Res.chain (exec .settle s) (List.replicate (recoverResets a) serveResets)
      = .next (settling (withActive { a with recovered := true } { afterRecover a s with
        st := { (afterRecover a s).st with dst := .dIdle } })))

/-- A reset, or a command BUS does not accept, that outlasts its timeout raises FATAL at that tick: the caller answers
HARD_FAILURE and does no more work (R47, R697, R724, R684, R685, R566, R690, R692, R412, R460). -/
def Obligations.PollExpiryIsFatal : Prop :=
  ∀ (s : State) (n : Nat), Prompt s → RegsLegal s →
    (NoReset s → s.st.now + ticks s.cfg s.cfg.resetTimeout ≤ n →
      (∃ u, exec .resetFifo s = .next u ∧ dpuStep (atTick n u) = .next (fatalAt n (asserted 0x2#32 0#32 s))) ∧
      (∃ u, exec .resetController s = .next u ∧ dpuStep (atTick n u) = .next (fatalAt n (asserted 0x7#32 0#32 s))) ∧
      (s.cfg.dmaPresent = true → ∃ u, exec .dmaReset s = .next u ∧
        dpuStep (atTick n u) = .next (fatalAt n (asserted 0x4#32 0x1#32 s))) ∧
      (∀ a, s.st.active = some a → ∃ u, exec .recover s = .next u ∧ dpuStep (atTick n u) = .next (fatalAt n
        (if a.path = .dma then asserted 0x4#32 0x1#32 (dmaStopped s) else asserted 0x2#32 0#32 s)))) ∧
    (s.st.now + ticks s.cfg s.cfg.cmdAcceptTimeout ≤ n →
      (bit s.regs.cmd 31 = true →
        (s.st.active ≠ none → ∃ u, exec .issueStop s = .next u ∧ dpuStep (atTick n u) = .next (fatalAt n s)) ∧
        (∀ slot, ∃ u, exec (.updateClock slot) s = .next u ∧ dpuStep (atTick n u) = .next (fatalAt n s)) ∧
        (∀ r : ReqOp, s.st.active = none → r.slot.toNat < s.cfg.nslots → r.data = none →
          ∃ u, exec (.dispatch r) s = .next u ∧ dpuStep (atTick n u) = .next (fatalAt n (armed r s)))) ∧
      (bit s.regs.cmd 31 = false → ∀ slot, ∃ u, exec (.updateClock slot) s = .next u ∧
        dpuStep (atTick n u) = .next (fatalAt n (updateSent slot s))))

/-- ISSUE_STOP writes the stop command, CStop. UPDATE_CLOCK writes its command and ends when BUS has accepted it, which
loads the clock; nothing else changes (R692, R412, R309, R766). -/
def Obligations.StopAndClockCommands : Prop :=
  ∀ s : State, Prompt s → bit s.regs.cmd 31 = false →
    (∀ a, s.st.active = some a → exec .issueStop s = .next (setRet .ok (stopWritten a.slot s))) ∧
    (∀ slot, xferHolds s = false → ∃ u, exec (.updateClock slot) s = .next u ∧
      serveCommand u = .next (setRet .ok (clockUpdated slot s)))

/-! ### The DMA path -/

/-- DMA_START for an active request on the DMA path gives the arena to the DMA engine, which runs from the first descriptor
if it was stopped and goes on if not; DMA_STOP stops it and takes the arena back. DMA_START without such a request, and
DMA_PREPARE while the engine owns the arena, are model faults. That DMA_START runs the engine also with no chain built, with
another direction than the request's or while it runs, which only a trace names, is the model's choice (log 7), and that
without a DMA engine they leave the state as it is, too (log 6; R157, R557, R560, R565, R567). -/
def Obligations.DmaStartAndStop : Prop :=
  ∀ s : State, RegsLegal s →
    (s.cfg.dmaPresent = true →
      (∀ dir a, s.st.active = some a → a.path = .dma →
        (s.st.dmac.state = .stopped → exec (.dmaStart dir) s = .next (setRet .ok (dmaStarted dir s))) ∧
        (s.st.dmac.state ≠ .stopped → exec (.dmaStart dir) s = .next (setRet .ok { dmaStarted dir s with
          st := { s.st with dmac := { s.st.dmac with state := .running, owner := .engine, dir := dir } } }))) ∧
      (∀ dir, (∀ a ∈ s.st.active, a.path ≠ .dma) → exec (.dmaStart dir) s = .fault .ownerWithoutRequest) ∧
      (∀ sg, s.st.dmac.owner = .engine → exec (.dmaPrepare sg) s = .fault .arenaOwned) ∧
      (Prompt s → exec .dmaStop s = .next (setRet .ok (dmaStopped s)))) ∧
    (s.cfg.dmaPresent = false →
      (∀ dir, exec (.dmaStart dir) s = .next s) ∧ exec .dmaStop s = .next s ∧ ∀ sg, exec (.dmaPrepare sg) s = .next s)

/-- DMA_PREPARE of a list it accepts writes one descriptor for each chunk from `RING_BASE` upward, the first and the
last marked, each linked to the next, and no other byte of memory; the chain's count and total are recorded (R552, R310,
R311, R550). -/
def Obligations.DmaPrepareBuildsChain : Prop :=
  ∀ (sg : List Seg) (s : State), s.cfg.Valid → s.cfg.dmaPresent = true → Memory.wf s.mem →
    s.st.dmac.owner = .block →
    (∀ g ∈ sg, g.addr.toNat % s.cfg.dmaAlign = 0 ∧ g.len.toNat % s.cfg.dmaAlign = 0) →
    s.cfg.dmaMinBytes ≤ (sg.map fun g => g.len.toNat).sum → (chunks s.cfg.descMaxLen sg).length ≤ s.cfg.ndesc →
    (∀ x, s.cfg.ringBase ≤ x → x < s.cfg.ringBase + 16 * s.cfg.ndesc → mapped s.cfg x = true) →
    ∃ m : Memory, exec (.dmaPrepare sg) s = .next (setRet .ok { s with
        mem := m
        st := { s.st with chain := some ⟨(chunks s.cfg.descMaxLen sg).length, (sg.map fun g => g.len.toNat).sum⟩ } }) ∧
      Memory.wf m ∧
      (∀ j x n, (chunks s.cfg.descMaxLen sg)[j]? = some (x, n) →
        memLoad { s with mem := m } (s.cfg.ringBase + 16 * j) 4 = some (0x80000010 + (if j = 0 then 8 else 0)
          + if j + 1 = (chunks s.cfg.descMaxLen sg).length then 4 else 2) ∧
        memLoad { s with mem := m } (s.cfg.ringBase + 16 * j + 4) 4 = some n ∧
        memLoad { s with mem := m } (s.cfg.ringBase + 16 * j + 8) 4 = some (x % 2 ^ 32) ∧
        memLoad { s with mem := m } (s.cfg.ringBase + 16 * j + 12) 4 = some
          (if j + 1 = (chunks s.cfg.descMaxLen sg).length then 0 else s.cfg.ringBase + 16 * (j + 1))) ∧
      ∀ x, x < s.cfg.ringBase ∨ s.cfg.ringBase + 16 * (chunks s.cfg.descMaxLen sg).length ≤ x →
        Memory.read m x = Memory.read s.mem x

/-- DMA_PREPARE answers DMA_DECLINED, and then changes nothing else, in exactly three cases: an address or a length not
a multiple of `DMA_ALIGN`, a total below `DMA_MIN_BYTES`, more chunks than `NDESC`; 3 bytes meet the first two with the
default parameters (R555). -/
def Obligations.DmaPrepareDeclines : Prop :=
  ∀ (sg : List Seg) (s : State), s.cfg.Valid → s.cfg.dmaPresent = true → s.st.dmac.owner = .block →
    (∀ x, s.cfg.ringBase ≤ x → x < s.cfg.ringBase + 16 * s.cfg.ndesc → mapped s.cfg x = true) →
    ((∃ t, exec (.dmaPrepare sg) s = .next t ∧ t.ctl.ret = .dmaDeclined) ↔
      (∃ g ∈ sg, g.addr.toNat % s.cfg.dmaAlign ≠ 0 ∨ g.len.toNat % s.cfg.dmaAlign ≠ 0) ∨
      (sg.map fun g => g.len.toNat).sum < s.cfg.dmaMinBytes ∨
      s.cfg.ndesc < (sg.map fun g => (g.len.toNat + s.cfg.descMaxLen - 1) / s.cfg.descMaxLen).sum) ∧
    (∀ t, exec (.dmaPrepare sg) s = .next t → t.ctl.ret = .dmaDeclined → t = setRet .dmaDeclined s) ∧
    (∀ a, s.cfg.dmaAlign = Config.standard.dmaAlign → s.cfg.dmaMinBytes = Config.standard.dmaMinBytes → sg = [⟨a, 3#32⟩] →
      (∃ g ∈ sg, g.len.toNat % s.cfg.dmaAlign ≠ 0) ∧ (sg.map fun g => g.len.toNat).sum < s.cfg.dmaMinBytes)

/-- `chunks(sg)`: each segment in order cut into pieces of `DESC_MAX_LEN`, the last the rest, no two segments merged; the
byte counts sum to the list's total, and of an aligned list every chunk is a multiple of `DMA_ALIGN` (R553). -/
def Obligations.ChunksCoverTheList : Prop :=
  ∀ (c : Config) (sg : List Seg), c.Valid →
    (∀ g rest, sg = g :: rest → chunks c.descMaxLen sg =
      ((List.range ((g.len.toNat + c.descMaxLen - 1) / c.descMaxLen)).map fun m =>
        (g.addr.toNat + m * c.descMaxLen, min c.descMaxLen (g.len.toNat - m * c.descMaxLen)))
      ++ chunks c.descMaxLen rest) ∧
    (sg = [] → chunks c.descMaxLen sg = []) ∧
    (chunks c.descMaxLen sg).length
      = (sg.map fun g => (g.len.toNat + c.descMaxLen - 1) / c.descMaxLen).sum ∧
    ((chunks c.descMaxLen sg).map fun x => x.2).sum = (sg.map fun g => g.len.toNat).sum ∧
    ((∀ g ∈ sg, g.addr.toNat % c.dmaAlign = 0 ∧ g.len.toNat % c.dmaAlign = 0) →
      ∀ x ∈ chunks c.descMaxLen sg, x.1 % c.dmaAlign = 0 ∧ x.2 % c.dmaAlign = 0)

/-- The DMA engine takes a descriptor of `k` FIFO words in `k + 2` steps: the fetch, the beats, the write-back. A read
puts the FIFO's words in memory at `DES2`, a write puts memory's words in the FIFO; `DES0` is written back with `OWN` 0
and `CES`; the last descriptor stops the engine with its interrupt bits, another names the next. A descriptor with `OWN`
0 suspends the engine where it stands, with `DU` and `AIS`. A fetch, a beat or a write-back at an unmapped address does not
complete: `FBE` and `AIS`, the engine stopped. That the failed beat of a read pops nothing and that addresses do not wrap is
the model's reading (log 27), and so is the write-back wherever `bs1` is reached or passed (log 18; R561, R562, R563, R564,
R568, R204). -/
def Obligations.DmacRunsDescriptor : Prop :=
  (∀ (s : State) (k d0 d1 d2 d3 : Nat), s.cfg.Valid → Memory.wf s.mem →
      s.st.dmac.state = .running → s.st.dmac.desc = none → s.st.dmac.moved = 0 →
      memLoad s s.st.dmac.cur.toNat 4 = some d0 → memLoad s (s.st.dmac.cur.toNat + 4) 4 = some d1 →
      memLoad s (s.st.dmac.cur.toNat + 8) 4 = some d2 → memLoad s (s.st.dmac.cur.toNat + 12) 4 = some d3 →
      bit (BitVec.ofNat 32 d0) 31 = true → d1 % 2 ^ 13 = s.cfg.w * k →
      (∀ x, d2 ≤ x → x < d2 + s.cfg.w * k →
        mapped s.cfg x = true ∧ (x < s.st.dmac.cur.toNat ∨ s.st.dmac.cur.toNat + 4 ≤ x)) →
      ∃ m : Memory,
        memLoad { s with mem := m } s.st.dmac.cur.toNat 4
          = some (d0 % 2 ^ 30 + if s.regs.rintsts &&& 0xAE80#32 = 0#32 then 0 else 2 ^ 30) ∧
        (s.st.dmac.dir = .read → k ≤ s.st.fifo.length →
          dmacSteps (k + 2) s = { descriptorDone (BitVec.ofNat 32 d0) (BitVec.ofNat 32 d3) (s.cfg.w * k)
            { s with st := { s.st with fifo := s.st.fifo.drop k } } with mem := m } ∧
          (∀ i, i < k → Memory.readBytes m (d2 + s.cfg.w * i) s.cfg.w = beatBytes s.cfg.w (s.st.fifo.getD i 0#64)) ∧
          ∀ x, (x < d2 ∨ d2 + s.cfg.w * k ≤ x) → (x < s.st.dmac.cur.toNat ∨ s.st.dmac.cur.toNat + 4 ≤ x) →
            Memory.read m x = Memory.read s.mem x) ∧
        (s.st.dmac.dir = .write → s.st.fifo.length + k ≤ s.cfg.fifoDepth →
          dmacSteps (k + 2) s = { descriptorDone (BitVec.ofNat 32 d0) (BitVec.ofNat 32 d3) (s.cfg.w * k)
            { s with st := { s.st with fifo := s.st.fifo ++ (List.range k).map (fun i =>
              beatOf (Memory.readBytes s.mem (d2 + s.cfg.w * i) s.cfg.w)) } } with mem := m } ∧
          ∀ x, (x < s.st.dmac.cur.toNat ∨ s.st.dmac.cur.toNat + 4 ≤ x) → Memory.read m x = Memory.read s.mem x)) ∧
  ∀ s : State, s.st.dmac.state = .running →
    (∀ d0, s.st.dmac.desc = none → memLoad s s.st.dmac.cur.toNat 4 = some d0 → bit (BitVec.ofNat 32 d0) 31 = false →
      dmacStep s = { s with
        regs := { s.regs with idsts := s.regs.idsts ||| 0x210#32 }
        st := { s.st with dmac := { s.st.dmac with state := .suspended } } }) ∧
    (s.st.dmac.desc = none →
      (memLoad s s.st.dmac.cur.toNat 4 = none ∨
        ∃ d0 j, memLoad s s.st.dmac.cur.toNat 4 = some d0 ∧ bit (BitVec.ofNat 32 d0) 31 = true ∧ 1 ≤ j ∧ j ≤ 3 ∧
          memLoad s (s.st.dmac.cur.toNat + 4 * j) 4 = none) →
      dmacStep s = busErrored s) ∧
    (∀ d, s.st.dmac.desc = some d → s.st.dmac.moved < d.bs1 →
      (s.st.dmac.dir = .read → s.st.fifo ≠ [] → memLoad s (d.bap1.toNat + s.st.dmac.moved) s.cfg.w = none →
        dmacStep s = busErrored s) ∧
      (s.st.dmac.dir = .write → s.st.fifo.length < s.cfg.fifoDepth →
        memLoad s (d.bap1.toNat + s.st.dmac.moved) s.cfg.w = none → dmacStep s = busErrored s)) ∧
    (∀ d, s.st.dmac.desc = some d → d.bs1 ≤ s.st.dmac.moved → memLoad s s.st.dmac.cur.toNat 4 = none →
      dmacStep s = busErrored s)

/-! ### The PIO path -/

/-- PIO_PULL moves as many whole words as the FIFO has and the stream needs, to the stream's next bytes: of the scatter
list in memory, of a tuning read in the tuning buffer; the last word's high bytes are dropped. A drain that leaves bytes
without a data error is a model fault for either, raised in PIO_PULL(true) itself by the model's choice (log 25). RX_READY
on a PIO read is PIO_PULL(false). That a tuning read's cursor counts the buffer's bytes in `off` alone is the model's reading
(log 14; R603, R604, R601, R606, R609, R473). -/
def Obligations.PioPullMovesWords : Prop :=
  ∀ (drain : Bool) (a : Active) (s : State), s.st.active = some a → s.cfg.Valid → FifoBounded s →
    bit s.regs.ctrl 5 = false → s.st.dmac.owner = .block →
    (∀ d k, a.origin = .host → a.data = some d → CursorAt d.sg k s.st.pio →
      k + s.st.pio.remaining ≤ (streamAddrs d.sg).length → (∀ x ∈ streamAddrs d.sg, mapped s.cfg x = true) →
      ((drain = false ∨ s.st.pio.remaining ≤ s.cfg.w * pulledWords s ∨ a.dataErr ≠ none) →
        ∃ (p : Pio) (t : State), CursorAt d.sg (k + (pulledBytes s).length) p ∧
          p.remaining = s.st.pio.remaining - (pulledBytes s).length ∧
          t = counted (pulledBytes s).length { s with
            mem := writeAt s.mem (((streamAddrs d.sg).drop k).zip (pulledBytes s))
            st := { s.st with fifo := s.st.fifo.drop (pulledWords s), pio := p } } ∧
          exec (.pioPull drain) s = .next t ∧
          (drain = false → s.st.dst = .dXfer → a.path = .pio → d.dir = .read → ∀ q,
            exec (.evRxReady q) s = .next t)) ∧
      (drain = true → s.cfg.w * pulledWords s < s.st.pio.remaining → a.dataErr = none →
        exec (.pioPull drain) s = .fault .pioDrainShort)) ∧
    (∀ d, a.origin = .tuning → a.data = some d → s.st.pio.off + s.st.pio.remaining ≤ s.st.tbuf.length →
      ((drain = false ∨ s.st.pio.remaining ≤ s.cfg.w * pulledWords s ∨ a.dataErr ≠ none) →
        ∃ t : State, t = counted (pulledBytes s).length { s with st := { s.st with
          tbuf := s.st.tbuf.take s.st.pio.off ++ pulledBytes s ++ s.st.tbuf.drop (s.st.pio.off + (pulledBytes s).length)
          fifo := s.st.fifo.drop (pulledWords s)
          pio := ⟨s.st.pio.seg, s.st.pio.off + (pulledBytes s).length,
            s.st.pio.remaining - (pulledBytes s).length⟩ } } ∧
          exec (.pioPull drain) s = .next t ∧
          (drain = false → s.st.dst = .dXfer → a.path = .pio → d.dir = .read → ∀ q,
            exec (.evRxReady q) s = .next t)) ∧
      (drain = true → s.cfg.w * pulledWords s < s.st.pio.remaining → a.dataErr = none →
        exec (.pioPull drain) s = .fault .pioDrainShort))

/-- PIO_PUSH moves as many whole words as the FIFO has room for and the stream needs, the last padded with zero bytes;
memory stays; after the stream's last byte `txdone` is set and TXDR masked. TX_READY on a PIO write is PIO_PUSH (R605,
R601, R606, R474). -/
def Obligations.PioPushMovesWords : Prop :=
  ∀ (a : Active) (d : DataSpec) (k : Nat) (s : State), s.st.active = some a → a.origin = .host → a.data = some d →
    s.cfg.Valid → FifoBounded s → bit s.regs.ctrl 5 = false → CursorAt d.sg k s.st.pio →
    k + s.st.pio.remaining ≤ (streamAddrs d.sg).length → (∀ x ∈ streamAddrs d.sg, mapped s.cfg x = true) →
    ∃ (p : Pio) (bytes : List Byte) (t : State),
      bytes = (((streamAddrs d.sg).drop k).take (min s.st.pio.remaining (s.cfg.w * pushedWords s))).map
        (Memory.read s.mem) ∧
      CursorAt d.sg (k + bytes.length) p ∧ p.remaining = s.st.pio.remaining - bytes.length ∧
      t = counted bytes.length (pushEnded a { s with st := { s.st with
        fifo := s.st.fifo ++ (List.range (pushedWords s)).map (fun i =>
          beatOf ((bytes.drop (s.cfg.w * i)).take s.cfg.w))
        pio := p } }) ∧
      exec .pioPush s = .next t ∧
      (s.st.dst = .dXfer → a.path = .pio → d.dir = .write → ∀ q, exec (.evTxReady q) s = .next t)

/-! ### Tuning -/

/-- TUNE_START: NO_MEDIUM for an absent slot, INVALID_ARG for another mode than the slot's, the cached phase and bitmap
for the mode the slot is tuned for, with no tuning read and no register written; else a job begins. A slot of NSLOTS or
more, which only a trace names, counts as absent by the model's choice (log 7; R631, R651). -/
def Obligations.TuneStartFourWays : Prop :=
  ∀ (tag : Word) (slot mode : BitVec 4) (index : BitVec 6) (pattern : List Byte) (s : State),
    let x := slotAt s slot.toNat
    (x.present = false → exec (.tuneStart tag slot mode index pattern) s
      = .next (setRet .ok (recorded (plainRecord .ctl tag slot.toNat .noMedium 0#32) s))) ∧
    (x.present = true → mode ≠ x.mode → exec (.tuneStart tag slot mode index pattern) s
      = .next (setRet .ok (recorded (plainRecord .ctl tag slot.toNat .invalidArg 0#32) s))) ∧
    (x.present = true → mode = x.mode → x.tuned.valid = true → x.tuned.mode = mode →
      exec (.tuneStart tag slot mode index pattern) s = .next (setRet .ok (recorded (plainRecord .ctl tag slot.toNat .ok
        (BitVec.ofNat 32 (x.tuned.phase + 2 ^ 16 * x.tuned.bitmap.toNat))) s))) ∧
    (x.present = true → mode = x.mode → (x.tuned.valid = false ∨ x.tuned.mode ≠ mode) →
      exec (.tuneStart tag slot mode index pattern) s = .next (setRet .ok { s with st := { s.st with
        tuning := true
        tctx := some ⟨tag, slot, mode, index, pattern, 0, 0#16, 0, x.smpl, false⟩ } }))

/-- TUNE_STEP with a phase left to try writes that phase, the scan's drive strength in bits 7:4, and dispatches the
tuning read by PIO; the 8 coarse phases come before the fine-tune pass. With none left it is TUNE_SELECT; while it is not
enabled it has no effect, the model's choice (log 6; R632 to R634, R643, R648, R460). -/
def Obligations.TuneStepSendsRead : Prop :=
  ∀ (c : TuneCtx) (s : State), s.st.tctx = some c →
    (s.st.tuning = true → s.st.active = none → c.await = false →
      (c.idx < (if s.cfg.fineTune then 16 else 8) → Prompt s → c.slot.toNat < s.cfg.nslots →
        bit s.regs.cmd 31 = false → exec .tuneStep s = .next (probing c s)) ∧
      ((if s.cfg.fineTune then 16 else 8) ≤ c.idx → exec .tuneStep s = exec .tuneSelect s)) ∧
    ((s.st.tuning = false ∨ s.st.active ≠ none ∨ c.await = true) → exec .tuneStep s = .next (setRet .ok s))

/-- TUNE_SELECT accepts a scan whose longest circular run is at least the divider's minimum and selects the median of the
longest run that starts lowest, the lower of two medians; with the secondary heuristic the median nearer to the slot's
previous phase. The phase is written back and kept with the bitmap, and the job completes OK (R636 to R639, R641, R642,
R644). -/
def Obligations.TuneSelectsMedian : Prop :=
  ∀ (c : TuneCtx) (s : State) (n p l : Nat), s.st.tctx = some c → s.cfg.Valid →
    n = (if s.cfg.fineTune then 16 else 8) → LongestRun c.bitmap n p l →
    max 1 (s.cfg.minRun.getD s.st.clkDiv 1) ≤ l →
    ((s.cfg.tunePrevHeuristic = false ∨ l % 2 = 1 ∨ (slotAt s c.slot.toNat).prevPhase = none) →
      exec .tuneSelect s = .next (setRet .ok (tuneAccepted c ((p + (l - 1) / 2) % n) s))) ∧
    (∀ q m0 m1, s.cfg.tunePrevHeuristic = true → l % 2 = 0 → (slotAt s c.slot.toNat).prevPhase = some q →
      m0 = (p + l / 2 - 1) % n → m1 = (m0 + 1) % n →
      exec .tuneSelect s = .next (setRet .ok (tuneAccepted c
        (if circular n m1 q < circular n m0 q then m1 else m0) s)))

/-- TUNE_SELECT rejects a scan with no run of the divider's minimum: the next scan begins while retries are left, else
NO_VIABLE_MODE, the slot's sampling setting from before the job restored. TUNE_FINISH ends the job with the code it is
given, of a code R647 does not list too, the model's reading (log 22), and writes no register but for NO_VIABLE_MODE (R637,
R638, R640, R646, R647). -/
def Obligations.TuneRejectsAndFinishes : Prop :=
  ∀ (c : TuneCtx) (s : State), s.st.tctx = some c →
    ((∀ q, q < (if s.cfg.fineTune then 16 else 8) → (if s.cfg.fineTune then 16 else 8)
          < max 1 (s.cfg.minRun.getD s.st.clkDiv 1) ∨
        ¬ RunAt c.bitmap (if s.cfg.fineTune then 16 else 8) q (max 1 (s.cfg.minRun.getD s.st.clkDiv 1))) →
      (c.scan < s.cfg.tuneRetryMax → exec .tuneSelect s
        = .next (setRet .ok (withTune { c with scan := c.scan + 1, idx := 0, bitmap := 0#16 } s))) ∧
      (s.cfg.tuneRetryMax ≤ c.scan → exec .tuneSelect s = .next (setRet .ok (tuneRejected c s)))) ∧
    exec (.tuneFinish .noViableMode) s = .next (setRet .ok (tuneRejected c s)) ∧
    ∀ code, code ≠ .noViableMode → exec (.tuneFinish code) s = .next (setRet .ok (tuneEnded c code 0#32 s))

/-- COMPLETE of the tuning read delivers no REQ record: it scores the phase, whose bit is set only by a read that
completed OK with the pattern's bytes; a removed card or a fatal condition ends the job (R635, R510, R648). -/
def Obligations.TuningReadScored : Prop :=
  ∀ (a : Active) (c : TuneCtx) (s : State), s.st.active = some a → a.origin = .tuning → s.st.tctx = some c →
    s.st.dmac.owner = .block →
    ((summary a = .noMedium ∨ summary a = .hardFailure) →
      exec .complete s = .next (setRet .ok (tuneEnded c (summary a) 0#32 (cleared s)))) ∧
    (summary a ≠ .noMedium → summary a ≠ .hardFailure →
      exec .complete s = .next (setRet .ok (withTune { c with
        await := false
        idx := c.idx + 1
        bitmap := if summary a = .ok ∧ s.st.tbuf.take c.pattern.length = c.pattern then
            c.bitmap ||| 1#16 <<< (if s.cfg.fineTune then (if c.idx < 8 then 2 * c.idx else 2 * (c.idx - 8) + 1)
              else c.idx)
          else c.bitmap } (cleared s))))

/-! ### Control operations -/

/-- RUN_CTL takes the oldest SDIO_IRQ_ACK at any time; else, while no request and no tuning job is, the head entry: TUNE
is TUNE_START; SET_BUS_TIMING of an absent card is NO_MEDIUM, of a present one it resets the FIFO and writes width, mode
and the tuning cache, or completes HARD_FAILURE when the reset times out. SET_BUS_TIMING and SET_CLOCK complete
BUSY_TIMEOUT, with nothing of theirs written, when the card stays busy through both windows. While nothing is enabled it has
no effect, the model's choice (log 6; R417, R408, R411, R415, R419, R631, R686). -/
def Obligations.ControlOperationsRun : Prop :=
  ∀ s : State,
    (∀ pre tag slot post, s.st.ctlq = pre ++ ⟨.sdioIrqAck, tag, slot⟩ :: post → NoAck pre →
      exec .runCtl s = .next (setRet .ok (ackRun tag slot (withCtlq (pre ++ post) s)))) ∧
    (NoAck s.st.ctlq → s.st.active = none → s.st.tuning = false → ∀ tag slot rest,
      (∀ mode index pattern, s.st.ctlq = ⟨.tune mode index pattern, tag, slot⟩ :: rest →
        exec .runCtl s = exec (.tuneStart tag slot mode index pattern) (withCtlq rest s)) ∧
      (∀ mode width, s.st.ctlq = ⟨.setBusTiming mode width, tag, slot⟩ :: rest →
        ((slotAt s slot.toNat).present = false → exec .runCtl s = .next (setRet .ok (recorded
          (plainRecord .ctl tag slot.toNat .noMedium 0#32) (withCtlq rest s)))) ∧
        ((slotAt s slot.toNat).present = true → Prompt s → RegsLegal s → NoReset s →
          bit (regRead .STATUS s) 9 = false → ∃ u, exec .runCtl s = .next u ∧
          serveResets u = .next (setRet .ok (timingSet tag slot mode width (fifoReset (withCtlq rest s)))) ∧
          ∀ n, s.st.now + ticks s.cfg s.cfg.resetTimeout ≤ n → dpuStep (atTick n u) = .next (recorded
            (plainRecord .ctl tag slot.toNat .hardFailure 0#32) (fatalAt n (asserted 0x2#32 0#32 (withCtlq rest s)))))) ∧
      (∀ op n m, ((∃ mode width, op = .setBusTiming mode width ∧ (slotAt s slot.toNat).present = true) ∨
          ∃ rate, op = .setClock rate) → s.st.ctlq = ⟨op, tag, slot⟩ :: rest → Prompt s → RegsLegal s → NoReset s →
        bit (regRead .STATUS s) 9 = true → s.st.now + ticks s.cfg s.cfg.busyTimeout ≤ n →
        n + ticks s.cfg s.cfg.busyTimeout ≤ m →
        ∃ u v w, exec .runCtl s = .next u ∧ dpuStep (atTick n u) = .next v ∧ serveResets v = .next w ∧
          dpuStep (atTick m w) = .next (setRet .busyTimeout (recorded (plainRecord .ctl tag slot.toNat .busyTimeout 0#32)
            (atTick m (controllerReset (withCtlq rest s))))))) ∧
    (NoAck s.st.ctlq → (s.st.active ≠ none ∨ s.st.tuning = true ∨ s.st.ctlq = []) →
      exec .runCtl s = .next (setRet .ok s))

/-- SET_CLOCK, BUS accepting each update-clock command: the slot's clock off, the divider, the clock on; rate 0 leaves it
off. The record carries the actual rate, never above the request unless the divider is at its limit. When an earlier command
or any of the three update-clock commands is not accepted in time the record is HARD_FAILURE and what was written stays; BUS
has loaded only what it accepted, so the slot's clock is off once the first one was (R409 to R412, R419). -/
def Obligations.SetClockRuns : Prop :=
  ∀ (s : State) (tag rate : Word) (slot : BitVec 4) (rest : List CtlEntry), s.cfg.Valid → s.ctl.yields = false →
    RegsLegal s → s.st.ctlq = ⟨.setClock rate, tag, slot⟩ :: rest → NoAck rest → s.st.active = none →
    s.st.tuning = false → bit (regRead .STATUS s) 9 = false → slot.toNat < s.cfg.nslots →
    let off := gated slot false (withCtlq rest s)
    let late := fun (n : Nat) (t : State) =>
      recorded (plainRecord .ctl tag slot.toNat .hardFailure 0#32) (fatalAt n t)
    (∀ n, s.st.now + ticks s.cfg s.cfg.cmdAcceptTimeout ≤ n → ∃ u, exec .runCtl s = .next u ∧
      dpuStep (atTick n u) = .next (late n (if bit s.regs.cmd 31 then off else updateSent slot off))) ∧
    (bit s.regs.cmd 31 = false → xferHolds s = false →
      (rate = 0#32 → Res.chain (exec .runCtl s) [serveCommand] = .next (setRet .ok (recorded
        (plainRecord .ctl tag slot.toNat .ok 0#32) (clockUpdated slot { off with
          st := { off.st with clkRate := 0 } })))) ∧
      ∀ div on, rate ≠ 0#32 → div = dividerFor s.cfg.clkSrcHz rate.toNat →
        on = gated slot true (clockUpdated slot (divided div (clockUpdated slot off))) →
        Res.chain (exec .runCtl s) [serveCommand, serveCommand, serveCommand] = .next (setRet .ok (recorded
          (plainRecord .ctl tag slot.toNat .ok (BitVec.ofNat 32 (rateOf s.cfg.clkSrcHz div)))
          (clockUpdated slot { on with
            st := { on.st with clkDiv := div, clkRate := rateOf s.cfg.clkSrcHz div } }))) ∧
        (s.cfg.clkSrcHz ≤ 510 * rate.toNat → rateOf s.cfg.clkSrcHz div ≤ rate.toNat) ∧
        ∀ n, s.st.now + ticks s.cfg s.cfg.cmdAcceptTimeout ≤ n →
          (∃ u, Res.chain (exec .runCtl s) [serveCommand] = .next u ∧
            dpuStep (atTick n u) = .next (late n (updateSent slot (divided div (clockUpdated slot off))))) ∧
          ∃ u, Res.chain (exec .runCtl s) [serveCommand, serveCommand] = .next u ∧
            dpuStep (atTick n u) = .next (late n (updateSent slot on)))

/-- CONTROLLER_INIT, BUS completing its resets: every register and field at the values the rule writes, a present card
reported as an insertion, then the record OK. That half of an odd `FIFO_DEPTH` is rounded down in `FIFOTH` is the model's
choice (log 32). A reset that times out ends it with the record HARD_FAILURE and FATAL (R811,
R416, R419, R505). -/
def Obligations.ControllerInitRuns : Prop :=
  ∀ (s : State) (tag : Word) (slot : BitVec 4) (rest : List CtlEntry), Prompt s → RegsLegal s → NoReset s → ShapeOk s →
    s.st.ctlq = ⟨.controllerInit, tag, slot⟩ :: rest → NoAck rest → s.st.active = none → s.st.tuning = false →
    Res.chain (exec .runCtl s) (List.replicate (if s.cfg.dmaPresent then 2 else 1) serveResets)
      = .next (setRet .ok (recorded (plainRecord .ctl tag 0 .ok 0#32) ((List.range s.cfg.nslots).foldl scanned
        (initialised ((if s.cfg.dmaPresent then dmaReset else id) (controllerReset (withCtlq rest s))))))) ∧
    ∃ u, exec .runCtl s = .next u ∧ ∀ n, s.st.now + ticks s.cfg s.cfg.resetTimeout ≤ n →
      dpuStep (atTick n u) = .next (recorded (plainRecord .ctl tag 0 .hardFailure 0#32)
        (fatalAt n (asserted 0x7#32 0#32 (withCtlq rest s)))) ∧
      (s.cfg.dmaPresent = true → ∃ v, serveResets u = .next v ∧
        dpuStep (atTick n v) = .next (recorded (plainRecord .ctl tag 0 .hardFailure 0#32)
          (fatalAt n (asserted 0x4#32 0x1#32 (controllerReset (withCtlq rest s))))))

/-! ### The run loop, interrupts, time -/

/-- DPU_RUN's order: the fatal flush before the events, the events before an SDIO_IRQ_ACK, that before the tuning step,
that before the control queue, that before a dispatch; the run ends when nothing is enabled and has no step while none is
scheduled (log 6). A queue that holds a reserved event word is a model fault, found where the loop takes its turn (log 19;
R450, R319). -/
def Obligations.DpuRunOrder : Prop :=
  ∀ (s u : State), u = { s with st := { s.st with dpuSched := false } } →
    (s.st.dpuSched = false → exec .dpuRun s = .next s) ∧
    (s.st.dpuSched = true → (∃ e ∈ s.st.evq, bits e 0 8 = 0 ∨ 9 < bits e 0 8) → exec .dpuRun s = .fault .badEventWord) ∧
    (s.st.dpuSched = true → (∀ e ∈ s.st.evq, 1 ≤ bits e 0 8 ∧ bits e 0 8 ≤ 9) →
      (s.st.fatal = true → CanFlush s → s.st.active = none → (s.st.tuning = true → s.st.tctx ≠ none) →
        exec .dpuRun s = .next (looping (flushed u))) ∧
      (¬ (s.st.fatal = true ∧ CanFlush s) →
        (∀ e q, s.st.evq = e :: q →
          (¬ rowMatches e s →
            exec .dpuRun s = .next (push [.settleLoop] (looping { u with st := { u.st with evq := q } }))) ∧
          (∀ (p : BitVec 24) a, e = (p ++ 0x01#8 : BitVec 32) → s.st.active = some a → s.st.cst = .cIssuing →
            exec .dpuRun s = .next (push [.settleLoop]
              (looping (commandEnded p a { u with st := { u.st with evq := q } }))))) ∧
        (s.st.evq = [] →
          (∀ pre tag slot post, s.st.ctlq = pre ++ ⟨.sdioIrqAck, tag, slot⟩ :: post → NoAck pre →
            exec .dpuRun s = .next (looping (ackRun tag slot (withCtlq (pre ++ post) u)))) ∧
          (NoAck s.st.ctlq →
            (∀ c, s.st.active = none → s.st.tuning = true → s.st.tctx = some c → c.await = false →
              c.idx < (if s.cfg.fineTune then 16 else 8) → Prompt s → c.slot.toNat < s.cfg.nslots →
              bit s.regs.cmd 31 = false → exec .dpuRun s = .next (looping (probing c u))) ∧
            (∀ mode index pattern tag slot rest t, s.st.active = none → s.st.tuning = false →
              s.st.ctlq = ⟨.tune mode index pattern, tag, slot⟩ :: rest →
              exec (.tuneStart tag slot mode index pattern) (withCtlq rest u) = .next t →
              exec .dpuRun s = .next (looping t)) ∧
            (∀ k r rest, s.st.active = none → s.st.tuning = false → s.st.fatal = false → s.st.ctlq = [] → ShapeOk s →
              Prompt s → bit s.regs.cmd 31 = false → 1 ≤ k → k ≤ s.cfg.nslots →
              (∀ j, 1 ≤ j → j < k → (slotAt s ((s.st.rr + j) % s.cfg.nslots)).queue = []) →
              (slotAt s ((s.st.rr + k) % s.cfg.nslots)).queue = Request.fresh r :: rest →
              r.slot.toNat < s.cfg.nslots → r.data = none →
              exec .dpuRun s = .next (looping (issued r (armed r { u with st := { u.st with
                slots := s.st.slots.modify ((s.st.rr + k) % s.cfg.nslots) fun x => { x with queue := rest }
                rr := (s.st.rr + k) % s.cfg.nslots } })))) ∧
            ((s.st.active ≠ none ∨ (s.st.tuning = true ∧ ∃ c ∈ s.st.tctx, c.await = true) ∨
                (s.st.tuning = false ∧ s.st.ctlq = [] ∧ (s.st.fatal = true ∨ ∀ x ∈ s.st.slots, x.queue = []))) →
              exec .dpuRun s = .next (setRet .ok u))))))

/-- IRQ has a step exactly while the interrupt line is 1, and changes nothing while it is 0, the model's choice (log 6);
IRQ_DISPATCH, which runs whatever the line is when a trace names it, the model's choice (log 28), acknowledges the
snapshot it reads and no other bit, posts its events in the fixed order, at most one queued event of each code, and
schedules the DPU. WATCHDOG_CHECK counts the tick; at the armed deadline it disarms the watchdog, posts WATCHDOG with the request's tag in the place of one
still queued, and schedules the DPU. Nothing else changes (R728, R730, R731, R745, R148, R151). -/
def Obligations.InterruptAndTimerPost : Prop :=
  (∀ (s : State) (m d : Word), m = s.regs.rintsts &&& s.regs.intmask →
    d = s.regs.idsts &&& s.regs.idinten &&& 0x337#32 → RegsLegal s → EventsLegal s →
    (∃ q : List Word, exec .irqDispatch s = .next { s with
        regs := { s.regs with rintsts := s.regs.rintsts &&& ~~~s.regs.intmask, idsts := s.regs.idsts &&& ~~~d }
        st := { s.st with evq := q, dpuSched := true } } ∧
      q.map (fun e => bits e 0 8) = s.st.evq.map (fun e => bits e 0 8) ++
        ((snapshotEvents m d).map fun x => x.1).filter (fun c => decide (queuedEvent c s.st.evq = none)) ∧
      ∀ c, queuedEvent c q = queuedAfter c (queuedEvent c s.st.evq)
        (((snapshotEvents m d).find? fun x => decide (x.1 = c)).map fun x => x.2)) ∧
    ∀ rest, s.ctl.agenda = .irq :: rest →
      step s = (if bit s.regs.ctrl 4 = true ∧ (m ≠ 0#32 ∨ d ≠ 0#32)
        then exec .irqDispatch { s with ctl := { s.ctl with agenda := rest } }
        else .next { s with ctl := { s.ctl with agenda := rest } })) ∧
  ∀ s : State, EventsLegal s →
    ((s.st.wd.armed = false ∨ s.st.now + 1 < s.st.wd.deadline) →
      exec .watchdogCheck s = .next (atTick (s.st.now + 1) s)) ∧
    (s.st.wd.armed = true → s.st.wd.deadline ≤ s.st.now + 1 →
      ∃ q : List Word, exec .watchdogCheck s = .next { s with st := { s.st with
          now := s.st.now + 1, wd := { s.st.wd with armed := false }, evq := q, dpuSched := true } } ∧
        queuedEvent 9 q = some (s.st.wd.seq <<< 8 ||| 0x09#32) ∧
        (queuedEvent 9 s.st.evq = none → q = s.st.evq ++ [s.st.wd.seq <<< 8 ||| 0x09#32]) ∧
        q.map (fun e => bits e 0 8) = s.st.evq.map (fun e => bits e 0 8) ++
          (if queuedEvent 9 s.st.evq = none then [9] else []) ∧
        ∀ c, c ≠ 9 → queuedEvent c q = queuedEvent c s.st.evq)

/-! ### Reset and invariants -/

/-- Reset: every register and every field of the engine at the values of 10_state.md, with the default parameters; the
forms hold; every well-formed operation but CONTROLLER_INIT is refused NOT_READY, and that one is accepted. The fields
beside `armed` of the watchdog, the fields beside `valid` of `tuned`, the DMA engine's held descriptor, the tuning buffer's
contents and empty memory are the model's choice (log 9, log 11, log 12; R800, R801, R103 to R128, R140 to R152). -/
def Obligations.ResetState : Prop :=
  State.reset.cfg = Config.standard ∧
  State.reset.regs = {
    ctrl := 0#32, clkdiv := 0#32, clkena := 0#32, tmout := 0xFFFFFF40#32, ctype := 0#32, blksiz := 0x200#32
    bytcnt := 0x200#32, intmask := 0#32, cmdarg := 0#32, cmd := 0#32, resp0 := 0#32, resp1 := 0#32, resp2 := 0#32
    resp3 := 0#32, rintsts := 0#32, fifoth := 0x001F0000#32, uhs := 0#32, bmod := 0#32, dbaddr := 0#32, idsts := 0#32
    idinten := 0#32, smplCtrl := 0#32 } ∧
  regRead .STATUS State.reset = 0x6#32 ∧ regRead .MINTSTS State.reset = 0#32 ∧ regRead .HCON State.reset = 0x10080#32 ∧
  regRead .IDSTS State.reset = 0#32 ∧ regRead .DSCADDR State.reset = 0#32 ∧ regRead .PLDMND State.reset = 0#32 ∧
  State.reset.st = {
    cst := .cIdle, dst := .dIdle, active := none, rr := State.reset.cfg.nslots - 1, curSlot := none, clkRate := 0
    slots := [{
      queue := [], present := false, mode := 0#4, width := 1#4, needInit := true, tuned := ⟨false, 0#4, 0, 0#16⟩
      prevPhase := none, smpl := 0#32, sdioEn := false }]
    clkDiv := 0, fatal := false, tuning := false, ctlq := [], nextSeq := 0#32, wd := ⟨false, 0, 0#32⟩, inited := false
    baseMask := 0#32, chain := none, pio := ⟨0, 0, 0⟩, partBuf := []
    dmac := { state := .stopped, cur := 0#32, owner := .block, dir := .read, moved := 0, desc := none }
    fifo := [], evq := [], tctx := none, tbuf := List.replicate 128 0#8, now := 0, cport := [], dpuSched := false } ∧
  State.reset.mem = [] ∧ Memory.wf State.reset.mem ∧ Forms State.reset ∧
  (∀ (op : HostOp) (slot : BitVec 4) (ws : List Word), op ≠ .controllerInit →
    operandsLegal State.reset.cfg op slot ws = true →
    exec (hostInstr op slot ws) State.reset = .next (refuse .notReady State.reset)) ∧
  exec (.controllerInit 0#4 []) State.reset = .next (accepted (ctlQueued .controllerInit 0#4 State.reset))

/-- Every step keeps the forms: both phases idle without a request, the FIFO bounded, at most one queued event of a code,
every slot there, no descriptor held by a stopped engine (log 11), reserved register bits 0 (R157, R147, R148, R561, R103,
R105, R107, R108, R110, R112, R117, R120). Which bits of a register are reserved is in part the model's reading (log 20,
log 21). -/
def Obligations.StepKeepsForms : Prop :=
  ∀ s s' : State, s.cfg.nslots ≤ 16 → Forms s → step s = .next s' → Forms s'

/-- One of the `n` addresses from `a` is in the descriptor arena while the DMA engine owns it (R224). -/
def OwnedArenaHit (s : State) (a n : Nat) : Prop :=
  s.cfg.dmaPresent = true ∧ s.st.dmac.owner = .engine ∧
    ∃ i, i < n ∧ s.cfg.ringBase ≤ a + i ∧ a + i < s.cfg.ringBase + 16 * s.cfg.ndesc

/-- Every step keeps memory in its canonical form (log 9). -/
def Obligations.StepKeepsMemoryCanonical : Prop :=
  ∀ s s' : State, Memory.wf s.mem → step s = .next s' → Memory.wf s'.mem

/-- Records are only ever appended to the completion port, and only by the DPU; tags are taken only by HOST's packets,
time passes only by TIMER, the environment's signals change only by BUS, and no step changes the parameters. HOST's write
of host memory leaves HOST's bytes at the mapped addresses outside the engine's windows, no other byte outside the written
range changed; it is a model fault where it reaches the arena while the DMA engine owns it. HOST's read sees memory as it
is, the arena too, but in the engine's buffers. That HOST's access to an unmapped address writes nothing and sees any value,
and that HOST's fault is none of the engine's, are the model's reading (log 15; R402, R404, R151, R10, R201, R217, R224,
R226, R790). -/
def Obligations.AgentsKeepToTheirState : Prop :=
  (∀ (s s' : State) (t : Stimulus), s.ctl.agenda.head? = some t → step s = .next s' →
    s'.cfg = s.cfg ∧ (∃ new, s'.st.cport = s.st.cport ++ new) ∧
    ((∀ ws, t ≠ .feed .trace ws) → (∀ ws, t ≠ .feed .event ws) → t ≠ .dpu → s'.st.cport = s.st.cport) ∧
    ((∀ ws, t ≠ .feed .host ws) → s'.st.nextSeq = s.st.nextSeq) ∧
    (t = .timer → s'.st.now = s.st.now + 1) ∧
    (t ≠ .timer → (∀ ws, t ≠ .feed .trace ws) → s'.st.now = s.st.now) ∧
    ((∀ b, t ≠ .bus b) → s'.env = s.env)) ∧
  (∀ (s : State) (a : Nat) (bytes : List Byte) (rest : List Stimulus), s.ctl.agenda = .hostWrite a bytes :: rest →
    (OwnedArenaHit s a bytes.length → step s = .fault .hostWroteArena) ∧
    (¬ OwnedArenaHit s a bytes.length →
      ∃ m free, step s = .next { s with mem := m, ctl := { s.ctl with agenda := rest, free := free } } ∧
        (Memory.wf s.mem → ∀ i b, bytes[i]? = some b → reservedForHost s (a + i) = false →
          mapped s.cfg (a + i) = true → Memory.read m (a + i) = b) ∧
        ∀ x, (x < a ∨ a + bytes.length ≤ x ∨ mapped s.cfg x = false) → Memory.read m x = Memory.read s.mem x)) ∧
  ∀ (s : State) (a n : Nat) (rest : List Stimulus), s.ctl.agenda = .hostRead a n :: rest →
    ∃ bytes free, step s = .next { s with ctl := { s.ctl with agenda := rest, free := free, hostData := bytes } } ∧
      bytes.length = n ∧
      ∀ i, i < n → inHeldBuffer s (a + i) = false → mapped s.cfg (a + i) = true →
        bytes[i]? = some (Memory.read s.mem (a + i))

/-! ### Registers -/

/-- The registers a read by offset sees as they are stored, with what it reads (R103 to R126). -/
def storedRegs (s : State) : List (Nat × Word) :=
  [(0x000, s.regs.ctrl), (0x008, s.regs.clkdiv), (0x010, s.regs.clkena), (0x014, s.regs.tmout), (0x018, s.regs.ctype),
    (0x01C, s.regs.blksiz), (0x020, s.regs.bytcnt), (0x024, s.regs.intmask), (0x028, s.regs.cmdarg),
    (0x02C, s.regs.cmd), (0x030, s.regs.resp0), (0x034, s.regs.resp1), (0x038, s.regs.resp2), (0x03C, s.regs.resp3),
    (0x044, s.regs.rintsts), (0x04C, s.regs.fifoth), (0x074, s.regs.uhs), (0x080, s.regs.bmod), (0x088, s.regs.dbaddr),
    (0x090, s.regs.idinten), (0x180, s.regs.smplCtrl)]

/-- The registers a read by offset computes, with what it reads (R114, R121, R123, R125). -/
def computedRegs (s : State) : List (Nat × Word) :=
  [(0x040, s.regs.rintsts &&& s.regs.intmask), (0x084, 0#32),
    (0x08C, s.regs.idsts ||| (if s.st.dmac.state = .running then 0x2000#32 else 0#32)), (0x094, s.st.dmac.cur)]

/-- The offsets of `STATUS`, `CDETECT` and `HCON`, whose fields are stated one by one. -/
def fieldRegs : List Nat := [0x048, 0x050, 0x070]

/-- The DMA engine after a poll demand: enabled, it starts if stopped and resumes if suspended (R121, R560). -/
def demanded (s : State) : Dmac :=
  if s.cfg.dmaPresent = true ∧ bit s.regs.bmod 7 = true ∧ bit s.regs.ctrl 5 = true ∧ bit s.regs.ctrl 25 = true then
    match s.st.dmac.state with
    | .stopped => { s.st.dmac with state := .running, cur := s.regs.dbaddr, moved := 0 }
    | .suspended => { s.st.dmac with state := .running }
    | .running => s.st.dmac
  else s.st.dmac

/-- A read leaves the value it sees in the model's `busData` (log 26). -/
def sees (v : Beat) (s : State) : State := { s with ctl := { s.ctl with busData := v } }

/-- Register accesses by offset, which the DPU makes between its micro-operations (log 8, log 26): what each register
reads, what a write leaves in it, the DMA engine where a write stops or starts it, and nothing else. A read-only or a
reserved offset ignores a write, a reserved offset reads 0, an access of another width or alignment is refused, and so is, the
model's choice (log 26), one at an offset of 0x400 or more. `DATA` pops
and pushes a word of `W` bytes; with the FIFO empty or full, or `DMA_ENABLE` set, the access is a model fault. The reserved
bits of a register are in part the model's reading (log 20, log 21), and so are a `PLDMND` write without a DMA engine
(log 6) and `STATUS.DATA_BUSY` 0 where the last card number names no slot (log 30;
R102, R103, R112, R115, R116, R118, R120, R121, R123, R127 to R129, R205, R830). -/
def Obligations.RegisterAccess : Prop :=
  ∀ (s : State) (v : Beat), RegsLegal s → s.ctl.dpu = [] →
    let w : Word := v.truncate 32
    let put := fun off => react (.regWrite off 4 v) s
    let get := fun off => react (.regRead off 4) s
    -- reads
    (∀ off x, (off, x) ∈ storedRegs s ++ computedRegs s → get off = .next (sees (x.zeroExtend 64) s)) ∧
    (∃ x : Word, get 0x048 = .next (sees (x.zeroExtend 64) s) ∧
      (bit x 0 = true ↔ bits s.regs.fifoth 16 12 < s.st.fifo.length) ∧
      (bit x 1 = true ↔ s.st.fifo.length ≤ bits s.regs.fifoth 0 12) ∧
      (bit x 2 = true ↔ s.st.fifo = []) ∧ (bit x 3 = true ↔ s.st.fifo.length = s.cfg.fifoDepth) ∧
      (bit x 9 = true ↔ ∃ i ∈ s.env.lastSlot, s.env.busy[i]? = some true) ∧
      (s.st.fifo.length < 2 ^ 13 → bits x 17 13 = s.st.fifo.length ∧ x &&& 0xC001FDF0#32 = 0#32)) ∧
    (s.env.present.length ≤ 16 → ∃ x : Word, get 0x050 = .next (sees (x.zeroExtend 64) s) ∧
      ∀ i, i < 32 → (bit x i = true ↔ s.env.present[i]? = some false)) ∧
    (1 ≤ s.cfg.nslots → s.cfg.nslots ≤ 16 → ∃ x : Word, get 0x070 = .next (sees (x.zeroExtend 64) s) ∧
      bits x 1 5 = s.cfg.nslots - 1 ∧ bits x 7 3 = (if s.cfg.w = 2 then 0 else if s.cfg.w = 4 then 1 else 2) ∧
      (bit x 16 = true ↔ s.cfg.dmaPresent = true) ∧ x &&& 0xFFFEFC41#32 = 0#32) ∧
    -- writes
    put 0x008 = .next { s with regs := { s.regs with clkdiv := w &&& 0xFF#32 } } ∧
    put 0x010 = .next { s with regs := { s.regs with clkena := w &&& slotPairBits s.cfg } } ∧
    put 0x014 = .next { s with regs := { s.regs with tmout := w } } ∧
    put 0x018 = .next { s with regs := { s.regs with ctype := w &&& slotPairBits s.cfg } } ∧
    put 0x01C = .next { s with regs := { s.regs with blksiz := w &&& 0xFFFF#32 } } ∧
    put 0x020 = .next { s with regs := { s.regs with bytcnt := w } } ∧
    put 0x024 = .next { s with regs := { s.regs with intmask := w &&& intmaskBits s.cfg } } ∧
    put 0x044 = .next { s with regs := { s.regs with rintsts := s.regs.rintsts &&& ~~~w } } ∧
    put 0x04C = .next { s with regs := { s.regs with fifoth := w &&& 0x7FFF0FFF#32 } } ∧
    put 0x074 = .next { s with regs := { s.regs with uhs := w &&& (slotMask s.cfg <<< 16) } } ∧
    put 0x088 = .next { s with regs := { s.regs with dbaddr := w } } ∧
    put 0x08C = .next { s with regs := { s.regs with idsts := s.regs.idsts &&& ~~~w } } ∧
    put 0x090 = .next { s with regs := { s.regs with idinten := w &&& 0x337#32 } } ∧
    put 0x180 = .next { s with regs := { s.regs with smplCtrl := w &&& 0xFF#32 } } ∧
    (bit s.regs.cmd 31 = false →
      put 0x028 = .next { s with regs := { s.regs with cmdarg := w } } ∧
      put 0x02C = .next { s with regs := { s.regs with cmd := w &&& 0x803FFFFF#32 } }) ∧
    (bit s.regs.cmd 31 = true →
      put 0x028 = .next { s with regs := { s.regs with rintsts := s.regs.rintsts ||| 0x1000#32 } } ∧
      put 0x02C = .next { s with regs := { s.regs with rintsts := s.regs.rintsts ||| 0x1000#32 } }) ∧
    put 0x000 = .next { s with
      regs := { s.regs with ctrl := (w &&& 0x02000030#32) ||| ((s.regs.ctrl ||| w) &&& 0x7#32) }
      st := { s.st with dmac := if bit w 5 then s.st.dmac else s.st.dmac.halted } } ∧
    put 0x080 = .next { s with
      regs := { s.regs with bmod := (w &&& 0x782#32) ||| ((s.regs.bmod ||| w) &&& 0x1#32) }
      st := { s.st with dmac := if bit w 7 then s.st.dmac else s.st.dmac.halted } } ∧
    put 0x084 = .next { s with st := { s.st with dmac := demanded s } } ∧
    (∀ off, off ∈ [0x030, 0x034, 0x038, 0x03C, 0x040, 0x048, 0x050, 0x070, 0x094] → put off = .next s) ∧
    -- reserved offsets
    (∀ off, off % 4 = 0 → off < 0x400 → off ≠ 0x200 → (∀ x, (off, x) ∉ storedRegs s ++ computedRegs s) →
      off ∉ fieldRegs → get off = .next (sees 0#64 s) ∧ put off = .next s) ∧
    -- another width or alignment
    (∀ off width, off ≠ 0x200 → (off % 4 ≠ 0 ∨ width ≠ 4 ∨ 0x400 ≤ off) →
      react (.regRead off width) s = .refused .registerAccess ∧
      react (.regWrite off width v) s = .refused .registerAccess) ∧
    (∀ width, width ≠ s.cfg.w → react (.regRead 0x200 width) s = .refused .registerAccess ∧
      react (.regWrite 0x200 width v) s = .refused .registerAccess) ∧
    -- DATA
    (bit s.regs.ctrl 5 = true → react (.regRead 0x200 s.cfg.w) s = .fault .dataPortDmaEnabled ∧
      react (.regWrite 0x200 s.cfg.w v) s = .fault .dataPortDmaEnabled) ∧
    (bit s.regs.ctrl 5 = false →
      (s.st.fifo = [] → react (.regRead 0x200 s.cfg.w) s = .fault .dataPortEmpty) ∧
      (∀ x q, s.st.fifo = x :: q → react (.regRead 0x200 s.cfg.w) s
        = .next (sees x { s with st := { s.st with fifo := q } })) ∧
      (s.cfg.fifoDepth ≤ s.st.fifo.length → react (.regWrite 0x200 s.cfg.w v) s = .fault .dataPortFull) ∧
      (s.st.fifo.length < s.cfg.fifoDepth → react (.regWrite 0x200 s.cfg.w v) s = .next { s with
        st := { s.st with fifo := s.st.fifo ++ [beatOf (beatBytes s.cfg.w v)] } }))

/-- The transfer on the wire replaced. -/
def withXfer (x : Option WireXfer) (s : State) : State := { s with env := { s.env with xfer := x } }

/-- One more FIFO word of the transfer, which has started then, is on the wire (R762, R763). -/
def wordMoved (c : Config) (x : WireXfer) : WireXfer :=
  { x with moved := x.moved + 1, sent := min x.total (c.w * (x.moved + 1)), doubtful := false }

/-- BUS accepts the command in `CMD` unless it waits for the previous data, the model's reading (log 17): `START_CMD` is
cleared, an update-clock loads the clock, another command is begun with what is latched for it, a data command with a
transfer of `BYTCNT` bytes in the place of the one on the wire. The end of the oldest command sets CMD_DONE and its error
bits and writes the response; a stop's end ends the transfer abandoned on its slot and no other; the card goes busy in that
step or a later one, until another command is accepted on the slot, only where the response signals busy. Words of a read are
pushed while the FIFO has room, words of a write popped while it has any. Every step of BUS leaves `RXDR` or `TXDR` set where
its condition holds for the running transfer; one that has failed, or whose command ended with `RTO` or `RE` and that has
moved no word since, may set it or not. Data errors, `FRUN` and `HTO` only while a word waits for the FIFO, the card's busy signal after a
write and the end of the data come where the contract lets them; presence, SDIO interrupts and the end of busy come at any step, and a reset ends only while it is under way. A step
outside the contract is a model fault: a data error without bits or with bits the transfer cannot have, a presence that does
not change, an SDIO interrupt of an absent card, the end of a busy that is not. A pushed word is cut to `W` bytes, all of them
a draw, those beyond `BYTCNT` too. Where the contract is loose the reading is the model's (log 13, log 16; R760 to R767, R769,
R112, R113, R204). -/
def Obligations.BusServesCommands : Prop :=
  (∀ (s : State) (w : Word), w = s.regs.cmd →
    (bit w 31 = true → (bit w 13 = false ∨ xferHolds s = false) →
      busStep .acceptCmd s = .next (readied { s with
        regs := { s.regs with cmd := w &&& 0x7FFFFFFF#32 }
        env := if bit w 21 then { s.env with
            lastSlot := some (bits w 16 5), effDiv := s.regs.clkdiv, effEna := s.regs.clkena }
          else { s.env with
            lastSlot := some (bits w 16 5)
            signalled := s.env.signalled.set (bits w 16 5) false
            cmds := s.env.cmds ++ [⟨w, s.regs.cmdarg, s.regs.smplCtrl, s.regs.blksiz, s.regs.bytcnt, s.regs.ctype, s.regs.uhs,
              bit w 14 || decide (∃ a ∈ s.st.active, a.cmd.resp = .shortBusy)⟩]
            xfer := if bit w 9 then some ⟨bits w 16 5, if bit w 10 then .write else .read, s.regs.bytcnt.toNat, 0, 0,
                s.regs.smplCtrl, false, false, false⟩
              else s.env.xfer.map fun x => { x with
                aborted := x.aborted || (bit w 14 && decide (x.slot = bits w 16 5)) } } })) ∧
    ((bit w 31 = false ∨ (bit w 13 = true ∧ xferHolds s = true)) → busStep .acceptCmd s = .fault .busContract) ∧
    (s.env.cmds = [] → ∀ rto rcrc re busy r0 r1 r2 r3,
      busStep (.cmdDone rto rcrc re busy r0 r1 r2 r3) s = .fault .busContract) ∧
    ∀ c rest rto rcrc re busy r0 r1 r2 r3, s.env.cmds = c :: rest →
      (((bit c.cmd 6 = false ∧ (rto = true ∨ rcrc = true ∨ re = true ∨ busy = true)) ∨
          (busy = true ∧ c.signals = false)) →
        busStep (.cmdDone rto rcrc re busy r0 r1 r2 r3) s = .fault .busContract) ∧
      (((rto = false ∧ rcrc = false ∧ re = false ∧ busy = false) ∨
          (bit c.cmd 6 = true ∧ (busy = false ∨ c.signals = true))) →
        busStep (.cmdDone rto rcrc re busy r0 r1 r2 r3) s = .next (readied { s with
          regs := { s.regs with
            rintsts := s.regs.rintsts ||| (0x4#32 ||| (if rto then 0x100#32 else 0#32)
              ||| (if rcrc then 0x40#32 else 0#32) ||| (if re then 0x2#32 else 0#32))
            resp0 := if bit c.cmd 6 = true ∧ rto = false then r0 else s.regs.resp0
            resp1 := if bit c.cmd 6 = true ∧ rto = false ∧ bit c.cmd 7 = true then r1 else s.regs.resp1
            resp2 := if bit c.cmd 6 = true ∧ rto = false ∧ bit c.cmd 7 = true then r2 else s.regs.resp2
            resp3 := if bit c.cmd 6 = true ∧ rto = false ∧ bit c.cmd 7 = true then r3 else s.regs.resp3 }
          env := { s.env with
            cmds := rest
            xfer := (if bit c.cmd 14 then s.env.xfer.filter fun x => !(x.aborted && decide (x.slot = bits c.cmd 16 5))
              else s.env.xfer).map fun x =>
                if (rto = true ∨ re = true) ∧ bit c.cmd 9 = true ∧ x.slot = bits c.cmd 16 5 then { x with doubtful := true }
                else x
            busy := if busy then s.env.busy.set (bits c.cmd 16 5) true else s.env.busy
            signalled := if bit c.cmd 6 = true ∧ c.signals = true then s.env.signalled.set (bits c.cmd 16 5) true
              else s.env.signalled } }))) ∧
  (∀ (s : State) (x : WireXfer), s.env.xfer = some x → s.cfg.Valid →
    -- words
    (∀ w : Beat,
      (x.dir = .read ∧ x.aborted = false ∧ s.st.fifo.length < s.cfg.fifoDepth ∧ x.moved < wordsOf s.cfg x →
        busStep (.pushWord w) s = .next (readied (withXfer (some (wordMoved s.cfg x)) { s with
          st := { s.st with fifo := s.st.fifo ++ [beatOf (beatBytes s.cfg.w w)] } }))) ∧
      (x.dir = .write ∨ x.aborted = true ∨ s.cfg.fifoDepth ≤ s.st.fifo.length ∨ wordsOf s.cfg x ≤ x.moved →
        busStep (.pushWord w) s = .fault .busContract)) ∧
    (∀ w q, s.st.fifo = w :: q → x.dir = .write → x.aborted = false → x.moved < wordsOf s.cfg x →
      busStep .popWord s = .next (readied (withXfer (some (wordMoved s.cfg x)) { s with st := { s.st with fifo := q } }))) ∧
    (s.st.fifo = [] ∨ x.dir = .read ∨ x.aborted = true ∨ wordsOf s.cfg x ≤ x.moved →
      busStep .popWord s = .fault .busContract) ∧
    -- FIFO-ready bits: with every step, and alone
    (x.aborted = false → x.dir = .read → bits s.regs.fifoth 16 12 < s.st.fifo.length →
      busStep .fifoReady s = .next (raised 0x20#32 s)) ∧
    (x.aborted = false → x.dir = .write → s.st.fifo.length ≤ bits s.regs.fifoth 0 12 → x.moved < wordsOf s.cfg x →
      busStep .fifoReady s = .next (raised 0x10#32 s)) ∧
    (x.aborted = true ∨ (x.dir = .read ∧ s.st.fifo.length ≤ bits s.regs.fifoth 16 12) ∨
        (x.dir = .write ∧ (bits s.regs.fifoth 0 12 < s.st.fifo.length ∨ wordsOf s.cfg x ≤ x.moved)) →
      busStep .fifoReady s = .fault .busContract) ∧
    -- errors
    (∀ v : Word, v ≠ 0#32 → x.aborted = false →
      (x.dir = .read → v &&& ~~~(0xA280#32 ||| if s.st.fifo.length = s.cfg.fifoDepth ∧ x.moved < wordsOf s.cfg x then 0xC00#32 else 0#32) = 0#32 →
        busStep (.dataErr v) s = .next (withXfer (some { x with failed := true }) (raised v s))) ∧
      (x.dir = .write → v &&& ~~~(0x8080#32 ||| if s.st.fifo = [] ∧ x.moved < wordsOf s.cfg x then 0xC00#32 else 0#32) = 0#32 →
        busStep (.dataErr v) s = .next (withXfer (some { x with failed := true }) (raised v s)))) ∧
    (∀ v : Word, (v = 0#32 ∨ x.aborted = true ∨
        (x.dir = .read ∧ v &&& ~~~(0xA280#32 ||| if s.st.fifo.length = s.cfg.fifoDepth ∧ x.moved < wordsOf s.cfg x then 0xC00#32 else 0#32) ≠ 0#32) ∨
        (x.dir = .write ∧ v &&& ~~~(0x8080#32 ||| if s.st.fifo = [] ∧ x.moved < wordsOf s.cfg x then 0xC00#32 else 0#32) ≠ 0#32)) →
      busStep (.dataErr v) s = .fault .busContract) ∧
    -- busy after a write, data over
    (x.dir = .write → x.aborted = false → wordsOf s.cfg x ≤ x.moved →
      busStep .writeBusy s = .next { s with env := { s.env with busy := s.env.busy.set x.slot true } }) ∧
    (x.dir = .read ∨ x.aborted = true ∨ x.moved < wordsOf s.cfg x → busStep .writeBusy s = .fault .busContract) ∧
    (x.failed = true ∨ x.aborted = true ∨ wordsOf s.cfg x ≤ x.moved →
      busStep .dataOver s = .next (withXfer none (raised 0x8#32 s))) ∧
    (x.failed = false → x.aborted = false → x.moved < wordsOf s.cfg x →
      busStep .dataOver s = .fault .busContract)) ∧
  ∀ s : State,
    (∀ b t, busStep b s = .next t → t = readied t) ∧
    (s.env.xfer = none → ∀ b, (∃ w, b = .pushWord w) ∨ b = .popWord ∨ b = .fifoReady ∨ b = .writeBusy ∨
      (∃ v, b = .dataErr v) ∨ b = .dataOver → busStep b s = .fault .busContract) ∧
    -- resets, presence, SDIO interrupts and the end of busy outside the contract
    (∀ ctl fifo dma, ((ctl = true ∧ bit s.regs.ctrl 0 = false) ∨ (fifo = true ∧ bit s.regs.ctrl 1 = false) ∨
        (dma = true ∧ bit s.regs.ctrl 2 = false ∧ bit s.regs.bmod 0 = false)) →
      busStep (.resetDone ctl fifo dma) s = .fault .busContract) ∧
    (∀ i b, (s.cfg.nslots ≤ i ∨ s.env.present[i]? = some b) → busStep (.setPresent i b) s = .fault .busContract) ∧
    (∀ i, (s.cfg.nslots ≤ i ∨ s.env.present[i]? ≠ some true) → busStep (.sdioInt i) s = .fault .busContract) ∧
    (∀ i, s.env.busy[i]? ≠ some true → busStep (.busyEnd i) s = .fault .busContract) ∧
    (∀ i, s.env.signalled[i]? ≠ some true → busStep (.cardBusy i) s = .fault .busContract) ∧
    (∀ i, s.env.signalled[i]? = some true → busStep (.cardBusy i) s
      = .next (readied { s with env := { s.env with busy := s.env.busy.set i true } })) ∧
    ∀ i, ShapeOk s → i < s.cfg.nslots →
      (∀ b, s.env.present[i]? = some (!b) → busStep (.setPresent i b) s
        = .next (readied (raised 0x1#32 { s with env := { s.env with present := s.env.present.set i b } }))) ∧
      (s.env.present[i]? = some true → busStep (.sdioInt i) s = .next (readied (raised (1#32 <<< (16 + i)) s))) ∧
      (s.env.busy[i]? = some true → busStep (.busyEnd i) s
        = .next (readied { s with env := { s.env with busy := s.env.busy.set i false } }))
end

