-- ==== Sys2Proof/Laws/Decode.lean ====
section
/-! SUPPORT. Laws of the encodings: fields of assembled words, packets, lists of segments, packed bytes. -/

namespace Sys2Proof

theorem bits_lt (w : Word) (lo n : Nat) : bits w lo n < 2 ^ n := Nat.mod_lt _ (Nat.two_pow_pos n)

theorem bits_ofNat (v lo n : Nat) (hv : v < 2 ^ 32) : bits (BitVec.ofNat 32 v) lo n = v / 2 ^ lo % 2 ^ n := by
  rw [bits, BitVec.toNat_ofNat, Nat.mod_eq_of_lt hv]

theorem opwWord_op (op slot n : Nat) (ho : op < 256) (hs : slot < 16) (hn : n < 65536) :
    bits (opwWord op slot n) 0 8 = op := by
  rw [opwWord, bits_ofNat _ _ _ (by omega)]; omega

theorem opwWord_slot (op slot n : Nat) (ho : op < 256) (hs : slot < 16) (hn : n < 65536) :
    bits (opwWord op slot n) 8 4 = slot := by
  rw [opwWord, bits_ofNat _ _ _ (by omega)]; omega

theorem opwWord_rsv (op slot n : Nat) (ho : op < 256) (hs : slot < 16) (hn : n < 65536) :
    bits (opwWord op slot n) 12 4 = 0 := by
  rw [opwWord, bits_ofNat _ _ _ (by omega)]; omega

theorem opwWord_nwords (op slot n : Nat) (ho : op < 256) (hs : slot < 16) (hn : n < 65536) :
    bits (opwWord op slot n) 16 16 = n := by
  rw [opwWord, bits_ofNat _ _ _ (by omega)]; omega

/-- A packet splits into the operation word's fields and the operand words, whatever follows it. -/
theorem splitPacket_packet (op : Nat) (slot : BitVec 4) (ops more : List Word) (ho : op < 256)
    (hn : ops.length < 65536) :
    splitPacket (packet op slot ops ++ more) = .ok (⟨op, slot, 0, ops.length⟩, ops) := by
  have hs := slot.isLt
  simp [splitPacket, packet, Opw.ofWord, opwWord_op op slot.toNat _ ho hs hn, opwWord_slot op slot.toNat _ ho hs hn,
    opwWord_rsv op slot.toNat _ ho hs hn, opwWord_nwords op slot.toNat _ ho hs hn]

theorem segsOf_segWords : ∀ sg : List Seg, segsOf (segWords sg) = sg := by
  intro sg
  induction sg with
  | nil => rfl
  | cons g rest ih => simp [segWords, segsOf, ih]

@[simp] theorem segWords_length : ∀ sg : List Seg, (segWords sg).length = 2 * sg.length := by
  intro sg
  induction sg with
  | nil => rfl
  | cons g rest ih => simp [segWords, ih]; omega

theorem codeOf_codeVal (c : Code) : codeOf (codeVal c) = some c := by cases c <;> rfl

theorem codeVal_lt (c : Code) : codeVal c < 22 := by cases c <;> decide

theorem respOf_respVal (r : RespType) : respOf (respVal r) = r := by cases r <;> rfl

theorem respVal_lt (r : RespType) : respVal r < 4 := by cases r <;> decide

theorem bitVal_le (b : Bool) : bitVal b ≤ 1 := by cases b <;> decide

/-- An event word's code and payload (R304). -/
theorem eventWord_code (code : Nat) (p : BitVec 24) (hc : code < 256) : bits (eventWord code p) 0 8 = code := by
  have := p.isLt
  rw [eventWord, bits_ofNat _ _ _ (by omega)]; omega

theorem eventWord_payload (code : Nat) (p : BitVec 24) (hc : code < 256) :
    BitVec.ofNat 24 (bits (eventWord code p) 8 24) = p := by
  have := p.isLt
  rw [eventWord, bits_ofNat _ _ _ (by omega)]
  apply BitVec.eq_of_toNat_eq
  simp only [BitVec.toNat_ofNat]
  omega

/-- The bytes of an assembled word (R303). -/
theorem wordBytes_ofBytes (a b c d : Byte) :
    wordBytes (BitVec.ofNat 32 (a.toNat + 2 ^ 8 * b.toNat + 2 ^ 16 * c.toNat + 2 ^ 24 * d.toNat)) = [a, b, c, d] := by
  have ha := a.isLt
  have hb := b.isLt
  have hc := c.isLt
  have hd := d.isLt
  have hv : a.toNat + 2 ^ 8 * b.toNat + 2 ^ 16 * c.toNat + 2 ^ 24 * d.toNat < 2 ^ 32 := by omega
  simp only [wordBytes, bits_ofNat _ _ _ hv]
  congr 1
  · apply BitVec.eq_of_toNat_eq; simp only [BitVec.toNat_ofNat]; omega
  · congr 1
    · apply BitVec.eq_of_toNat_eq; simp only [BitVec.toNat_ofNat]; omega
    · congr 1
      · apply BitVec.eq_of_toNat_eq; simp only [BitVec.toNat_ofNat]; omega
      · congr 1
        apply BitVec.eq_of_toNat_eq; simp only [BitVec.toNat_ofNat]; omega

/-- Packed bytes unpack to themselves, but for the padding of the last word (R303). -/
theorem unpack_pack : ∀ bs : List Byte, (unpackBytes (packBytes bs)).take bs.length = bs := by
  intro bs
  induction bs using packBytes.induct with
  | case1 a b c d rest ih =>
    simp only [packBytes, unpackBytes, wordBytes_ofBytes, List.length_cons]
    simpa using ih
  | case2 a b c =>
    have h := wordBytes_ofBytes a b c 0#8
    simp only [BitVec.toNat_ofNat, Nat.zero_mod, Nat.mul_zero, Nat.add_zero] at h
    simp only [packBytes, unpackBytes, h]; rfl
  | case3 a b =>
    have h := wordBytes_ofBytes a b 0#8 0#8
    simp only [BitVec.toNat_ofNat, Nat.zero_mod, Nat.mul_zero, Nat.add_zero] at h
    simp only [packBytes, unpackBytes, h]; rfl
  | case4 a =>
    have h := wordBytes_ofBytes a 0#8 0#8 0#8
    simp only [BitVec.toNat_ofNat, Nat.zero_mod, Nat.mul_zero, Nat.add_zero] at h
    simp only [packBytes, unpackBytes, h]; rfl
  | case5 => rfl

/-- Packed bytes take `ceil(n / 4)` words (R303). -/
theorem packBytes_length : ∀ bs : List Byte, (packBytes bs).length = (bs.length + 3) / 4 := by
  intro bs
  induction bs using packBytes.induct with
  | case1 a b c d rest ih => simp only [packBytes, List.length_cons, ih]; omega
  | case2 a b c => simp [packBytes]
  | case3 a b => simp [packBytes]
  | case4 a => simp [packBytes]
  | case5 => rfl

/-- The fields of a request record's `CMDW` fit a word (log 3). -/
theorem cmdwVal_lt (r : ReqOp) : cmdwVal r < 2 ^ 13 := by
  have h1 := r.cmd.index.isLt
  have h2 := respVal_lt r.cmd.resp
  have h3 := bitVal_le r.cmd.crc
  have h4 := bitVal_le r.data.isSome
  have h5 := bitVal_le r.stopFlag
  have h6 : writeVal r.data ≤ 1 := by
    cases r.data with
    | none => exact Nat.zero_le 1
    | some d => cases h : d.dir <;> simp [h, dirVal, writeVal]
  have h7 : originVal r.origin ≤ 1 := by cases r.origin <;> decide
  unfold cmdwVal
  omega

end Sys2Proof
end

