-- ==== Sys2Proof/Laws/State.lean ====
section
/-! SUPPORT. What each named update of the state leaves as it was: one lemma for each part of the state. -/

namespace Sys2Proof.Machine

/-! ### `push`, `setDpu`, `setRet`, `raiseFatal` -/

@[simp] theorem push_cfg (ws : List Work) (s : State) : (push ws s).cfg = s.cfg := rfl
@[simp] theorem push_regs (ws : List Work) (s : State) : (push ws s).regs = s.regs := rfl
@[simp] theorem push_st (ws : List Work) (s : State) : (push ws s).st = s.st := rfl
@[simp] theorem push_env (ws : List Work) (s : State) : (push ws s).env = s.env := rfl
@[simp] theorem push_mem (ws : List Work) (s : State) : (push ws s).mem = s.mem := rfl
@[simp] theorem push_dpu (ws : List Work) (s : State) : (push ws s).ctl.dpu = ws ++ s.ctl.dpu := rfl
@[simp] theorem push_ret (ws : List Work) (s : State) : (push ws s).ctl.ret = s.ctl.ret := rfl
@[simp] theorem push_yields (ws : List Work) (s : State) : (push ws s).ctl.yields = s.ctl.yields := rfl

@[simp] theorem setDpu_cfg (ws : List Work) (s : State) : (setDpu ws s).cfg = s.cfg := rfl
@[simp] theorem setDpu_regs (ws : List Work) (s : State) : (setDpu ws s).regs = s.regs := rfl
@[simp] theorem setDpu_st (ws : List Work) (s : State) : (setDpu ws s).st = s.st := rfl
@[simp] theorem setDpu_env (ws : List Work) (s : State) : (setDpu ws s).env = s.env := rfl
@[simp] theorem setDpu_mem (ws : List Work) (s : State) : (setDpu ws s).mem = s.mem := rfl
@[simp] theorem setDpu_dpu (ws : List Work) (s : State) : (setDpu ws s).ctl.dpu = ws := rfl
@[simp] theorem setDpu_ret (ws : List Work) (s : State) : (setDpu ws s).ctl.ret = s.ctl.ret := rfl
@[simp] theorem setDpu_yields (ws : List Work) (s : State) : (setDpu ws s).ctl.yields = s.ctl.yields := rfl
@[simp] theorem setDpu_setDpu (a b : List Work) (s : State) : setDpu a (setDpu b s) = setDpu a s := rfl
@[simp] theorem setDpu_self (s : State) : setDpu s.ctl.dpu s = s := rfl
@[simp] theorem push_setDpu (a b : List Work) (s : State) : push a (setDpu b s) = setDpu (a ++ b) s := rfl
@[simp] theorem setDpu_push (a b : List Work) (s : State) : setDpu a (push b s) = setDpu a s := rfl
theorem push_eq_setDpu (a : List Work) (s : State) : push a s = setDpu (a ++ s.ctl.dpu) s := rfl

@[simp] theorem setRet_cfg (c : Code) (s : State) : (setRet c s).cfg = s.cfg := rfl
@[simp] theorem setRet_regs (c : Code) (s : State) : (setRet c s).regs = s.regs := rfl
@[simp] theorem setRet_st (c : Code) (s : State) : (setRet c s).st = s.st := rfl
@[simp] theorem setRet_env (c : Code) (s : State) : (setRet c s).env = s.env := rfl
@[simp] theorem setRet_mem (c : Code) (s : State) : (setRet c s).mem = s.mem := rfl
@[simp] theorem setRet_dpu (c : Code) (s : State) : (setRet c s).ctl.dpu = s.ctl.dpu := rfl
@[simp] theorem setRet_ret (c : Code) (s : State) : (setRet c s).ctl.ret = c := rfl
@[simp] theorem setRet_yields (c : Code) (s : State) : (setRet c s).ctl.yields = s.ctl.yields := rfl
@[simp] theorem setRet_setDpu (c : Code) (ws : List Work) (s : State) :
    setRet c (setDpu ws s) = setDpu ws (setRet c s) := rfl

@[simp] theorem raiseFatal_cfg (s : State) : (raiseFatal s).cfg = s.cfg := rfl
@[simp] theorem raiseFatal_regs (s : State) : (raiseFatal s).regs = s.regs := rfl
@[simp] theorem raiseFatal_st (s : State) : (raiseFatal s).st = { s.st with fatal := true } := rfl
@[simp] theorem raiseFatal_env (s : State) : (raiseFatal s).env = s.env := rfl
@[simp] theorem raiseFatal_mem (s : State) : (raiseFatal s).mem = s.mem := rfl
@[simp] theorem raiseFatal_ctl (s : State) : (raiseFatal s).ctl = { s.ctl with ret := .hardFailure } := rfl

/-! ### Phases, the active request, slots, records, events -/

@[simp] theorem setCst_cfg (c : CState) (s : State) : (setCst c s).cfg = s.cfg := rfl
@[simp] theorem setCst_regs (c : CState) (s : State) : (setCst c s).regs = s.regs := rfl
@[simp] theorem setCst_st (c : CState) (s : State) : (setCst c s).st = { s.st with cst := c } := rfl
@[simp] theorem setCst_env (c : CState) (s : State) : (setCst c s).env = s.env := rfl
@[simp] theorem setCst_mem (c : CState) (s : State) : (setCst c s).mem = s.mem := rfl
@[simp] theorem setCst_ctl (c : CState) (s : State) : (setCst c s).ctl = s.ctl := rfl

@[simp] theorem setDst_cfg (d : DState) (s : State) : (setDst d s).cfg = s.cfg := rfl
@[simp] theorem setDst_regs (d : DState) (s : State) : (setDst d s).regs = s.regs := rfl
@[simp] theorem setDst_st (d : DState) (s : State) : (setDst d s).st = { s.st with dst := d } := rfl
@[simp] theorem setDst_env (d : DState) (s : State) : (setDst d s).env = s.env := rfl
@[simp] theorem setDst_mem (d : DState) (s : State) : (setDst d s).mem = s.mem := rfl
@[simp] theorem setDst_ctl (d : DState) (s : State) : (setDst d s).ctl = s.ctl := rfl

@[simp] theorem modActive_cfg (f : Active → Active) (s : State) : (modActive f s).cfg = s.cfg := rfl
@[simp] theorem modActive_regs (f : Active → Active) (s : State) : (modActive f s).regs = s.regs := rfl
@[simp] theorem modActive_st (f : Active → Active) (s : State) :
    (modActive f s).st = { s.st with active := s.st.active.map f } := rfl
@[simp] theorem modActive_env (f : Active → Active) (s : State) : (modActive f s).env = s.env := rfl
@[simp] theorem modActive_mem (f : Active → Active) (s : State) : (modActive f s).mem = s.mem := rfl
@[simp] theorem modActive_ctl (f : Active → Active) (s : State) : (modActive f s).ctl = s.ctl := rfl

@[simp] theorem modSlot_cfg (i : Nat) (f : Slot → Slot) (s : State) : (modSlot i f s).cfg = s.cfg := rfl
@[simp] theorem modSlot_regs (i : Nat) (f : Slot → Slot) (s : State) : (modSlot i f s).regs = s.regs := rfl
@[simp] theorem modSlot_st (i : Nat) (f : Slot → Slot) (s : State) :
    (modSlot i f s).st = { s.st with slots := s.st.slots.modify i f } := rfl
@[simp] theorem modSlot_env (i : Nat) (f : Slot → Slot) (s : State) : (modSlot i f s).env = s.env := rfl
@[simp] theorem modSlot_mem (i : Nat) (f : Slot → Slot) (s : State) : (modSlot i f s).mem = s.mem := rfl
@[simp] theorem modSlot_ctl (i : Nat) (f : Slot → Slot) (s : State) : (modSlot i f s).ctl = s.ctl := rfl

@[simp] theorem deliver_cfg (c : Completion) (s : State) : (deliver c s).cfg = s.cfg := rfl
@[simp] theorem deliver_regs (c : Completion) (s : State) : (deliver c s).regs = s.regs := rfl
@[simp] theorem deliver_st (c : Completion) (s : State) :
    (deliver c s).st = { s.st with cport := s.st.cport ++ [c] } := rfl
@[simp] theorem deliver_env (c : Completion) (s : State) : (deliver c s).env = s.env := rfl
@[simp] theorem deliver_mem (c : Completion) (s : State) : (deliver c s).mem = s.mem := rfl
@[simp] theorem deliver_ctl (c : Completion) (s : State) : (deliver c s).ctl = s.ctl := rfl

@[simp] theorem deliverAll_cfg (cs : List Completion) (s : State) : (deliverAll cs s).cfg = s.cfg := rfl
@[simp] theorem deliverAll_regs (cs : List Completion) (s : State) : (deliverAll cs s).regs = s.regs := rfl
@[simp] theorem deliverAll_st (cs : List Completion) (s : State) :
    (deliverAll cs s).st = { s.st with cport := s.st.cport ++ cs } := rfl
@[simp] theorem deliverAll_env (cs : List Completion) (s : State) : (deliverAll cs s).env = s.env := rfl
@[simp] theorem deliverAll_mem (cs : List Completion) (s : State) : (deliverAll cs s).mem = s.mem := rfl
@[simp] theorem deliverAll_ctl (cs : List Completion) (s : State) : (deliverAll cs s).ctl = s.ctl := rfl

@[simp] theorem post_cfg (e : Word) (s : State) : (post e s).cfg = s.cfg := rfl
@[simp] theorem post_regs (e : Word) (s : State) : (post e s).regs = s.regs := rfl
@[simp] theorem post_st (e : Word) (s : State) : (post e s).st = { s.st with evq := postTo e s.st.evq } := rfl
@[simp] theorem post_env (e : Word) (s : State) : (post e s).env = s.env := rfl
@[simp] theorem post_mem (e : Word) (s : State) : (post e s).mem = s.mem := rfl
@[simp] theorem post_ctl (e : Word) (s : State) : (post e s).ctl = s.ctl := rfl

@[simp] theorem clearActive_cfg (s : State) : (clearActive s).cfg = s.cfg := rfl
@[simp] theorem clearActive_regs (s : State) : (clearActive s).regs = s.regs := rfl
@[simp] theorem clearActive_env (s : State) : (clearActive s).env = s.env := rfl
@[simp] theorem clearActive_mem (s : State) : (clearActive s).mem = s.mem := rfl
@[simp] theorem clearActive_ctl (s : State) : (clearActive s).ctl = s.ctl := rfl

/-! ### Register writes touch the registers and the DMA engine only -/

theorem regWrite_frame (r : Reg) (v : Word) (s : State) :
    (regWrite r v s).cfg = s.cfg ∧ (regWrite r v s).env = s.env ∧ (regWrite r v s).mem = s.mem ∧
    (regWrite r v s).ctl = s.ctl ∧
    (regWrite r v s).st = { s.st with dmac := (regWrite r v s).st.dmac } := by
  cases r <;> simp only [regWrite, writeCtrl, writeBmod, writePldmnd, setHle] <;>
    (repeat' split) <;> simp_all

@[simp] theorem regWrite_cfg (r : Reg) (v : Word) (s : State) : (regWrite r v s).cfg = s.cfg := (regWrite_frame r v s).1
@[simp] theorem regWrite_env (r : Reg) (v : Word) (s : State) : (regWrite r v s).env = s.env := (regWrite_frame r v s).2.1
@[simp] theorem regWrite_mem (r : Reg) (v : Word) (s : State) : (regWrite r v s).mem = s.mem :=
  (regWrite_frame r v s).2.2.1
@[simp] theorem regWrite_ctl (r : Reg) (v : Word) (s : State) : (regWrite r v s).ctl = s.ctl :=
  (regWrite_frame r v s).2.2.2.1
theorem regWrite_st (r : Reg) (v : Word) (s : State) :
    (regWrite r v s).st = { s.st with dmac := (regWrite r v s).st.dmac } := (regWrite_frame r v s).2.2.2.2

@[simp] theorem startCmd_setDpu (ws : List Work) (s : State) : startCmd (setDpu ws s) = startCmd s := rfl

theorem writePldmnd_setDpu (ws : List Work) (s : State) :
    writePldmnd (setDpu ws s) = setDpu ws (writePldmnd s) := by
  cases h : s.st.dmac.state <;> cases hb : (s.cfg.dmaPresent && bit s.regs.bmod 7 && bit s.regs.ctrl 5 && bit s.regs.ctrl 25) <;>
    simp only [writePldmnd, setDpu_cfg, setDpu_regs, setDpu_st, h, hb] <;> rfl

/-- A register write does not look at the DPU's work. -/
theorem regWrite_setDpu (r : Reg) (v : Word) (ws : List Work) (s : State) :
    regWrite r v (setDpu ws s) = setDpu ws (regWrite r v s) := by
  cases r
  case CTRL => cases h : bit v 5 <;> simp only [regWrite, writeCtrl, h] <;> rfl
  case BMOD => cases h : bit v 7 <;> simp only [regWrite, writeBmod, h] <;> rfl
  case PLDMND => exact writePldmnd_setDpu ws s
  case CMD => cases h : startCmd s <;> simp only [regWrite, startCmd_setDpu, h] <;> rfl
  case CMDARG => cases h : startCmd s <;> simp only [regWrite, startCmd_setDpu, h] <;> rfl
  all_goals rfl

theorem regRead_setDpu (r : Reg) (ws : List Work) (s : State) : regRead r (setDpu ws s) = regRead r s := by
  cases r <;> rfl

/-- `CMD` and `CMDARG` take a write while no command waits (R111, R112). -/
theorem regWrite_cmd (v : Word) (s : State) (h : startCmd s = false) :
    regWrite .CMD v s = { s with regs := { s.regs with cmd := v &&& 0x803FFFFF#32 } } := by
  simp [regWrite, h]

theorem regWrite_cmdarg (v : Word) (s : State) (h : startCmd s = false) :
    regWrite .CMDARG v s = { s with regs := { s.regs with cmdarg := v } } := by
  simp [regWrite, h]

end Sys2Proof.Machine
end

