-- ==== Sys2Proof/Laws/Dpu.lean ====
section
/-! SUPPORT. How the DPU works off a list of work: one lemma for each kind of head, the rule "what every piece of work
keeps, `drive` keeps", and the same for a step of the DPU. -/

namespace Sys2Proof.Machine

/-- Work that `perform` does: neither a loop, nor a poll under way, nor `halt`. -/
def Work.plain : Work → Bool
  | .halt => false
  | .dpuLoop => false
  | .settleLoop => false
  | .poll _ _ _ => false
  | _ => true

@[simp] theorem andThen_next (s : State) (f : State → Res) : Res.andThen (.next s) f = f s := rfl
@[simp] theorem andThen_fault (e : Fault) (f : State → Res) : Res.andThen (.fault e) f = .fault e := rfl
@[simp] theorem andThen_refused (e : Refusal) (f : State → Res) : Res.andThen (.refused e) f = .refused e := rfl
@[simp] theorem ofExcept_ok (s : State) : Res.ofExcept (.ok s) = .next s := rfl
@[simp] theorem ofExcept_error (e : Fault) : Res.ofExcept (.error e) = .fault e := rfl

theorem drive_nil (n : Nat) (s : State) : drive (n + 1) (setDpu [] s) = .next (setDpu [] s) := rfl

theorem drive_halt (n : Nat) (ws : List Work) (s : State) :
    drive (n + 1) (setDpu (.halt :: ws) s) = .next (setDpu ws s) := rfl

theorem drive_dpuLoop (n : Nat) (ws : List Work) (s : State) :
    drive (n + 1) (setDpu (.dpuLoop :: ws) s) = .next (setDpu (.dpuLoop :: ws) s) := rfl

theorem drive_settleLoop (n : Nat) (ws : List Work) (s : State) :
    drive (n + 1) (setDpu (.settleLoop :: ws) s) = .next (setDpu (.settleLoop :: ws) s) := rfl

/-- The condition of a poll does not look at the DPU's work. -/
@[simp] theorem pollHolds_setDpu (c : PollCond) (ws : List Work) (s : State) :
    pollHolds c (setDpu ws s) = pollHolds c s := by
  cases c <;> rfl

/-- A poll whose condition holds in time ends at once. -/
theorem drive_poll_ok (n : Nat) (c : PollCond) (t : Nat) (e : PollEnd) (ws : List Work) (s : State)
    (hy : s.ctl.yields = false) (ht : s.st.now < t) (hc : pollHolds c s = true) :
    drive (n + 1) (setDpu (.poll c t e :: ws) s) = drive n (setDpu ws s) := by
  simp [drive, hy, pollOnce, ht, hc]

/-- A poll whose condition does not hold yet is a step boundary. -/
theorem drive_poll_wait (n : Nat) (c : PollCond) (t : Nat) (e : PollEnd) (ws : List Work) (s : State)
    (hy : s.ctl.yields = false) (ht : s.st.now < t) (hc : pollHolds c s = false) :
    drive (n + 1) (setDpu (.poll c t e :: ws) s) = .next (setDpu (.poll c t e :: ws) s) := by
  simp [drive, hy, pollOnce, ht, hc]

/-- A poll's evaluation is a step of its own while the scheduler yields. -/
theorem drive_poll_yields (n : Nat) (c : PollCond) (t : Nat) (e : PollEnd) (ws : List Work) (s : State)
    (hy : s.ctl.yields = true) :
    drive (n + 1) (setDpu (.poll c t e :: ws) s) = .next (setDpu (.poll c t e :: ws) s) := by
  simp [drive, hy]

/-- A piece of work is done. -/
theorem drive_work (n : Nat) (w : Work) (ws : List Work) (s : State) (hw : w.plain = true)
    (hr : s.ctl.ret = .ok ∨ w.handles = true) :
    drive (n + 1) (setDpu (w :: ws) s) = Res.andThen (perform w (setDpu ws s)) (drive n) := by
  have h : ¬ (s.ctl.ret ≠ .ok ∧ w.handles = false) := by
    rcases hr with h | h <;> simp [h]
  cases w <;> first | (simp [Work.plain] at hw; done) | (simp only [drive, setDpu_dpu, setDpu_ret, setDpu_setDpu]; exact if_neg h)

/-- Work is passed over after a failed primitive (R724). -/
theorem drive_skip (n : Nat) (w : Work) (ws : List Work) (s : State) (hw : w.plain = true)
    (hr : s.ctl.ret ≠ .ok) (hh : w.handles = false) :
    drive (n + 1) (setDpu (w :: ws) s) = drive n (setDpu ws s) := by
  have h : s.ctl.ret ≠ .ok ∧ w.handles = false := ⟨hr, hh⟩
  cases w <;> first | (simp [Work.plain] at hw; done) | (simp only [drive, setDpu_dpu, setDpu_ret, setDpu_setDpu]; exact if_pos h)

/-- A poll about to begin, its condition true already: nothing happens. -/
theorem drive_await_ok (n : Nat) (c : PollCond) (e : PollEnd) (ws : List Work) (s : State)
    (hr : s.ctl.ret = .ok) (hy : s.ctl.yields = false) (ht : 0 < ticks s.cfg (pollTimeout c s.cfg))
    (hc : pollHolds c s = true) :
    drive (n + 2) (setDpu (.await c e :: ws) s) = drive n (setDpu ws s) := by
  rw [drive_work (n + 1) _ _ _ rfl (.inl hr)]
  simp only [perform, andThen_next, push_setDpu, List.cons_append, List.nil_append, setDpu_st, setDpu_cfg]
  exact drive_poll_ok n c _ e ws s hy (by omega) hc

/-- A poll about to begin, its condition not true yet: the step ends, the poll is under way. -/
theorem drive_await_wait (n : Nat) (c : PollCond) (e : PollEnd) (ws : List Work) (s : State)
    (hr : s.ctl.ret = .ok) (hy : s.ctl.yields = false) (ht : 0 < ticks s.cfg (pollTimeout c s.cfg))
    (hc : pollHolds c s = false) :
    drive (n + 2) (setDpu (.await c e :: ws) s) =
      .next (setDpu (.poll c (s.st.now + ticks s.cfg (pollTimeout c s.cfg)) e :: ws) s) := by
  rw [drive_work (n + 1) _ _ _ rfl (.inl hr)]
  simp only [perform, andThen_next, push_setDpu, List.cons_append, List.nil_append, setDpu_st, setDpu_cfg]
  exact drive_poll_wait n c _ e ws s hy (by omega) hc

/-- A step of the DPU at a poll whose condition has come to hold goes on behind it. -/
theorem dpuStep_poll_ok (c : PollCond) (t : Nat) (e : PollEnd) (ws : List Work) (s : State)
    (hy : s.ctl.yields = false) (ht : s.st.now < t) (hc : pollHolds c s = true) :
    dpuStep (setDpu (.poll c t e :: ws) s) = drive driveBound (setDpu ws s) := by
  simp [dpuStep, pollOnce, ht, hc, hy]

/-- A step of the DPU at a poll that still waits changes nothing. -/
theorem dpuStep_poll_wait (c : PollCond) (t : Nat) (e : PollEnd) (ws : List Work) (s : State)
    (ht : s.st.now < t) (hc : pollHolds c s = false) :
    dpuStep (setDpu (.poll c t e :: ws) s) = .next (setDpu (.poll c t e :: ws) s) := by
  simp [dpuStep, pollOnce, ht, hc]

/-- A micro-operation a trace names: its work, then `halt`, then what was there. -/
theorem runProg_eq (ws : List Work) (s : State) :
    runProg ws s = drive driveBound (setDpu (ws ++ .halt :: s.ctl.dpu) (setRet .ok s)) := by
  simp [runProg, push_eq_setDpu]

/-! ### What every piece of work keeps -/

/-- `P` says nothing of the DPU's own bookkeeping. -/
def CtlBlind (P : State → Prop) : Prop := ∀ s c, P s → P { s with ctl := c }

/-- Work of the DPU keeps `P`: every piece of it, and a FATAL. -/
structure WorkKeeps (P : State → Prop) : Prop where
  blind : CtlBlind P
  fatal : ∀ s, P s → P { s with st := { s.st with fatal := true } }
  work  : ∀ w s s', P s → perform w s = .next s' → P s'

theorem WorkKeeps.setDpu {P : State → Prop} (k : WorkKeeps P) (ws : List Work) (s : State) (h : P s) :
    P (setDpu ws s) := k.blind s _ h

theorem WorkKeeps.setRet {P : State → Prop} (k : WorkKeeps P) (c : Code) (s : State) (h : P s) :
    P (setRet c s) := k.blind s _ h

theorem WorkKeeps.push {P : State → Prop} (k : WorkKeeps P) (ws : List Work) (s : State) (h : P s) :
    P (push ws s) := k.blind s _ h

theorem WorkKeeps.pollOnce {P : State → Prop} (k : WorkKeeps P) {c : PollCond} {t : Nat} {e : PollEnd} {s s' : State}
    (h : P s) (hs : pollOnce c t e s = some s') : P s' := by
  unfold Machine.pollOnce at hs
  split at hs
  · split at hs
    · cases hs; exact h
    · cases hs
  · cases hs
    cases e
    · exact k.blind _ _ (k.fatal s h)
    · exact k.setRet _ _ h
    · exact k.setRet _ _ h

theorem andThen_eq_next {r : Res} {f : State → Res} {s' : State} (h : Res.andThen r f = .next s') :
    ∃ s, r = .next s ∧ f s = .next s' := by
  cases r with
  | next s => exact ⟨s, rfl, h⟩
  | fault e => cases h
  | refused e => cases h

/-- What every piece of work keeps, `drive` keeps. -/
theorem WorkKeeps.drive {P : State → Prop} (k : WorkKeeps P) :
    ∀ n s s', P s → drive n s = .next s' → P s' := by
  intro n
  induction n with
  | zero => intro s s' h hd; cases hd; exact h
  | succ n ih =>
    intro s s' h hd
    unfold Machine.drive at hd
    split at hd
    · cases hd; exact h
    · cases hd; exact k.setDpu _ _ h
    · cases hd; exact h
    · cases hd; exact h
    · split at hd
      · cases hd; exact h
      · split at hd
        · rename_i hp; exact ih _ _ (k.pollOnce (k.setDpu _ _ h) hp) hd
        · cases hd; exact h
    · split at hd
      · exact ih _ _ (k.setDpu _ _ h) hd
      · obtain ⟨s1, h1, h2⟩ := andThen_eq_next hd
        exact ih _ _ (k.work _ _ _ (k.setDpu _ _ h) h1) h2

/-- The DPU keeps `P`: its work does, a settle firing does, and so does a turn of its loop. -/
structure DpuKeeps (P : State → Prop) : Prop extends WorkKeeps P where
  settle : ∀ r s, P s → P (settleFire r s)
  sched  : ∀ b s, P s → P { s with st := { s.st with dpuSched := b } }
  evq    : ∀ q e s, s.st.evq = e :: q → P s → P { s with st := { s.st with evq := q } }

theorem DpuKeeps.settleTurn {P : State → Prop} (k : DpuKeeps P) {ws : List Work} {s s' : State} (h : P s)
    (hs : settleTurn ws s = .next s') : P s' := by
  unfold Machine.settleTurn at hs
  split at hs
  · exact k.drive _ _ _ (k.setRet _ _ (k.setDpu _ _ h)) hs
  · split at hs
    · cases hs
    · exact k.drive _ _ _ (k.settle _ _ (k.setRet _ _ h)) hs

theorem DpuKeeps.loopBody {P : State → Prop} (k : DpuKeeps P) {s s' : State} (h : P s)
    (hs : loopBody s = some s') : P s' := by
  unfold Machine.loopBody at hs
  split at hs
  · cases hs; exact k.settle .fatal _ h
  · split at hs
    · rename_i e q he; cases hs; exact k.push _ _ (k.evq q e s he h)
    · repeat' (split at hs)
      all_goals first | (cases hs; exact k.push _ _ h) | cases hs

theorem DpuKeeps.loopTurn {P : State → Prop} (k : DpuKeeps P) {ws : List Work} {s s' : State} (h : P s)
    (hs : loopTurn ws s = .next s') : P s' := by
  unfold Machine.loopTurn at hs
  split at hs
  · cases hs
  · split at hs
    · rename_i hb; exact k.drive _ _ _ (k.loopBody (k.setRet _ _ h) hb) hs
    · exact k.drive _ _ _ (k.setRet _ _ (k.setDpu _ _ h)) hs

theorem DpuKeeps.runProg {P : State → Prop} (k : DpuKeeps P) {ws : List Work} {s s' : State} (h : P s)
    (hs : runProg ws s = .next s') : P s' :=
  k.drive _ _ _ (k.push _ _ (k.setRet _ _ h)) hs

/-- A step of the DPU keeps `P`. -/
theorem DpuKeeps.dpuStep {P : State → Prop} (k : DpuKeeps P) {s s' : State} (h : P s)
    (hs : dpuStep s = .next s') : P s' := by
  unfold Machine.dpuStep at hs
  split at hs
  · split at hs
    · exact k.loopTurn (k.setDpu _ _ (k.sched _ _ h)) hs
    · cases hs; exact h
  · exact k.loopTurn h hs
  · exact k.settleTurn h hs
  · split at hs
    · cases hs; exact h
    · rename_i hp
      have h1 := k.pollOnce (k.setDpu _ _ h) hp
      split at hs
      · cases hs; exact h1
      · exact k.drive _ _ _ h1 hs
  · exact k.drive _ _ _ h hs

end Sys2Proof.Machine
end

