-- ==== Sys2Proof/Laws/Memory.lean ====
section
/-! SUPPORT. Laws of host memory: read after write, and that every memory operation keeps the canonical form. -/

namespace Sys2Proof.Machine

namespace Memory

theorem read_write_same (m : Memory) (x : Nat) (v : Byte) (h : m.wf) : (write m x v).read x = v := by
  induction m with
  | nil => by_cases hv : v = unlisted <;> simp [write, hv, read]
  | cons c rest ih =>
    obtain ⟨a, b⟩ := c
    have hr : wf rest := ⟨(List.pairwise_cons.1 h.1).2, fun c hc => h.2 c (List.mem_cons_of_mem _ hc)⟩
    have hlt : ∀ c ∈ rest, a < c.1 := (List.pairwise_cons.1 h.1).1
    have hnone : ∀ (l : Memory), (∀ c ∈ l, x < c.1) → read l x = unlisted := by
      intro l hl
      induction l with
      | nil => rfl
      | cons d l ihl =>
        obtain ⟨a', b'⟩ := d
        have : x < a' := hl (a', b') (by simp)
        simp only [read]
        rw [if_neg (by omega)]
        exact ihl fun c hc => hl c (List.mem_cons_of_mem _ hc)
    simp only [write]
    split
    · split
      · rename_i h1 hv
        rw [hv]
        apply hnone
        intro c hc
        rcases List.mem_cons.1 hc with h2 | h2
        · subst h2; exact h1
        · exact Nat.lt_trans h1 (hlt c h2)
      · simp [read]
    · split
      · rename_i h1 h2
        split
        · rename_i hv
          rw [hv]
          apply hnone
          intro c hc
          have := hlt c hc
          omega
        · simp [read]
      · rename_i h1 h2
        simp only [read]
        rw [if_neg (fun e => h2 e.symm)]
        exact ih hr

theorem read_write_other (m : Memory) (x y : Nat) (v : Byte) (hxy : y ≠ x) : (write m x v).read y = m.read y := by
  induction m with
  | nil =>
    by_cases hv : v = unlisted
    · simp [write, hv]
    · simp [write, hv, read, Ne.symm hxy]
  | cons c rest ih =>
    obtain ⟨a, b⟩ := c
    simp only [write]
    split
    · split
      · rfl
      · simp [read, Ne.symm hxy]
    · split
      · rename_i h1 h2
        subst h2
        split
        · simp [read, Ne.symm hxy]
        · simp [read, Ne.symm hxy]
      · simp only [read, ih]

theorem mem_write (m : Memory) (x : Nat) (v : Byte) :
    ∀ c ∈ write m x v, (c = (x, v) ∧ v ≠ unlisted) ∨ c ∈ m := by
  induction m with
  | nil =>
    intro c hc
    by_cases hv : v = unlisted
    · simp [write, hv] at hc
    · simp [write, hv] at hc; exact .inl ⟨hc, hv⟩
  | cons d rest ih =>
    obtain ⟨a, b⟩ := d
    intro c hc
    simp only [write] at hc
    split at hc
    · split at hc
      · exact .inr hc
      · rename_i hv
        rcases List.mem_cons.1 hc with h | h
        · exact .inl ⟨h, hv⟩
        · exact .inr h
    · split at hc
      · split at hc
        · exact .inr (List.mem_cons_of_mem _ hc)
        · rename_i hv
          rcases List.mem_cons.1 hc with h | h
          · exact .inl ⟨h, hv⟩
          · exact .inr (List.mem_cons_of_mem _ h)
      · rcases List.mem_cons.1 hc with h | h
        · exact .inr (by simp [h])
        · rcases ih c h with h' | h'
          · exact .inl h'
          · exact .inr (List.mem_cons_of_mem _ h')

theorem write_wf (m : Memory) (x : Nat) (v : Byte) (h : m.wf) : (write m x v).wf := by
  constructor
  · induction m with
    | nil => by_cases hv : v = unlisted <;> simp [write, hv]
    | cons d rest ih =>
      obtain ⟨a, b⟩ := d
      have hp := List.pairwise_cons.1 h.1
      have hr : wf rest := ⟨hp.2, fun c hc => h.2 c (List.mem_cons_of_mem _ hc)⟩
      simp only [write]
      split
      · rename_i h1
        split
        · exact h.1
        · refine List.pairwise_cons.2 ⟨?_, h.1⟩
          intro c hc
          rcases List.mem_cons.1 hc with h2 | h2
          · subst h2; exact h1
          · exact Nat.lt_trans h1 (hp.1 c h2)
      · split
        · rename_i h1 h2
          subst h2
          split
          · exact hp.2
          · exact List.pairwise_cons.2 ⟨hp.1, hp.2⟩
        · rename_i h1 h2
          refine List.pairwise_cons.2 ⟨?_, ih hr⟩
          intro c hc
          rcases mem_write rest x v c hc with h3 | h3
          · rw [h3.1]; show a < x; omega
          · exact hp.1 c h3
  · intro c hc
    rcases mem_write m x v c hc with h1 | h1
    · rw [h1.1]; exact h1.2
    · exact h.2 c h1

theorem writeBytes_wf (bs : List Byte) : ∀ (m : Memory) (x : Nat), m.wf → (writeBytes m x bs).wf := by
  induction bs with
  | nil => intro m x h; exact h
  | cons b rest ih => intro m x h; exact ih _ _ (write_wf m x b h)

theorem read_writeBytes_outside (bs : List Byte) :
    ∀ (m : Memory) (x y : Nat), (y < x ∨ x + bs.length ≤ y) → (writeBytes m x bs).read y = m.read y := by
  induction bs with
  | nil => intro m x y _; rfl
  | cons b rest ih =>
    intro m x y h
    simp only [writeBytes, List.length_cons] at *
    rw [ih _ _ _ (by omega), read_write_other _ _ _ _ (by omega)]

theorem readBytes_writeBytes_same (bs : List Byte) :
    ∀ (m : Memory) (x : Nat), m.wf → readBytes (writeBytes m x bs) x bs.length = bs := by
  induction bs with
  | nil => intro m x _; rfl
  | cons b rest ih =>
    intro m x h
    simp only [writeBytes, List.length_cons, readBytes]
    rw [ih _ _ (write_wf m x b h), read_writeBytes_outside rest _ _ _ (by omega), read_write_same m x b h]

theorem readBytes_congr (m m' : Memory) : ∀ (n x : Nat), (∀ i, i < n → m.read (x + i) = m'.read (x + i)) →
    readBytes m x n = readBytes m' x n := by
  intro n
  induction n with
  | zero => intros; rfl
  | succ n ih =>
    intro x h
    simp only [readBytes]
    rw [ih (x + 1) (fun i hi => by have := h (i + 1) (by omega); rwa [show x + 1 + i = x + (i + 1) by omega])]
    have := h 0 (by omega)
    simp only [Nat.add_zero] at this
    rw [this]

end Memory

@[simp] theorem leBytes_length : ∀ n v, (leBytes n v).length = n := by
  intro n
  induction n with
  | zero => intro v; rfl
  | succ n ih => intro v; simp [leBytes, ih]

theorem leVal_leBytes : ∀ n v, leVal (leBytes n v) = v % 256 ^ n := by
  intro n
  induction n with
  | zero => intro v; simp [leBytes, leVal, Nat.mod_one]
  | succ n ih =>
    intro v
    have h : v % 256 ^ (n + 1) = v % 256 + 256 * (v / 256 % 256 ^ n) := by rw [Nat.pow_succ', Nat.mod_mul]
    simp only [leBytes, leVal, ih, BitVec.toNat_ofNat, h]

theorem leVal_lt : ∀ bs : List Byte, leVal bs < 256 ^ bs.length := by
  intro bs
  induction bs with
  | nil => simp [leVal]
  | cons b rest ih =>
    have := b.isLt
    simp only [leVal, List.length_cons, Nat.pow_succ]
    omega

theorem leBytes_leVal : ∀ bs : List Byte, leBytes bs.length (leVal bs) = bs := by
  intro bs
  induction bs with
  | nil => rfl
  | cons b rest ih =>
    have hb := b.isLt
    simp only [List.length_cons, leBytes, leVal]
    have h1 : (b.toNat + 256 * leVal rest) / 256 = leVal rest := by omega
    have h2 : BitVec.ofNat 8 (b.toNat + 256 * leVal rest) = b := by
      apply BitVec.eq_of_toNat_eq
      simp only [BitVec.toNat_ofNat]
      omega
    rw [h1, h2, ih]

theorem memStore_spec {s s' : State} {a n v : Nat} (h : memStore s a n v = some s') :
    mappedRange s.cfg a n = true ∧ s' = { s with mem := Memory.writeBytes s.mem a (leBytes n v) } := by
  unfold memStore at h
  split at h
  · rename_i hm; cases h; exact ⟨hm, rfl⟩
  · cases h

/-- A store keeps the form of memory. -/
theorem memStore_wf {s s' : State} {a n v : Nat} (h : memStore s a n v = some s') (hw : Memory.wf s.mem) :
    Memory.wf s'.mem := by
  rw [(memStore_spec h).2]; exact Memory.writeBytes_wf _ _ _ hw

/-- A store changes no byte outside its `n` bytes. -/
theorem memStore_read_outside {s s' : State} {a n v y : Nat} (h : memStore s a n v = some s')
    (hy : y < a ∨ a + n ≤ y) : Memory.read s'.mem y = Memory.read s.mem y := by
  rw [(memStore_spec h).2]
  exact Memory.read_writeBytes_outside _ _ _ _ (by simpa using hy)

theorem guardedStore_spec {s s' : State} {a n v : Nat} (h : guardedStore s a n v = .ok s') :
    memStore s a n v = some s' := by
  unfold guardedStore at h
  split at h
  · cases h
  · split at h
    · rename_i hs; cases h; exact hs
    · cases h

theorem guardedStore_wf {s s' : State} {a n v : Nat} (h : guardedStore s a n v = .ok s') (hw : Memory.wf s.mem) :
    Memory.wf s'.mem := memStore_wf (guardedStore_spec h) hw

/-- A store changes host memory only. -/
theorem guardedStore_frame {s s' : State} {a n v : Nat} (h : guardedStore s a n v = .ok s') :
    s' = { s with mem := Memory.writeBytes s.mem a (leBytes n v) } := (memStore_spec (guardedStore_spec h)).2

theorem except_bind_ok {α β : Type} {x : Except Fault α} {f : α → Except Fault β} {b : β}
    (h : (x >>= f) = .ok b) : ∃ a, x = .ok a ∧ f a = .ok b := by
  cases x with
  | error e => cases h
  | ok a => exact ⟨a, rfl, h⟩

/-- A descriptor's words change host memory only, and keep its form. -/
theorem writeDesc_spec {j k : Nat} {ch : Nat × Nat} {s s' : State} (h : writeDesc j k ch s = .ok s')
    (hw : Memory.wf s.mem) : Memory.wf s'.mem ∧ s' = { s with mem := s'.mem } := by
  unfold writeDesc at h
  obtain ⟨s1, h1, h⟩ := except_bind_ok h
  obtain ⟨s2, h2, h⟩ := except_bind_ok h
  obtain ⟨s3, h3, h⟩ := except_bind_ok h
  have w1 := guardedStore_wf h1 hw
  have w2 := guardedStore_wf h2 w1
  have w3 := guardedStore_wf h3 w2
  refine ⟨guardedStore_wf h w3, ?_⟩
  rw [guardedStore_frame h, guardedStore_frame h3, guardedStore_frame h2, guardedStore_frame h1]

theorem writeChain_spec (k : Nat) : ∀ (chs : List (Nat × Nat)) (j : Nat) (s s' : State),
    writeChain k j chs s = .ok s' → Memory.wf s.mem → Memory.wf s'.mem ∧ s' = { s with mem := s'.mem } := by
  intro chs
  induction chs with
  | nil => intro j s s' h hw; cases h; exact ⟨hw, rfl⟩
  | cons ch rest ih =>
    intro j s s' h hw
    obtain ⟨s1, h1, h2⟩ := except_bind_ok h
    obtain ⟨w1, f1⟩ := writeDesc_spec h1 hw
    obtain ⟨w2, f2⟩ := ih _ _ _ h2 w1
    refine ⟨w2, ?_⟩
    rw [f2, f1]

/-- DMA_PREPARE changes host memory and `st.chain` only, and keeps memory's form. -/
theorem prepare_spec {sg : List Seg} {s s' : State} {c : Code} (h : prepare sg s = .ok (c, s'))
    (hw : Memory.wf s.mem) :
    Memory.wf s'.mem ∧ s' = { s with mem := s'.mem, st := { s.st with chain := s'.st.chain } } := by
  unfold prepare at h
  split at h
  · cases h
  · split at h
    · cases h; exact ⟨hw, rfl⟩
    · obtain ⟨s1, h1, h2⟩ := except_bind_ok h
      cases h2
      obtain ⟨w1, f1⟩ := writeChain_spec _ _ _ _ _ h1 hw
      refine ⟨w1, ?_⟩
      rw [f1]

/-! ### HOST's accesses -/

/-- HOST's bytes change host memory, whose form they keep, and the counter of free values. -/
theorem hostWrite_spec : ∀ (bytes : List Byte) (a : Nat) (s : State),
    hostWrite a bytes s = { s with
      mem := (hostWrite a bytes s).mem, ctl := { s.ctl with free := (hostWrite a bytes s).ctl.free } } ∧
    (Memory.wf s.mem → Memory.wf (hostWrite a bytes s).mem)
  | [], _, _ => ⟨rfl, id⟩
  | b :: rest, a, s => by
    have store : ∀ (v : Byte) (u : State), hostStore a v u = { u with mem := (hostStore a v u).mem } ∧
        (Memory.wf u.mem → Memory.wf (hostStore a v u).mem) := by
      intro v u
      unfold hostStore
      split
      · exact ⟨rfl, Memory.write_wf _ _ _⟩
      · exact ⟨rfl, id⟩
    unfold hostWrite
    split
    · obtain ⟨e, w⟩ := hostWrite_spec rest (a + 1) (hostStore a (takeFree s).1 (takeFree s).2)
      obtain ⟨e', w'⟩ := store (takeFree s).1 (takeFree s).2
      refine ⟨?_, fun h => w (w' h)⟩
      rw [e, e']; rfl
    · obtain ⟨e, w⟩ := hostWrite_spec rest (a + 1) (hostStore a b s)
      obtain ⟨e', w'⟩ := store b s
      refine ⟨?_, fun h => w (w' h)⟩
      rw [e, e']

/-- HOST's read takes free values and changes nothing else; it sees as many bytes as it asks for. -/
theorem hostBytes_spec : ∀ (n a : Nat) (s : State),
    (hostBytes a n s).2 = { s with ctl := { s.ctl with free := (hostBytes a n s).2.ctl.free } } ∧
    (hostBytes a n s).1.length = n
  | 0, _, _ => ⟨rfl, rfl⟩
  | n + 1, a, s => by
    unfold hostBytes
    dsimp only
    split
    · obtain ⟨e, l⟩ := hostBytes_spec n (a + 1) (takeFree s).2
      exact ⟨by rw [e]; rfl, by rw [List.length_cons, l]⟩
    · obtain ⟨e, l⟩ := hostBytes_spec n (a + 1) s
      exact ⟨by rw [e], by rw [List.length_cons, l]⟩

end Sys2Proof.Machine
end

