-- ==== Sys2Proof/Laws/Work.lean ====
section
/-! SUPPORT. What the DPU's operations leave as it was and which forms they keep, said once for each: the relation
`Moves`. -/

namespace Sys2Proof.Machine

/-- What every operation of the DPU does to a state: parameters, environment, time and tags stay, the completion port
only grows, and each form of Safety.lean is kept. -/
structure Moves (s s' : State) : Prop where
  cfg   : s'.cfg = s.cfg
  env   : s'.env = s.env
  now   : s'.st.now = s.st.now
  tags  : s'.st.nextSeq = s.st.nextSeq
  cport : s.st.cport <+: s'.st.cport
  mem   : Memory.wf s.mem → Memory.wf s'.mem
  idle  : IdlePhases s → IdlePhases s'
  fifo  : FifoBounded s → FifoBounded s'
  evq   : EventsLegal s → EventsLegal s'
  shape : ShapeOk s → ShapeOk s'
  desc  : DescHeld s → DescHeld s'
  regs  : RegsLegal s → RegsLegal s'

theorem Moves.refl (s : State) : Moves s s :=
  ⟨rfl, rfl, rfl, rfl, List.prefix_refl _, id, id, id, id, id, id, id⟩

theorem Moves.trans {a b c : State} (h : Moves a b) (k : Moves b c) : Moves a c where
  cfg   := k.cfg.trans h.cfg
  env   := k.env.trans h.env
  now   := k.now.trans h.now
  tags  := k.tags.trans h.tags
  cport := h.cport.trans k.cport
  mem   := k.mem ∘ h.mem
  idle  := k.idle ∘ h.idle
  fifo  := k.fifo ∘ h.fifo
  evq   := k.evq ∘ h.evq
  shape := k.shape ∘ h.shape
  desc  := k.desc ∘ h.desc
  regs  := k.regs ∘ h.regs

/-- The model's own bookkeeping is no part of any form. -/
theorem moves_ctl (s : State) (c : Control) : Moves s { s with ctl := c } :=
  ⟨rfl, rfl, rfl, rfl, List.prefix_refl _, id, id, id, id, id, id, id⟩

theorem moves_push (ws : List Work) (s : State) : Moves s (push ws s) := moves_ctl s _
theorem moves_setRet (c : Code) (s : State) : Moves s (setRet c s) := moves_ctl s _
theorem moves_setDpu (ws : List Work) (s : State) : Moves s (setDpu ws s) := moves_ctl s _
theorem moves_setCount (n : Nat) (s : State) : Moves s (setCount n s) := moves_ctl s _

/-- A change of `st` alone, with what it must keep. -/
theorem moves_st {s : State} {e : Engine}
    (now : e.now = s.st.now) (tags : e.nextSeq = s.st.nextSeq) (cport : s.st.cport <+: e.cport)
    (idle : IdlePhases s → IdlePhases { s with st := e })
    (fifo : e.fifo.length ≤ s.st.fifo.length)
    (evq : EventsLegal s → EventsLegal { s with st := e })
    (slots : e.slots.length = s.st.slots.length) (tbuf : e.tbuf.length = s.st.tbuf.length)
    (dmac : DescHeld s → DescHeld { s with st := e }) : Moves s { s with st := e } where
  cfg   := rfl
  env   := rfl
  now   := now
  tags  := tags
  cport := cport
  mem   := id
  idle  := idle
  fifo  := fun h => Nat.le_trans fifo h
  evq   := evq
  shape := fun h => ⟨slots.trans h.1, h.2.1, h.2.2.1, tbuf.trans h.2.2.2.1, h.2.2.2.2⟩
  desc  := dmac
  regs  := id

/-- A register value with no bit of a mask. -/
theorem and_mask_zero (v a b : Word) (h : a &&& b = 0#32) : (v &&& a) &&& b = 0#32 := by
  rw [BitVec.and_assoc, h, BitVec.and_zero]

theorem or_mask_zero (v w m : Word) (hv : v &&& m = 0#32) (hw : w &&& m = 0#32) : (v ||| w) &&& m = 0#32 := by
  apply BitVec.eq_of_getLsbD_eq
  intro i hi
  have h1 : (v &&& m).getLsbD i = (0#32).getLsbD i := by rw [hv]
  have h2 : (w &&& m).getLsbD i = (0#32).getLsbD i := by rw [hw]
  simp only [BitVec.getLsbD_and, BitVec.getLsbD_or, BitVec.getLsbD_zero, Bool.and_eq_false_iff] at *
  rcases h1 with h1 | h1
  · rcases h2 with h2 | h2
    · simp [h1, h2]
    · simp [h2]
  · simp [h1]

theorem not_mask_zero (v w m : Word) (hv : v &&& m = 0#32) : (v &&& w) &&& m = 0#32 := by
  rw [BitVec.and_comm v w]
  exact and_mask_zero w v m hv

theorem dmacHalted_desc (d : Dmac) : d.halted.desc = none := rfl

/-- A register write keeps every form, the reserved bits among them. -/
theorem moves_regWrite (r : Reg) (v : Word) (s : State) : Moves s (regWrite r v s) := by
  obtain ⟨h1, h2, h3, -, h5⟩ := regWrite_frame r v s
  refine ⟨h1, h2, by rw [h5], by rw [h5], by rw [h5], by rw [h3]; exact id,
    ?_, ?_, ?_, ?_, ?_, ?_⟩
  · intro h; unfold IdlePhases; rw [h5]; exact h
  · intro h; unfold FifoBounded; rw [h5, h1]; exact h
  · intro h; unfold EventsLegal; rw [h5]; exact h
  · intro h; unfold ShapeOk; rw [h5, h1, h2]; exact h
  · intro h
    cases r
    case CTRL =>
      cases hb : bit v 5 <;> simp only [regWrite, writeCtrl, hb]
      · intro hd; exact absurd rfl hd
      · exact h
    case BMOD =>
      cases hb : bit v 7 <;> simp only [regWrite, writeBmod, hb]
      · intro hd; exact absurd rfl hd
      · exact h
    case PLDMND =>
      simp only [regWrite, writePldmnd]
      split
      · split
        · intro _; rfl
        · intro _; rfl
        · exact h
      · exact h
    case CMD => cases hs : startCmd s <;> simp only [regWrite, hs] <;> exact h
    case CMDARG => cases hs : startCmd s <;> simp only [regWrite, hs] <;> exact h
    all_goals exact h
  · intro h
    have hle : (s.regs.rintsts ||| 0x1000#32) &&& 0x4000#32 = 0#32 := or_mask_zero _ _ _ h.rintsts (by decide)
    have hm : ∀ w m : Word, (w &&& m) &&& ~~~m = 0#32 := fun w m => and_mask_zero _ _ _ (BitVec.and_not_self m)
    cases r
    case CTRL =>
      have hc : ((v &&& 0x02000030#32) ||| ((s.regs.ctrl ||| v) &&& 0x7#32)) &&& 0xFDFFFFC8#32 = 0#32 :=
        or_mask_zero _ _ _ (and_mask_zero _ _ _ (by decide)) (and_mask_zero _ _ _ (by decide))
      cases hb : bit v 5 <;> simp only [regWrite, writeCtrl, hb] <;> exact { h with ctrl := hc }
    case BMOD =>
      have hc : ((v &&& 0x782#32) ||| ((s.regs.bmod ||| v) &&& 0x1#32)) &&& 0xFFFFF87C#32 = 0#32 :=
        or_mask_zero _ _ _ (and_mask_zero _ _ _ (by decide)) (and_mask_zero _ _ _ (by decide))
      cases hb : bit v 7 <;> simp only [regWrite, writeBmod, hb] <;> exact { h with bmod := hc }
    case PLDMND =>
      simp only [regWrite, writePldmnd]
      split
      · split <;> exact { h with }
      · exact h
    case CMD =>
      cases hs : startCmd s <;> simp only [regWrite, hs]
      · exact { h with cmd := and_mask_zero _ _ _ (by decide) }
      · exact { h with rintsts := hle }
    case CMDARG =>
      cases hs : startCmd s <;> simp only [regWrite, hs]
      · exact { h with }
      · exact { h with rintsts := hle }
    case CLKDIV => exact { h with clkdiv := and_mask_zero _ _ _ (by decide) }
    case SMPL_CTRL => exact { h with smplCtrl := and_mask_zero _ _ _ (by decide) }
    case RINTSTS => exact { h with rintsts := not_mask_zero _ _ _ h.rintsts }
    case IDSTS => exact { h with idsts := not_mask_zero _ _ _ h.idsts }
    case IDINTEN => exact { h with idinten := and_mask_zero _ _ _ (by decide) }
    case FIFOTH => exact { h with fifoth := and_mask_zero _ _ _ (by decide) }
    case BLKSIZ => exact { h with blksiz := and_mask_zero _ _ _ (by decide) }
    case CLKENA => exact { h with clkena := hm _ _ }
    case CTYPE => exact { h with ctype := hm _ _ }
    case INTMASK => exact { h with intmask := hm _ _ }
    case UHS_REG => exact { h with uhs := hm _ _ }
    all_goals exact { h with }

theorem moves_regSet (r : Reg) (m : Word) (s : State) : Moves s (regSet r m s) := moves_regWrite r _ s
theorem moves_regClr (r : Reg) (m : Word) (s : State) : Moves s (regClr r m s) := moves_regWrite r _ s

/-- A slot's fields. -/
theorem moves_modSlot (i : Nat) (f : Slot → Slot) (s : State) : Moves s (modSlot i f s) :=
  moves_st rfl rfl (List.prefix_refl _) id (Nat.le_refl _) id (List.length_modify _ _ _) rfl id

/-- A record appended. -/
theorem moves_deliver (c : Completion) (s : State) : Moves s (deliver c s) :=
  moves_st rfl rfl (List.prefix_append _ _) id (Nat.le_refl _) id rfl rfl id

theorem moves_deliverAll (cs : List Completion) (s : State) : Moves s (deliverAll cs s) :=
  moves_st rfl rfl (List.prefix_append _ _) id (Nat.le_refl _) id rfl rfl id

/-- The active request's record changed, none made or ended. -/
theorem moves_modActive (f : Active → Active) (s : State) : Moves s (modActive f s) := by
  refine moves_st rfl rfl (List.prefix_refl _) ?_ (Nat.le_refl _) id rfl rfl id
  intro h ha
  exact h (by simpa using ha)

/-- A phase changed and the active request's record replaced, while one is active. -/
theorem moves_active {s : State} {a : Active} (b : Active) (c : CState) (d : DState) (_ : s.st.active = some a) :
    Moves s { s with st := { s.st with active := some b, cst := c, dst := d } } :=
  moves_st rfl rfl (List.prefix_refl _) (fun _ ha => by cases ha) (Nat.le_refl _) id rfl rfl id

theorem moves_setCst {s : State} (c : CState) (h : s.st.active ≠ none) : Moves s (setCst c s) :=
  moves_st rfl rfl (List.prefix_refl _) (fun _ ha => absurd ha h) (Nat.le_refl _) id rfl rfl id

theorem moves_setDst {s : State} (d : DState) (h : s.st.active ≠ none) : Moves s (setDst d s) :=
  moves_st rfl rfl (List.prefix_refl _) (fun _ ha => absurd ha h) (Nat.le_refl _) id rfl rfl id

/-- A host-memory store. -/
theorem moves_guardedStore {s s' : State} {a n v : Nat} (h : guardedStore s a n v = .ok s') : Moves s s' := by
  have hw := @guardedStore_wf s s' a n v h
  rw [guardedStore_frame h] at hw ⊢
  exact ⟨rfl, rfl, rfl, rfl, List.prefix_refl _, hw, id, id, id, id, id, id⟩

theorem moves_prepare {sg : List Seg} {s s' : State} {c : Code} (h : prepare sg s = .ok (c, s')) : Moves s s' := by
  have key : ∀ m ch, (Memory.wf s.mem → Memory.wf m) →
      Moves s { s with mem := m, st := { s.st with chain := ch } } := fun m ch hm =>
    ⟨rfl, rfl, rfl, rfl, List.prefix_refl _, hm, id, id, id, id, id, id⟩
  have hf : s' = { s with mem := s'.mem, st := { s.st with chain := s'.st.chain } } := by
    unfold prepare at h
    split at h
    · cases h
    · split at h
      · cases h; rfl
      · obtain ⟨s1, h1, h2⟩ := except_bind_ok h
        cases h2
        have hc : ∀ (k : Nat) (chs : List (Nat × Nat)) (j : Nat) (s s' : State), writeChain k j chs s = .ok s' →
            s' = { s with mem := s'.mem } := by
          intro k chs
          induction chs with
          | nil => intro j s s' h; cases h; rfl
          | cons ch rest ih =>
            intro j s s' h
            obtain ⟨s1, h1, h2⟩ := except_bind_ok h
            have f2 := ih _ _ _ h2
            have f1 : s1 = { s with mem := s1.mem } := by
              unfold writeDesc at h1
              obtain ⟨t1, g1, h1⟩ := except_bind_ok h1
              obtain ⟨t2, g2, h1⟩ := except_bind_ok h1
              obtain ⟨t3, g3, h1⟩ := except_bind_ok h1
              rw [guardedStore_frame h1, guardedStore_frame g3, guardedStore_frame g2, guardedStore_frame g1]
            rw [f2, f1]
        rw [hc _ _ _ _ _ h1]
  rw [hf]
  exact key _ _ fun hw => (prepare_spec h hw).1

/-! ### PIO -/

theorem moves_setCursor (a b : Nat) (s : State) : Moves s (setCursor a b s) :=
  moves_st rfl rfl (List.prefix_refl _) id (Nat.le_refl _) id rfl rfl id

theorem moves_takeRemaining (k : Nat) (s : State) : Moves s (takeRemaining k s) :=
  moves_st rfl rfl (List.prefix_refl _) id (Nat.le_refl _) id rfl rfl id

theorem except_map_ok {α β : Type} {x : Except Fault α} {f : α → β} {b : β} (h : x.map f = .ok b) :
    ∃ a, x = .ok a ∧ f a = b := by
  cases x with
  | error e => cases h
  | ok a => exact ⟨a, rfl, by simpa [Except.map] using h⟩

theorem moves_storeByte {b : Byte} {s s' : State} (h : storeByte b s = .ok s') : Moves s s' := by
  unfold storeByte at h
  split at h
  · split at h
    · cases h
      exact moves_st rfl rfl (List.prefix_refl _) id (Nat.le_refl _) id rfl (List.length_set) id
    · cases h
  · split at h
    · cases h
    · obtain ⟨s1, h1, h2⟩ := except_map_ok h
      rw [← h2]
      exact (moves_guardedStore h1).trans (moves_setCursor _ _ _)

theorem moves_loadByte {b : Byte} {s s' : State} (h : loadByte s = .ok (b, s')) : Moves s s' := by
  unfold loadByte at h
  split at h
  · split at h
    · cases h; exact moves_setCursor _ _ _
    · cases h
  · split at h
    · cases h
    · split at h
      · cases h
      · cases h; exact moves_setCursor _ _ _

theorem moves_storeBytes : ∀ (bs : List Byte) (s s' : State), storeBytes bs s = .ok s' → Moves s s' := by
  intro bs
  induction bs with
  | nil => intro s s' h; cases h; exact Moves.refl _
  | cons b rest ih =>
    intro s s' h
    obtain ⟨s1, h1, h2⟩ := except_bind_ok h
    exact (moves_storeByte h1).trans (ih _ _ h2)

theorem moves_loadBytes : ∀ (n : Nat) (bs : List Byte) (s s' : State), loadBytes n s = .ok (bs, s') → Moves s s' := by
  intro n
  induction n with
  | zero => intro bs s s' h; cases h; exact Moves.refl _
  | succ n ih =>
    intro bs s s' h
    obtain ⟨⟨b, s1⟩, h1, h2⟩ := except_bind_ok h
    obtain ⟨⟨bs1, s2⟩, h3, h4⟩ := except_bind_ok h2
    cases h4
    exact (moves_loadByte h1).trans (ih _ _ _ h3)

theorem moves_fifoTail (s : State) : Moves s (fifoTail s) := by
  refine moves_st rfl rfl (List.prefix_refl _) id ?_ id rfl rfl id
  simp

theorem moves_dataRead {w : Beat} {s s' : State} (h : dataRead s = .ok (w, s')) : Moves s s' := by
  unfold dataRead at h
  split at h
  · cases h
  · split at h
    · cases h
    · cases h; exact moves_fifoTail _

theorem moves_fifoAppend (w : Beat) (s : State) (hl : s.st.fifo.length < s.cfg.fifoDepth) :
    Moves s (fifoAppend w s) :=
  ⟨rfl, rfl, rfl, rfl, List.prefix_refl _, id, id, fun _ => by simp [FifoBounded, fifoAppend]; omega, id, id, id, id⟩

theorem moves_dataWrite {w : Beat} {s s' : State} (h : dataWrite w s = .ok s') : Moves s s' := by
  unfold dataWrite at h
  split at h
  · cases h
  · split at h
    · cases h; exact moves_fifoAppend _ _ ‹_›
    · cases h

theorem moves_pullWords : ∀ (n m : Nat) (s : State) (k : Nat) (s' : State),
    pullWords n m s = .ok (k, s') → Moves s s' := by
  intro n
  induction n with
  | zero => intro m s k s' h; cases h; exact Moves.refl _
  | succ n ih =>
    intro m s k s' h
    obtain ⟨⟨w, s1⟩, h1, h2⟩ := except_bind_ok h
    obtain ⟨s2, h3, h4⟩ := except_bind_ok h2
    exact ((moves_dataRead h1).trans (moves_storeBytes _ _ _ h3)).trans
      ((moves_takeRemaining _ _).trans (ih _ _ _ _ h4))

theorem moves_pushWords : ∀ (n m : Nat) (s : State) (k : Nat) (s' : State),
    pushWords n m s = .ok (k, s') → Moves s s' := by
  intro n
  induction n with
  | zero => intro m s k s' h; cases h; exact Moves.refl _
  | succ n ih =>
    intro m s k s' h
    obtain ⟨⟨bs, s1⟩, h1, h2⟩ := except_bind_ok h
    obtain ⟨s2, h3, h4⟩ := except_bind_ok h2
    exact ((moves_loadBytes _ _ _ _ h1).trans (moves_dataWrite h3)).trans
      ((moves_takeRemaining _ _).trans (ih _ _ _ _ h4))

theorem moves_pioPull {d : Bool} {s s' : State} (h : pioPull d s = .ok s') : Moves s s' := by
  obtain ⟨⟨m, s1⟩, h1, h2⟩ := except_bind_ok h
  have k := moves_pullWords _ _ _ _ _ h1
  simp only at h2
  split at h2
  · cases h2
  · cases h2; exact k.trans (moves_setCount _ _)

theorem moves_txFinish (s : State) : Moves s (txFinish s) := by
  unfold txFinish
  split
  · exact Moves.refl _
  · split
    · refine Moves.trans ?_ (moves_regWrite _ _ _)
      exact moves_st rfl rfl (List.prefix_refl _) (fun _ ha => by cases ha) (Nat.le_refl _) id rfl rfl id
    · exact Moves.refl _

theorem moves_pioPush {s s' : State} (h : pioPush s = .ok s') : Moves s s' := by
  obtain ⟨⟨m, s1⟩, h1, h2⟩ := except_bind_ok h
  cases h2
  exact ((moves_pushWords _ _ _ _ _ h1).trans (moves_txFinish _)).trans (moves_setCount _ _)

theorem moves_pioSetup (d : DataSpec) (s : State) : Moves s (pioSetup d s) := by
  unfold pioSetup
  refine Moves.trans ?_ (moves_regWrite _ _ _)
  refine moves_st rfl rfl (List.prefix_refl _) ?_ (Nat.le_refl _) id rfl rfl id
  intro h ha
  exact h (by simpa using ha)

/-! ### Tuning and completion -/

theorem moves_curSlot (c : Option Nat) (s : State) : Moves s { s with st := { s.st with curSlot := c } } :=
  moves_st rfl rfl (List.prefix_refl _) id (Nat.le_refl _) id rfl rfl id

theorem moves_tuning (b : Bool) (c : Option TuneCtx) (s : State) :
    Moves s { s with st := { s.st with tuning := b, tctx := c } } :=
  moves_st rfl rfl (List.prefix_refl _) id (Nat.le_refl _) id rfl rfl id

theorem moves_tctx (c : Option TuneCtx) (s : State) : Moves s { s with st := { s.st with tctx := c } } :=
  moves_st rfl rfl (List.prefix_refl _) id (Nat.le_refl _) id rfl rfl id

theorem moves_setPhase (i p d : Nat) (s : State) : Moves s (setPhase i p d s) :=
  ((moves_modSlot _ _ _).trans (moves_regWrite _ _ _)).trans (moves_curSlot _ _)

theorem moves_tuneEnd (c : TuneCtx) (code : Code) (p : Word) (s : State) : Moves s (tuneEnd c code p s) :=
  (moves_tuning _ _ _).trans (moves_deliver _ _)

theorem moves_tuneFinish (code : Code) (s : State) : Moves s (tuneFinish code s) := by
  unfold tuneFinish
  split
  · exact Moves.refl _
  · split
    · exact (((moves_modSlot _ _ _).trans (moves_regWrite _ _ _)).trans (moves_curSlot _ _)).trans (moves_tuneEnd _ _ _ _)
    · exact moves_tuneEnd _ _ _ _

theorem moves_tuneSuccess (c : TuneCtx) (p : Nat) (b : BitVec 16) (s : State) : Moves s (tuneSuccess c p b s) :=
  ((moves_setPhase _ _ _ _).trans (moves_modSlot _ _ _)).trans (moves_tuneEnd _ _ _ _)

theorem moves_tuneSelect (s : State) : Moves s (tuneSelect s) := by
  unfold tuneSelect
  split
  · exact Moves.refl _
  · split
    · exact moves_tuneSuccess _ _ _ _
    · split
      · exact moves_tctx _ _
      · exact moves_tuneFinish _ _

theorem moves_tuneResult (code : Code) (s : State) : Moves s (tuneResult code s) := by
  unfold tuneResult
  split
  · exact Moves.refl _
  · split
    · exact (moves_tctx _ _).trans (moves_tuneFinish _ _)
    · exact moves_tctx _ _

theorem moves_tuneStart (tag : Word) (sl m : BitVec 4) (ix : BitVec 6) (p : List Byte) (s : State) :
    Moves s (tuneStart tag sl m ix p s) := by
  unfold tuneStart
  simp only
  split
  · exact moves_deliver _ _
  · split
    · exact moves_deliver _ _
    · split
      · exact moves_deliver _ _
      · exact moves_tuning _ _ _

theorem moves_clearActive (s : State) : Moves s (clearActive s) :=
  moves_st rfl rfl (List.prefix_refl _) (fun _ _ => ⟨rfl, rfl⟩) (Nat.le_refl _) id rfl rfl id

theorem moves_keepBuffers (a : Active) (s : State) : Moves s (keepBuffers a s) := by
  unfold keepBuffers
  split
  · exact moves_ctl s _
  · exact Moves.refl _

theorem moves_completeActive (s : State) : Moves s (completeActive s) := by
  unfold completeActive
  split
  · exact Moves.refl _
  · split
    · exact ((moves_clearActive _).trans (moves_keepBuffers _ _)).trans (moves_deliver _ _)
    · exact (moves_clearActive _).trans (moves_tuneResult _ _)

theorem moves_slotsMap (f : Slot → Slot) (s : State) :
    Moves s { s with st := { s.st with slots := s.st.slots.map f } } :=
  moves_st rfl rfl (List.prefix_refl _) id (Nat.le_refl _) id (List.length_map _) rfl id

theorem moves_ctlq (q : List CtlEntry) (s : State) : Moves s { s with st := { s.st with ctlq := q } } :=
  moves_st rfl rfl (List.prefix_refl _) id (Nat.le_refl _) id rfl rfl id

theorem moves_flushQueues (s : State) : Moves s (flushQueues s) := by
  unfold flushQueues
  simp only
  have h1 : Moves s (if s.st.tuning then tuneFinish .hardFailure s else s) := by
    split
    · exact moves_tuneFinish _ _
    · exact Moves.refl _
  exact (((h1.trans (moves_deliverAll _ _)).trans (moves_slotsMap _ _)).trans (moves_deliverAll _ _)).trans
    (moves_ctlq _ _)

theorem moves_flushRest (s : State) : Moves s (flushRest s) :=
  (((moves_setRet _ _).trans (moves_modActive _ _)).trans (moves_completeActive _)).trans (moves_flushQueues _)

/-! ### Recovery -/

theorem moves_dmaOff (s : State) : Moves s (dmaOff s) := (moves_regClr _ _ _).trans (moves_regClr _ _ _)

theorem moves_dmaRelease (s : State) : Moves s (dmaRelease s) :=
  moves_st rfl rfl (List.prefix_refl _) id (Nat.le_refl _) id rfl rfl id

theorem moves_assertDmaReset (s : State) : Moves s (assertDmaReset s) :=
  (moves_regSet _ _ _).trans (moves_regSet _ _ _)

theorem moves_dmaStart (d : Dir) (s : State) : Moves s (dmaStart d s) := by
  unfold dmaStart
  simp only
  refine Moves.trans ?_ (moves_regWrite _ _ _)
  refine Moves.trans ?_ (moves_regSet _ _ _)
  refine Moves.trans ?_ (moves_regSet _ _ _)
  refine Moves.trans ?_ (moves_regWrite _ _ _)
  refine Moves.trans ?_ (moves_regWrite _ _ _)
  exact moves_st rfl rfl (List.prefix_refl _) id (Nat.le_refl _) id rfl rfl id

theorem moves_clearPartBuf (s : State) : Moves s (clearPartBuf s) :=
  moves_st rfl rfl (List.prefix_refl _) id (Nat.le_refl _) id rfl rfl id

theorem moves_busyAgain (s : State) : Moves s (busyAgain s) := by
  unfold busyAgain
  split
  · exact (moves_setRet _ _).trans (moves_push _ _)
  · exact Moves.refl _

theorem moves_writeStop (s : State) : Moves s (writeStop s) := by
  unfold writeStop
  split
  · exact Moves.refl _
  · rename_i a ha
    refine ((moves_regWrite _ _ _).trans (moves_regWrite _ _ _)).trans (moves_setCst _ ?_)
    rw [regWrite_st, regWrite_st]
    simp [ha]

theorem moves_recoverEnd (s : State) : Moves s (recoverEnd s) := by
  unfold recoverEnd
  simp only
  have h1 := moves_regWrite .RINTSTS 0xFFFE#32 s
  have h2 : Moves s (if s.cfg.dmaPresent then regWrite .IDSTS 0x337#32 (regWrite .RINTSTS 0xFFFE#32 s)
      else regWrite .RINTSTS 0xFFFE#32 s) := by
    split
    · exact h1.trans (moves_regWrite _ _ _)
    · exact h1
  refine (h2.trans (moves_regWrite .INTMASK s.st.baseMask _)).trans ?_
  exact moves_st rfl rfl (List.prefix_refl _) id (Nat.le_refl _) id rfl rfl id

theorem moves_toDRecovery (s : State) : Moves s (toDRecovery s) := by
  unfold toDRecovery
  split
  · exact Moves.refl _
  · rename_i a ha
    split
    · refine (moves_regWrite _ _ _).trans (moves_setDst _ ?_)
      rw [regWrite_st]; simp [ha]
    · exact moves_setDst _ (by simp [ha])

theorem moves_quiesceData (s : State) : Moves s (quiesceData s) := by
  unfold quiesceData
  split
  · exact Moves.refl _
  · split
    · exact moves_push _ _
    · exact moves_toDRecovery _

/-! ### Dispatch and slots -/

theorem moves_dispatchArm (r : Request) (s : State) : Moves s (dispatchArm r s) := by
  unfold dispatchArm
  simp only
  have h1 : Moves s { s with st := { s.st with
      active := some (Active.fresh r), wd := ⟨true, s.st.now + ticks s.cfg s.cfg.reqTimeout, r.seq⟩ } } :=
    moves_st rfl rfl (List.prefix_refl _) (fun _ ha => by cases ha) (Nat.le_refl _) id rfl rfl id
  refine Moves.trans ?_ (moves_regWrite _ _ _)
  refine Moves.trans ?_ (moves_regWrite _ _ _)
  split
  · exact h1
  · exact (h1.trans (moves_regWrite _ _ _)).trans (moves_curSlot _ _)

theorem moves_dispatchPrepare {r : Request} {d : DataSpec} {s s' : State} {c : Code}
    (h : dispatchPrepare r d s = .ok (c, s')) : Moves s s' ∧ s'.st.active = s.st.active := by
  unfold dispatchPrepare at h
  split at h
  · refine ⟨moves_prepare h, ?_⟩
    unfold prepare at h
    split at h
    · cases h
    · split at h
      · cases h; rfl
      · obtain ⟨s1, h1, h2⟩ := except_bind_ok h
        cases h2
        have hc : ∀ (k : Nat) (chs : List (Nat × Nat)) (j : Nat) (s s' : State), writeChain k j chs s = .ok s' →
            s'.st.active = s.st.active := by
          intro k chs
          induction chs with
          | nil => intro j s s' h; cases h; rfl
          | cons ch rest ih =>
            intro j s s' h
            obtain ⟨s1, h1, h2⟩ := except_bind_ok h
            rw [ih _ _ _ h2]
            unfold writeDesc at h1
            obtain ⟨t1, g1, h1⟩ := except_bind_ok h1
            obtain ⟨t2, g2, h1⟩ := except_bind_ok h1
            obtain ⟨t3, g3, h1⟩ := except_bind_ok h1
            rw [guardedStore_frame h1, guardedStore_frame g3, guardedStore_frame g2, guardedStore_frame g1]
        show s1.st.active = s.st.active
        exact hc _ _ _ _ _ h1
  · cases h; exact ⟨Moves.refl _, rfl⟩

theorem dmaStart_active (d : Dir) (s : State) : (dmaStart d s).st.active = s.st.active := by
  unfold dmaStart
  simp only [regSet]
  rw [regWrite_st, regWrite_st, regWrite_st, regWrite_st, regWrite_st]

theorem moves_dispatchData {r : Request} {d : DataSpec} {s s' : State} (ha : s.st.active ≠ none)
    (h : dispatchData r d s = .ok s') : Moves s s' := by
  unfold dispatchData at h
  obtain ⟨⟨c, s2⟩, h1, h2⟩ := except_bind_ok h
  obtain ⟨m1, a1⟩ := moves_dispatchPrepare h1
  have m0 := ((moves_regWrite .BLKSIZ (d.blksz.zeroExtend 32) s).trans
    (moves_regWrite .BYTCNT (BitVec.ofNat 32 (d.blksz.toNat * d.blocks.toNat)) _)).trans m1
  have ha2 : s2.st.active ≠ none := by
    rw [a1, regWrite_st, regWrite_st]; exact ha
  simp only at h2
  split at h2
  · cases h2
    refine m0.trans ((moves_modActive _ _).trans ((moves_dmaStart _ _).trans (moves_setDst _ ?_)))
    rw [dmaStart_active]; simpa using ha2
  · cases h2
    refine m0.trans ((moves_modActive _ _).trans ((moves_pioSetup _ _).trans (moves_setDst _ ?_)))
    unfold pioSetup
    rw [regWrite_st]; simpa using ha2

theorem moves_dispatchBegin {r : Request} {s s' : State} (h : dispatchBegin r s = .ok s') : Moves s s' := by
  unfold dispatchBegin at h
  split at h
  · cases h
  · split at h
    · cases h
    · obtain ⟨s2, h1, h2⟩ := except_bind_ok h
      cases h2
      refine Moves.trans ?_ (moves_push _ _)
      have m := moves_dispatchArm r s
      have ha : (dispatchArm r s).st.active ≠ none := by
        unfold dispatchArm
        simp only
        rw [regWrite_st, regWrite_st]
        split
        · simp
        · rw [regWrite_st]; simp
      unfold dispatchPath at h1
      split at h1
      · cases h1; exact m
      · exact m.trans (moves_dispatchData ha h1)

theorem moves_writeCommand (s : State) : Moves s (writeCommand s) := by
  unfold writeCommand
  split
  · exact Moves.refl _
  · rename_i a ha
    refine (((moves_regWrite _ _ _).trans (moves_regWrite _ _ _)).trans (moves_modSlot _ _ _)).trans (moves_setCst _ ?_)
    rw [modSlot_st, regWrite_st, regWrite_st]
    simp [ha]

theorem moves_rr (i : Nat) (s : State) : Moves s { s with st := { s.st with rr := i } } :=
  moves_st rfl rfl (List.prefix_refl _) id (Nat.le_refl _) id rfl rfl id

theorem moves_dispatchNext {s s' : State} (h : dispatchNext s = .ok s') : Moves s s' := by
  unfold dispatchNext at h
  split at h
  · split at h
    · cases h; exact Moves.refl _
    · split at h
      · cases h; exact Moves.refl _
      · exact ((moves_modSlot _ _ _).trans (moves_rr _ _)).trans (moves_dispatchBegin h)
  · cases h; exact Moves.refl _

theorem moves_cardInserted (i : Nat) (s : State) : Moves s (cardInserted i s) := by
  unfold cardInserted
  simp only
  refine Moves.trans ?_ (moves_deliver _ _)
  exact (((moves_modSlot _ _ _).trans (moves_regClr _ _ _)).trans (moves_regClr _ _ _)).trans (moves_curSlot _ _)

theorem moves_cardRemoved (i : Nat) (rest : List Work) (s : State) : Moves s (cardRemoved i rest s) := by
  unfold cardRemoved
  simp only
  split
  · refine Moves.trans ?_ (moves_push _ _)
    split
    · exact (moves_modSlot _ _ _).trans (moves_regWrite _ _ _)
    · exact moves_modSlot _ _ _
  · exact (moves_modSlot _ _ _).trans (moves_push _ _)

theorem moves_cancelActive (s : State) : Moves s (cancelActive s) :=
  (moves_modActive _ _).trans (moves_completeActive _)

theorem moves_removalEnd (i : Nat) (s : State) : Moves s (removalEnd i s) := by
  unfold removalEnd
  simp only
  refine Moves.trans ?_ (moves_deliver _ _)
  split
  · exact ((moves_deliverAll _ _).trans (moves_modSlot _ _ _)).trans (moves_tuneFinish _ _)
  · exact (moves_deliverAll _ _).trans (moves_modSlot _ _ _)

theorem moves_scanStep (cd : Word) (todo : List Nat) (s : State) : Moves s (scanStep cd todo s) := by
  unfold scanStep
  split
  · exact Moves.refl _
  · simp only
    split
    · exact (moves_cardInserted _ _).trans (moves_push _ _)
    · split
      · exact moves_cardRemoved _ _ _
      · exact moves_push _ _

/-! ### Control operations -/

theorem moves_baseMask (m : Word) (s : State) : Moves s { s with st := { s.st with baseMask := m } } :=
  moves_st rfl rfl (List.prefix_refl _) id (Nat.le_refl _) id rfl rfl id

theorem moves_runAck (tag : Word) (sl : BitVec 4) (s : State) : Moves s (runAck tag sl s) := by
  unfold runAck
  simp only
  exact (((moves_modSlot _ _ _).trans (moves_baseMask _ _)).trans (moves_regSet _ _ _)).trans (moves_deliver _ _)

theorem moves_setTiming (sl m w : BitVec 4) (s : State) : Moves s (setTiming sl m w s) := by
  unfold setTiming
  simp only
  exact ((moves_regWrite _ _ _).trans (moves_regWrite _ _ _)).trans (moves_modSlot _ _ _)

theorem moves_clkGate (sl : BitVec 4) (b : Bool) (s : State) : Moves s (clkGate sl b s) := by
  unfold clkGate
  split
  · exact moves_regSet _ _ _
  · exact moves_regClr _ _ _

theorem moves_clkStopped (s : State) : Moves s (clkStopped s) :=
  moves_st rfl rfl (List.prefix_refl _) id (Nat.le_refl _) id rfl rfl id

theorem moves_clkDone (d : Nat) (s : State) : Moves s (clkDone d s) :=
  moves_st rfl rfl (List.prefix_refl _) id (Nat.le_refl _) id rfl rfl id

theorem moves_initFields (s : State) : Moves s (initFields s) :=
  moves_st rfl rfl (List.prefix_refl _) id (Nat.le_refl _) (fun _ => ⟨List.Pairwise.nil, fun _ h => by cases h⟩)
    (List.length_map _) rfl id

theorem moves_initDone (s : State) : Moves s
    { s with st := { s.st with inited := true, fatal := false }, ctl := { s.ctl with kept := [] } } :=
  ⟨rfl, rfl, rfl, rfl, List.prefix_refl _, id, id, id, id, id, id, id⟩

theorem moves_initRegs (s : State) : Moves s (initRegs s) := by
  unfold initRegs
  simp only
  have m1 := moves_regWrite .RINTSTS 0xFFFFFFFF#32 s
  have m2 : Moves s (if s.cfg.dmaPresent then regWrite .IDSTS 0x337#32 (regWrite .RINTSTS 0xFFFFFFFF#32 s)
      else regWrite .RINTSTS 0xFFFFFFFF#32 s) := by
    split
    · exact m1.trans (moves_regWrite _ _ _)
    · exact m1
  have hif : ∀ (b : Bool) (x y z : Word) (t : State),
      Moves t (if b then regWrite .IDINTEN x (regWrite .DBADDR y t) else t) := by
    intro b x y z t
    split
    · exact (moves_regWrite _ _ _).trans (moves_regWrite _ _ _)
    · exact Moves.refl _
  refine Moves.trans ?_ (moves_initDone _)
  refine Moves.trans ?_ (moves_regSet _ _ _)
  refine Moves.trans ?_ (hif _ _ _ 0 _)
  refine Moves.trans ?_ (moves_regWrite _ _ _)
  refine Moves.trans ?_ (moves_regWrite _ _ _)
  refine Moves.trans ?_ (moves_regWrite _ _ _)
  refine Moves.trans ?_ (moves_baseMask _ _)
  refine Moves.trans ?_ (moves_regWrite _ _ _)
  refine Moves.trans ?_ (moves_regWrite _ _ _)
  refine Moves.trans ?_ (moves_regWrite _ _ _)
  refine Moves.trans ?_ (moves_regWrite _ _ _)
  refine Moves.trans ?_ (moves_regWrite _ _ _)
  exact m2.trans (moves_initFields _)

theorem moves_runEntry (e : CtlEntry) (s : State) : Moves s (runEntry e s) := by
  unfold runEntry
  split
  · exact moves_runAck _ _ _
  · split
    · exact moves_push _ _
    · exact moves_deliver _ _
  · exact moves_push _ _
  · exact moves_tuneStart _ _ _ _ _ _
  · exact moves_push _ _

theorem moves_runCtl (s : State) : Moves s (runCtl s) := by
  unfold runCtl
  split
  · exact (moves_ctlq _ _).trans (moves_runEntry _ _)
  · split
    · split
      · exact Moves.refl _
      · exact (moves_ctlq _ _).trans (moves_runEntry _ _)
    · exact Moves.refl _

/-! ### Events and settle firings -/

theorem moves_onCmdDone (p : Word) (s : State) : Moves s (onCmdDone p s) := by
  unfold onCmdDone
  split
  · exact Moves.refl _
  · rename_i a ha
    split
    · exact moves_active _ _ _ ha
    · unfold stopDone
      simp only
      split
      · exact Moves.trans (moves_active _ _ _ ha) (moves_push _ _)
      · exact moves_active _ _ _ ha
    · exact Moves.refl _
    · exact Moves.refl _

theorem moves_onDataErr (p : Word) (s : State) : Moves s (onDataErr p s) := by
  unfold onDataErr
  split
  · exact Moves.refl _
  · rename_i a ha
    split
    · exact Moves.trans (moves_active _ _ _ ha) (moves_quiesceData _)
    · exact Moves.refl _

theorem moves_onRxReady {s s' : State} (h : onRxReady s = .ok s') : Moves s s' := by
  unfold onRxReady at h
  split at h
  · exact moves_pioPull h
  · cases h; exact Moves.refl _

theorem moves_onTxReady {s s' : State} (h : onTxReady s = .ok s') : Moves s s' := by
  unfold onTxReady at h
  split at h
  · exact moves_pioPush h
  · cases h; exact Moves.refl _

theorem activeKept_storeBytes : ∀ (bs : List Byte) (s s' : State), storeBytes bs s = .ok s' →
    s'.st.active = s.st.active := by
  intro bs
  induction bs with
  | nil => intro s s' h; cases h; rfl
  | cons b rest ih =>
    intro s s' h
    obtain ⟨s1, h1, h2⟩ := except_bind_ok h
    rw [ih _ _ h2]
    unfold storeByte at h1
    split at h1
    · split at h1
      · cases h1; rfl
      · cases h1
    · split at h1
      · cases h1
      · obtain ⟨t, g1, g2⟩ := except_map_ok h1
        rw [← g2, guardedStore_frame g1]
        rfl

theorem activeKept_pullWords : ∀ (n m : Nat) (s : State) (k : Nat) (s' : State),
    pullWords n m s = .ok (k, s') → s'.st.active = s.st.active := by
  intro n
  induction n with
  | zero => intro m s k s' h; cases h; rfl
  | succ n ih =>
    intro m s k s' h
    obtain ⟨⟨w, s1⟩, h1, h2⟩ := except_bind_ok h
    obtain ⟨s2, h3, h4⟩ := except_bind_ok h2
    rw [ih _ _ _ _ h4]
    have e1 : s1.st.active = s.st.active := by
      unfold dataRead at h1
      split at h1
      · cases h1
      · split at h1
        · cases h1
        · cases h1; rfl
    exact (activeKept_storeBytes _ _ _ h3).trans e1

theorem drainRead_active {s s' : State} (h : drainRead s = .ok s') : s'.st.active = s.st.active := by
  unfold drainRead at h
  split at h
  · obtain ⟨⟨m, s1⟩, h1, h2⟩ := except_bind_ok h
    simp only at h2
    split at h2
    · cases h2
    · cases h2
      show s1.st.active = s.st.active
      exact activeKept_pullWords _ _ _ _ _ h1
  · cases h; rfl

theorem moves_drainRead {s s' : State} (h : drainRead s = .ok s') : Moves s s' := by
  unfold drainRead at h
  split at h
  · exact moves_pioPull h
  · cases h; exact Moves.refl _

theorem moves_onDataOver {s s' : State} (h : onDataOver s = .ok s') : Moves s s' := by
  unfold onDataOver at h
  split at h
  · cases h; exact Moves.refl _
  · rename_i a ha
    split at h
    · obtain ⟨s1, h1, h2⟩ := except_bind_ok h
      cases h2
      have hn : s1.st.active ≠ none := by rw [drainRead_active h1, ha]; simp
      split
      · refine ((moves_drainRead h1).trans (moves_regWrite _ _ _)).trans (moves_setDst _ ?_)
        rw [regWrite_st]; exact hn
      · exact (moves_drainRead h1).trans (moves_setDst _ hn)
    · cases h; exact Moves.refl _

theorem moves_onDmaDone (s : State) : Moves s (onDmaDone s) := by
  unfold onDmaDone
  split
  · exact moves_modActive _ _
  · exact Moves.refl _

theorem moves_onWatchdog (p : Word) (s : State) : Moves s (onWatchdog p s) := by
  unfold onWatchdog
  split
  · exact Moves.refl _
  · rename_i a ha
    split
    · exact moves_active _ _ _ ha
    · exact Moves.refl _

theorem moves_sdioNotify (i : Nat) (s : State) : Moves s (sdioNotify i s) := by
  unfold sdioNotify
  simp only
  exact (((moves_modSlot _ _ _).trans (moves_baseMask _ _)).trans (moves_regClr _ _ _)).trans (moves_deliver _ _)

theorem moves_onSdioIrq (p : Word) : ∀ (l : List Nat) (s : State), Moves s (onSdioIrq p l s) := by
  intro l
  induction l with
  | nil => intro s; exact Moves.refl _
  | cons i rest ih =>
    intro s
    unfold onSdioIrq
    refine Moves.trans ?_ (ih _)
    split
    · exact moves_sdioNotify _ _
    · exact Moves.refl _

theorem ofExcept_next {x : Except Fault State} {s : State} (h : Res.ofExcept x = .next s) : x = .ok s := by
  cases x with
  | ok t => cases h; rfl
  | error e => cases h

theorem moves_applyEvent {e : Word} {s s' : State} (h : applyEvent e s = .next s') : Moves s s' := by
  unfold applyEvent at h
  split at h
  · cases h; exact moves_onCmdDone _ _
  · cases h; exact moves_onDataErr _ _
  · exact moves_onRxReady (ofExcept_next h)
  · exact moves_onTxReady (ofExcept_next h)
  · exact moves_onDataOver (ofExcept_next h)
  · cases h; exact moves_onDmaDone _
  · cases h; exact moves_push _ _
  · cases h; exact moves_onSdioIrq _ _ _
  · cases h; exact moves_onWatchdog _ _
  · cases h

theorem moves_wdEnd (s : State) : Moves s (wdEnd s) := by
  unfold wdEnd
  split
  · exact Moves.refl _
  · exact moves_active _ _ _ ‹_›

theorem moves_dataBusyEnd (s : State) : Moves s (dataBusyEnd s) := by
  unfold dataBusyEnd
  split
  · exact Moves.refl _
  · split
    · exact Moves.trans (moves_active _ _ _ ‹_›) (moves_setRet .ok _)
    · exact moves_active _ _ _ ‹_›

theorem moves_dataEnd (s : State) : Moves s (dataEnd s) := by
  unfold dataEnd
  split
  · exact Moves.refl _
  · exact moves_active _ _ _ ‹_›

theorem moves_cmdBusyEnd (s : State) : Moves s (cmdBusyEnd s) := by
  unfold cmdBusyEnd
  split
  · exact Moves.refl _
  · split
    · exact Moves.trans (moves_active _ _ _ ‹_›) (moves_setRet .ok _)
    · exact moves_active _ _ _ ‹_›

theorem moves_stopBusyEnd (s : State) : Moves s (stopBusyEnd s) := by
  unfold stopBusyEnd
  split
  · exact Moves.refl _
  · split
    · exact Moves.trans (moves_active _ _ _ ‹_›) (moves_setRet .ok _)
    · exact moves_active _ _ _ ‹_›

theorem moves_recovered (s : State) : Moves s (recovered s) := by
  unfold recovered
  split
  · exact Moves.refl _
  · exact moves_active _ _ _ ‹_›

theorem moves_settleFire (r : SettleRule) (s : State) : Moves s (settleFire r s) := by
  cases r
  case fatal =>
    simp only [settleFire, fatalFlush]
    split
    · exact moves_push _ _
    · exact moves_flushRest _
  case wdData => exact moves_quiesceData _
  case wdCmd => exact moves_push _ _
  case cmdAbort => exact moves_quiesceData _
  case dataBusy =>
    simp only [settleFire, dataBusyBegin]
    split
    · exact Moves.refl _
    · split
      · exact moves_push _ _
      · exact moves_dataBusyEnd _
  case dataDone =>
    simp only [settleFire, dataDoneBegin]
    split
    · exact moves_push _ _
    · exact moves_dataEnd _
  case cmdBusy => exact moves_push _ _
  case issueStop => exact (moves_modActive _ _).trans (moves_push _ _)
  case stopBusy => exact moves_push _ _
  case recover =>
    simp only [settleFire, recoverBegin]
    split
    · exact moves_push _ _
    · exact (moves_push _ _).trans (moves_push _ _)
  case complete => exact moves_completeActive _

/-! ### The DPU's work as a whole -/

theorem moves_tuneStep {s s' : State} (h : tuneStep s = .ok s') : Moves s s' := by
  unfold tuneStep at h
  split at h
  · split at h
    · cases h; exact Moves.refl _
    · split at h
      · exact ((moves_setPhase _ _ _ _).trans (moves_tctx _ _)).trans (moves_dispatchBegin h)
      · cases h; exact moves_tuneSelect _
  · cases h; exact Moves.refl _

/-- Every piece of the DPU's work. -/
theorem moves_perform {w : Work} {s s' : State} (h : perform w s = .next s') : Moves s s' := by
  cases w
  case dispatchNext => exact moves_dispatchNext (ofExcept_next h)
  case dispatch r => exact moves_dispatchBegin (ofExcept_next h)
  case tuneStep => exact moves_tuneStep (ofExcept_next h)
  case event e => exact moves_applyEvent h
  case halt => cases h; exact Moves.refl _
  case dpuLoop => cases h; exact Moves.refl _
  case settleLoop => cases h; exact Moves.refl _
  case poll c t e => cases h; exact Moves.refl _
  case await c e => cases h; exact moves_push _ _
  case dmaOff => cases h; exact moves_dmaOff _
  case dmaRelease => cases h; exact moves_dmaRelease _
  case assertDmaReset => cases h; exact moves_assertDmaReset _
  case assertReset m => cases h; exact moves_regSet _ _ _
  case clearPartBuf => cases h; exact moves_clearPartBuf _
  case busyAgain => cases h; exact moves_busyAgain _
  case writeUpdateClock sl => cases h; exact moves_regWrite _ _ _
  case writeStop => cases h; exact moves_writeStop _
  case writeCommand => cases h; exact moves_writeCommand _
  case toDRecovery => cases h; exact moves_toDRecovery _
  case wdEnd => cases h; exact moves_wdEnd _
  case dataBusyEnd => cases h; exact moves_dataBusyEnd _
  case dataEnd => cases h; exact moves_dataEnd _
  case cmdBusyEnd => cases h; exact moves_cmdBusyEnd _
  case stopBusyEnd => cases h; exact moves_stopBusyEnd _
  case recoverEnd => cases h; exact moves_recoverEnd _
  case recovered => cases h; exact moves_recovered _
  case flushRest => cases h; exact moves_flushRest _
  case cardScan => cases h; exact moves_push _ _
  case scan cd todo => cases h; exact moves_scanStep _ _ _
  case cancelActive => cases h; exact moves_cancelActive _
  case removed i => cases h; exact moves_removalEnd _ _
  case runCtl => cases h; exact moves_runCtl _
  case setTiming sl m w => cases h; exact moves_setTiming _ _ _ _
  case clkGate sl on => cases h; exact moves_clkGate _ _ _
  case clkSetDiv d => cases h; exact moves_regWrite _ _ _
  case clkStopped => cases h; exact moves_clkStopped _
  case clkDone d => cases h; exact moves_clkDone _ _
  case initRegs => cases h; exact moves_initRegs _
  case ctlEnd tag sl p => cases h; exact moves_deliver _ _

theorem moves_fatal (s : State) : Moves s { s with st := { s.st with fatal := true } } :=
  moves_st rfl rfl (List.prefix_refl _) id (Nat.le_refl _) id rfl rfl id

/-- From one state, what the DPU's work reaches. -/
theorem workKeeps_moves (s0 : State) : DpuKeeps (Moves s0) where
  blind  := fun s c h => h.trans (moves_ctl s c)
  fatal  := fun s h => h.trans (moves_fatal s)
  work   := fun _ _ _ h hp => h.trans (moves_perform hp)
  settle := fun r s h => h.trans (moves_settleFire r s)
  sched  := fun _ _ h => h.trans (moves_st rfl rfl (List.prefix_refl _) id (Nat.le_refl _) id rfl rfl id)
  evq    := fun _ _ _ he h => h.trans (moves_st rfl rfl (List.prefix_refl _) id (Nat.le_refl _)
    (fun hl => ⟨(List.pairwise_cons.1 (he ▸ hl.1)).2, fun x hx => hl.2 x (he ▸ List.mem_cons_of_mem _ hx)⟩) rfl rfl id)

/-- `drive` from one state to another. -/
theorem moves_drive {n : Nat} {s s' : State} (h : drive n s = .next s') : Moves s s' :=
  (workKeeps_moves s).drive n s s' (Moves.refl s) h

/-- A micro-operation a trace names. -/
theorem moves_runProg {ws : List Work} {s s' : State} (h : runProg ws s = .next s') : Moves s s' :=
  (workKeeps_moves s).runProg (Moves.refl s) h

/-- A step of the DPU. -/
theorem moves_dpuStep {s s' : State} (h : dpuStep s = .next s') : Moves s s' :=
  (workKeeps_moves s).dpuStep (Moves.refl s) h

end Sys2Proof.Machine
end

