-- ==== Sys2Proof/Laws/Run.lean ====
section
/-! SUPPORT. How a micro-operation's list of work runs, from the head of the list alone, and closed forms of the shared
operations: dispatch's first part, DMA_PREPARE's frame, the DMA engine started and stopped; and which work cannot stop the
machine. -/

namespace Sys2Proof.Machine

/-! ### One piece of work, by the head of the list -/

theorem drive_done {n : Nat} {s : State} {ws : List Work} (h : s.ctl.dpu = .halt :: ws) :
    drive (n + 1) s = .next (setDpu ws s) := by
  conv => lhs; rw [← setDpu_self s, h]
  exact drive_halt n ws s

theorem drive_do {n : Nat} {s : State} {w : Work} {ws : List Work} (h : s.ctl.dpu = w :: ws) (hw : w.plain = true)
    (hr : s.ctl.ret = .ok ∨ w.handles = true) :
    drive (n + 1) s = Res.andThen (perform w (setDpu ws s)) (drive n) := by
  conv => lhs; rw [← setDpu_self s, h]
  exact drive_work n w ws s hw hr

theorem drive_pass {n : Nat} {s : State} {w : Work} {ws : List Work} (h : s.ctl.dpu = w :: ws) (hw : w.plain = true)
    (hr : s.ctl.ret ≠ .ok) (hh : w.handles = false) : drive (n + 1) s = drive n (setDpu ws s) := by
  conv => lhs; rw [← setDpu_self s, h]
  exact drive_skip n w ws s hw hr hh

theorem drive_met {n : Nat} {s : State} {c : PollCond} {e : PollEnd} {ws : List Work} (h : s.ctl.dpu = .await c e :: ws)
    (hr : s.ctl.ret = .ok) (hy : s.ctl.yields = false) (ht : 0 < ticks s.cfg (pollTimeout c s.cfg))
    (hc : pollHolds c s = true) : drive (n + 2) s = drive n (setDpu ws s) := by
  conv => lhs; rw [← setDpu_self s, h]
  exact drive_await_ok n c e ws s hr hy ht hc

theorem drive_waits {n : Nat} {s : State} {c : PollCond} {e : PollEnd} {ws : List Work} (h : s.ctl.dpu = .await c e :: ws)
    (hr : s.ctl.ret = .ok) (hy : s.ctl.yields = false) (ht : 0 < ticks s.cfg (pollTimeout c s.cfg))
    (hc : pollHolds c s = false) :
    drive (n + 2) s = .next (setDpu (.poll c (s.st.now + ticks s.cfg (pollTimeout c s.cfg)) e :: ws) s) := by
  conv => lhs; rw [← setDpu_self s, h]
  exact drive_await_wait n c e ws s hr hy ht hc

/-- A step of the DPU at a poll whose condition has come to hold. -/
theorem dpuStep_met {s : State} {c : PollCond} {t : Nat} {e : PollEnd} {ws : List Work}
    (h : s.ctl.dpu = .poll c t e :: ws) (hy : s.ctl.yields = false) (ht : s.st.now < t) (hc : pollHolds c s = true) :
    dpuStep s = drive driveBound (setDpu ws s) := by
  conv => lhs; rw [← setDpu_self s, h]
  exact dpuStep_poll_ok c t e ws s hy ht hc

/-- A poll at its deadline expires, whatever its condition (R47). -/
theorem dpuStep_expired {s : State} {c : PollCond} {t : Nat} {e : PollEnd} {ws : List Work}
    (h : s.ctl.dpu = .poll c t e :: ws) (hy : s.ctl.yields = false) (ht : t ≤ s.st.now) :
    dpuStep s = drive driveBound (pollExpire e (setDpu ws s)) := by
  have : ¬ s.st.now < t := by omega
  simp [dpuStep, h, pollOnce, this, hy]

/-! ### A micro-operation by its first piece of work

`drive` with a literal bound unfolds under `simp`; rewrite with these instead. -/

theorem state_ext {a b : State} (cfg : a.cfg = b.cfg) (regs : a.regs = b.regs) (st : a.st = b.st) (env : a.env = b.env)
    (mem : a.mem = b.mem) (ctl : a.ctl = b.ctl) : a = b := by
  cases a; cases b; simp_all

theorem runProg_first (w : Work) (ws : List Work) (s : State) (hw : w.plain = true) :
    runProg (w :: ws) s = Res.andThen (perform w (setDpu (ws ++ .halt :: s.ctl.dpu) (setRet .ok s))) (drive 511) := by
  rw [runProg_eq]
  exact drive_work 511 w _ _ hw (.inl rfl)

/-- A micro-operation of one piece of work that leaves none. -/
theorem runProg_only {w : Work} {s t : State} (hw : w.plain = true)
    (h : perform w (setDpu (.halt :: s.ctl.dpu) (setRet .ok s)) = .next t) (ht : t.ctl.dpu = .halt :: s.ctl.dpu) :
    runProg [w] s = .next (setDpu s.ctl.dpu t) := by
  rw [runProg_first w [] s hw, List.nil_append, h, andThen_next]
  exact drive_done (n := 510) ht

theorem except_ok_bind {α β : Type} (a : α) (f : α → Except Fault β) : (Except.ok a >>= f) = f a := rfl

theorem dispatchBegin_eq (r : Request) (s : State) (ha : s.st.active = none) (hs : r.slot.toNat < s.cfg.nslots) :
    dispatchBegin r s = (dispatchPath r (dispatchArm r s) >>= fun s2 =>
      .ok (push [.await .startClear .fatal, .writeCommand] s2)) := by
  unfold dispatchBegin
  rw [ha, if_neg (by decide), if_neg (by omega)]

theorem dispatchPath_none (r : Request) (s : State) (h : r.data = none) : dispatchPath r s = .ok s := by
  unfold dispatchPath; rw [h]

theorem dispatchPath_some (r : Request) (s : State) (d : DataSpec) (h : r.data = some d) :
    dispatchPath r s = dispatchData r d s := by
  unfold dispatchPath; rw [h]

/-- A slot of a list of slots after one is changed. -/
theorem getD_modify (l : List Slot) (i j : Nat) (f : Slot → Slot) (h : i < l.length) :
    (l.modify i f).getD j Slot.reset = if j = i then f (l.getD i Slot.reset) else l.getD j Slot.reset := by
  simp only [List.getD_eq_getElem?_getD, List.getElem?_modify]
  split
  · rename_i hj; subst hj; simp [h]
  · rename_i hj
    have : ¬ j = i := fun e => hj e.symm
    simp [this]

/-! ### DMA_PREPARE looks at memory, the parameters and the arena's owner only -/

/-- A state with other registers, engine state and bookkeeping. -/
def reframe (r : Regs) (e : Engine) (c : Control) (s : State) : State := { s with regs := r, st := e, ctl := c }

theorem guardedStore_reframe (r : Regs) (e : Engine) (c : Control) (s : State) (a n v : Nat)
    (h : e.dmac.owner = s.st.dmac.owner) :
    guardedStore (reframe r e c s) a n v = (guardedStore s a n v).map (reframe r e c) := by
  have ha : inOwnedArena (reframe r e c s) a n = inOwnedArena s a n := by
    simp only [inOwnedArena, show (reframe r e c s).cfg = s.cfg from rfl,
      show (reframe r e c s).st.dmac.owner = s.st.dmac.owner from h]
  unfold guardedStore
  rw [ha]
  split
  · rfl
  · simp only [memStore, show (reframe r e c s).cfg = s.cfg from rfl, show (reframe r e c s).mem = s.mem from rfl]
    cases mappedRange s.cfg a n <;> rfl

theorem writeDesc_reframe (r : Regs) (e : Engine) (c : Control) (s : State) (j k : Nat) (ch : Nat × Nat)
    (h : e.dmac.owner = s.st.dmac.owner) :
    writeDesc j k ch (reframe r e c s) = (writeDesc j k ch s).map (reframe r e c) := by
  unfold writeDesc
  rw [show (reframe r e c s).cfg = s.cfg from rfl, guardedStore_reframe _ _ _ _ _ _ _ h]
  cases h1 : guardedStore s (descAddr s.cfg j + 4) 4 ch.2 with
  | error x => rfl
  | ok s1 =>
    have f1 := guardedStore_frame h1
    simp only [Except.map, except_ok_bind]
    rw [guardedStore_reframe _ _ _ _ _ _ _ (by rw [f1]; exact h)]
    cases h2 : guardedStore s1 (descAddr s.cfg j + 8) 4 ch.1 with
    | error x => rfl
    | ok s2 =>
      have f2 := guardedStore_frame h2
      simp only [Except.map, except_ok_bind]
      rw [guardedStore_reframe _ _ _ _ _ _ _ (by rw [f2, f1]; exact h)]
      cases h3 : guardedStore s2 (descAddr s.cfg j + 12) 4 (des3 s.cfg j k) with
      | error x => rfl
      | ok s3 =>
        have f3 := guardedStore_frame h3
        simp only [Except.map, except_ok_bind]
        rw [guardedStore_reframe _ _ _ _ _ _ _ (by rw [f3, f2, f1]; exact h)]
        rfl

theorem writeChain_reframe (r : Regs) (e : Engine) (c : Control) (k : Nat) : ∀ (chs : List (Nat × Nat)) (j : Nat)
    (s : State), e.dmac.owner = s.st.dmac.owner →
    writeChain k j chs (reframe r e c s) = (writeChain k j chs s).map (reframe r e c) := by
  intro chs
  induction chs with
  | nil => intro j s h; rfl
  | cons ch rest ih =>
    intro j s h
    unfold writeChain
    rw [writeDesc_reframe _ _ _ _ _ _ _ h]
    cases h1 : writeDesc j k ch s with
    | error x => rfl
    | ok s1 =>
      have f1 : s1.st = s.st := by
        unfold writeDesc at h1
        obtain ⟨t1, g1, h1⟩ := except_bind_ok h1
        obtain ⟨t2, g2, h1⟩ := except_bind_ok h1
        obtain ⟨t3, g3, h1⟩ := except_bind_ok h1
        rw [guardedStore_frame h1, guardedStore_frame g3, guardedStore_frame g2, guardedStore_frame g1]
      simp only [Except.map, except_ok_bind]
      rw [ih _ _ (by rw [f1]; exact h)]
      rfl

/-- What DMA_PREPARE answers does not depend on the registers, nor on the engine's state but for the arena's owner. -/
theorem prepare_reframe (r : Regs) (e : Engine) (c : Control) (sg : List Seg) (s : State)
    (h : e.dmac.owner = s.st.dmac.owner) :
    prepare sg (reframe r e c s) = (prepare sg s).map fun x =>
      (x.1, reframe r { e with chain := if x.1 = .ok then x.2.st.chain else e.chain } c x.2) := by
  unfold prepare
  rw [show (reframe r e c s).cfg = s.cfg from rfl, show (reframe r e c s).st.dmac.owner = s.st.dmac.owner from h]
  split
  · rfl
  · split
    · rfl
    · show (writeChain _ _ _ _ >>= _) = Except.map _ (writeChain _ _ _ _ >>= _)
      rw [writeChain_reframe _ _ _ _ _ _ _ h]
      cases writeChain (chunks s.cfg.descMaxLen sg).length 0 (chunks s.cfg.descMaxLen sg) s <;> rfl

/-! ### The PIO controller does not look at the bookkeeping -/

/-- A state with other bookkeeping. -/
def withCtl (c : Control) (s : State) : State := { s with ctl := c }

theorem guardedStore_withCtl (c : Control) (s : State) (a n v : Nat) :
    guardedStore (withCtl c s) a n v = (guardedStore s a n v).map (withCtl c) := by
  have h := guardedStore_reframe s.regs s.st c s a n v rfl
  have e : reframe s.regs s.st c s = withCtl c s := rfl
  rw [e] at h
  rw [h]
  cases hs : guardedStore s a n v with
  | error x => rfl
  | ok s' => rw [guardedStore_frame hs]; rfl

theorem storeByte_withCtl (c : Control) (b : Byte) (s : State) :
    storeByte b (withCtl c s) = (storeByte b s).map (withCtl c) := by
  unfold storeByte
  rw [show onTuneBuffer (withCtl c s) = onTuneBuffer s from rfl, show activeSg (withCtl c s) = activeSg s from rfl,
    show (withCtl c s).st = s.st from rfl]
  split
  · split <;> rfl
  · split
    · rfl
    · rw [guardedStore_withCtl]
      cases guardedStore s _ _ _ <;> rfl

theorem storeBytes_withCtl (c : Control) : ∀ (bs : List Byte) (s : State),
    storeBytes bs (withCtl c s) = (storeBytes bs s).map (withCtl c) := by
  intro bs
  induction bs with
  | nil => intro s; rfl
  | cons b rest ih =>
    intro s
    show (storeByte b (withCtl c s) >>= _) = Except.map _ (storeByte b s >>= _)
    rw [storeByte_withCtl]
    cases storeByte b s with
    | error e => rfl
    | ok s1 => exact ih s1

theorem loadByte_withCtl (c : Control) (s : State) :
    loadByte (withCtl c s) = (loadByte s).map fun x => (x.1, withCtl c x.2) := by
  unfold loadByte
  rw [show onTuneBuffer (withCtl c s) = onTuneBuffer s from rfl, show activeSg (withCtl c s) = activeSg s from rfl,
    show (withCtl c s).st = s.st from rfl]
  split
  · split <;> rfl
  · split
    · rfl
    · rw [show ∀ a, memLoad (withCtl c s) a 1 = memLoad s a 1 from fun _ => rfl]
      split <;> rfl

theorem loadBytes_withCtl (c : Control) : ∀ (n : Nat) (s : State),
    loadBytes n (withCtl c s) = (loadBytes n s).map fun x => (x.1, withCtl c x.2) := by
  intro n
  induction n with
  | zero => intro s; rfl
  | succ n ih =>
    intro s
    show (loadByte (withCtl c s) >>= _) = Except.map _ (loadByte s >>= _)
    rw [loadByte_withCtl]
    cases loadByte s with
    | error e => rfl
    | ok x =>
      show (loadBytes n (withCtl c x.2) >>= _) = Except.map _ (loadBytes n x.2 >>= _)
      rw [ih]
      cases loadBytes n x.2 <;> rfl

theorem dataRead_withCtl (c : Control) (s : State) :
    dataRead (withCtl c s) = (dataRead s).map fun x => (x.1, withCtl c x.2) := by
  unfold dataRead
  rw [show (withCtl c s).st = s.st from rfl, show (withCtl c s).regs = s.regs from rfl]
  split
  · rfl
  · split <;> rfl

theorem dataWrite_withCtl (c : Control) (w : Beat) (s : State) :
    dataWrite w (withCtl c s) = (dataWrite w s).map (withCtl c) := by
  unfold dataWrite
  rw [show (withCtl c s).st = s.st from rfl, show (withCtl c s).regs = s.regs from rfl,
    show (withCtl c s).cfg = s.cfg from rfl]
  split
  · rfl
  · split <;> rfl

theorem pullWords_withCtl (c : Control) : ∀ (n m : Nat) (s : State),
    pullWords n m (withCtl c s) = (pullWords n m s).map fun x => (x.1, withCtl c x.2) := by
  intro n
  induction n with
  | zero => intro m s; rfl
  | succ n ih =>
    intro m s
    show (dataRead (withCtl c s) >>= _) = Except.map _ (dataRead s >>= _)
    rw [dataRead_withCtl]
    cases dataRead s with
    | error e => rfl
    | ok x =>
      show (storeBytes ((beatBytes s.cfg.w x.1).take (wordShare s)) (withCtl c x.2) >>= _)
        = Except.map _ (storeBytes ((beatBytes s.cfg.w x.1).take (wordShare s)) x.2 >>= _)
      rw [storeBytes_withCtl]
      cases storeBytes ((beatBytes s.cfg.w x.1).take (wordShare s)) x.2 with
      | error e => rfl
      | ok s2 => exact ih _ (takeRemaining (wordShare s) s2)

theorem pushWords_withCtl (c : Control) : ∀ (n m : Nat) (s : State),
    pushWords n m (withCtl c s) = (pushWords n m s).map fun x => (x.1, withCtl c x.2) := by
  intro n
  induction n with
  | zero => intro m s; rfl
  | succ n ih =>
    intro m s
    show (loadBytes (wordShare s) (withCtl c s) >>= _) = Except.map _ (loadBytes (wordShare s) s >>= _)
    rw [loadBytes_withCtl]
    cases loadBytes (wordShare s) s with
    | error e => rfl
    | ok x =>
      show (dataWrite (beatOf x.1) (withCtl c x.2) >>= _) = Except.map _ (dataWrite (beatOf x.1) x.2 >>= _)
      rw [dataWrite_withCtl]
      cases dataWrite (beatOf x.1) x.2 with
      | error e => rfl
      | ok s2 => exact ih _ (takeRemaining (wordShare s) s2)

/-- PIO_PULL leaves the count it moved as its answer, the rest of the bookkeeping as it was. -/
theorem pioPull_withCtl (drain : Bool) (c : Control) (s : State) :
    pioPull drain (withCtl c s) = (pioPull drain s).map fun t => withCtl { c with retCount := t.ctl.retCount } t := by
  show (pullWords (pullCount s) 0 (withCtl c s) >>= _) = Except.map _ (pullWords (pullCount s) 0 s >>= _)
  rw [pullWords_withCtl]
  cases pullWords (pullCount s) 0 s with
  | error e => rfl
  | ok x =>
    show (if (drain && decide (x.2.st.pio.remaining ≠ 0) && !hasDataErr x.2) = true then _ else _)
      = Except.map _ (if (drain && decide (x.2.st.pio.remaining ≠ 0) && !hasDataErr x.2) = true then _ else _)
    split <;> rfl

/-- PIO_PUSH likewise. -/
theorem pioPush_withCtl (c : Control) (s : State) :
    pioPush (withCtl c s) = (pioPush s).map fun t => withCtl { c with retCount := t.ctl.retCount } t := by
  show (pushWords (pushCount s) 0 (withCtl c s) >>= _) = Except.map _ (pushWords (pushCount s) 0 s >>= _)
  rw [pushWords_withCtl]
  cases pushWords (pushCount s) 0 s with
  | error e => rfl
  | ok x =>
    show Except.ok (setCount x.1 (txFinish (withCtl c x.2))) = Except.ok _
    congr 1
    unfold txFinish
    rw [show (withCtl c x.2).st = x.2.st from rfl]
    split
    · rfl
    · split <;> rfl

/-! ### Timeouts are at least one tick -/

theorem ticks_pos {c : Config} {ms : Nat} (h : 0 < ms) (ht : 0 < c.tickUs) : 0 < ticks c ms := by
  unfold ticks
  apply Nat.div_pos _ ht
  omega

theorem pollTimeout_pos {c : Config} (h : c.Valid) (p : PollCond) : 0 < ticks c (pollTimeout p c) := by
  obtain ⟨-, -, -, -, -, -, -, -, -, -, -, -, -, -, -, -, -, -, -, -, -, h1, h2, h3, h4, -, h5, -⟩ := h
  apply ticks_pos _ h5
  cases p <;> assumption

/-! ### Register values within a mask -/

theorem and_of_masked {v m k : Word} (h : v &&& m = 0#32) (hk : ~~~m &&& ~~~k = 0#32) : v &&& k = v := by
  apply BitVec.eq_of_getLsbD_eq
  intro i hi
  have h1 : (v &&& m).getLsbD i = (0#32).getLsbD i := by rw [h]
  have h2 : (~~~m &&& ~~~k).getLsbD i = (0#32).getLsbD i := by rw [hk]
  simp only [BitVec.getLsbD_and, BitVec.getLsbD_not, BitVec.getLsbD_zero, Bool.and_eq_false_iff, hi, decide_true,
    Bool.true_and, Bool.not_eq_false'] at *
  rcases h2 with h2 | h2
  · rcases h1 with h1 | h1
    · simp [h1]
    · rw [h1] at h2; cases h2
  · simp [h2]

/-- A register whose written bits are `a`, whose sticky bits are `b`, takes a value within both as it is. -/
theorem sticky_write {old v a b : Word} (h : v &&& ~~~(a ||| b) = 0#32) (ho : old &&& b &&& ~~~v = 0#32) :
    (v &&& a) ||| ((old ||| v) &&& b) = v := by
  apply BitVec.eq_of_getLsbD_eq
  intro i hi
  have h1 : (v &&& ~~~(a ||| b)).getLsbD i = (0#32).getLsbD i := by rw [h]
  have h2 : (old &&& b &&& ~~~v).getLsbD i = (0#32).getLsbD i := by rw [ho]
  simp only [BitVec.getLsbD_and, BitVec.getLsbD_or, BitVec.getLsbD_not, BitVec.getLsbD_zero, hi, decide_true,
    Bool.true_and] at *
  revert h1 h2
  cases v.getLsbD i <;> cases a.getLsbD i <;> cases b.getLsbD i <;> cases old.getLsbD i <;> simp

/-! ### Work that cannot stop

Only a dispatch and a PIO transfer meet a model fault inside the DPU's work (R157, R520, R604). A micro-operation of
other work answers a next state whatever the state is. -/

/-- A piece of work that meets no model fault, and leaves no other kind behind. -/
def Work.calm : Work → Bool
  | .halt | .dpuLoop | .settleLoop | .dispatchNext | .dispatch _ | .event _ | .runCtl | .tuneStep => false
  | _ => true

/-- `t` has at most calm work before the work of `s`. -/
def Grows (s t : State) : Prop := ∃ ws, t.ctl.dpu = ws ++ s.ctl.dpu ∧ ∀ w ∈ ws, w.calm = true

theorem Grows.of_eq {s t : State} (h : t.ctl.dpu = s.ctl.dpu) : Grows s t := ⟨[], h, by simp⟩

theorem Grows.push {s t : State} (ws : List Work) (hw : ∀ w ∈ ws, w.calm = true) (h : t.ctl.dpu = s.ctl.dpu) :
    Grows s (push ws t) := ⟨ws, by simp [h], hw⟩

theorem calm_one {w : Work} (h : w.calm = true) : ∀ v ∈ [w], v.calm = true := by
  intro v hv
  cases List.mem_singleton.mp hv
  exact h

theorem cardInserted_dpu (i : Nat) (s : State) : (cardInserted i s).ctl.dpu = s.ctl.dpu := by
  unfold cardInserted
  simp [regClr]

theorem tuneFinish_dpu (c : Code) (s : State) : (tuneFinish c s).ctl.dpu = s.ctl.dpu := by
  unfold tuneFinish
  split
  · rfl
  · split <;> rfl

theorem completeActive_dpu (s : State) : (completeActive s).ctl.dpu = s.ctl.dpu := by
  unfold completeActive
  split
  · rfl
  · split
    · rw [deliver_ctl]; unfold keepBuffers; split <;> rfl
    · unfold tuneResult
      split
      · rfl
      · split
        · rw [tuneFinish_dpu]; rfl
        · rfl

theorem flushRest_dpu (s : State) : (flushRest s).ctl.dpu = s.ctl.dpu := by
  show (if _ then _ else _ : State).ctl.dpu = _
  split
  · rw [tuneFinish_dpu, completeActive_dpu]; rfl
  · rw [completeActive_dpu]; rfl

theorem cardRemoved_grows (i : Nat) (rest : List Work) (hr : ∀ w ∈ rest, w.calm = true) (s : State) :
    Grows s (cardRemoved i rest s) := by
  unfold cardRemoved
  simp only
  split
  · refine .push _ ?_ (by split <;> simp)
    intro w hw
    simp only [List.mem_append] at hw
    rcases hw with ((hw | hw) | hw) | hw
    · split at hw
      · revert w; decide
      · cases hw
    · revert w; decide
    · simp at hw; rcases hw with rfl | rfl <;> rfl
    · exact hr w hw
  · exact .push _ (fun w hw => by cases hw with | head => rfl | tail _ h => exact hr w h) (by simp)

theorem perform_calm (w : Work) (s : State) (hw : w.calm = true) : ∃ t, perform w s = .next t ∧ Grows s t := by
  cases w <;> first | (cases hw; done) | refine ⟨_, rfl, ?_⟩
  case scan cd todo =>
    unfold scanStep
    split
    · exact .of_eq rfl
    · simp only
      split
      · exact .push _ (calm_one rfl) (cardInserted_dpu _ _)
      · split
        · exact cardRemoved_grows _ _ (calm_one rfl) _
        · exact .push _ (calm_one rfl) rfl
  case cardScan =>
    unfold cardScan
    exact Grows.push (t := s) _ (calm_one rfl) rfl
  case await c e =>
    exact Grows.push (t := s) [.poll c _ e] (calm_one rfl) rfl
  case busyAgain =>
    unfold busyAgain
    split
    · exact .push _ (by decide) rfl
    · exact .of_eq rfl
  all_goals apply Grows.of_eq
  case cancelActive => exact completeActive_dpu _
  case flushRest => exact flushRest_dpu _
  case removed =>
    unfold removalEnd
    simp only [deliver_ctl]
    split
    · rw [tuneFinish_dpu]; rfl
    · rfl
  case ctlEnd => exact congrArg Control.dpu (deliver_ctl _ _)
  case recoverEnd => unfold recoverEnd; simp only; split <;> simp
  case initRegs => unfold initRegs; simp only [regSet]; repeat' split; all_goals simp [initFields]
  all_goals try simp only [dmaOff, dmaRelease, assertDmaReset, clearPartBuf, writeUpdateClock, writeStop, writeCommand,
    toDRecovery, wdEnd, dataBusyEnd, dataEnd, cmdBusyEnd, stopBusyEnd, recovered, setTiming, clkGate, clkStopped, clkDone,
    regSet, regClr]
  all_goals repeat' split
  all_goals first | rfl | simp

/-- Calm work down to a `halt`. -/
def CalmUntilHalt (s : State) : Prop := ∃ ws rest, s.ctl.dpu = ws ++ .halt :: rest ∧ ∀ w ∈ ws, w.calm = true

theorem CalmUntilHalt.grows {s t : State} (h : CalmUntilHalt s) (g : Grows s t) : CalmUntilHalt t := by
  obtain ⟨ws, rest, h, hc⟩ := h
  obtain ⟨v, hv, hv'⟩ := g
  exact ⟨v ++ ws, rest, by rw [hv, h, List.append_assoc], fun w hw => (List.mem_append.mp hw).elim (hv' w) (hc w)⟩

/-- Calm work never stops the machine. -/
theorem drive_calm : ∀ (n : Nat) (s : State), CalmUntilHalt s → ∃ t, drive n s = .next t := by
  intro n
  induction n with
  | zero => exact fun s _ => ⟨s, rfl⟩
  | succ n ih =>
    rintro s ⟨ws, rest, h, hc⟩
    cases ws with
    | nil => exact ⟨_, drive_done h⟩
    | cons w ws =>
      have hw := hc w List.mem_cons_self
      replace h : s.ctl.dpu = w :: (ws ++ .halt :: rest) := h
      have next : CalmUntilHalt (setDpu (ws ++ .halt :: rest) s) := ⟨ws, rest, rfl, fun v hv => hc v (List.mem_cons_of_mem _ hv)⟩
      by_cases hp : w.plain = true
      · by_cases hr : s.ctl.ret = .ok ∨ w.handles = true
        · rw [drive_do h hp hr]
          obtain ⟨t, ht, g⟩ := perform_calm w (setDpu (ws ++ .halt :: rest) s) hw
          rw [ht]
          exact ih t (next.grows g)
        · rw [drive_pass h hp (fun e => hr (.inl e)) (by simpa using fun e => hr (.inr e))]
          exact ih _ next
      · cases w <;> first | (cases hw; done) | (exact absurd rfl hp) | skip
        rename_i c t e
        by_cases hy : s.ctl.yields = true
        · exact ⟨s, by simp [drive, h, hy]⟩
        · have hd : drive (n + 1) s = match pollOnce c t e (setDpu (ws ++ .halt :: rest) s) with
              | some s' => drive n s'
              | none => .next s := by rw [drive, h]; exact if_neg hy
          rw [hd]
          cases hq : pollOnce c t e (setDpu (ws ++ .halt :: rest) s) with
          | none => exact ⟨_, rfl⟩
          | some u =>
            refine ih u (next.grows (.of_eq ?_))
            unfold pollOnce at hq
            split at hq
            · split at hq <;> cases hq; rfl
            · cases hq; cases e <;> rfl

/-- A micro-operation whose first piece leaves calm work answers a next state. -/
theorem runProg_calm {w : Work} {s t : State} (hw : w.plain = true)
    (h : perform w (setDpu (.halt :: s.ctl.dpu) (setRet .ok s)) = .next t)
    (g : Grows (setDpu (.halt :: s.ctl.dpu) s) t) : ∃ u, runProg [w] s = .next u := by
  rw [runProg_first w [] s hw, List.nil_append, h, andThen_next]
  exact drive_calm _ _ (CalmUntilHalt.grows ⟨[], s.ctl.dpu, rfl, by simp⟩ g)

end Sys2Proof.Machine
end

