-- ==== Sys2Proof/Laws/Effects.lean ====
section
/-! SUPPORT. What the shared micro-operations do, once and for all: dispatch, event words, the DMA engine's start and stop,
and the resets with BUS completing them. In the words of the statements. -/

namespace Sys2Proof.Machine

theorem flag_toNat (p : Prop) [Decidable p] (n : Nat) (h : n < 2^32) : (if p then BitVec.ofNat 32 n else 0#32).toNat = n * bitVal (decide p) := by
  by_cases hp : p <;> simp [hp, bitVal]; omega

theorem flag_toNat_not (p : Prop) [Decidable p] (n : Nat) (h : n < 2^32) : (if p then 0#32 else BitVec.ofNat 32 n).toNat = n * bitVal (decide ¬ p) := by
  by_cases hp : p <;> simp [hp, bitVal]; omega

theorem cardField_toNat : ∀ sl : BitVec 4, (sl.zeroExtend 32 <<< 16).toNat = 65536 * sl.toNat := by decide

theorem add_mods (a b c d e f g h i : Nat) : ((((((((a + b) % 4294967296 + c) % 4294967296 + d) % 4294967296 + e) % 4294967296 + f) % 4294967296 + g) % 4294967296 + h) % 4294967296 + i) % 4294967296 = (a+b+c+d+e+f+g+h+i) % 4294967296 := by omega

/-- The command word is the sum of its fields (R308). -/
theorem cmdwOf_eq_cmdWord (r : ReqOp) (b : Bool) : cmdwOf r b = cmdWord r b := by
  have e1 : (∃ d ∈ r.data, d.dir = .write) ↔ dirIs r .write = true := by
    cases h : r.data <;> simp [dirIs, h]
  simp only [cmdwOf, cmdWord, cardField, e1]
  apply BitVec.eq_of_toNat_eq
  simp only [BitVec.toNat_add, cardField_toNat]
  have h40 := flag_toNat_not (r.cmd.resp = .noResp) 0x40 (by decide)
  have h80 := flag_toNat (r.cmd.resp = .long) 0x80 (by decide)
  have h100 := flag_toNat (r.cmd.crc = true) 0x100 (by decide)
  have h200 := flag_toNat (r.data.isSome = true) 0x200 (by decide)
  have h400 := flag_toNat (dirIs r .write = true) 0x400 (by decide)
  have h8000 := flag_toNat (b = true) 0x8000 (by decide)
  rw [h40, h80, h100, h200, h400, h8000]
  simp only [Bool.decide_eq_true, ne_eq]
  have : (BitVec.zeroExtend 32 r.cmd.index).toNat = r.cmd.index.toNat := by simp; omega
  rw [this, BitVec.toNat_ofNat]
  generalize r.cmd.index.toNat = x1
  generalize r.slot.toNat = x2
  generalize bitVal (decide ¬ r.cmd.resp = .noResp) = x3
  generalize bitVal (decide (r.cmd.resp = .long)) = x4
  generalize bitVal r.cmd.crc = x5
  generalize bitVal r.data.isSome = x6
  generalize bitVal (dirIs r .write) = x7
  generalize bitVal b = x8
  have e : (0x80002000#32).toNat = 2147491840 := by decide
  rw [e]
  have hp : (2:Nat)^32 = 4294967296 := by decide
  rw [hp, add_mods]
  congr 1
  omega

/-- DISPATCH's first lines (R460). -/
theorem dispatchArm_eq (r : ReqOp) (s : State) : dispatchArm (Request.fresh r) s = armed r s := by
  unfold dispatchArm armed
  by_cases h : s.st.curSlot = some r.slot.toNat
  · simp [Request.fresh, h, regWrite, intmaskBits]
  · simp [Request.fresh, h, regWrite, intmaskBits]

/-- A command word has no reserved bit of `CMD` set. -/
theorem cmdWord_mask (r : ReqOp) (b : Bool) : cmdWord r b &&& 0x803FFFFF#32 = cmdWord r b := by
      rw [← cmdwOf_eq_cmdWord]
      have h1 := r.cmd.index.isLt
      have h2 := r.slot.isLt
      apply BitVec.eq_of_getLsbD_eq
      intro i hi
      simp only [BitVec.getLsbD_and]
      by_cases hh : i < 22 ∨ i = 31
      · have : ∀ i < 32, i < 22 ∨ i = 31 → (0x803FFFFF#32).getLsbD i = true := by decide
        rw [this i hi hh]; simp
      · have : (cmdwOf r b).getLsbD i = false := by
          simp only [cmdwOf, BitVec.getLsbD_ofNat]
          have b1 := bitVal_le (decide (r.cmd.resp ≠ .noResp))
          have b2 := bitVal_le (decide (r.cmd.resp = .long))
          have b3 := bitVal_le r.cmd.crc
          have b4 := bitVal_le r.data.isSome
          have b5 := bitVal_le (dirIs r .write)
          have b6 := bitVal_le b
          generalize bitVal (decide (r.cmd.resp ≠ .noResp)) = x1 at *
          generalize bitVal (decide (r.cmd.resp = .long)) = x2 at *
          generalize bitVal r.cmd.crc = x3 at *
          generalize bitVal r.data.isSome = x4 at *
          generalize bitVal (dirIs r .write) = x5 at *
          generalize bitVal b = x6 at *
          simp only [hi, decide_true, Bool.true_and, Nat.testBit_eq_decide_div_mod_eq, decide_eq_false_iff_not]
          have : i = 22 ∨ i = 23 ∨ i = 24 ∨ i = 25 ∨ i = 26 ∨ i = 27 ∨ i = 28 ∨ i = 29 ∨ i = 30 := by omega
          rcases this with rfl | rfl | rfl | rfl | rfl | rfl | rfl | rfl | rfl <;> omega
        rw [this]; simp

/-- DISPATCH's end, once the command register is free: `CMDARG` and `CMD` written (R460). -/
theorem dispatch_finish (r : ReqOp) (s : State) (ws : List Work) (hp : Prompt s)
   (a : Active) (ha : s.st.active = some a) (har : a.toReqOp = r) (hc : bit s.regs.cmd 31 = false) (hret : s.ctl.ret = .ok) (n : Nat) :
    drive (n+4) (setDpu (.await .startClear .fatal :: .writeCommand :: .halt :: ws) s) = .next (setDpu ws (issued r s)) := by
  rw [drive_await_ok (n+2) _ _ _ _ hret hp.2 (pollTimeout_pos hp.1 _) (by simp [pollHolds, regRead, hc]), drive_work (n+1) _ _ _ rfl (.inl hret)]
  simp only [perform]
  have hw : writeCommand (setDpu (.halt :: ws) s) = setDpu (.halt :: ws) (issued r s) := by
    have hsc : startCmd s = false := hc
    simp only [writeCommand, setDpu_st, ha]
    rw [regWrite_setDpu, regWrite_cmdarg _ _ hsc, regWrite_setDpu, regWrite_cmd _ _ (show startCmd { s with regs := { s.regs with cmdarg := a.cmd.arg } } = false from hc)]
    subst har
    have e : slotAt (setDpu (.halt :: ws) s) a.slot.toNat = slotAt s a.slot.toNat := rfl
    have hm := cmdWord_mask a.toReqOp (slotAt s a.slot.toNat).needInit
    rw [e, cmdwOf_eq_cmdWord, hm]
    apply state_ext <;> first | rfl | skip
    show _ = { s.ctl with dpu := .halt :: ws, ret := .ok }
    rw [← hret]; rfl
  rw [hw]
  rfl

theorem armed_setDpu (r : ReqOp) (s : State) (ws : List Work) (c : Code)  : armed r (setDpu ws (setRet c s)) = setDpu ws (setRet c (armed r s)) := by
  apply state_ext <;> rfl

theorem dispatchBegin_without_data (r : ReqOp) (s : State) (ha : s.st.active = none) (hs : r.slot.toNat < s.cfg.nslots) (hd : r.data = none) : dispatchBegin (Request.fresh r) (setDpu (.halt :: s.ctl.dpu) (setRet .ok s)) =
     .ok (setDpu (.await .startClear .fatal :: .writeCommand :: .halt :: s.ctl.dpu) (setRet .ok (armed r s))) := by
    rw [dispatchBegin_eq (Request.fresh r) (setDpu (.halt :: s.ctl.dpu) (setRet .ok s)) ha hs, dispatchPath_none _ _ hd, dispatchArm_eq, armed_setDpu, except_ok_bind, push_setDpu]
    rfl

theorem issued_dpu (r : ReqOp) (s : State) (ws : List Work) : setDpu ws (issued r (setRet .ok (armed r s))) = setDpu ws (issued r (armed r s)) := by
  apply state_ext <;> rfl

theorem armed_dpu (r : ReqOp) (s : State)  : setDpu s.ctl.dpu (issued r (armed r s)) = issued r (armed r s) := by
  apply state_ext <;> rfl

/-- DISPATCH, where its data path leaves the state `x` (R460). -/
theorem dispatch_of_path (r : ReqOp) (s x : State) (hp : Prompt x) (ha : s.st.active = none) (hs : r.slot.toNat < s.cfg.nslots)
   (hb : dispatchPath (Request.fresh r) (armed r (setDpu (.halt :: s.ctl.dpu) (setRet .ok s))) = .ok (setDpu (.halt :: s.ctl.dpu) (setRet .ok x)))
   (hx : x.ctl.dpu = s.ctl.dpu)
   (a : Active) (hxa : x.st.active = some a) (har : a.toReqOp = r) (hc : bit x.regs.cmd 31 = false) :
   exec (.dispatch r) s = .next (issued r x) := by
  show execDispatch r s = _
  unfold execDispatch
  rw [runProg_first _ _ _ rfl, List.nil_append]
  simp only [perform]
  rw [dispatchBegin_eq (Request.fresh r) (setDpu (.halt :: s.ctl.dpu) (setRet .ok s)) ha hs, dispatchArm_eq, hb, except_ok_bind, ofExcept_ok, andThen_next, push_setDpu]
  have h := dispatch_finish r (setRet .ok x) s.ctl.dpu hp a hxa har hc rfl 507
  have e : setDpu s.ctl.dpu (issued r (setRet .ok x)) = issued r x := by
    rw [← hx]
    apply state_ext <;> rfl
  rw [e] at h
  exact h

theorem sized_setDpu (d : DataSpec) (r : ReqOp) (s : State) (ws : List Work) :  (regWrite .BYTCNT (BitVec.ofNat 32 (d.blksz.toNat * d.blocks.toNat))
    (regWrite .BLKSIZ (d.blksz.zeroExtend 32) (armed r (setDpu ws (setRet .ok s))))) = 
      setDpu ws (setRet .ok (sized d (armed r s))) := by
      apply state_ext <;> first | rfl | skip
      show ({ (armed r s).regs with blksiz := d.blksz.zeroExtend 32 &&& 0xFFFF#32, bytcnt := _ } : Regs) = _
      have : d.blksz.zeroExtend 32 &&& 0xFFFF#32 = d.blksz.zeroExtend 32 := by
        apply BitVec.eq_of_toNat_eq
        rw [BitVec.toNat_and, show (0xFFFF#32).toNat = 2^16 - 1 from rfl, Nat.and_two_pow_sub_one_eq_mod]
        have := d.blksz.isLt
        simp; omega
      rw [this]; rfl

/-- DMA_START on a stopped DMA engine (R557). -/
theorem dmaStart_eq (dir : Dir) (s : State) (hd : s.cfg.dmaPresent = true) (hr : RegsLegal s) (hst : s.st.dmac.state = .stopped) : dmaStart dir s = dmaStarted dir s := by
  have r1 := hr.ctrl
  have r4 := hr.bmod
  have r7 := hr.idsts
  have c1 : ((s.regs.ctrl ||| 0x02000020#32) &&& 0x02000030#32) ||| ((s.regs.ctrl ||| (s.regs.ctrl ||| 0x02000020#32)) &&& 0x7#32) = s.regs.ctrl ||| 0x02000020#32 := by
    apply sticky_write
    · rw [show ~~~(0x02000030#32 ||| 0x7#32) = 0xFDFFFFC8#32 from by decide]
      exact or_mask_zero _ _ _ r1 (by decide)
    · apply BitVec.eq_of_getLsbD_eq; intro i hi
      simp only [BitVec.getLsbD_and, BitVec.getLsbD_not, BitVec.getLsbD_or, BitVec.getLsbD_zero]
      cases s.regs.ctrl.getLsbD i <;> simp
  have c2 : ((s.regs.bmod ||| 0x80#32) &&& 0x782#32) ||| ((s.regs.bmod ||| (s.regs.bmod ||| 0x80#32)) &&& 0x1#32) = s.regs.bmod ||| 0x80#32 := by
    apply sticky_write
    · rw [show ~~~(0x782#32 ||| 0x1#32) = 0xFFFFF87C#32 from by decide]
      exact or_mask_zero _ _ _ r4 (by decide)
    · apply BitVec.eq_of_getLsbD_eq; intro i hi
      simp only [BitVec.getLsbD_and, BitVec.getLsbD_not, BitVec.getLsbD_or, BitVec.getLsbD_zero]
      cases s.regs.bmod.getLsbD i <;> simp
  have b0 : ∀ (v m : Word) (i : Nat), bit m i = true → bit (v ||| m) i = true := by
    intro v m i h
    simp only [bit, bits] at *
    simp only [BitVec.toNat_or, decide_eq_true_eq, Nat.pow_one] at *
    have h1 : m.toNat.testBit i = true := by simp [Nat.testBit_eq_decide_div_mod_eq, h]
    have h2 : (v.toNat ||| m.toNat).testBit i = true := by rw [Nat.testBit_or, h1]; simp
    simpa [Nat.testBit_eq_decide_div_mod_eq] using h2
  have d0 : s.regs.idsts &&& ~~~(0x337#32 &&& 0x337#32) = s.regs.idsts &&& ~~~0x337#32 := by simp
  unfold dmaStart
  simp only [regSet, regRead, regWrite, writeCtrl, writeBmod, b0 _ _ 5 (show bit 0x02000020#32 5 = true by decide), b0 _ _ 7 (show bit 0x80#32 7 = true by decide), if_true, c1, c2, d0]
  unfold writePldmnd
  simp only [b0 _ _ 5 (show bit 0x02000020#32 5 = true by decide), b0 _ _ 25 (show bit 0x02000020#32 25 = true by decide), b0 _ _ 7 (show bit 0x80#32 7 = true by decide), Bool.and_self, if_true, hst, hd]
  rfl

/-- An event word is its payload above its code (R304). -/
theorem eventWord_append (p : BitVec 24) (c : Nat) (hc : c < 256) : eventWord c p = (p ++ (BitVec.ofNat 8 c) : BitVec 32) := by
  apply BitVec.eq_of_toNat_eq
  have := p.isLt
  simp only [eventWord, BitVec.toNat_ofNat, BitVec.toNat_append]
  rw [← Nat.shiftLeft_add_eq_or_of_lt (by omega)]
  rw [Nat.shiftLeft_eq]
  omega

/-- ON_EVENT of a word whose row answers `t`. -/
theorem runProg_event (w : Word) (s : State) (t : State) (h : applyEvent w (setDpu (.halt :: s.ctl.dpu) (setRet .ok s)) = .next (setDpu (.halt :: s.ctl.dpu) (setRet .ok t)))
    (ht : t.ctl.dpu = s.ctl.dpu) :
    runProg [.event w] s = .next (setRet .ok t) := by
  have := runProg_only (w := .event w) (s := s) rfl h rfl
  rw [this, ← ht]
  rfl

theorem eventPayload_eventWord (c : Nat) (hc : c < 256) (p : BitVec 24) : eventPayload (eventWord c p) = p.zeroExtend 32 := by
  apply BitVec.eq_of_toNat_eq
  have := p.isLt
  simp only [eventPayload, eventWord, BitVec.toNat_ushiftRight, BitVec.toNat_ofNat, Nat.shiftRight_eq_div_pow]
  simp
  omega

theorem ite_isSome_or (x : Option Code) (y : Option Code) : (if x.isSome then x else y) = x.or y := by cases x <;> rfl

theorem bit_cleared (v m : Word) (i : Nat) (h : bit m i = true) : bit (v &&& ~~~m) i = false := by
  have key : ∀ w : Word, bit w i = w.getLsbD i := by
    intro w
    simp only [bit, bits, BitVec.getLsbD, Nat.testBit_eq_decide_div_mod_eq, Nat.pow_one]
  rw [key] at h ⊢
  simp [h]

theorem sticky_clear (old m a b : Word) (k : Word) (hk : old &&& k = 0#32) (hab : ~~~(a ||| b) = k) (hm : b &&& m = 0#32)  :
   ((old &&& ~~~m) &&& a) ||| ((old ||| (old &&& ~~~m)) &&& b) = old &&& ~~~m := by
  apply sticky_write
  · rw [hab]; exact not_mask_zero _ _ _ hk
  · apply BitVec.eq_of_getLsbD_eq; intro i hi
    have h2 : (b &&& m).getLsbD i = (0#32).getLsbD i := by rw [hm]
    revert h2
    simp only [BitVec.getLsbD_and, BitVec.getLsbD_not, BitVec.getLsbD_zero, hi, decide_true, Bool.true_and]
    cases old.getLsbD i <;> cases b.getLsbD i <;> cases m.getLsbD i <;> simp

/-- DMA_STOP's register writes (R565). -/
theorem dmaOff_eq (s : State) (hr : RegsLegal s) : dmaOff s = { s with
    regs := { s.regs with ctrl := s.regs.ctrl &&& ~~~0x02000020#32, bmod := s.regs.bmod &&& ~~~0x80#32 }
    st := { s.st with dmac := { s.st.dmac with state := .stopped, desc := none } } } := by
  have r1 := hr.ctrl
  have r4 := hr.bmod
  have r7 := hr.idsts
  have c1 := sticky_clear s.regs.ctrl 0x02000020#32 0x02000030#32 0x7#32 _ r1 (by decide) (by decide)
  have c2 := sticky_clear s.regs.bmod 0x80#32 0x782#32 0x1#32 _ r4 (by decide) (by decide)
  unfold dmaOff
  simp only [regClr, regRead, regWrite, writeCtrl, writeBmod, bit_cleared _ _ 7 (show bit 0x80#32 7 = true by decide), bit_cleared _ _ 5 (show bit 0x02000020#32 5 = true by decide), Bool.false_eq_true, if_false, c1, c2]
  rfl

/-- `IDSTS.FSM` reads 0 unless the engine runs (R123). -/
theorem idsts_fsm (s : State) (hr : RegsLegal s) (h : s.st.dmac.state ≠ .running) : bits (regRead .IDSTS s) 13 4 = 0 := by
  have r7 := hr.idsts
  simp only [regRead, idstsVal, if_neg h, BitVec.or_zero, bits]
  have : (s.regs.idsts &&& 0x1E000#32) = 0#32 := by
    have e : s.regs.idsts &&& 0x1E000#32 = s.regs.idsts &&& 0xFFFFFCC8#32 &&& 0x1E000#32 := by
      rw [BitVec.and_assoc]; congr 1
    rw [e, r7]; simp
  have h2 : (s.regs.idsts &&& 0x1E000#32).toNat = 0 := by rw [this]; rfl
  rw [BitVec.toNat_and, show (0x1E000#32).toNat = (2^4 - 1) <<< 13 from by decide] at h2
  have h3 : ∀ x : Nat, x &&& ((2^4-1) <<< 13) = ((x >>> 13) &&& (2^4-1)) <<< 13 := by
    intro x
    apply Nat.eq_of_testBit_eq
    intro i
    simp only [Nat.testBit_and, Nat.testBit_shiftLeft, Nat.testBit_shiftRight]
    by_cases hi : 13 ≤ i
    · simp [hi, show 13 + (i - 13) = i from by omega]
    · simp [hi]
  rw [h3, Nat.and_two_pow_sub_one_eq_mod, Nat.shiftLeft_eq, Nat.shiftRight_eq_div_pow] at h2
  omega

/-- DMA_STOP's whole program, whatever work follows it (R565). -/
theorem dmaStop_tail (s : State) (ws : List Work) (n : Nat) (hp : Prompt s) (hr : RegsLegal s) (hret : s.ctl.ret = .ok) :
    drive (n+4) (setDpu (dmaStopProg ++ ws) s) = drive n (setDpu ws (dmaStopped s)) := by
  show drive (n+4) (setDpu (.dmaOff :: .await .dmaStopped .fatal :: .dmaRelease :: ws) s) = _
  have ho := dmaOff_eq (setDpu (.await .dmaStopped .fatal :: .dmaRelease :: ws) s) hr
  rw [drive_work (n+3) _ _ _ rfl (.inl hret), show perform .dmaOff _ = .next (dmaOff _) from rfl, andThen_next, ho]
  generalize hx : ({ s with
    regs := { s.regs with ctrl := s.regs.ctrl &&& ~~~0x02000020#32, bmod := s.regs.bmod &&& ~~~0x80#32 }
    st := { s.st with dmac := { s.st.dmac with state := .stopped, desc := none } } } : State) = x
  have e : ({ setDpu (.await .dmaStopped .fatal :: .dmaRelease :: ws) s with
    regs := { (setDpu (.await .dmaStopped .fatal :: .dmaRelease :: ws) s).regs with ctrl := (setDpu (.await .dmaStopped .fatal :: .dmaRelease :: ws) s).regs.ctrl &&& ~~~0x02000020#32, bmod := (setDpu (.await .dmaStopped .fatal :: .dmaRelease :: ws) s).regs.bmod &&& ~~~0x80#32 }
    st := { (setDpu (.await .dmaStopped .fatal :: .dmaRelease :: ws) s).st with dmac := { (setDpu (.await .dmaStopped .fatal :: .dmaRelease :: ws) s).st.dmac with state := .stopped, desc := none } } } : State) = setDpu (.await .dmaStopped .fatal :: .dmaRelease :: ws) x := by
    rw [← hx]; rfl
  rw [e]
  have hp' : Prompt x := by rw [← hx]; exact hp
  have hret' : x.ctl.ret = .ok := by rw [← hx]; exact hret
  have hr' : RegsLegal x := by
    rw [← hx]
    exact { hr with ctrl := not_mask_zero _ _ _ hr.ctrl, bmod := not_mask_zero _ _ _ hr.bmod }
  have hst : x.st.dmac.state ≠ .running := by rw [← hx]; intro h; cases h
  rw [drive_await_ok (n+1) _ _ _ _ hret' hp'.2 (pollTimeout_pos hp'.1 _) (by simp [pollHolds, idsts_fsm x hr' hst]), drive_work n _ _ _ rfl (.inl hret')]
  show drive n (dmaRelease (setDpu ws x)) = _
  congr 1
  rw [← hx]
  rfl

theorem bit_eq_getLsbD (w : Word) (i : Nat) : bit w i = w.getLsbD i := by
    simp only [bit, bits, BitVec.getLsbD, Nat.testBit_eq_decide_div_mod_eq, Nat.pow_one]

theorem bit_of_and_zero {v m : Word} {i : Nat} (h : v &&& m = 0#32) (hm : m.getLsbD i = true) : bit v i = false := by
  rw [bit_eq_getLsbD]
  have : (v &&& m).getLsbD i = false := by rw [h]; simp
  simpa [hm] using this

theorem or_and_not {v m : Word} (h : v &&& m = 0#32) : (v ||| m) &&& ~~~m = v := by
  apply BitVec.eq_of_getLsbD_eq; intro i hi
  have : (v &&& m).getLsbD i = false := by rw [h]; simp
  revert this
  simp only [BitVec.getLsbD_and, BitVec.getLsbD_or, BitVec.getLsbD_not, hi, decide_true, Bool.true_and]
  cases v.getLsbD i <;> cases m.getLsbD i <;> simp

theorem and_zero_of_sub {v m k : Word} (h : v &&& m = 0#32) (hk : k &&& m = k) : v &&& k = 0#32 := by
  rw [← hk, BitVec.and_comm k m, ← BitVec.and_assoc, h]; simp

/-- Reset bits of `CTRL` set (R683). -/
theorem regSet_ctrl (s : State) (m : Word) (hr : RegsLegal s) (hm : m &&& 0x7#32 = m) : regSet .CTRL m s = asserted m 0#32 s := by
  have c1 : ((s.regs.ctrl ||| m) &&& 0x02000030#32) ||| ((s.regs.ctrl ||| (s.regs.ctrl ||| m)) &&& 0x7#32) = s.regs.ctrl ||| m := by
    apply sticky_write
    · rw [show ~~~(0x02000030#32 ||| 0x7#32) = 0xFDFFFFC8#32 from by decide]
      refine or_mask_zero _ _ _ hr.ctrl ?_
      rw [← hm, BitVec.and_assoc]
      rw [show 0x7#32 &&& 0xFDFFFFC8#32 = 0#32 from by decide]; simp
    · apply BitVec.eq_of_getLsbD_eq; intro i hi
      simp only [BitVec.getLsbD_and, BitVec.getLsbD_not, BitVec.getLsbD_or, BitVec.getLsbD_zero]
      cases s.regs.ctrl.getLsbD i <;> simp
  have b5 : bit (s.regs.ctrl ||| m) 5 = bit s.regs.ctrl 5 := by
    rw [bit_eq_getLsbD, bit_eq_getLsbD, BitVec.getLsbD_or]
    have : m.getLsbD 5 = false := by
      rw [← hm, BitVec.getLsbD_and, show (0x7#32).getLsbD 5 = false from by decide]; simp
    rw [this]; simp
  unfold regSet
  simp only [regWrite, regRead, writeCtrl, c1, b5]
  unfold asserted
  rw [BitVec.or_zero]
  by_cases h : bit s.regs.ctrl 5 = true
  · simp [h]
  · simp [h]

/-- DMA_RESET's register writes (R566). -/
theorem assertDmaReset_eq (s : State) (hr : RegsLegal s) : assertDmaReset s = asserted 0x4#32 0x1#32 s := by
  unfold assertDmaReset
  rw [regSet_ctrl s _ hr (by decide)]
  have c1 : ((s.regs.bmod ||| 0x1#32) &&& 0x782#32) ||| ((s.regs.bmod ||| (s.regs.bmod ||| 0x1#32)) &&& 0x1#32) = s.regs.bmod ||| 0x1#32 := by
    apply sticky_write
    · rw [show ~~~(0x782#32 ||| 0x1#32) = 0xFFFFF87C#32 from by decide]
      exact or_mask_zero _ _ _ hr.bmod (by decide)
    · apply BitVec.eq_of_getLsbD_eq; intro i hi
      simp only [BitVec.getLsbD_and, BitVec.getLsbD_not, BitVec.getLsbD_or, BitVec.getLsbD_zero]
      cases s.regs.bmod.getLsbD i <;> simp
  have b7 : bit (s.regs.bmod ||| 0x1#32) 7 = bit s.regs.bmod 7 := by
    rw [bit_eq_getLsbD, bit_eq_getLsbD, BitVec.getLsbD_or]
    rw [show (0x1#32).getLsbD 7 = false from by decide]; simp
  have e : (asserted 0x4#32 0#32 s).regs.bmod = s.regs.bmod := by
    show s.regs.bmod ||| 0#32 = _; rw [BitVec.or_zero]
  unfold regSet
  simp only [regWrite, regRead, writeBmod, e, c1, b7]
  unfold asserted
  by_cases h : bit s.regs.ctrl 5 = true
  · by_cases h7 : bit s.regs.bmod 7 = true
    · simp [h, h7]
    · simp [h, h7]
  · by_cases h7 : bit s.regs.bmod 7 = true
    · simp [h, h7]
    · simp [h, h7, Dmac.halted]

/-- A reset of `CTRL` bits waits until BUS completes it (R684, R685). -/
theorem reset_waits (s : State) (m : Word) (ws : List Work) (n : Nat) (hp : Prompt s) (hr : RegsLegal s) (hm : m &&& 0x7#32 = m) (h0 : m ≠ 0#32) (hret : s.ctl.ret = .ok) :
   drive (n+3) (setDpu (.assertReset m :: .await (.resetClear m) .fatal :: .clearPartBuf :: ws) s) =
    .next (setDpu (.poll (.resetClear m) (s.st.now + ticks s.cfg s.cfg.resetTimeout) .fatal :: .clearPartBuf :: ws) (asserted m 0#32 s)) := by
  rw [drive_work (n+2) _ _ _ rfl (.inl hret)]
  show drive (n+2) (regSet .CTRL m (setDpu _ s)) = _
  rw [regSet_ctrl (setDpu (.await (.resetClear m) .fatal :: .clearPartBuf :: ws) s) m hr hm]
  have : anyBit (s.regs.ctrl ||| m) m = true := by
    unfold anyBit
    have : (s.regs.ctrl ||| m) &&& m = m := by
      apply BitVec.eq_of_getLsbD_eq; intro i hi
      simp only [BitVec.getLsbD_and, BitVec.getLsbD_or]
      cases s.regs.ctrl.getLsbD i <;> simp
    rw [this]; simp [h0]
  exact drive_await_wait n (.resetClear m) .fatal (.clearPartBuf :: ws) (asserted m 0#32 s) hret hp.2 (pollTimeout_pos hp.1 _) (by simp [pollHolds, regRead, asserted, this])

/-- DMA_RESET waits until BUS completes it (R566). -/
theorem dma_reset_waits (s : State) (ws : List Work) (n : Nat) (hp : Prompt s) (hr : RegsLegal s) (hret : s.ctl.ret = .ok) :
   drive (n+3) (setDpu (dmaResetProg ++ ws) s) =
    .next (setDpu (.poll .dmaResetClear (s.st.now + ticks s.cfg s.cfg.resetTimeout) .fatal :: .dmaRelease :: ws) (asserted 0x4#32 0x1#32 s)) := by
  show drive (n+3) (setDpu (.assertDmaReset :: .await .dmaResetClear .fatal :: .dmaRelease :: ws) s) = _
  rw [drive_work (n+2) _ _ _ rfl (.inl hret)]
  show drive (n+2) (assertDmaReset (setDpu _ s)) = _
  rw [assertDmaReset_eq (setDpu (.await .dmaResetClear .fatal :: .dmaRelease :: ws) s) hr]
  have : bit (s.regs.ctrl ||| 0x4#32) 2 = true := by rw [bit_eq_getLsbD, BitVec.getLsbD_or]; simp
  exact drive_await_wait n .dmaResetClear .fatal (.dmaRelease :: ws) (asserted 0x4#32 0x1#32 s) hret hp.2 (pollTimeout_pos hp.1 _) (by simp [pollHolds, regRead, asserted, this])

theorem regsLegal_asserted (s : State) (m k : Word) (hr : RegsLegal s) (hm : m &&& 0x7#32 = m) (hk : k &&& 0x1#32 = k) : RegsLegal (asserted m k s) := by
  refine { hr with ctrl := or_mask_zero _ _ _ hr.ctrl ?_, bmod := or_mask_zero _ _ _ hr.bmod ?_ }
  · rw [← hm, BitVec.and_assoc, show 0x7#32 &&& 0xFDFFFFC8#32 = 0#32 from by decide]; simp
  · rw [← hk, BitVec.and_assoc, show 0x1#32 &&& 0xFFFFF87C#32 = 0#32 from by decide]; simp

theorem anyBit_zero {v m : Word} (h : v &&& m = 0#32) : anyBit v m = false := by simp [anyBit, h]

/-- The FIFO-ready bits a step of BUS leaves, in the words of the statements (R762, R763). -/
theorem raiseReady_eq (s : State) : raiseReady s = readied s := by
  have e : (if xferHolds s then readyBits s else 0#32) = fifoReadyBits s := by
    unfold xferHolds readyBits fifoReadyBits
    cases s.env.xfer with
    | none => rfl
    | some x =>
      cases hf : x.failed <;> cases ha : x.aborted <;> cases hd : x.doubtful <;> first | (simp [hf, ha, hd]; done) | (simp [hf, ha, hd]; rfl)
  unfold raiseReady readied
  rw [e]
  rfl

/-- With no transfer on the wire a step of BUS leaves the FIFO-ready bits. -/
theorem raiseReady_none {s : State} (h : s.env.xfer = none) : raiseReady s = s := by
  unfold raiseReady xferHolds
  rw [h]
  refine state_ext rfl ?_ rfl rfl rfl rfl
  show ({ s.regs with rintsts := s.regs.rintsts ||| 0#32 } : Regs) = s.regs
  rw [BitVec.or_zero]

/-- BUS completes the resets under way, and the DPU goes on. -/
theorem serveResets_eq (s : State) (a b c : Bool) (ha : bit s.regs.ctrl 0 = a) (hb : bit s.regs.ctrl 1 = b) (hc : dmaResetPending s = c) :
   serveResets s = dpuStep (raiseReady (completeResets a b c s)) := by
  unfold serveResets
  rw [ha, hb, hc]
  have : busStep (.resetDone a b c) s = .next (raiseReady (completeResets a b c s)) := by
    show Res.andThen (busStepIf _ _) _ = _
    rw [ha, hb, hc]
    cases a <;> cases b <;> cases c <;> rfl
  rw [this, andThen_next]

theorem completeResets_fifo (s : State) : completeResets false true false s = fifoResetEffect s := rfl

/-- RESET_FIFO after BUS has completed the reset (R684). -/
theorem fifo_reset_served (s : State) (t : Nat) (ws : List Work) (hp : Prompt s) (hn : NoReset s) (ht : s.st.now < t) (hret : s.ctl.ret = .ok) :
    serveResets (setDpu (.poll (.resetClear 0x2#32) t .fatal :: .clearPartBuf :: ws) (asserted 0x2#32 0#32 s)) = drive 511 (setDpu ws (fifoReset s)) := by
  have n0 : bit s.regs.ctrl 0 = false := bit_of_and_zero hn.1 (by decide)
  have n1 : bit s.regs.ctrl 1 = false := bit_of_and_zero hn.1 (by decide)
  have n2 : bit s.regs.ctrl 2 = false := bit_of_and_zero hn.1 (by decide)
  have nb : bit s.regs.bmod 0 = false := bit_of_and_zero hn.2 (by decide)
  have c0 : bit (s.regs.ctrl ||| 0x2#32) 0 = false := by rw [bit_eq_getLsbD, BitVec.getLsbD_or, ← bit_eq_getLsbD, n0]; decide
  have c1 : bit (s.regs.ctrl ||| 0x2#32) 1 = true := by rw [bit_eq_getLsbD, BitVec.getLsbD_or]; simp
  have c2 : bit (s.regs.ctrl ||| 0x2#32) 2 = false := by rw [bit_eq_getLsbD, BitVec.getLsbD_or, ← bit_eq_getLsbD, n2]; decide
  have cb : bit (s.regs.bmod ||| 0#32) 0 = false := by rw [BitVec.or_zero]; exact nb
  rw [serveResets_eq _ false true false c0 c1 (by
    show (bit (s.regs.ctrl ||| 0x2#32) 2 || bit (s.regs.bmod ||| 0#32) 0) = false
    rw [c2, cb]; rfl), completeResets_fifo]
  show dpuStep (setDpu (.poll (.resetClear 0x2#32) t .fatal :: .clearPartBuf :: ws)
    (raiseReady (fifoResetEffect (asserted 0x2#32 0#32 s)))) = _
  rw [dpuStep_poll_ok _ t _ _ (raiseReady (fifoResetEffect (asserted (2#32) (0#32) s))) hp.2 ht (by
    simp only [pollHolds, regRead, Bool.not_eq_true']
    apply anyBit_zero
    show ((s.regs.ctrl ||| 0x2#32) &&& ~~~0x2#32) &&& 0x2#32 = 0#32
    rw [or_and_not (and_zero_of_sub hn.1 (by decide))]
    exact and_zero_of_sub hn.1 (by decide))]
  rw [show driveBound = 511 + 1 from rfl,
    drive_work 511 .clearPartBuf ws (raiseReady (fifoResetEffect (asserted (2#32) (0#32) s))) rfl (.inl hret)]
  show drive 511 (setDpu ws (raiseReady (clearPartBuf (fifoResetEffect (asserted 0x2#32 0#32 s))))) = _
  unfold fifoReset
  rw [raiseReady_eq]
  congr 3
  apply state_ext <;> first | rfl | skip
  · show ({ s.regs with ctrl := (s.regs.ctrl ||| 0x2#32) &&& ~~~0x2#32, bmod := s.regs.bmod ||| 0#32 } : Regs) = s.regs
    rw [or_and_not (and_zero_of_sub hn.1 (by decide)), BitVec.or_zero]
  · show ({ s.st with dmac := (asserted 0x2#32 0#32 s).st.dmac, fifo := [], partBuf := [] } : Engine) = _
    unfold asserted
    by_cases h : bit s.regs.ctrl 5 = true
    · simp [h]
    · simp [h]

theorem asserted_dmac (m k : Word) (s : State) : (asserted m k s).st.dmac = s.st.dmac ∨ (asserted m k s).st.dmac = s.st.dmac.halted := by
  unfold asserted
  show (if _ then _ else _) = _ ∨ (if _ then _ else _) = _
  split
  · exact .inl rfl
  · exact .inr rfl

theorem completeResets_all (s : State) : completeResets true true true s = dmaResetEffect (fifoResetEffect (controllerResetEffect s)) := rfl

theorem completeResets_dma (s : State) : completeResets false false true s = dmaResetEffect s := rfl

theorem bmod_reset (v : Word) (h0 : v &&& 0x1#32 = 0#32) : v &&& ~~~0x81#32 = v &&& ~~~0x80#32 := by
  rw [show (~~~0x81#32 : Word) = ~~~0x1#32 &&& ~~~0x80#32 from by decide, ← BitVec.and_assoc]
  have h : v &&& ~~~0x1#32 = v := by
    rw [← or_and_not h0, BitVec.and_assoc, BitVec.and_self]
  rw [h]

theorem bmod_swr_reset (v : Word) (h0 : v &&& 0x1#32 = 0#32) : (v ||| 0x1#32) &&& ~~~0x81#32 = v &&& ~~~0x80#32 := by
  rw [show (~~~0x81#32 : Word) = ~~~0x1#32 &&& ~~~0x80#32 from by decide, ← BitVec.and_assoc, or_and_not h0]

theorem ctrl_reset (v : Word) (h : v &&& 0x7#32 = 0#32) : ((v ||| 0x7#32) &&& ~~~0x1#32 &&& ~~~0x2#32) &&& ~~~0x4#32 = v := by
  rw [BitVec.and_assoc, BitVec.and_assoc, show ~~~0x1#32 &&& (~~~0x2#32 &&& ~~~0x4#32) = ~~~0x7#32 from by decide]
  exact or_and_not h

theorem controller_reset_served_raw (x : State) (t : Nat) (ws : List Work) (hy : x.ctl.yields = false) (ht : x.st.now < t) (hret : x.ctl.ret = .ok)
    (h0 : bit x.regs.ctrl 0 = true) (h1 : bit x.regs.ctrl 1 = true) (h2 : dmaResetPending x = true)
    (hz : (x.regs.ctrl &&& ~~~0x1#32 &&& ~~~0x2#32 &&& ~~~0x4#32) &&& 0x7#32 = 0#32) :
    serveResets (setDpu (.poll (.resetClear 0x7#32) t .fatal :: .clearPartBuf :: ws) x) = drive 511 { x with
      regs := { x.regs with cmd := x.regs.cmd &&& 0x7FFFFFFF#32, ctrl := x.regs.ctrl &&& ~~~0x1#32 &&& ~~~0x2#32 &&& ~~~0x4#32, bmod := x.regs.bmod &&& ~~~0x81#32, idsts := 0#32 }
      st := { x.st with dmac := { x.st.dmac with state := .stopped, cur := 0#32, moved := 0, desc := none }, fifo := [], partBuf := [] }
      env := { x.env with cmds := [], xfer := none }
      ctl := { x.ctl with dpu := ws } } := by
  rw [serveResets_eq (setDpu (.poll (.resetClear 0x7#32) t .fatal :: .clearPartBuf :: ws) x) true true true h0 h1 h2, completeResets_all,
    raiseReady_none (by rfl)]
  generalize hX : dmaResetEffect (fifoResetEffect (controllerResetEffect (setDpu (.poll (.resetClear 0x7#32) t .fatal :: .clearPartBuf :: ws) x))) = X
  have e1 : X.ctl = { x.ctl with dpu := .poll (.resetClear 0x7#32) t .fatal :: .clearPartBuf :: ws } := by rw [← hX]; rfl
  have e2 : X.st.now = x.st.now := by rw [← hX]; rfl
  have e3 : X.regs.ctrl = x.regs.ctrl &&& ~~~0x1#32 &&& ~~~0x2#32 &&& ~~~0x4#32 := by rw [← hX]; rfl
  rw [dpuStep_met (ws := .clearPartBuf :: ws) (s := X) (by rw [e1]) (by rw [e1]; exact hy) (by rw [e2]; exact ht) (by
    simp only [pollHolds, regRead, Bool.not_eq_true', e3]
    exact anyBit_zero hz)]
  rw [show driveBound = 511 + 1 from rfl, drive_work 511 .clearPartBuf ws X rfl (.inl (by rw [e1]; exact hret))]
  show drive 511 (clearPartBuf (setDpu ws X)) = _
  rw [← hX]
  rfl

/-- RESET_CONTROLLER after BUS has completed the resets (R685). -/
theorem controller_reset_served (s : State) (t : Nat) (ws : List Work) (hp : Prompt s) (hn : NoReset s) (ht : s.st.now < t) (hret : s.ctl.ret = .ok) :
    serveResets (setDpu (.poll (.resetClear 0x7#32) t .fatal :: .clearPartBuf :: ws) (asserted 0x7#32 0#32 s)) = drive 511 (setDpu ws (controllerReset s)) := by
  have cc := ctrl_reset _ hn.1
  have cb : (s.regs.bmod ||| 0#32) &&& ~~~0x81#32 = s.regs.bmod &&& ~~~0x80#32 := by
    rw [BitVec.or_zero]; exact bmod_reset _ hn.2
  rw [controller_reset_served_raw (asserted 0x7#32 0#32 s) t ws hp.2 ht hret (by show bit (s.regs.ctrl ||| 0x7#32) 0 = true; rw [bit_eq_getLsbD, BitVec.getLsbD_or]; simp)
     (by show bit (s.regs.ctrl ||| 0x7#32) 1 = true; rw [bit_eq_getLsbD, BitVec.getLsbD_or]; simp)
     (by show (bit (s.regs.ctrl ||| 0x7#32) 2 || _) = true; rw [bit_eq_getLsbD, BitVec.getLsbD_or]; simp)
     (by show ((s.regs.ctrl ||| 0x7#32) &&& ~~~0x1#32 &&& ~~~0x2#32 &&& ~~~0x4#32) &&& 0x7#32 = 0#32; rw [cc]; exact hn.1)]
  congr 1
  have c1 : (asserted 0x7#32 0#32 s).regs.ctrl &&& ~~~0x1#32 &&& ~~~0x2#32 &&& ~~~0x4#32 = s.regs.ctrl := cc
  have c2 : (asserted 0x7#32 0#32 s).regs.bmod &&& ~~~0x81#32 = s.regs.bmod &&& ~~~0x80#32 := cb
  rw [c1, c2]
  rcases asserted_dmac 0x7#32 0#32 s with h | h <;> rw [h] <;> rfl

/-- DMA_RESET after BUS has completed the reset (R566). -/
theorem dma_reset_served (s : State) (t : Nat) (ws : List Work) (hp : Prompt s) (hn : NoReset s) (ht : s.st.now < t) (hret : s.ctl.ret = .ok) :
    serveResets (setDpu (.poll .dmaResetClear t .fatal :: .dmaRelease :: ws) (asserted 0x4#32 0x1#32 s)) = drive 511 (setDpu ws (dmaReset s)) := by
  have n0 : bit s.regs.ctrl 0 = false := bit_of_and_zero hn.1 (by decide)
  have n1 : bit s.regs.ctrl 1 = false := bit_of_and_zero hn.1 (by decide)
  have n2 : bit s.regs.ctrl 2 = false := bit_of_and_zero hn.1 (by decide)
  have cc : (s.regs.ctrl ||| 0x4#32) &&& ~~~0x4#32 = s.regs.ctrl := or_and_not (and_zero_of_sub hn.1 (by decide))
  have cb : (s.regs.bmod ||| 0x1#32) &&& ~~~0x81#32 = s.regs.bmod &&& ~~~0x80#32 := bmod_swr_reset _ hn.2
  have cb0 : bit (s.regs.bmod &&& ~~~0x80#32) 0 = false := by
    apply bit_of_and_zero (m := 0x1#32)
    · rw [BitVec.and_assoc, BitVec.and_comm (~~~0x80#32), ← BitVec.and_assoc, hn.2]; simp
    · decide
  rw [serveResets_eq _ false false true (by show bit (s.regs.ctrl ||| 0x4#32) 0 = false; rw [bit_eq_getLsbD, BitVec.getLsbD_or, ← bit_eq_getLsbD, n0]; decide)
     (by show bit (s.regs.ctrl ||| 0x4#32) 1 = false; rw [bit_eq_getLsbD, BitVec.getLsbD_or, ← bit_eq_getLsbD, n1]; decide)
     (by show (bit (s.regs.ctrl ||| 0x4#32) 2 || _) = true; rw [bit_eq_getLsbD, BitVec.getLsbD_or]; simp)]
  rw [completeResets_dma]
  show dpuStep (setDpu (.poll .dmaResetClear t .fatal :: .dmaRelease :: ws)
    (raiseReady (dmaResetEffect (asserted 0x4#32 0x1#32 s)))) = _
  rw [dpuStep_poll_ok _ t _ _ (raiseReady (dmaResetEffect (asserted 0x4#32 0x1#32 s))) hp.2 ht (by
    simp only [pollHolds, regRead]
    show (!bit ((s.regs.ctrl ||| 0x4#32) &&& ~~~0x4#32) 2 && !bit ((s.regs.bmod ||| 0x1#32) &&& ~~~0x81#32) 0) = true
    rw [cc, n2, cb, cb0]; rfl)]
  rw [show driveBound = 511 + 1 from rfl, drive_work 511 .dmaRelease ws (raiseReady (dmaResetEffect (asserted 0x4#32 0x1#32 s))) rfl (.inl hret)]
  show drive 511 (setDpu ws (raiseReady (dmaRelease (dmaResetEffect (asserted 0x4#32 0x1#32 s))))) = _
  unfold dmaReset
  rw [raiseReady_eq]
  congr 3
  refine state_ext rfl ?_ ?_ rfl rfl rfl
  · show ({ s.regs with ctrl := (s.regs.ctrl ||| 0x4#32) &&& ~~~0x4#32, bmod := (s.regs.bmod ||| 0x1#32) &&& ~~~0x81#32, idsts := 0#32 } : Regs) = _
    rw [cc, cb]
  · show ({ s.st with dmac := { (asserted 0x4#32 0x1#32 s).st.dmac with state := .stopped, cur := 0#32, moved := 0, desc := none, owner := .block }, chain := none } : Engine) = _
    rcases asserted_dmac 0x4#32 0x1#32 s with h | h <;> first | (rw [h]; done) | (rw [h]; rfl)

/-- `STATUS.DATA_BUSY` (R116). -/
theorem status_dataBusy (s : State) : bit (regRead .STATUS s) 9 = dataBusy s := by
  show bit (statusVal s) 9 = _
  unfold statusVal
  have b1 := bitVal_le (decide (rxWmark s.regs < s.st.fifo.length))
  have b2 := bitVal_le (decide (s.st.fifo.length ≤ txWmark s.regs))
  have b3 := bitVal_le (decide (s.st.fifo.length = 0))
  have b4 := bitVal_le (decide (s.st.fifo.length = s.cfg.fifoDepth))
  simp only [bit, bits, BitVec.toNat_ofNat, Nat.pow_one]
  generalize bitVal (decide (rxWmark s.regs < s.st.fifo.length)) = x1 at *
  generalize bitVal (decide (s.st.fifo.length ≤ txWmark s.regs)) = x2 at *
  generalize bitVal (decide (s.st.fifo.length = 0)) = x3 at *
  generalize bitVal (decide (s.st.fifo.length = s.cfg.fifoDepth)) = x4 at *
  generalize s.st.fifo.length = n
  cases dataBusy s
  · simp only [bitVal]; simp; omega
  · simp only [bitVal]; simp; omega

end Sys2Proof.Machine
end

