-- ==== Sys2Proof/Laws/PerInstr.lean ====
section
/-! SUPPORT. Statements made per instruction: the low byte of an instruction's first word is its number in the opcode
map (R301) or its event code (R304). -/

namespace Sys2Proof.Laws.OpcodeByte

/-- The opcode map of R301 and the event codes of R304. -/
def number : Instr → Nat
  | .submit _ _ => 0x01
  | .setBusTiming _ _ => 0x02
  | .setClock _ _ => 0x03
  | .getCardPresent _ _ => 0x04
  | .tune _ _ => 0x05
  | .sdioIrqAck _ _ => 0x06
  | .controllerInit _ _ => 0x07
  | .enqueue _ => 0x20
  | .dispatchNext => 0x21
  | .dispatch _ => 0x22
  | .onEvent _ => 0x23
  | .settle => 0x24
  | .complete => 0x25
  | .cardScan => 0x26
  | .issueStop => 0x27
  | .updateClock _ => 0x28
  | .runCtl => 0x29
  | .dpuRun => 0x2A
  | .dmaPrepare _ => 0x30
  | .dmaStart _ => 0x31
  | .dmaStop => 0x32
  | .dmaReset => 0x33
  | .pioPull _ => 0x38
  | .pioPush => 0x39
  | .tuneStart _ _ _ _ _ => 0x40
  | .tuneStep => 0x41
  | .tuneSelect => 0x42
  | .tuneFinish _ => 0x43
  | .resetFifo => 0x48
  | .resetController => 0x49
  | .waitNotBusy => 0x4A
  | .recover => 0x4B
  | .watchdogRecover => 0x4C
  | .irqDispatch => 0x50
  | .watchdogCheck => 0x51
  | .evCmdDone _ => 0x01
  | .evDataErr _ => 0x02
  | .evRxReady _ => 0x03
  | .evTxReady _ => 0x04
  | .evDataOver _ => 0x05
  | .evDmaDone _ => 0x06
  | .evCardDetect _ => 0x07
  | .evSdioIrq _ => 0x08
  | .evWatchdog _ => 0x09

/-- The first word of a well-formed instruction carries its number. -/
def Statement (i : Instr) : Prop :=
  i.wellFormed = true → (encode i).head?.map (fun w => bits w 0 8) = some (number i)

theorem packet_number (op : Nat) (slot : BitVec 4) (ops : List Word) (ho : op < 256) (hn : ops.length < 65536) :
    (packet op slot ops).head?.map (fun w => bits w 0 8) = some op := by
  have h := opwWord_op op slot.toNat ops.length ho (slot.isLt) hn
  simp [packet, h]

theorem event_number (code : Nat) (p : BitVec 24) (hc : code < 256) :
    ([eventWord code p] : List Word).head?.map (fun w => bits w 0 8) = some code := by
  simp [eventWord_code code p hc]

theorem reqWords_length (r : ReqOp) (h : r.wellFormed = true) : (reqWords r).length < 65536 := by
  cases hd : r.data with
  | none => simp [reqWords, hd]
  | some d => simp [ReqOp.wellFormed, hd] at h; simp [reqWords, hd]; omega

theorem submit (s : BitVec 4) (ws : List Word) : Statement (.submit s ws) :=
  fun h => packet_number 0x01 s ws (by decide) (of_decide_eq_true h)

theorem setBusTiming (s : BitVec 4) (ws : List Word) : Statement (.setBusTiming s ws) :=
  fun h => packet_number 0x02 s ws (by decide) (of_decide_eq_true h)

theorem setClock (s : BitVec 4) (ws : List Word) : Statement (.setClock s ws) :=
  fun h => packet_number 0x03 s ws (by decide) (of_decide_eq_true h)

theorem getCardPresent (s : BitVec 4) (ws : List Word) : Statement (.getCardPresent s ws) :=
  fun h => packet_number 0x04 s ws (by decide) (of_decide_eq_true h)

theorem tune (s : BitVec 4) (ws : List Word) : Statement (.tune s ws) :=
  fun h => packet_number 0x05 s ws (by decide) (of_decide_eq_true h)

theorem sdioIrqAck (s : BitVec 4) (ws : List Word) : Statement (.sdioIrqAck s ws) :=
  fun h => packet_number 0x06 s ws (by decide) (of_decide_eq_true h)

theorem controllerInit (s : BitVec 4) (ws : List Word) : Statement (.controllerInit s ws) :=
  fun h => packet_number 0x07 s ws (by decide) (of_decide_eq_true h)

theorem enqueue (r : ReqOp) : Statement (.enqueue r) :=
  fun h => packet_number 0x20 r.slot _ (by decide) (reqWords_length r h)

theorem dispatchNext : Statement (.dispatchNext) :=
  fun _ => packet_number 0x21 0#4 [] (by decide) (by decide)

theorem dispatch (r : ReqOp) : Statement (.dispatch r) :=
  fun h => packet_number 0x22 r.slot _ (by decide) (reqWords_length r h)

theorem onEvent (w : Word) : Statement (.onEvent w) :=
  fun _ => packet_number 0x23 0#4 [w] (by decide) (Nat.lt_of_lt_of_le Nat.one_lt_two (by decide))

theorem settle : Statement (.settle) :=
  fun _ => packet_number 0x24 0#4 [] (by decide) (by decide)

theorem complete : Statement (.complete) :=
  fun _ => packet_number 0x25 0#4 [] (by decide) (by decide)

theorem cardScan : Statement (.cardScan) :=
  fun _ => packet_number 0x26 0#4 [] (by decide) (by decide)

theorem issueStop : Statement (.issueStop) :=
  fun _ => packet_number 0x27 0#4 [] (by decide) (by decide)

theorem updateClock (s : BitVec 4) : Statement (.updateClock s) :=
  fun _ => packet_number 0x28 s [] (by decide) (by decide)

theorem runCtl : Statement (.runCtl) :=
  fun _ => packet_number 0x29 0#4 [] (by decide) (by decide)

theorem dpuRun : Statement (.dpuRun) :=
  fun _ => packet_number 0x2A 0#4 [] (by decide) (by decide)

theorem dmaPrepare (sg : List Seg) : Statement (.dmaPrepare sg) :=
  fun h => packet_number 0x30 0#4 _ (by decide) (by
    have h' := of_decide_eq_true h
    simp only [List.length_cons, segWords_length]; omega)

theorem dmaStart (d : Dir) : Statement (.dmaStart d) :=
  fun _ => packet_number 0x31 0#4 [_] (by decide) (Nat.lt_of_lt_of_le Nat.one_lt_two (by decide))

theorem dmaStop : Statement (.dmaStop) :=
  fun _ => packet_number 0x32 0#4 [] (by decide) (by decide)

theorem dmaReset : Statement (.dmaReset) :=
  fun _ => packet_number 0x33 0#4 [] (by decide) (by decide)

theorem pioPull (b : Bool) : Statement (.pioPull b) :=
  fun _ => packet_number 0x38 0#4 [_] (by decide) (Nat.lt_of_lt_of_le Nat.one_lt_two (by decide))

theorem pioPush : Statement (.pioPush) :=
  fun _ => packet_number 0x39 0#4 [] (by decide) (by decide)

theorem tuneStart (tag : Word) (s mode : BitVec 4) (ix : BitVec 6) (pat : List Byte) : Statement (.tuneStart tag s mode ix pat) :=
  fun h => packet_number 0x40 s _ (by decide) (by
    have h' := of_decide_eq_true h
    simp only [List.length_cons, packBytes_length]; omega)

theorem tuneStep : Statement (.tuneStep) :=
  fun _ => packet_number 0x41 0#4 [] (by decide) (by decide)

theorem tuneSelect : Statement (.tuneSelect) :=
  fun _ => packet_number 0x42 0#4 [] (by decide) (by decide)

theorem tuneFinish (c : Code) : Statement (.tuneFinish c) :=
  fun _ => packet_number 0x43 0#4 [_] (by decide) (Nat.lt_of_lt_of_le Nat.one_lt_two (by decide))

theorem resetFifo : Statement (.resetFifo) :=
  fun _ => packet_number 0x48 0#4 [] (by decide) (by decide)

theorem resetController : Statement (.resetController) :=
  fun _ => packet_number 0x49 0#4 [] (by decide) (by decide)

theorem waitNotBusy : Statement (.waitNotBusy) :=
  fun _ => packet_number 0x4A 0#4 [] (by decide) (by decide)

theorem recover : Statement (.recover) :=
  fun _ => packet_number 0x4B 0#4 [] (by decide) (by decide)

theorem watchdogRecover : Statement (.watchdogRecover) :=
  fun _ => packet_number 0x4C 0#4 [] (by decide) (by decide)

theorem irqDispatch : Statement (.irqDispatch) :=
  fun _ => packet_number 0x50 0#4 [] (by decide) (by decide)

theorem watchdogCheck : Statement (.watchdogCheck) :=
  fun _ => packet_number 0x51 0#4 [] (by decide) (by decide)

theorem evCmdDone (p : BitVec 24) : Statement (.evCmdDone p) :=
  fun _ => event_number 0x01 p (by decide)

theorem evDataErr (p : BitVec 24) : Statement (.evDataErr p) :=
  fun _ => event_number 0x02 p (by decide)

theorem evRxReady (p : BitVec 24) : Statement (.evRxReady p) :=
  fun _ => event_number 0x03 p (by decide)

theorem evTxReady (p : BitVec 24) : Statement (.evTxReady p) :=
  fun _ => event_number 0x04 p (by decide)

theorem evDataOver (p : BitVec 24) : Statement (.evDataOver p) :=
  fun _ => event_number 0x05 p (by decide)

theorem evDmaDone (p : BitVec 24) : Statement (.evDmaDone p) :=
  fun _ => event_number 0x06 p (by decide)

theorem evCardDetect (p : BitVec 24) : Statement (.evCardDetect p) :=
  fun _ => event_number 0x07 p (by decide)

theorem evSdioIrq (p : BitVec 24) : Statement (.evSdioIrq p) :=
  fun _ => event_number 0x08 p (by decide)

theorem evWatchdog (p : BitVec 24) : Statement (.evWatchdog p) :=
  fun _ => event_number 0x09 p (by decide)

end Sys2Proof.Laws.OpcodeByte
end

