-- ==== Sys2Proof/Laws/Settle.lean ====
section
/-! SUPPORT. The settle pass: the rule it takes is the first whose guard holds. -/

namespace Sys2Proof.Machine

theorem stopNeeded_iff (a : Active) : stopNeeded a = true ↔ StopNeeded a := by
  unfold stopNeeded StopNeeded
  cases a.data <;> cases a.cmdErr <;> cases a.dataErr <;> cases a.reqErr <;> simp

theorem stopSettled_iff (a : Active) : stopSettled a = true ↔ StopSettled a := by
  unfold stopSettled StopSettled
  rw [Bool.or_eq_true, ← stopNeeded_iff]; simp

theorem cmdPhaseDone_iff (a : Active) (s : State) : cmdPhaseDone s.st.cst a = true ↔ CmdPhaseDone a s := by
  unfold cmdPhaseDone CmdPhaseDone; simp

theorem dataMoving_iff (s : State) : dataMoving s.st.dst = true ↔ WireMoving s := by
  unfold dataMoving WireMoving; simp

theorem flushable_iff (s : State) : flushable s = true ↔ CanFlush s := by
  unfold flushable CanFlush
  simp only [Bool.or_eq_true, List.any_eq_true, decide_eq_true_eq, isInit, Bool.not_eq_true', decide_eq_false_iff_not, or_assoc, Option.isSome_iff_ne_none]

/-- The rule the pass takes has its guard (R490). -/
theorem settleRule_guard (s : State) (r : SettleRule) (h : settleRule s = some r) : SettleGuard r s := by
  unfold settleRule at h
  split at h
  · rename_i hc; cases h
    simp at hc
    exact ⟨hc.1, (flushable_iff s).mp hc.2⟩
  · split at h
    · cases h
    · rename_i a ha
      unfold settleRuleFor at h
      repeat' (split at h)
      all_goals first | (cases h; done) | cases h
      · rename_i h1 h2; exact ⟨by simp [ha], h1, (dataMoving_iff s).mp h2⟩
      · rename_i h1 h2; exact ⟨by simp [ha], h1, fun hh => h2 ((dataMoving_iff s).mpr hh)⟩
      · rename_i h1 h2
        simp only [Bool.and_eq_true, dataMoving_iff, Option.isSome_iff_ne_none] at h2
        exact ⟨a, ha, h2.1.1.1, h2.1.1.2, h2.1.2, h2.2⟩
      · rename_i h2; simp at h2; exact ⟨a, ha, h2.1, h2.2⟩
      · rename_i h2; simp at h2; exact ⟨a, ha, h2.1.1, h2.1.2, h2.2⟩
      · rename_i h2; simp at h2; exact ⟨a, ha, h2.1.1.1.1.1, h2.1.1.1.1.2, h2.1.1.1.2, h2.1.1.2, h2.1.2, h2.2⟩
      · rename_i h2
        simp only [Bool.and_eq_true, cmdPhaseDone_iff, stopNeeded_iff, Bool.or_eq_true, decide_eq_true_eq, Bool.not_eq_true'] at h2
        exact ⟨a, ha, h2.1.1.1, h2.1.1.2, h2.1.2, h2.2⟩
      · rename_i h2; simp at h2; exact ⟨a, ha, h2.1.1, h2.1.2, h2.2⟩
      · rename_i h2
        simp only [Bool.and_eq_true, cmdPhaseDone_iff, stopSettled_iff, Bool.or_eq_true, decide_eq_true_eq, Bool.not_eq_true', dataPhaseDone, Option.isNone_iff_eq_none] at h2
        obtain ⟨⟨⟨⟨h1, h2⟩, h3⟩, h4⟩, h5⟩ := h2
        exact ⟨a, ha, h1, h2, h3, or_assoc.mp h4, h5⟩
      · rename_i h2
        simp only [Bool.and_eq_true, cmdPhaseDone_iff, stopSettled_iff, Bool.or_eq_true, decide_eq_true_eq, Bool.not_eq_true', Option.isSome_iff_ne_none, or_assoc] at h2
        obtain ⟨⟨⟨⟨⟨h1, h2⟩, h3⟩, h4⟩, h5⟩, h6⟩ := h2
        exact ⟨a, ha, h1, h2, h3, h4, h5, h6⟩

/-- No rule is taken only where no guard holds (R502). -/
theorem settleRule_none (s : State) (r : SettleRule) (h : settleRule s = none) : ¬ SettleGuard r s := by
  unfold settleRule at h
  split at h
  · cases h
  · rename_i hf
    simp only [Bool.and_eq_true, flushable_iff] at hf
    intro hg
    split at h
    · rename_i ha
      cases r <;> simp [SettleGuard, ha] at hg
      exact hf hg
    · rename_i a ha
      unfold settleRuleFor at h
      repeat' (split at h)
      all_goals first | (cases h; done) | skip
      rename_i g0 g1 g2 g3 g4 g5 g6 g7 g8
      cases r
      · exact hf hg
      · exact g0 hg.2.1
      · exact g0 hg.2.1
      · obtain ⟨b, hb, x1, x2, x3, x4⟩ := hg
        rw [ha] at hb; cases hb
        apply g1
        simp only [Bool.and_eq_true, dataMoving_iff, Option.isSome_iff_ne_none]
        exact ⟨⟨⟨x1, x2⟩, x3⟩, x4⟩
      · obtain ⟨b, hb, x1, x2⟩ := hg
        rw [ha] at hb; cases hb
        exact g2 (by simp [x1, x2])
      · obtain ⟨b, hb, x1, x2, x3⟩ := hg
        rw [ha] at hb; cases hb
        exact g3 (by simp [x1, x2, x3])
      · obtain ⟨b, hb, x1, x2, x3, x4, x5, x6⟩ := hg
        rw [ha] at hb; cases hb
        exact g4 (by simp [x1, x2, x3, x4, x5, x6])
      · obtain ⟨b, hb, x1, x2, x3, x4⟩ := hg
        rw [ha] at hb; cases hb
        apply g5
        simp only [Bool.and_eq_true, cmdPhaseDone_iff, stopNeeded_iff, Bool.or_eq_true, decide_eq_true_eq, Bool.not_eq_true']
        exact ⟨⟨⟨x1, x2⟩, x3⟩, x4⟩
      · obtain ⟨b, hb, x1, x2, x3⟩ := hg
        rw [ha] at hb; cases hb
        exact g6 (by simp [x1, x2, x3])
      · obtain ⟨b, hb, x1, x2, x3, x4, x5⟩ := hg
        rw [ha] at hb; cases hb
        apply g7
        simp only [Bool.and_eq_true, cmdPhaseDone_iff, stopSettled_iff, Bool.or_eq_true, decide_eq_true_eq, Bool.not_eq_true', dataPhaseDone, Option.isNone_iff_eq_none]
        exact ⟨⟨⟨⟨x1, x2⟩, x3⟩, or_assoc.mpr x4⟩, x5⟩
      · obtain ⟨b, hb, x1, x2, x3, x4, x5, x6⟩ := hg
        rw [ha] at hb; cases hb
        apply g8
        simp only [Bool.and_eq_true, cmdPhaseDone_iff, stopSettled_iff, Bool.or_eq_true, decide_eq_true_eq, Bool.not_eq_true', Option.isSome_iff_ne_none, or_assoc]
        exact ⟨⟨⟨⟨⟨x1, x2⟩, x3⟩, x4⟩, x5⟩, x6⟩

theorem settleGuard_active {s : State} {r : SettleRule} (hr : r ≠ .fatal) (h : SettleGuard r s) : ∃ a, s.st.active = some a := by
  cases r
  case fatal => exact absurd rfl hr
  case wdData => exact Option.ne_none_iff_exists'.mp h.1
  case wdCmd => exact Option.ne_none_iff_exists'.mp h.1
  all_goals (obtain ⟨a, ha, _⟩ := h; exact ⟨a, ha⟩)

theorem cmdAbort_guard {s : State} {a : Active} (ha : s.st.active = some a) : (a.cmdComplete && a.cmdErr.isSome && a.data.isSome && dataMoving s.st.dst) = true ↔ SettleGuard .cmdAbort s := by
  simp only [Bool.and_eq_true, dataMoving_iff, Option.isSome_iff_ne_none, SettleGuard, ha]
  constructor
  · intro h2; exact ⟨a, rfl, h2.1.1.1, h2.1.1.2, h2.1.2, h2.2⟩
  · rintro ⟨b, hb, x1, x2, x3, x4⟩; cases hb; exact ⟨⟨⟨x1, x2⟩, x3⟩, x4⟩

theorem dataBusy_guard {s : State} {a : Active} (ha : s.st.active = some a) : (decide (s.st.dst = .dBusy) && !a.dbusyChecked) = true ↔ SettleGuard .dataBusy s := by
  simp only [Bool.and_eq_true, decide_eq_true_eq, Bool.not_eq_true', SettleGuard, ha]
  constructor
  · intro h2; exact ⟨a, rfl, h2.1, h2.2⟩
  · rintro ⟨b, hb, x1, x2⟩; cases hb; exact ⟨x1, x2⟩

theorem dataDone_guard {s : State} {a : Active} (ha : s.st.active = some a) : (decide (s.st.dst = .dBusy) && a.dbusyChecked && (decide (a.path ≠ .dma) || a.dmaDone)) = true ↔ SettleGuard .dataDone s := by
  simp only [Bool.and_eq_true, decide_eq_true_eq, SettleGuard, ha, Bool.or_eq_true]
  constructor
  · intro h2; exact ⟨a, rfl, h2.1.1, h2.1.2, h2.2⟩
  · rintro ⟨b, hb, x1, x2, x3⟩; cases hb; exact ⟨⟨x1, x2⟩, x3⟩

theorem cmdBusy_guard {s : State} {a : Active} (ha : s.st.active = some a) : (a.cmdComplete && decide (s.st.cst = .cIdle) && decide (a.cmd.resp = .shortBusy) && a.data.isNone
      && a.cmdErr.isNone && !a.cbusyChecked) = true ↔ SettleGuard .cmdBusy s := by
  simp only [Bool.and_eq_true, decide_eq_true_eq, Bool.not_eq_true', SettleGuard, ha, Option.isNone_iff_eq_none]
  constructor
  · intro h2; exact ⟨a, rfl, h2.1.1.1.1.1, h2.1.1.1.1.2, h2.1.1.1.2, h2.1.1.2, h2.1.2, h2.2⟩
  · rintro ⟨b, hb, x1, x2, x3, x4, x5, x6⟩; cases hb; exact ⟨⟨⟨⟨⟨x1, x2⟩, x3⟩, x4⟩, x5⟩, x6⟩

theorem issueStop_guard {s : State} {a : Active} (ha : s.st.active = some a) : (cmdPhaseDone s.st.cst a && stopNeeded a && !a.stopIssued
      && (decide (s.st.dst = .dIdle) || decide (s.st.dst = .dRecovery))) = true ↔ SettleGuard .issueStop s := by
  simp only [Bool.and_eq_true, cmdPhaseDone_iff, stopNeeded_iff, Bool.or_eq_true, decide_eq_true_eq, Bool.not_eq_true', SettleGuard, ha]
  constructor
  · intro h2; exact ⟨a, rfl, h2.1.1.1, h2.1.1.2, h2.1.2, h2.2⟩
  · rintro ⟨b, hb, x1, x2, x3, x4⟩; cases hb; exact ⟨⟨⟨x1, x2⟩, x3⟩, x4⟩

theorem stopBusy_guard {s : State} {a : Active} (ha : s.st.active = some a) : (a.stopDone && a.stopErr.isNone && !a.sbusyChecked) = true ↔ SettleGuard .stopBusy s := by
  simp only [Bool.and_eq_true, Bool.not_eq_true', SettleGuard, ha, Option.isNone_iff_eq_none]
  constructor
  · intro h2; exact ⟨a, rfl, h2.1.1, h2.1.2, h2.2⟩
  · rintro ⟨b, hb, x1, x2, x3⟩; cases hb; exact ⟨⟨x1, x2⟩, x3⟩

theorem recover_guard {s : State} {a : Active} (ha : s.st.active = some a) : (a.recovPending && !a.recovered && cmdPhaseDone s.st.cst a && dataPhaseDone s.st.dst a && stopSettled a) = true ↔ SettleGuard .recover s := by
  simp only [Bool.and_eq_true, cmdPhaseDone_iff, stopSettled_iff, Bool.or_eq_true, decide_eq_true_eq, Bool.not_eq_true', dataPhaseDone, Option.isNone_iff_eq_none, SettleGuard, ha]
  constructor
  · rintro ⟨⟨⟨⟨h1, h2⟩, h3⟩, h4⟩, h5⟩; exact ⟨a, rfl, h1, h2, h3, or_assoc.mp h4, h5⟩
  · rintro ⟨b, hb, x1, x2, x3, x4, x5⟩; cases hb; exact ⟨⟨⟨⟨x1, x2⟩, x3⟩, or_assoc.mpr x4⟩, x5⟩

theorem complete_guard {s : State} {a : Active} (ha : s.st.active = some a) : (cmdPhaseDone s.st.cst a && decide (s.st.dst = .dIdle) && stopSettled a && (!a.recovPending || a.recovered)
      && (decide (a.cmd.resp ≠ .shortBusy) || a.data.isSome || a.cmdErr.isSome || a.cbusyChecked)
      && (!a.stopDone || a.stopErr.isSome || a.sbusyChecked)) = true ↔ SettleGuard .complete s := by
  simp only [Bool.and_eq_true, cmdPhaseDone_iff, stopSettled_iff, Bool.or_eq_true, decide_eq_true_eq, Bool.not_eq_true', Option.isSome_iff_ne_none, or_assoc, SettleGuard, ha]
  constructor
  · rintro ⟨⟨⟨⟨⟨h1, h2⟩, h3⟩, h4⟩, h5⟩, h6⟩; exact ⟨a, rfl, h1, h2, h3, h4, h5, h6⟩
  · rintro ⟨b, hb, x1, x2, x3, x4, x5, x6⟩; cases hb; exact ⟨⟨⟨⟨⟨x1, x2⟩, x3⟩, x4⟩, x5⟩, x6⟩

/-- The first rule in R490's order whose guard holds is the rule the pass takes. -/
theorem settleRule_of_settlesBy (s : State) (r : SettleRule) (h : SettlesBy r s) : settleRule s = some r := by
  obtain ⟨hg, hn⟩ := h
  have nf : r ≠ .fatal → ¬ (s.st.fatal && flushable s) = true := by
    intro hr hf
    simp only [Bool.and_eq_true, flushable_iff] at hf
    exact hn .fatal (by cases r <;> first | exact absurd rfl hr | decide) hf
  by_cases hr : r = .fatal
  · subst hr
    unfold settleRule
    rw [if_pos]
    simp only [Bool.and_eq_true, flushable_iff]; exact hg
  · obtain ⟨a, ha⟩ := settleGuard_active hr hg
    unfold settleRule
    rw [if_neg (nf hr), ha]
    show settleRuleFor s.st.cst s.st.dst a = _
    unfold settleRuleFor
    have nrec : 2 < settleRank r → ¬ s.st.cst = .cRecovery := by
      intro hlt hc
      by_cases hm : WireMoving s
      · exact hn .wdData (by show 1 < _; omega) ⟨by simp [ha], hc, hm⟩
      · exact hn .wdCmd (by show 2 < _; omega) ⟨by simp [ha], hc, hm⟩
    cases r
    case fatal => exact absurd rfl hr
    case wdData => rw [if_pos hg.2.1, if_pos ((dataMoving_iff s).mpr hg.2.2)]
    case wdCmd => rw [if_pos hg.2.1, if_neg (fun h => hg.2.2 ((dataMoving_iff s).mp h))]
    case cmdAbort => rw [if_neg (nrec (by decide)), if_pos ((cmdAbort_guard ha).mpr hg)]
    case dataBusy => rw [if_neg (nrec (by decide)), if_neg (fun h => hn _ (by decide) ((cmdAbort_guard ha).mp h)), if_pos ((dataBusy_guard ha).mpr hg)]
    case dataDone => rw [if_neg (nrec (by decide)), if_neg (fun h => hn _ (by decide) ((cmdAbort_guard ha).mp h)), if_neg (fun h => hn _ (by decide) ((dataBusy_guard ha).mp h)), if_pos ((dataDone_guard ha).mpr hg)]
    case cmdBusy => rw [if_neg (nrec (by decide)), if_neg (fun h => hn _ (by decide) ((cmdAbort_guard ha).mp h)), if_neg (fun h => hn _ (by decide) ((dataBusy_guard ha).mp h)), if_neg (fun h => hn _ (by decide) ((dataDone_guard ha).mp h)), if_pos ((cmdBusy_guard ha).mpr hg)]
    case issueStop => rw [if_neg (nrec (by decide)), if_neg (fun h => hn _ (by decide) ((cmdAbort_guard ha).mp h)), if_neg (fun h => hn _ (by decide) ((dataBusy_guard ha).mp h)), if_neg (fun h => hn _ (by decide) ((dataDone_guard ha).mp h)), if_neg (fun h => hn _ (by decide) ((cmdBusy_guard ha).mp h)), if_pos ((issueStop_guard ha).mpr hg)]
    case stopBusy => rw [if_neg (nrec (by decide)), if_neg (fun h => hn _ (by decide) ((cmdAbort_guard ha).mp h)), if_neg (fun h => hn _ (by decide) ((dataBusy_guard ha).mp h)), if_neg (fun h => hn _ (by decide) ((dataDone_guard ha).mp h)), if_neg (fun h => hn _ (by decide) ((cmdBusy_guard ha).mp h)), if_neg (fun h => hn _ (by decide) ((issueStop_guard ha).mp h)), if_pos ((stopBusy_guard ha).mpr hg)]
    case recover => rw [if_neg (nrec (by decide)), if_neg (fun h => hn _ (by decide) ((cmdAbort_guard ha).mp h)), if_neg (fun h => hn _ (by decide) ((dataBusy_guard ha).mp h)), if_neg (fun h => hn _ (by decide) ((dataDone_guard ha).mp h)), if_neg (fun h => hn _ (by decide) ((cmdBusy_guard ha).mp h)), if_neg (fun h => hn _ (by decide) ((issueStop_guard ha).mp h)), if_neg (fun h => hn _ (by decide) ((stopBusy_guard ha).mp h)), if_pos ((recover_guard ha).mpr hg)]
    case complete => rw [if_neg (nrec (by decide)), if_neg (fun h => hn _ (by decide) ((cmdAbort_guard ha).mp h)), if_neg (fun h => hn _ (by decide) ((dataBusy_guard ha).mp h)), if_neg (fun h => hn _ (by decide) ((dataDone_guard ha).mp h)), if_neg (fun h => hn _ (by decide) ((cmdBusy_guard ha).mp h)), if_neg (fun h => hn _ (by decide) ((issueStop_guard ha).mp h)), if_neg (fun h => hn _ (by decide) ((stopBusy_guard ha).mp h)), if_neg (fun h => hn _ (by decide) ((recover_guard ha).mp h)), if_pos ((complete_guard ha).mpr hg)]

/-- SETTLE's first firing (R490), where it completes no request whose buffers the DMA engine owns (R157). -/
theorem settle_fires (s : State) (r : SettleRule) (h : SettlesBy r s) (ho : ¬ (r = .complete ∧ s.st.dmac.owner = .engine)) :
    exec .settle s = drive driveBound (settleFire r (settling s)) := by
  show execSettle s = _
  unfold execSettle settleTurn
  have : settleRule (push [.settleLoop, .halt] s) = settleRule s := rfl
  rw [this, settleRule_of_settlesBy s r h]
  show (if r = .complete ∧ s.st.dmac.owner = .engine then _ else _) = _
  rw [if_neg ho]
  rfl

/-- SETTLE that would complete a request whose buffers the DMA engine owns (R157). -/
theorem settle_owned (s : State) (h : SettlesBy .complete s) (ho : s.st.dmac.owner = .engine) :
    exec .settle s = .fault .ownerWithoutRequest := by
  show execSettle s = _
  unfold execSettle settleTurn
  have : settleRule (push [.settleLoop, .halt] s) = settleRule s := rfl
  rw [this, settleRule_of_settlesBy s _ h]
  exact if_pos ⟨rfl, ho⟩

theorem drive_settle_pause {n : Nat} {s : State} {ws : List Work} (h : s.ctl.dpu = .settleLoop :: ws) : drive (n+1) s = .next s := by
  conv => lhs; rw [← setDpu_self s, h]
  rw [drive_settleLoop, ← h]
  rfl

/-- Where a guard holds, some rule of no later rank is the first whose guard holds. -/
theorem settlesBy_exists (s : State) : ∀ n q, settleRank q ≤ n → SettleGuard q s →
    ∃ r, settleRank r ≤ settleRank q ∧ SettlesBy r s := by
  intro n
  induction n with
  | zero => exact fun q hq hg => ⟨q, Nat.le_refl _, hg, fun r hr => absurd hr (by omega)⟩
  | succ n ih =>
    intro q hq hg
    by_cases h : ∃ r, settleRank r < settleRank q ∧ SettleGuard r s
    · obtain ⟨r, hr, hgr⟩ := h
      obtain ⟨r', hr', hs⟩ := ih r (by omega) hgr
      exact ⟨r', by omega, hs⟩
    · exact ⟨q, Nat.le_refl _, hg, fun r hr hgr => h ⟨r, hr, hgr⟩⟩

/-- The rule the pass takes is the first whose guard holds. -/
theorem settlesBy_of_settleRule {s : State} {r : SettleRule} (h : settleRule s = some r) : SettlesBy r s := by
  refine ⟨settleRule_guard s r h, fun q hq hg => ?_⟩
  obtain ⟨r', hr', hs⟩ := settlesBy_exists s _ q (Nat.le_refl _) hg
  have := settleRule_of_settlesBy s r' hs
  rw [h] at this
  cases this
  omega

end Sys2Proof.Machine
end

