-- ==== Sys2Proof/Tests/Slice0.lean ====
section
/-! SUPPORT. Tests: ill-formed terms, words written out from 30_encoding.md, values of 95_test_vectors.md, and for each
statement with hypotheses a state and operands that meet them. -/

namespace Sys2Proof.Tests

open Sys2Proof.Machine

/-! ### Well-formedness: each check refuses an ill-formed term -/

/-- 65536 operand words do not fit NWORDS (R300). -/
theorem test_wf_operands_refused (s : BitVec 4) :
    (Instr.submit s (List.replicate 65536 0#32)).wellFormed = false
    ∧ (Instr.setBusTiming s (List.replicate 65536 0#32)).wellFormed = false
    ∧ (Instr.setClock s (List.replicate 65536 0#32)).wellFormed = false
    ∧ (Instr.getCardPresent s (List.replicate 65536 0#32)).wellFormed = false
    ∧ (Instr.tune s (List.replicate 65536 0#32)).wellFormed = false
    ∧ (Instr.sdioIrqAck s (List.replicate 65536 0#32)).wellFormed = false
    ∧ (Instr.controllerInit s (List.replicate 65536 0#32)).wellFormed = false := by
  simp only [Instr.wellFormed, operandsFit, List.length_replicate]
  decide

/-- 32766 segments do not fit a request record; nor 32768 DMA_PREPARE's. -/
theorem test_wf_segments_refused (g : Seg) (r : ReqOp) :
    ({ r with data := some ⟨.read, 1#16, 1#16, List.replicate 32766 g⟩ } : ReqOp).wellFormed = false
    ∧ (Instr.dmaPrepare (List.replicate 32768 g)).wellFormed = false := by
  simp only [ReqOp.wellFormed, Instr.wellFormed, List.length_replicate]
  decide

/-- A pattern of 65536 bytes does not fit PLEN (R303). -/
theorem test_wf_pattern_refused (t : Word) (s m : BitVec 4) (i : BitVec 6) (b : Byte) :
    (Instr.tuneStart t s m i (List.replicate 65536 b)).wellFormed = false := by
  simp only [Instr.wellFormed, List.length_replicate]
  decide

/-- Payload bits R305 does not list. -/
theorem test_wf_payloads_refused :
    (Instr.evCmdDone 0x000001#24).wellFormed = false ∧ (Instr.evDataErr 0x040000#24).wellFormed = false
    ∧ (Instr.evRxReady 0x000001#24).wellFormed = false ∧ (Instr.evTxReady 0x000001#24).wellFormed = false
    ∧ (Instr.evDataOver 0x000001#24).wellFormed = false ∧ (Instr.evDmaDone 0x000004#24).wellFormed = false
    ∧ (Instr.evCardDetect 0x000001#24).wellFormed = false ∧ (Instr.evSdioIrq 0x010000#24).wellFormed = false := by
  decide

/-! ### Decoding: words written out from R300 to R305 -/

/-- OP in bits 7:0, SLOT in 11:8, 0 in 15:12, NWORDS in 31:16 (R300, R301). -/
theorem test_decode_host :
    decode .host [0x00020001#32, 0x00000100#32, 0x00000000#32] = .ok (.submit 0#4 [0x00000100#32, 0x00000000#32])
    ∧ decode .host [0x00010102#32, 0x00000406#32] = .ok (.setBusTiming 1#4 [0x00000406#32])
    ∧ decode .host [0x00010203#32, 0x00061A80#32] = .ok (.setClock 2#4 [0x00061A80#32])
    ∧ decode .host [0x00000304#32] = .ok (.getCardPresent 3#4 [])
    ∧ decode .host [0x00020405#32, 0x00031306#32, 0x00CCBBAA#32]
      = .ok (.tune 4#4 [0x00031306#32, 0x00CCBBAA#32])
    ∧ decode .host [0x00000F06#32] = .ok (.sdioIrqAck 15#4 [])
    ∧ decode .host [0x00000007#32] = .ok (.controllerInit 0#4 []) := by
  decide

/-- V1.5 to V1.7, and a packet shorter than NWORDS. -/
theorem test_decode_host_refused :
    decode .host [0x00001004#32] = .error .reservedBits ∧ decode .host [0x00000008#32] = .error (.reservedOp 8)
    ∧ decode .host [0x00000022#32] = .error (.internalOp 0x22) ∧ decode .host [0x00020001#32, 0#32] = .error .truncated
    ∧ decode .host [] = .error .truncated := by
  decide

/-- The operation numbers of R301, operands 0 (log 3). -/
theorem test_decode_slot_manager :
    decode .trace [0x00000120#32] = .ok (.enqueue ⟨0#32, 1#4, .host, ⟨0#6, 0#32, .noResp, false⟩, none, false⟩)
    ∧ decode .trace [0x00000021#32] = .ok .dispatchNext
    ∧ decode .trace [0x00000222#32] = .ok (.dispatch ⟨0#32, 2#4, .host, ⟨0#6, 0#32, .noResp, false⟩, none, false⟩)
    ∧ decode .trace [0x00010023#32, 0x00000401#32] = .ok (.onEvent 0x00000401#32)
    ∧ decode .trace [0x00000024#32] = .ok .settle ∧ decode .trace [0x00000025#32] = .ok .complete
    ∧ decode .trace [0x00000026#32] = .ok .cardScan ∧ decode .trace [0x00000027#32] = .ok .issueStop
    ∧ decode .trace [0x00000328#32] = .ok (.updateClock 3#4) ∧ decode .trace [0x00000029#32] = .ok .runCtl
    ∧ decode .trace [0x0000002A#32] = .ok .dpuRun := by
  decide

/-- A request record with data: CMDW's fields as in R302, `read_single s0, 17, 0, 512, 0x1000` (V1.3). -/
theorem test_decode_request :
    decode .trace [0x00070022#32, 0x00000003#32, 0x00000351#32, 0x00000000#32, 0x00010200#32, 0x00000001#32, 0x00001000#32,
      0x00000200#32]
    = .ok (.dispatch ⟨3#32, 0#4, .host, ⟨17#6, 0#32, .short, true⟩,
        some ⟨.read, 512#16, 1#16, [⟨0x1000#32, 0x200#32⟩]⟩, false⟩) := by
  decide

theorem test_decode_data_path :
    decode .trace [0x00000030#32] = .ok (.dmaPrepare [])
    ∧ decode .trace [0x00030030#32, 1#32, 0x1000#32, 0x200#32] = .ok (.dmaPrepare [⟨0x1000#32, 0x200#32⟩])
    ∧ decode .trace [0x00010031#32, 1#32] = .ok (.dmaStart .write) ∧ decode .trace [0x00000031#32] = .ok (.dmaStart .read)
    ∧ decode .trace [0x00000032#32] = .ok .dmaStop ∧ decode .trace [0x00000033#32] = .ok .dmaReset
    ∧ decode .trace [0x00010038#32, 1#32] = .ok (.pioPull true) ∧ decode .trace [0x00000038#32] = .ok (.pioPull false)
    ∧ decode .trace [0x00000039#32] = .ok .pioPush := by
  decide

/-- TUNE_START's words: the tag, TUNE's first word (mode 6, command 19, 3 bytes) and the pattern, low byte first. -/
theorem test_decode_tuning :
    decode .trace [0x00030140#32, 0x00000005#32, 0x00031306#32, 0x00CCBBAA#32]
      = .ok (.tuneStart 5#32 1#4 6#4 19#6 [0xAA#8, 0xBB#8, 0xCC#8])
    ∧ decode .trace [0x00000041#32] = .ok .tuneStep ∧ decode .trace [0x00000042#32] = .ok .tuneSelect
    ∧ decode .trace [0x00010043#32, 0x00000010#32] = .ok (.tuneFinish .noViableMode) := by
  decide

theorem test_decode_recovery :
    decode .trace [0x00000048#32] = .ok .resetFifo ∧ decode .trace [0x00000049#32] = .ok .resetController
    ∧ decode .trace [0x0000004A#32] = .ok .waitNotBusy ∧ decode .trace [0x0000004B#32] = .ok .recover
    ∧ decode .trace [0x0000004C#32] = .ok .watchdogRecover ∧ decode .trace [0x00000050#32] = .ok .irqDispatch
    ∧ decode .trace [0x00000051#32] = .ok .watchdogCheck ∧ decode .trace [0x00000034#32] = .error (.reservedOp 0x34)
    ∧ decode .trace [0x00000007#32] = .error (.hostOp 7) ∧ decode .trace [0x00000124#32] = .error .reservedBits := by
  decide

/-- CODE in bits 3:0, PAYLOAD in bits 31:8 (R304); the words of V3.12, V4.10 and V8. -/
theorem test_decode_events :
    decode .event [0x00010401#32] = .ok (.evCmdDone 0x000104#24) ∧ decode .event [0x02000002#32] = .ok (.evDataErr 0x020000#24)
    ∧ decode .event [0x00000003#32] = .ok (.evRxReady 0#24) ∧ decode .event [0x00000004#32] = .ok (.evTxReady 0#24)
    ∧ decode .event [0x00000005#32] = .ok (.evDataOver 0#24) ∧ decode .event [0x00000206#32] = .ok (.evDmaDone 0x000002#24)
    ∧ decode .event [0x00000007#32] = .ok (.evCardDetect 0#24) ∧ decode .event [0x00000108#32] = .ok (.evSdioIrq 0x000001#24)
    ∧ decode .event [0x00000209#32] = .ok (.evWatchdog 0x000002#24) ∧ decode .event [0x00000010#32] = .error .badEventCode
    ∧ decode .event [0x00000000#32] = .error .badEventCode := by
  decide

/-- Rows of the opcode table as the host numbers them. -/
theorem test_table_words :
    decodeTableWord 16 0x0001 = some (.submit 0#4 []) ∧ decodeTableWord 16 0x0107 = some (.controllerInit 1#4 [])
    ∧ decodeTableWord 8 0x24 = some .settle ∧ decodeTableWord 8 0x51 = some .watchdogCheck
    ∧ decodeTableWord 8 0x01 = some (.evCmdDone 0#24) ∧ decodeTableWord 8 0x09 = some (.evWatchdog 0#24) := by
  decide

/-! ### Values of 95_test_vectors.md -/

/-- What a result's state holds; none at a stop. -/
def got {α : Type} (r : Res) (f : State → α) : Option α :=
  match r with
  | .next s => some (f s)
  | .fault _ => none
  | .refused _ => none

/-- V1's engine: initialised, a card in slot 0, the next tag 3; the registers as CONTROLLER_INIT leaves `CTRL` and
`INTMASK` (V10.1, V10.5). -/
def calm : State :=
  { State.reset with
    regs := { State.reset.regs with ctrl := 0x10#32, intmask := 0xBFCF#32 }
    st := { State.reset.st with
      inited := true, nextSeq := 3#32, baseMask := 0xBFCF#32, slots := [{ Slot.reset with present := true }] }
    env := { State.reset.env with present := [true] } }

/-- A command of index 17, short response, CRC checked. -/
def cmd17 : CmdSpec := ⟨17#6, 0#32, .short, true⟩
def segA : Seg := ⟨0x1000#32, 0x200#32⟩

/-- `read_single s0, 17, 0, 512, 0x1000`, its write, and the command alone; tag 2. -/
def readReq : ReqOp := ⟨2#32, 0#4, .host, cmd17, some ⟨.read, 512#16, 1#16, [segA]⟩, false⟩
def writeReq : ReqOp := ⟨2#32, 0#4, .host, cmd17, some ⟨.write, 512#16, 1#16, [segA]⟩, false⟩
def plainReq : ReqOp := ⟨2#32, 0#4, .host, cmd17, none, false⟩

/-- `calm` with a request under way. -/
def under (c : CState) (d : DState) (a : Active) (s : State) : State :=
  { s with st := { s.st with cst := c, dst := d, active := some a } }

def ofReq (r : ReqOp) (p : Path) : Active := { Active.fresh (Request.fresh r) with path := p }

/-- V1.3, V1.10 to V1.13. -/
theorem test_submit :
    (got (react (.feed .host [0x00060001#32, 0x351#32, 0#32, 0x00010200#32, 1#32, 0x1000#32, 0x200#32]) calm) fun t =>
      (t.ctl.accepted, t.st.nextSeq, (slotAt t 0).queue.length)) = some (⟨.ok, 3#32, 0#32⟩, 4#32, 1)
    ∧ (got (react (.feed .host [0x00060001#32, 0x1351#32, 0#32, 0x00010200#32, 1#32, 0x1000#32, 0x200#32]) calm)
      fun t => t.ctl.accepted) = some ⟨.illegalOp, 0#32, 0#32⟩
    ∧ (got (react (.feed .host [0x00020001#32, 0x84D#32, 0#32]) calm) fun t => t.ctl.accepted)
      = some ⟨.invalidArg, 0#32, 0#32⟩
    ∧ (got (react (.feed .host [0x00060001#32, 0x351#32, 0#32, 0x00010200#32, 1#32, 0x1000#32, 0x1F4#32]) calm)
      fun t => t.ctl.accepted) = some ⟨.invalidArg, 0#32, 0#32⟩
    ∧ (got (react (.feed .host [0x00060001#32, 0x351#32, 0#32, 0x00010200#32, 1#32, 0x10FF0#32, 0x200#32]) calm)
      fun t => t.ctl.accepted) = some ⟨.invalidArg, 0#32, 0#32⟩ := by
  decide

/-- V1.5 to V1.7. -/
theorem test_illegal_packets :
    ([0x00001004#32, 0x00000008#32, 0x00000022#32] : List Word).map (fun w =>
      got (react (.feed .host [w]) calm) fun t => t.ctl.accepted) = List.replicate 3 (some ⟨.illegalOp, 0#32, 0#32⟩) := by
  decide

/-- V1.15, V1.16; V11's packet in range. -/
theorem test_setBusTiming :
    ([[0x00010002#32, 0x0000040A#32], [0x00010002#32, 0x00000206#32], [0x00010002#32, 0x00000406#32]] : List (List Word)).map
      (fun ws => got (react (.feed .host ws) calm) fun t => t.ctl.accepted)
    = [some ⟨.invalidArg, 0#32, 0#32⟩, some ⟨.invalidArg, 0#32, 0#32⟩, some ⟨.ok, 3#32, 0#32⟩] := by
  decide

/-- V1.2, V1.14, V1.17. -/
theorem test_getCardPresent :
    (got (react (.feed .host [0x00000004#32]) calm) fun t => (t.ctl.accepted, t.st.nextSeq))
      = some (⟨.ok, 0#32, 1#32⟩, 3#32)
    ∧ (got (react (.feed .host [0x00000104#32]) calm) fun t => t.ctl.accepted) = some ⟨.invalidArg, 0#32, 0#32⟩
    ∧ (got (react (.feed .host [0x00000004#32]) State.reset) fun t => t.ctl.accepted) = some ⟨.notReady, 0#32, 0#32⟩ := by
  decide

/-- V1.1, V1.18; R409. -/
theorem test_controllerInit_setClock :
    (got (react (.feed .host [0x00000007#32]) calm) fun t => (t.ctl.accepted, t.st.ctlq.map (·.op)))
      = some (⟨.ok, 3#32, 0#32⟩, [.controllerInit])
    ∧ (got (react (.feed .host [0x00000007#32]) State.reset) fun t => t.ctl.accepted) = some ⟨.ok, 0#32, 0#32⟩
    ∧ (got (react (.feed .host [0x00010003#32, 0x00061A80#32]) calm) fun t => t.st.ctlq.map (·.op))
      = some [.setClock 400000#32] := by
  decide

/-- V1.24, V1.26; V1.23 with an absent card. -/
theorem test_tune_and_ack :
    (got (react (.feed .host [0x00010005#32, 0x00001306#32]) calm) fun t => t.ctl.accepted)
      = some ⟨.invalidArg, 0#32, 0#32⟩
    ∧ (got (react (.feed .host [0x00020005#32, 0x00031306#32, 0xAA332211#32]) calm) fun t => t.ctl.accepted)
      = some ⟨.illegalOp, 0#32, 0#32⟩
    ∧ (got (react (.feed .host [0x00000006#32]) { calm with st := { calm.st with slots := [Slot.reset] } })
      fun t => t.ctl.accepted) = some ⟨.ok, 3#32, 0#32⟩ := by
  decide

/-- V2.1, V4.1, V9.1: the first command after an insertion, at tick 100. -/
theorem test_dispatch_read :
    (got (exec (.dispatch readReq) { calm with st := { calm.st with now := 100 } }) fun t =>
      (t.regs.cmd, t.regs.bytcnt, t.st.cst, t.st.dst, t.st.wd.deadline, t.st.dmac.state))
    = some (0x8000A351#32, 0x200#32, .cIssuing, .dXfer, 20000100, .running) := by
  decide

/-- V2.9, V2.8: no response; no CRC check after the first command. -/
theorem test_dispatch_plain :
    (got (exec (.dispatch { plainReq with cmd := ⟨0#6, 0#32, .noResp, true⟩ }) calm) fun t => (t.regs.cmd, t.st.dst))
      = some (0x8000A100#32, .dIdle)
    ∧ (got (exec (.dispatch { plainReq with cmd := ⟨41#6, 7#32, .short, false⟩ })
        { calm with st := { calm.st with slots := [{ Slot.reset with present := true, needInit := false }] } })
      fun t => (t.regs.cmd, t.regs.cmdarg)) = some (0x80002069#32, 7#32) := by
  decide

/-- V4.13: two slots, `rr = 1`, both queues non-empty: slot 0 is served. -/
theorem test_dispatchNext :
    (got (exec .dispatchNext { calm with
        cfg := { calm.cfg with nslots := 2 }
        st := { calm.st with rr := 1, slots := [0#4, 1#4].map fun i =>
          { Slot.reset with present := true, queue := [Request.fresh { plainReq with slot := i }] } } })
      fun t => (t.st.rr, t.st.active.map (·.slot), (slotAt t 0).queue.length, (slotAt t 1).queue.length))
    = some (0, some 0#4, 0, 1) := by
  decide

/-- R455's example: acceptance order. -/
theorem test_enqueue :
    (got (exec (.enqueue { plainReq with seq := 9#32 })
        { calm with st := { calm.st with slots := [{ Slot.reset with queue := [Request.fresh plainReq] }] } })
      fun t => (slotAt t 0).queue.map (·.seq)) = some [2#32, 9#32] := by
  decide

/-- V7.8 and V2.11 for slot 1. -/
theorem test_stop_and_clock_commands :
    (got (exec .issueStop (under .cIdle .dRecovery (ofReq { readReq with slot := 1#4 } .pio) calm)) fun t =>
      (t.regs.cmdarg, t.regs.cmd, t.st.cst)) = some (0#32, 0x8001414C#32, .cStop)
    ∧ (got (exec (.updateClock 1#4) calm) fun t => t.regs.cmd) = some 0x80212000#32 := by
  decide

/-- Four descriptor words at an address. -/
def descAt (a : Nat) (t : State) : List (Option Nat) := [memLoad t a 4, memLoad t (a + 4) 4, memLoad t (a + 8) 4, memLoad t (a + 12) 4]

/-- V3.3: contiguous segments are not merged; V3.6 to V3.9: declined. -/
theorem test_dmaPrepare :
    (got (exec (.dmaPrepare [⟨0x1000#32, 256#32⟩, ⟨0x1100#32, 256#32⟩]) calm) fun t =>
      (descAt 0x10000 t, descAt 0x10010 t, t.ctl.ret))
      = some ([some 0x8000001A, some 0x100, some 0x1000, some 0x10010], [some 0x80000014, some 0x100, some 0x1100, some 0], .ok)
    ∧ ([[⟨0x1002#32, 512#32⟩], [⟨0x1000#32, 510#32⟩, ⟨0x2000#32, 2#32⟩], [⟨0x1000#32, 8#32⟩], [⟨0x3001#32, 3#32⟩]]
        : List (List Seg)).map (fun sg => got (exec (.dmaPrepare sg) calm) fun t => (t.ctl.ret, t.mem))
      = List.replicate 4 (some (.dmaDeclined, [])) := by
  decide

/-- A DMA read under way in DXfer. -/
def dmaCalm : State := under .cIdle .dXfer (ofReq readReq .dma) calm

/-- R557; V3.15 after it. -/
theorem test_dmaStart_dmaStop :
    (got (exec (.dmaStart .write) dmaCalm) fun t => (t.regs.ctrl, t.regs.bmod, t.regs.dbaddr, t.st.dmac.owner, t.st.dmac.cur))
      = some (0x02000030#32, 0x80#32, 0x10000#32, .engine, 0x10000#32)
    ∧ (got (Res.andThen (exec (.dmaStart .write) dmaCalm) (exec .dmaStop)) fun t =>
        (t.regs.ctrl, t.regs.bmod, t.st.dmac.owner, t.st.dmac.state, t.st.dmac.cur))
      = some (0x10#32, 0#32, .block, .stopped, 0x10000#32) := by
  decide

/-- V3.12: a descriptor the engine does not own. V3.14: a card error at the write-back of a single descriptor. -/
theorem test_dmac :
    (got (Res.andThen (exec (.dmaStart .read) dmaCalm) (react .dmac)) fun t => (t.regs.idsts, t.st.dmac.state, t.st.dmac.cur))
      = some (0x210#32, .suspended, 0x10000#32)
    ∧ (let s := { dmaStarted .read calm with
          regs := { (dmaStarted .read calm).regs with rintsts := 0x80#32 }
          st := { (dmaStarted .read calm).st with
            dmac := { (dmaStarted .read calm).st.dmac with desc := some ⟨0x8000001C#32, 4, 0x1000#32, 0#32⟩, moved := 4 } } }
       (got (react .dmac s) fun t => (memLoad t 0x10000 4, t.regs.idsts, t.st.dmac.state))
        = some (some 0x4000001C, 0x322#32, .stopped)) := by
  decide

/-- A request's stream bytes at `0x3001` and the FIFO given. -/
def pioState (d : Dir) (sg : List Seg) (rem : Nat) (fifo : List Beat) : State :=
  let s := under .cIdle .dXfer (ofReq { readReq with data := some ⟨d, 1#16, BitVec.ofNat 16 rem, sg⟩ } .pio) calm
  { s with st := { s.st with pio := ⟨0, 0, rem⟩, fifo := fifo } }

/-- V5.11 (its drain is DATA_OVER's), V5.2. -/
theorem test_pioPull :
    (got (exec (.pioPull true) (pioState .read [⟨0x3001#32, 3#32⟩] 3 [0x00332211#64])) fun t =>
      (t.mem, t.ctl.retCount, t.st.pio.remaining, t.st.fifo))
      = some ([(0x3001, 0x11#8), (0x3002, 0x22#8), (0x3003, 0x33#8)], 3, 0, [])
    ∧ (got (exec (.pioPull false) (pioState .read [⟨0x3001#32, 3#32⟩] 3 [])) fun t => (t.ctl.retCount, t.mem))
      = some (0, []) := by
  decide

/-- V5.5; V5.8: a word straddles two segments. -/
theorem test_pioPush :
    (got (exec .pioPush { pioState .write [⟨0x3001#32, 3#32⟩] 3 [] with
        mem := [(0x3001, 0xAA#8), (0x3002, 0xBB#8), (0x3003, 0xCC#8)] }) fun t =>
      (t.st.fifo, t.ctl.retCount, t.st.active.map (·.txdone), t.regs.intmask))
      = some ([0x00CCBBAA#64], 3, some true, 0xBFCF#32)
    ∧ (got (exec .pioPush { pioState .write [⟨0x5001#32, 3#32⟩, ⟨0x6000#32, 5#32⟩] 8 [] with
        mem := [(0x5001, 1#8), (0x5002, 2#8), (0x5003, 3#8), (0x6000, 4#8), (0x6001, 5#8), (0x6002, 6#8), (0x6003, 7#8),
          (0x6004, 8#8)] }) fun t => t.st.fifo) = some [0x04030201#64, 0x08070605#64] := by
  decide

/-- A tuning job of slot 0, whose scan is over with a bitmap. -/
def tuneJob (idx : Nat) (b : BitVec 16) : TuneCtx := ⟨7#32, 0#4, 6#4, 19#6, [0xAA#8, 0xBB#8, 0xCC#8], idx, b, 0, 0#32, false⟩
def tuneState (c : TuneCtx) : State := { calm with st := { calm.st with tuning := true, tctx := some c } }

/-- V6.1, rows 1 to 4 and 9: the phase and the payload. -/
theorem test_tuneSelect :
    ([0xFF#16, 0x1C#16, 0x83#16, 0x66#16, 0xEF#16] : List (BitVec 16)).map (fun b =>
      got (exec .tuneSelect (tuneState (tuneJob 8 b))) fun t => (t.regs.smplCtrl, t.st.cport.map (·.payload)))
    = [some (3#32, [0x00FF0003#32]), some (3#32, [0x001C0003#32]), some (0#32, [0x00830000#32]), some (1#32, [0x00660001#32]),
      some (0#32, [0x00EF0000#32])] := by
  decide

/-- V6.2 and V6.1's last row: rejected, `SMPL_CTRL` restored. -/
theorem test_tuneSelect_rejects :
    (got (exec .tuneSelect { tuneState { tuneJob 8 0x1C#16 with savedSmpl := 0x25#32 } with
        cfg := { calm.cfg with minRun := [4] } }) fun t => (t.regs.smplCtrl, t.st.cport.map fun c => (c.code, c.payload)))
      = some (0x25#32, [(.noViableMode, 0x001C0000#32)])
    ∧ (got (exec (.tuneFinish .noMedium) (tuneState (tuneJob 3 0#16))) fun t =>
        (t.st.tuning, t.regs.smplCtrl, t.st.cport.map (·.code))) = some (false, 0#32, [.noMedium]) := by
  decide

/-- V6.3: index 9 of a fine-tune scan writes 0x09; V2.12's command word. V6.5: another mode than the slot's. -/
theorem test_tuneStep_tuneStart :
    (got (exec .tuneStep { tuneState (tuneJob 9 0#16) with
        cfg := { calm.cfg with fineTune := true }
        st := { (tuneState (tuneJob 9 0#16)).st with slots := [{ Slot.reset with present := true, needInit := false }] } })
      fun t => (t.regs.smplCtrl, t.regs.cmd, t.st.active.map (·.path))) = some (0x09#32, 0x80002353#32, some .pio)
    ∧ (got (exec (.tuneStart 4#32 0#4 6#4 19#6 [1#8]) calm) fun t => (t.st.tuning, t.st.cport.map fun c => (c.tag, c.code)))
      = some (false, [(4#32, .invalidArg)]) := by
  decide

/-- V7.1, V7.2: what the reset writes, and what is left after BUS has completed it. -/
theorem test_resets :
    (got (exec .resetFifo calm) fun t => t.regs.ctrl) = some 0x12#32
    ∧ (got (Res.chain (exec .resetFifo { calm with st := { calm.st with fifo := [1#64] } }) [serveResets]) fun t =>
        (t.regs.ctrl, t.st.fifo, t.ctl.ret)) = some (0x10#32, [], .ok)
    ∧ (got (exec .resetController calm) fun t => t.regs.ctrl) = some 0x17#32
    ∧ (got (Res.chain (exec .resetController { calm with regs := { calm.regs with cmd := 0x80002351#32, idsts := 0x102#32 } })
        [serveResets]) fun t => (t.regs.ctrl, t.regs.cmd, t.regs.idsts)) = some (0x10#32, 0x00002351#32, 0#32)
    ∧ (got (Res.chain (exec .dmaReset { calm with regs := { calm.regs with bmod := 0x80#32, idinten := 0x317#32 } })
        [serveResets]) fun t => (t.regs.ctrl, t.regs.bmod, t.regs.idinten)) = some (0x10#32, 0#32, 0x317#32) := by
  decide

/-- V7.3: the poll's expiry, 500,000 ticks on, is FATAL. V7.5. -/
theorem test_timeouts :
    (got (Res.andThen (exec .resetController calm) fun u => dpuStep (atTick 500000 u)) fun t =>
      (t.st.fatal, t.ctl.ret, t.ctl.dpu)) = some (true, .hardFailure, [])
    ∧ (got (exec .waitNotBusy calm) fun t => t.ctl.ret) = some .ok := by
  decide

/-- V7.9, V4.18's first row on the PIO path: one reset, then RECOVER's writes. -/
theorem test_recover :
    (got (Res.chain (exec .recover { under .cIdle .dRecovery { ofReq readReq .pio with dataErr := some .dataCrc } calm with
        regs := { calm.regs with rintsts := 0x10089#32, intmask := 0xBFEF#32 } }) [serveResets]) fun t =>
      (t.regs.rintsts, t.regs.intmask, t.st.pio.remaining, t.ctl.dpu)) = some (0x10001#32, 0xBFCF#32, 0, []) := by
  decide

/-- V4.10: R491's first firing after the watchdog. -/
theorem test_watchdogRecover :
    (got (exec .watchdogRecover (under .cRecovery .dXfer { ofReq readReq .dma with reqErr := some .reqTimeout }
        (dmaStarted .read calm))) fun t => (t.st.cst, t.st.dst, t.st.dmac.owner)) = some (.cRecovery, .dRecovery, .block) := by
  decide

/-- V8.4, V8.6: the events, in order, and the bits acknowledged. -/
theorem test_irqDispatch :
    (got (exec .irqDispatch { calm with regs := { calm.regs with rintsts := 0x8#32, idsts := 0x102#32, idinten := 0x317#32 } })
      fun t => (t.st.evq, t.regs.rintsts, t.regs.idsts, t.st.dpuSched)) = some ([0x5#32, 0x206#32], 0#32, 0#32, true)
    ∧ (got (exec .irqDispatch { calm with regs := { calm.regs with rintsts := 0x10001#32, intmask := 0x1BFCF#32 } })
      fun t => t.st.evq) = some [0x7#32, 0x108#32] := by
  decide

/-- V4.10: TIMER reaches the deadline of tag 2. -/
theorem test_watchdogCheck :
    (got (exec .watchdogCheck { calm with st := { calm.st with now := 20000099, wd := ⟨true, 20000100, 2#32⟩ } }) fun t =>
      (t.st.now, t.st.wd.armed, t.st.evq)) = some (20000100, false, [0x209#32]) := by
  decide

/-- V4.6, V4.8: a command timeout; a response CRC error of a command that checks none. -/
theorem test_evCmdDone :
    (got (exec (.evCmdDone 0x104#24) (under .cIssuing .dXfer (ofReq readReq .dma) calm)) fun t =>
      (t.st.cst, t.st.dst, t.st.active.map (·.cmdErr))) = some (.cIdle, .dXfer, some (some .cmdTimeout))
    ∧ (got (exec (.evCmdDone 0x44#24) (under .cIssuing .dIdle (ofReq { plainReq with cmd := ⟨41#6, 0#32, .short, false⟩ } .none)
        { calm with regs := { calm.regs with resp0 := 5#32 } })) fun t => t.st.active.map fun a => (a.cmdErr, a.resp0))
      = some (some (none, 5#32)) := by
  decide

/-- V8.10, V5.11: DATA_ERR{0x280}; the drain at DATA_OVER. -/
theorem test_evDataErr_evDataOver :
    (got (exec (.evDataErr 0x280#24) (under .cIdle .dXfer (ofReq readReq .pio) calm)) fun t =>
      (t.st.dst, t.st.active.map fun a => (a.dataErr, a.recovPending))) = some (.dRecovery, some (some .dataTimeout, true))
    ∧ (got (exec (.evDataOver 0#24) (pioState .read [⟨0x3001#32, 3#32⟩] 3 [0x00332211#64])) fun t =>
        (t.st.dst, t.mem.length, t.regs.intmask)) = some (.dBusy, 3, 0xBFCF#32) := by
  decide

/-- R473, R474; V4.1: DMA_DONE in DBusy. -/
theorem test_data_events :
    (got (exec (.evRxReady 0#24) (pioState .read [⟨0x3000#32, 8#32⟩] 8 [0x04030201#64])) fun t =>
      (t.st.pio.remaining, t.mem.length, t.st.dst)) = some (4, 4, .dXfer)
    ∧ (got (exec (.evTxReady 0#24) (pioState .write [⟨0x3000#32, 8#32⟩] 8 [])) fun t =>
        (t.st.pio.remaining, t.st.fifo.length)) = some (0, 2)
    ∧ (got (exec (.evDmaDone 0x2#24) (under .cIdle .dBusy (ofReq readReq .dma) calm)) fun t => t.st.active.map (·.dmaDone))
      = some (some true) := by
  decide

/-- V4.11 (b): another request's watchdog; R477; V8.12. -/
theorem test_evWatchdog_evSdioIrq :
    (got (exec (.evWatchdog 7#24) (under .cIssuing .dIdle (ofReq { plainReq with seq := 8#32 } .none) calm)) fun t => t.st.cst)
      = some .cIssuing
    ∧ (got (exec (.evWatchdog 8#24) (under .cIssuing .dIdle (ofReq { plainReq with seq := 8#32 } .none) calm)) fun t =>
        (t.st.cst, t.st.active.map (·.reqErr))) = some (.cRecovery, some (some .reqTimeout))
    ∧ (got (exec (.evSdioIrq 1#24) { calm with
        regs := { calm.regs with intmask := 0x1BFCF#32 }
        st := { calm.st with slots := [{ Slot.reset with sdioEn := true }] } }) fun t =>
      (t.regs.intmask, t.st.cport.map fun c => (c.kind, c.slot, c.code))) = some (0xBFCF#32, [(.sdio, 0, .ok)]) := by
  decide

/-- R505: an insertion, and a removal with one request queued (V4.12's last records). -/
theorem test_cardScan_evCardDetect :
    (got (exec .cardScan { calm with st := { calm.st with slots := [Slot.reset] } }) fun t =>
      ((slotAt t 0).present, t.st.cport.map fun c => (c.kind, c.payload))) = some (true, [(.cd, 1#32)])
    ∧ (got (exec (.evCardDetect 0#24) { calm with
        env := { calm.env with present := [false] }
        st := { calm.st with slots := [{ Slot.reset with present := true, queue := [Request.fresh { plainReq with seq := 4#32 }] }] } })
      fun t => ((slotAt t 0).present, t.st.cport.map fun c => (c.kind, c.tag, c.code)))
      = some (false, [(.req, 4#32, .noMedium), (.cd, 0#32, .ok)]) := by
  decide

/-- V4.1: R493 on a read, then R494 waits for `dma_done`. -/
theorem test_settle :
    (got (exec .settle (under .cIdle .dBusy { ofReq readReq .dma with cmdComplete := true } calm)) fun t =>
      (t.st.dst, t.st.active.map fun a => a.dbusyChecked)) = some (.dBusy, some true) := by
  decide

def twoErrors : Active := { ofReq readReq .dma with cmdErr := some .cmdCrc, stopErr := some .cmdTimeout }
def wholeData : Active := { ofReq readReq .dma with dataOk := true }

/-- V4.16, V4.1's record. -/
theorem test_complete :
    (got (exec .complete (under .cIdle .dIdle twoErrors calm)) fun t =>
      t.st.cport.map fun c => (c.tag, c.code, c.bytes))
      = some [(2#32, .cmdCrc, 0)]
    ∧ (got (exec .complete (under .cIdle .dIdle wholeData calm)) fun t => t.st.cport.map fun c => (c.code, c.bytes))
      = some [(.ok, 512)] := by
  decide

/-- SET_CLOCK's first writes (R411); V11.2 after its FIFO reset; R450 on a stale event (V4.11 (a)). -/
theorem test_runCtl_dpuRun :
    (got (exec .runCtl { calm with
        regs := { calm.regs with clkena := 1#32 }, st := { calm.st with ctlq := [⟨.setClock 400000#32, 6#32, 0#4⟩] } }) fun t =>
      (t.regs.clkena, t.regs.cmd)) = some (0#32, 0x80202000#32)
    ∧ (got (Res.chain (exec .runCtl { calm with st := { calm.st with ctlq := [⟨.setBusTiming 8#4 8#4, 6#32, 0#4⟩] } })
        [serveResets]) fun t => (t.regs.ctype, t.regs.uhs)) = some (0x10000#32, 0x10000#32)
    ∧ (got (exec .dpuRun { calm with st := { calm.st with dpuSched := true, evq := [0x5#32] } }) fun t =>
      (t.st.evq, t.st.dpuSched, t.st.cport)) = some ([], false, []) := by
  decide

/-- R116: an empty FIFO at reset; R102, R129, R205: a register by offset, and a width the block has not. -/
theorem test_register_access :
    (got (react (.regRead 0x048 4) State.reset) fun t => t.ctl.busData) = some 0x6#64
    ∧ (got (react (.regWrite 0x090 4 0xFFFFFFFF#64) calm) fun t => t.regs.idinten) = some 0x337#32
    ∧ (got (react (.regRead 0x048 2) calm) fun t => t.ctl.busData) = none := by
  decide

/-- The model fault a result is; none of another result. -/
def stop (r : Res) : Option Fault :=
  match r with
  | .next _ => none
  | .fault e => some e
  | .refused _ => none

/-- I15: `BMOD`'s PBL bits are stored and read back. R127, R830: `DATA` with the FIFO empty, and a word of 4 bytes. -/
theorem test_bmod_data :
    (got (Res.andThen (react (.regWrite 0x080 4 0xFFFFFFFE#64) calm) (react (.regRead 0x080 4))) fun t => t.ctl.busData)
      = some 0x782#64
    ∧ stop (react (.regRead 0x200 4) calm) = some .dataPortEmpty
    ∧ (got (react (.regWrite 0x200 4 0x04030201#64) calm) fun t => t.st.fifo) = some [0x04030201#64] := by
  decide

/-- R226: HOST's bytes in its own memory. R790: HOST's byte in the descriptor arena that is the block's is no stop. R224: in
the arena that is the DMA engine's it is a model fault. R217, R225: HOST reads a descriptor as it is in memory. -/
theorem test_host_memory :
    (got (Res.andThen (react (.hostWrite 0x1000 [5#8, 6#8]) calm) (react (.hostRead 0x1000 3))) fun t => t.ctl.hostData)
      = some [5#8, 6#8, 0#8]
    ∧ (got (react (.hostWrite 0xFFFF [5#8, 6#8]) calm) fun t => t.mem.head?) = some (some (0xFFFF, 5#8))
    ∧ stop (react (.hostWrite 0xFFFF [5#8, 6#8]) (dmaStarted .read calm)) = some .hostWroteArena
    ∧ (got (react (.hostWrite 0xFFFF [5#8]) (dmaStarted .read calm)) fun t => t.mem) = some [(0xFFFF, 5#8)]
    ∧ (got (react (.hostRead 0xFFFF 5) { dmaStarted .read calm with mem := [(0x10000, 0x1C#8), (0x10003, 0x80#8)] })
      fun t => t.ctl.hostData) = some [0#8, 0x1C#8, 0#8, 0#8, 0x80#8] := by
  decide

/-- R319, 93 I19: a reserved event word stops ON_EVENT, and DPU_RUN where it stands behind another. -/
theorem test_reserved_event :
    stop (exec (.onEvent 0x0000000A#32) calm) = some .badEventWord ∧ stop (exec (.onEvent 0x00000011#32) calm) = some .badEventWord
    ∧ stop (exec .dpuRun { calm with st := { calm.st with evq := [0x00000005#32, 0x00000000#32], dpuSched := true } })
      = some .badEventWord := by
  decide

/-- R204, 93 I1: a read of 3 bytes; its last word's high byte is a draw, 0 or not. R767: a card busy after a response that signals none. -/
theorem test_bus_contract :
    let s := { calm with env := { calm.env with
      cmds := [⟨0x2351#32, 0#32, 0#32, 0#32, 0#32, 0#32, 0#32, false⟩], xfer := some ⟨0, .read, 3, 0, 0, 0#32, false, false, false⟩ } }
    (got (busStep (.pushWord 0x00030201#64) s) fun t => t.st.fifo) = some [0x00030201#64]
    ∧ (got (busStep (.pushWord 0x04030201#64) s) fun t => t.st.fifo) = some [0x04030201#64]
    ∧ stop (busStep (.cmdDone false false false true 0#32 0#32 0#32 0#32) s) = some .busContract := by
  decide

/-! ### States and operands that meet the statements' hypotheses -/

theorem valid_standard : Config.standard.Valid := by unfold Config.Valid; decide

theorem prompt_calm : Prompt calm := ⟨valid_standard, rfl⟩

theorem legal_calm : RegsLegal calm := by constructor <;> decide

theorem noReset_calm : NoReset calm := by unfold NoReset; decide

theorem shape_calm : ShapeOk calm := ⟨rfl, rfl, rfl, rfl, rfl⟩

theorem events_calm : EventsLegal calm := ⟨List.Pairwise.nil, fun e h => by cases h⟩

theorem forms_calm : Forms calm :=
  ⟨fun _ => ⟨rfl, rfl⟩, by unfold FifoBounded; decide, events_calm, shape_calm, fun h => absurd rfl h, legal_calm⟩

theorem mapped_standard (x : Nat) (h : x < 2 ^ 32) : mapped Config.standard x = true := by
  have h' : x < Config.addrSpace := h
  simp [mapped, Config.standard, h', show x < 4294967296 from h]

/-- A card busy after the last command, to slot 0. -/
def busyCalm : State := { calm with env := { calm.env with busy := [true], lastSlot := some 0 } }

/-- Two slots with cards. -/
def two : State :=
  { calm with
    cfg := { calm.cfg with nslots := 2 }
    st := { calm.st with slots := [{ Slot.reset with present := true }, { Slot.reset with present := true }] }
    env := { calm.env with present := [true, true], busy := [false, false], signalled := [false, false] } }

/-- R764: a stop to slot 1 ends; a transfer of slot 0 goes on, one abandoned on slot 1 is over. R767: the card of slot 1 may
go busy some steps later, that of slot 0 not. -/
theorem test_stop_ends :
    let s := fun (x : WireXfer) => { two with env := { two.env with
      cmds := [⟨0x0001414C#32, 0#32, 0#32, 0#32, 0#32, 0#32, 0#32, true⟩], xfer := some x } }
    let done := BusAct.cmdDone false false false false 0#32 0#32 0#32 0#32
    (got (busStep done (s ⟨0, .read, 8, 1, 4, 0#32, false, false, false⟩)) fun t => t.env.xfer.isSome) = some true
    ∧ (got (busStep done (s ⟨1, .read, 8, 1, 4, 0#32, false, true, false⟩)) fun t => t.env.xfer.isSome) = some false
    ∧ (got (Res.chain (busStep done (s ⟨0, .read, 8, 1, 4, 0#32, false, false, false⟩)) [busStep (.sdioInt 0), busStep (.cardBusy 1)])
      fun t => t.env.busy) = some [false, true]
    ∧ stop (Res.andThen (busStep done (s ⟨0, .read, 8, 1, 4, 0#32, false, false, false⟩)) (busStep (.cardBusy 0))) = some .busContract := by
  decide

/-- 95 P3: BUS accepts a write with the FIFO empty, so TXDR is set. R762: the push that takes the FIFO above RX_WMARK sets
RXDR, the one before does not. A write whose CMD_DONE carried RTO may never start, and sets none. -/
theorem test_ready_bits :
    let wr := { calm with regs := { calm.regs with cmd := 0x80002758#32, bytcnt := 3#32, fifoth := 0x20020010#32 } }
    let rd := fun n => withXfer (some ⟨0, .read, 64, n, 4 * n, 0#32, false, false, false⟩)
      { wr with st := { calm.st with fifo := List.replicate n 0#64 } }
    (got (busStep .acceptCmd wr) fun t => t.regs.rintsts) = some 0x10#32
    ∧ (got (busStep (.pushWord 0#64) (rd 1)) fun t => t.regs.rintsts) = some 0#32
    ∧ (got (busStep (.pushWord 0#64) (rd 2)) fun t => t.regs.rintsts) = some 0x20#32
    ∧ (got (Res.chain (busStep .acceptCmd wr) [busStep (.cmdDone true false false false 0#32 0#32 0#32 0#32),
        fun s => busStep (.setPresent 0 false) { s with regs := { s.regs with rintsts := 0#32 } }]) fun t => t.regs.rintsts)
      = some 0x1#32 := by
  decide

/-- R762, R763: FRUN of a full FIFO while a word waits, not after the last one; of an empty FIFO on a write likewise. -/
theorem test_overrun_waits :
    let full := { calm with st := { calm.st with fifo := List.replicate calm.cfg.fifoDepth 0#64 } }
    (got (busStep (.dataErr 0x800#32) (withXfer (some ⟨0, .read, 8, 1, 4, 0#32, false, false, false⟩) full)) fun t => t.regs.rintsts)
      = some 0x800#32
    ∧ stop (busStep (.dataErr 0x800#32) (withXfer (some ⟨0, .read, 8, 2, 8, 0#32, false, false, false⟩) full)) = some .busContract
    ∧ (got (busStep (.dataErr 0x400#32) (withXfer (some ⟨0, .write, 8, 1, 4, 0#32, false, false, false⟩) calm)) fun t => t.regs.rintsts)
      = some 0x400#32
    ∧ stop (busStep (.dataErr 0x400#32) (withXfer (some ⟨0, .write, 8, 2, 8, 0#32, false, false, false⟩) calm)) = some .busContract := by
  decide

/-- An engine without DMA. -/
def noDma : State := { calm with cfg := { calm.cfg with dmaPresent := false } }

/-- The largest operands an encoding holds: 15 slots, 63, all of a word. -/
theorem test_hyp_EncodeDecodeRoundTrip :
    (Instr.tuneStart 0xFFFFFFFF#32 15#4 15#4 63#6 (List.replicate 128 0xFF#8)).wellFormed = true
    ∧ (Instr.dispatch readReq).wellFormed = true ∧ (Instr.submit 15#4 [0xFFFFFFFF#32]).wellFormed = true
    ∧ (Instr.evWatchdog 0xFFFFFF#24).wellFormed = true ∧ (Instr.evSdioIrq 0x00FFFF#24).wellFormed = true := by
  refine ⟨?_, by decide⟩
  simp only [Instr.wellFormed, List.length_replicate]
  decide

theorem test_hyp_StepRunsDecodedInstruction :
    (∃ s : State, s.ctl.agenda = [.feed .host [7#32]] ∧ decode .host [7#32] = .ok (.controllerInit 0#4 []))
    ∧ (∃ s : State, s.ctl.agenda = [.feed .trace [0x24#32]] ∧ decode .trace [0x24#32] = .ok .settle ∧ s.ctl.dpu = [])
    ∧ (decode .trace [0x50#32] = .ok .irqDispatch ∧ ofDpu .irqDispatch = false)
    ∧ (decodeTableWord 16 0x0007 = some (.controllerInit 0#4 []) ∧ tablePort 16 0x0007 = .host)
    ∧ (decodeTableWord 8 0x51 = some .watchdogCheck ∧ tablePort 8 0x51 ≠ .host)
    ∧ (bits 0x0000F001#32 16 16 ≤ 0 ∧ bits 0x0000F001#32 12 4 ≠ 0) ∧ (bits 0#32 0 8 = 0) ∧ 7 < bits 8#32 0 8 := by
  refine ⟨⟨present .host [7#32] calm, rfl, by decide⟩, ⟨present .trace [0x24#32] calm, rfl, by decide, rfl⟩, ?_⟩
  decide

theorem test_hyp_AcceptanceStepFrame :
    (∃ t, exec (hostInstr .submit 0#4 [0x100#32, 0#32]) calm = .next t)
    ∧ (∃ t, exec (hostInstr .getCardPresent 15#4 []) calm = .next t)
    ∧ ∃ t, exec (hostInstr .controllerInit 0#4 []) calm = .next t :=
  ⟨⟨_, rfl⟩, ⟨_, rfl⟩, ⟨_, rfl⟩⟩

theorem test_hyp_SubmitAccepted :
    InService calm ∧ (0#4).toNat < calm.cfg.nslots ∧ (slotAt calm 0).present = true
    ∧ (slotAt calm 0).queue.length ≠ calm.cfg.qdepth ∧ ScatterInRange calm.cfg ⟨.read, 512#16, 1#16, [segA]⟩
    ∧ ScatterInRange calm.cfg ⟨.write, 16#16, 1#16, [⟨0xFFFFFFF0#32, 16#32⟩]⟩ := by
  refine ⟨by unfold InService; decide, by decide, by decide, by decide, ?_, ?_⟩ <;> unfold ScatterInRange <;> decide

theorem test_hyp_ControlOperationsAccepted :
    (0#4).toNat < calm.cfg.nslots ∧ InService calm ∧ calm.st.ctlq.length ≠ calm.cfg.qdepth ∧ (slotAt calm 0).present = true
    ∧ (9#4).toNat ≤ 9 ∧ List.replicate 128 0xFF#8 ≠ [] ∧ (List.replicate 128 0xFF#8).length ≤ 128 := by
  refine ⟨by decide, by unfold InService; decide, by decide, by decide, by decide, (fun h => nomatch h), ?_⟩
  rw [List.length_replicate]

/-- One list of operand words for each clause. -/
theorem test_hyp_IllFormedOperandsRefused :
    -- numbers
    ([0#32, 0#32, 0#32].length ≠ 2 ∧ [0#32, 0#32, 0#32].length < 4)
    ∧ (bit (operand [0x200#32, 0#32, 0#32, 1#32] 1) 9 = true
      ∧ [0x200#32, 0#32, 0#32, 1#32].length ≠ 4 + 2 * (operand [0x200#32, 0#32, 0#32, 1#32] 4).toNat)
    ∧ bit (operand [0x200#32, 0#32] 1) 9 = true
    ∧ ([] : List Word).length ≠ 1 ∧ [0#32] ≠ []
    ∧ [0x00010000#32].length ≠ 1 + (bits (operand [0x00010000#32] 1) 16 16 + 3) / 4
    -- reserved bits
    ∧ (bit 0x1000#32 9 = false ∧ bits 0x1000#32 12 20 ≠ 0) ∧ (bit 0x80000200#32 9 = true ∧ bits 0x80000200#32 12 20 ≠ 0)
    ∧ [segA].length < 2 ^ 32 ∧ bits 0x80000000#32 12 20 ≠ 0 ∧ bits 0x10#32 4 4 ≠ 0
    ∧ bits 0x4000#32 14 2 ≠ 0
    ∧ ([0xAA332211#32].length = (bits 0x00030000#32 16 16 + 3) / 4
      ∧ ∃ b ∈ (unpackBytes [0xAA332211#32]).drop (bits 0x00030000#32 16 16), b ≠ 0#8)
    -- ranges, NSLOTS = 1
    ∧ calm.cfg.nslots ≤ (1#4).toNat ∧ bit 0x400#32 10 = true ∧ bit 0x800#32 11 = true
    ∧ bits 0x00010000#32 0 16 = 0 ∧ bits 0x200#32 16 16 = 0 ∧ calm.cfg.maxSg < (List.replicate 129 segA).length
    ∧ 2 ^ 32 < (0xFFFFFFFF#32).toNat + (2#32).toNat
    ∧ ((0x10FFF#32).toNat < calm.cfg.ringBase + 16 * calm.cfg.ndesc ∧ calm.cfg.ringBase < (0x10FFF#32).toNat + (1#32).toNat)
    ∧ ([segA].map fun g => g.len.toNat).sum ≠ bits 0x00010201#32 0 16 * bits 0x00010201#32 16 16
    ∧ 9 < bits 0x10A#32 0 4 ∧ (bits 0x206#32 8 4 ≠ 1 ∧ bits 0x206#32 8 4 ≠ 4 ∧ bits 0x206#32 8 4 ≠ 8)
    ∧ ((List.replicate 129 0xFF#8).length = bits 0x00810000#32 16 16 ∧ 128 < (List.replicate 129 0xFF#8).length)
    ∧ 1#4 ≠ 0#4 := by
  simp only [List.length_replicate]
  decide

theorem test_hyp_RefusalsByState :
    operandsLegal calm.cfg .submit 0#4 [0x100#32, 0#32] = true ∧ operandsLegal calm.cfg .setClock 0#4 [0#32] = true
    ∧ State.reset.st.inited = false ∧ InService { calm with st := { calm.st with slots := [Slot.reset] } }
    ∧ (slotAt { calm with st := { calm.st with slots := [Slot.reset] } } 0).present = false
    ∧ (slotAt { calm with st := { calm.st with
        slots := [{ Slot.reset with queue := List.replicate 16 (Request.fresh plainReq) }] } } 0).queue.length = calm.cfg.qdepth
    ∧ (List.replicate 16 (⟨.sdioIrqAck, 0#32, 0#4⟩ : CtlEntry)).length = calm.cfg.qdepth := by
  refine ⟨by decide, by decide, by decide, ⟨rfl, rfl⟩, by decide, by decide, by decide⟩

theorem test_hyp_EnqueueAppends : ShapeOk two ∧ (1#4).toNat < two.cfg.nslots := ⟨⟨rfl, rfl, rfl, rfl, rfl⟩, by decide⟩

theorem test_hyp_DispatchWithoutData :
    Prompt calm ∧ calm.st.active = none ∧ plainReq.slot.toNat < calm.cfg.nslots ∧ bit calm.regs.cmd 31 = false
    ∧ plainReq.data = none :=
  ⟨prompt_calm, rfl, by decide, by decide, rfl⟩

/-- Without a DMA engine; a tuning read; a list of 8 bytes, which DMA_PREPARE declines. -/
theorem test_hyp_DispatchByPio :
    Prompt noDma ∧ noDma.cfg.dmaPresent = false ∧ (probe (tuneJob 0 0#16)).origin = .tuning ∧ Prompt calm
    ∧ calm.st.active = none ∧ bit calm.regs.cmd 31 = false
    ∧ ∃ p, exec (.dmaPrepare [⟨0x1000#32, 8#32⟩]) calm = .next p ∧ p.ctl.ret = .dmaDeclined :=
  ⟨⟨by unfold Config.Valid; decide, rfl⟩, rfl, rfl, prompt_calm, rfl, by decide, _, rfl, by decide⟩

theorem test_hyp_DispatchByDma :
    Prompt calm ∧ RegsLegal calm ∧ calm.st.active = none ∧ readReq.slot.toNat < calm.cfg.nslots ∧ bit calm.regs.cmd 31 = false
    ∧ calm.st.dmac.state = .stopped ∧ calm.cfg.dmaPresent = true ∧ readReq.origin = .host
    ∧ ∃ p, exec (.dmaPrepare [segA]) calm = .next p ∧ p.ctl.ret = .ok :=
  ⟨prompt_calm, legal_calm, rfl, by decide, by decide, rfl, rfl, rfl, _, rfl, by decide⟩

/-- Two slots, `rr = 0`, slot 1 empty: slot 0 is served at `k = 2`; and an engine with nothing queued. -/
theorem test_hyp_DispatchNextRoundRobin :
    let s := { two with st := { two.st with slots := [{ Slot.reset with queue := [Request.fresh plainReq] }, Slot.reset] } }
    s.st.active = none ∧ s.st.tuning = false ∧ s.st.fatal = false ∧ s.st.ctlq = [] ∧ ShapeOk s ∧ 2 ≤ s.cfg.nslots
    ∧ (∀ j, 1 ≤ j → j < 2 → (slotAt s ((s.st.rr + j) % s.cfg.nslots)).queue = [])
    ∧ (slotAt s ((s.st.rr + 2) % s.cfg.nslots)).queue = [Request.fresh plainReq] ∧ Prompt s ∧ bit s.regs.cmd 31 = false
    ∧ ∀ x ∈ calm.st.slots, x.queue = [] := by
  refine ⟨rfl, rfl, rfl, rfl, ⟨rfl, rfl, rfl, rfl, rfl⟩, by decide, ?_, rfl, ⟨by unfold Config.Valid; decide, rfl⟩, by decide, ?_⟩
  · intro j h1 h2
    obtain rfl : j = 1 := by omega
    rfl
  · decide

theorem test_hyp_MissingOperandsStop :
    calm.st.active = none ∧ calm.st.tctx = none ∧ (under .cIdle .dIdle (ofReq plainReq .none) calm).st.active ≠ none
    ∧ calm.cfg.nslots ≤ ({ plainReq with slot := 1#4 } : ReqOp).slot.toNat :=
  ⟨rfl, rfl, (fun h => nomatch h), by decide⟩

/-- No PIO, a word of no code at all; a PIO read at RX_READY, a PIO write at TX_READY. -/
theorem test_hyp_EventWordsAreOnEvent :
    (1 ≤ bits 0x00000003#32 0 8 ∧ bits 0x00000003#32 0 8 ≤ 9 ∧ ¬ movesByPio 0x00000003#32 calm)
    ∧ (bits 0xFFFFFF00#32 0 8 = 0 ∧ 9 < bits 0x0000000A#32 0 8 ∧ 9 < bits 0x00000011#32 0 8)
    ∧ (movesByPio 0x00000003#32 (pioState .read [⟨0x3001#32, 3#32⟩] 3 []) ∧ bits 0x00000003#32 0 8 = 3)
    ∧ movesByPio 0x00000004#32 (pioState .write [⟨0x3001#32, 3#32⟩] 3 []) ∧ bits 0x00000004#32 0 8 = 4 := by
  refine ⟨⟨by decide, by decide, fun ⟨_, h, _⟩ => nomatch h⟩, by decide, ⟨⟨_, rfl, rfl, rfl, _, rfl, .inl ⟨rfl, .inl ?_⟩⟩, ?_⟩,
    ⟨_, rfl, rfl, rfl, _, rfl, .inr ⟨rfl, ?_⟩⟩, ?_⟩ <;> decide

theorem test_hyp_StaleEventsDiscarded :
    (1 ≤ bits 0x1#32 0 8 ∧ ¬ rowMatches 0x1#32 calm) ∧ (bits 0xFFFFFF09#32 0 8 ≤ 9 ∧ ¬ rowMatches 0xFFFFFF09#32 calm) := by
  refine ⟨⟨by decide, ?_⟩, by decide, ?_⟩ <;>
    (rintro (h | h | ⟨a, h, -⟩) <;> first | exact absurd h (by decide) | exact nomatch h)

theorem test_hyp_CmdDoneEndsCommandOrStop :
    (under .cIssuing .dIdle (ofReq plainReq .none) calm).st.cst = .cIssuing
    ∧ (classifyCmd ((0x104#24).zeroExtend 32) true ≠ none ∧ (ofReq plainReq .none).stopTries < calm.cfg.stopRetryMax)
    ∧ (Prompt (under .cStop .dIdle (ofReq plainReq .none) calm) ∧ bit calm.regs.cmd 31 = false)
    ∧ classifyCmd ((0x4#24).zeroExtend 32) true = none
    ∧ calm.cfg.stopRetryMax ≤ ({ ofReq plainReq .none with stopTries := 2 } : Active).stopTries := by
  refine ⟨rfl, by decide, ⟨⟨valid_standard, rfl⟩, by decide⟩, by decide, by decide⟩

theorem test_hyp_DataErrorEntersRecovery :
    (ofReq readReq .pio).path ≠ .dma ∧ (ofReq readReq .dma).path = .dma
    ∧ (under .cIdle .dXfer (ofReq readReq .dma) calm).st.dst = .dXfer
    ∧ (under .cIdle .dBusy (ofReq readReq .dma) calm).st.dst = .dBusy
    ∧ Prompt (under .cIdle .dBusy (ofReq readReq .dma) calm) ∧ RegsLegal (under .cIdle .dBusy (ofReq readReq .dma) calm) :=
  ⟨by decide, rfl, rfl, rfl, ⟨valid_standard, rfl⟩, legal_calm⟩

theorem test_hyp_DataOverEntersBusy :
    (ofReq readReq .dma).path ≠ .pio ∧ (∀ d ∈ (ofReq writeReq .pio).data, d.dir = .write)
    ∧ ∃ t, exec (.pioPull true) (pioState .read [⟨0x3001#32, 3#32⟩] 3 [0x00332211#64]) = .next t :=
  ⟨by decide, fun d h => by cases h; rfl, _, rfl⟩

theorem test_hyp_DmaDoneAndWatchdogRecorded :
    (ofReq readReq .dma).path = .dma ∧ (under .cIdle .dBusy (ofReq readReq .dma) calm).st.dst = .dBusy
    ∧ (2#24) = (ofReq readReq .dma).seq.truncate 24 := by
  decide

theorem test_hyp_SdioInterruptReported : ShapeOk calm ∧ RegsLegal calm ∧ calm.cfg.nslots ≤ 16 :=
  ⟨shape_calm, legal_calm, by decide⟩

theorem test_hyp_CompleteDeliversRecord :
    (under .cIdle .dIdle (ofReq readReq .dma) calm).st.active = some (ofReq readReq .dma)
    ∧ (ofReq readReq .dma).origin = .host ∧ (under .cIdle .dIdle (ofReq readReq .dma) calm).st.dmac.owner = .block
    ∧ (under .cIdle .dIdle (ofReq readReq .dma) (dmaStarted .read calm)).st.dmac.owner = .engine :=
  ⟨rfl, rfl, rfl, rfl⟩

/-- Requests whose next settle rule is the one named. -/
def timedOut : Active := { ofReq readReq .dma with reqErr := some .reqTimeout, recovPending := true }
def cmdFailed : Active := { ofReq readReq .pio with cmdComplete := true, cmdErr := some .cmdTimeout, recovPending := true }
def arrived : Active := { ofReq readReq .pio with cmdComplete := true }
def checked : Active := { arrived with dbusyChecked := true }
def r1b : Active := { ofReq { plainReq with cmd := ⟨7#6, 0#32, .shortBusy, true⟩ } .none with cmdComplete := true }
def stopped : Active := { cmdFailed with stopIssued := true, stopDone := true }
def settledStop : Active := { stopped with sbusyChecked := true }
def ended : Active := { ofReq plainReq .none with cmdComplete := true }
def probed : Active := { ofReq (probe (tuneJob 3 0#16)) .pio with cmdComplete := true, dataOk := true }

theorem test_hyp_SettleQuiescesData :
    SettlesBy .wdData (under .cRecovery .dXfer timedOut calm) ∧ SettlesBy .cmdAbort (under .cIdle .dXfer cmdFailed calm)
    ∧ SettleGuard .wdData (under .cRecovery .dBusy timedOut calm)
    ∧ Prompt (under .cRecovery .dXfer timedOut calm) ∧ RegsLegal (under .cIdle .dXfer cmdFailed calm) :=
  ⟨settlesBy_of_settleRule (by decide), settlesBy_of_settleRule (by decide), settleRule_guard _ _ (by decide),
    ⟨valid_standard, rfl⟩, legal_calm⟩

theorem test_hyp_WatchdogResetsController :
    SettlesBy .wdCmd (under .cRecovery .dRecovery timedOut calm)
    ∧ SettleGuard .wdCmd (under .cRecovery .dRecovery timedOut calm)
    ∧ Prompt (under .cRecovery .dRecovery timedOut calm) ∧ RegsLegal (under .cRecovery .dRecovery timedOut calm)
    ∧ NoReset (under .cRecovery .dRecovery timedOut calm) :=
  ⟨settlesBy_of_settleRule (by decide), settleRule_guard _ _ (by decide), ⟨valid_standard, rfl⟩, legal_calm, noReset_calm⟩

theorem test_hyp_SettlePhases :
    (SettlesBy .dataBusy (under .cIdle .dBusy arrived busyCalm) ∧ ∀ d ∈ arrived.data, d.dir = .read)
    ∧ SettlesBy .dataBusy (under .cIdle .dBusy { ofReq writeReq .pio with cmdComplete := true } calm)
    ∧ SettlesBy .dataDone (under .cIdle .dBusy checked calm) ∧ SettlesBy .cmdBusy (under .cIdle .dIdle r1b calm)
    ∧ SettlesBy .stopBusy (under .cIdle .dRecovery stopped calm)
    ∧ SettlesBy .issueStop (under .cIdle .dRecovery cmdFailed calm)
    ∧ bit (regRead .STATUS calm) 9 = false ∧ Prompt (under .cIdle .dBusy checked calm)
    ∧ RegsLegal (under .cIdle .dBusy checked calm) ∧ bit calm.regs.cmd 31 = false :=
  ⟨⟨settlesBy_of_settleRule (by decide), fun d h => by cases h; rfl⟩, settlesBy_of_settleRule (by decide),
    settlesBy_of_settleRule (by decide), settlesBy_of_settleRule (by decide), settlesBy_of_settleRule (by decide),
    settlesBy_of_settleRule (by decide), by decide, ⟨valid_standard, rfl⟩, legal_calm, by decide⟩

theorem test_hyp_BusyTimeoutRecorded :
    (setDpu [.poll .notBusy 0 .busy, .dataBusyEnd, .settleLoop] (under .cIdle .dBusy arrived busyCalm)).ctl.dpu
      = .poll .notBusy 0 .busy :: .dataBusyEnd :: .settleLoop :: []
    ∧ (setDpu [.poll .notBusy 0 .busy, .cmdBusyEnd, .settleLoop, .dpuLoop] (under .cIdle .dIdle r1b busyCalm)).ctl.dpu
      = .poll .notBusy 0 .busy :: .cmdBusyEnd :: .settleLoop :: [.dpuLoop]
    ∧ (setDpu [.poll .notBusy 0 .busy, .stopBusyEnd, .settleLoop] (under .cIdle .dRecovery stopped busyCalm)).ctl.dpu
      = .poll .notBusy 0 .busy :: .stopBusyEnd :: .settleLoop :: []
    ∧ busyCalm.ctl.yields = false ∧ 0 ≤ busyCalm.st.now :=
  ⟨rfl, rfl, rfl, rfl, Nat.le_refl 0⟩

theorem test_hyp_SettleCompletesOrEnds :
    SettlesBy .complete (under .cIdle .dIdle ended calm) ∧ ended.origin = .host
    ∧ (under .cIdle .dIdle ended calm).st.dmac.owner = .block
    ∧ SettlesBy .complete (under .cIdle .dIdle probed calm)
    ∧ (SettlesBy .complete (under .cIdle .dIdle ended (dmaStarted .read calm))
      ∧ (under .cIdle .dIdle ended (dmaStarted .read calm)).st.dmac.owner = .engine)
    ∧ (∀ r, ¬ SettleGuard r calm) ∧ ∀ r, ¬ SettleGuard r (under .cIssuing .dIdle (ofReq plainReq .none) calm) :=
  ⟨settlesBy_of_settleRule (by decide), rfl, rfl, settlesBy_of_settleRule (by decide),
    ⟨settlesBy_of_settleRule (by decide), rfl⟩,
    fun r => settleRule_none _ r (by decide), fun r => settleRule_none _ r (by decide)⟩

/-- A fatal engine with a request queued, with one active, and with a tuning read. -/
def fatalCalm : State :=
  { calm with st := { calm.st with fatal := true, slots := [{ Slot.reset with queue := [Request.fresh plainReq] }] } }

theorem test_hyp_FatalFlushCompletesAll :
    Prompt fatalCalm ∧ RegsLegal fatalCalm ∧ fatalCalm.st.fatal = true ∧ CanFlush fatalCalm
    ∧ (fatalCalm.st.tuning = true → fatalCalm.st.tctx ≠ none) ∧ fatalCalm.st.active = none
    ∧ CanFlush (under .cIdle .dXfer (ofReq readReq .dma) fatalCalm)
    ∧ (∃ s : State, s.st.active = some (ofReq (probe (tuneJob 0 0#16)) .pio) ∧ s.st.fatal = true ∧ s.st.tuning = true
      ∧ s.st.tctx ≠ none ∧ CanFlush s) := by
  refine ⟨⟨valid_standard, rfl⟩, legal_calm, rfl, .inr (.inl ⟨_, List.mem_singleton.mpr rfl, fun h => nomatch h⟩),
    (fun h => nomatch h), rfl, .inl (fun h => nomatch h), ?_⟩
  exact ⟨under .cIdle .dXfer (ofReq (probe (tuneJob 0 0#16)) .pio)
    { tuneState (tuneJob 0 0#16) with st := { (tuneState (tuneJob 0 0#16)).st with fatal := true } }, rfl, rfl, rfl,
    (fun h => nomatch h), .inl fun h => nomatch h⟩

theorem test_hyp_CardScanReportsChanges :
    ShapeOk two ∧ RegsLegal two ∧ two.cfg.nslots ≤ 16
    ∧ ∀ a ∈ two.st.active, (slotAt two a.slot.toNat).present = true → two.env.present.getD a.slot.toNat false = true :=
  ⟨⟨rfl, rfl, rfl, rfl, rfl⟩, by constructor <;> decide, by decide, fun a h => nomatch h⟩

/-- V4.12: slot 0's card is gone with a DMA read under way. -/
def removedCard : State :=
  under .cIdle .dXfer (ofReq readReq .dma) { calm with env := { calm.env with present := [false] } }

theorem test_hyp_RemovalCancelsActive :
    Prompt removedCard ∧ ShapeOk removedCard ∧ RegsLegal removedCard ∧ NoReset removedCard
    ∧ removedCard.st.active = some (ofReq readReq .dma) ∧ (ofReq readReq .dma).origin = .host
    ∧ (ofReq readReq .dma).slot.toNat < removedCard.cfg.nslots ∧ removedCard.st.tuning = false
    ∧ (ofReq readReq .dma).fatalErr = none ∧ (slotAt removedCard 0).present = true
    ∧ removedCard.env.present.getD 0 false = false
    ∧ ∀ j, j < removedCard.cfg.nslots → j ≠ 0 → (slotAt removedCard j).present = removedCard.env.present.getD j false :=
  ⟨⟨valid_standard, rfl⟩, ⟨rfl, rfl, rfl, rfl, rfl⟩, legal_calm, noReset_calm, rfl, rfl, by decide, rfl, rfl, rfl, rfl,
    fun j h hn => absurd (Nat.lt_one_iff.mp h) hn⟩

theorem test_hyp_ResetPrimitives :
    Prompt calm ∧ RegsLegal calm ∧ NoReset calm ∧ calm.cfg.dmaPresent = true ∧ noDma.cfg.dmaPresent = false :=
  ⟨prompt_calm, legal_calm, noReset_calm, rfl, rfl⟩

theorem test_hyp_WaitNotBusyTwoWindows :
    Prompt busyCalm ∧ RegsLegal busyCalm ∧ NoReset busyCalm ∧ bit (regRead .STATUS busyCalm) 9 = true
    ∧ busyCalm.st.now + ticks busyCalm.cfg busyCalm.cfg.busyTimeout ≤ 500000
    ∧ bit (regRead .STATUS calm) 9 = false ∧ dataBusy { busyCalm with env := calm.env } = false :=
  ⟨⟨valid_standard, rfl⟩, legal_calm, noReset_calm, by decide, by decide, by decide, by decide⟩

theorem test_hyp_RecoverRestores :
    (under .cIdle .dRecovery settledStop calm).st.active = some settledStop
    ∧ Prompt (under .cIdle .dRecovery settledStop calm) ∧ RegsLegal (under .cIdle .dRecovery settledStop calm)
    ∧ NoReset (under .cIdle .dRecovery settledStop calm) ∧ SettlesBy .recover (under .cIdle .dRecovery settledStop calm) :=
  ⟨rfl, ⟨valid_standard, rfl⟩, legal_calm, noReset_calm, settlesBy_of_settleRule (by decide)⟩

/-- A command waiting, and not; the tick at which each poll begun at 0 expires. -/
theorem test_hyp_PollExpiryIsFatal :
    Prompt calm ∧ RegsLegal calm ∧ NoReset calm ∧ calm.st.now + ticks calm.cfg calm.cfg.resetTimeout ≤ 500000
    ∧ calm.st.now + ticks calm.cfg calm.cfg.cmdAcceptTimeout ≤ 500000 ∧ bit calm.regs.cmd 31 = false
    ∧ bit (0x80002351#32) 31 = true ∧ (under .cIdle .dIdle ended calm).st.active ≠ none
    ∧ plainReq.slot.toNat < calm.cfg.nslots ∧ plainReq.data = none :=
  ⟨prompt_calm, legal_calm, noReset_calm, by decide, by decide, by decide, by decide, (fun h => nomatch h), by decide, rfl⟩

theorem test_hyp_StopAndClockCommands :
    Prompt calm ∧ bit calm.regs.cmd 31 = false ∧ xferHolds calm = false
    ∧ (under .cIdle .dIdle ended calm).st.active = some ended :=
  ⟨prompt_calm, by decide, rfl, rfl⟩

theorem test_hyp_DmaStartAndStop :
    RegsLegal calm ∧ calm.cfg.dmaPresent = true
    ∧ (dmaCalm.st.active = some (ofReq readReq .dma) ∧ (ofReq readReq .dma).path = .dma ∧ dmaCalm.st.dmac.state = .stopped)
    ∧ (dmaStarted .read dmaCalm).st.dmac.state ≠ .stopped ∧ (∀ a ∈ calm.st.active, a.path ≠ .dma)
    ∧ (dmaStarted .read calm).st.dmac.owner = .engine ∧ Prompt calm ∧ noDma.cfg.dmaPresent = false :=
  ⟨legal_calm, rfl, ⟨rfl, rfl, rfl⟩, by decide, (fun _ h => nomatch h), rfl, prompt_calm, rfl⟩

/-- V3.11's list, 16 bytes: the least that is not declined. -/
theorem test_hyp_DmaPrepareBuildsChain :
    calm.cfg.Valid ∧ calm.cfg.dmaPresent = true ∧ Memory.wf calm.mem ∧ calm.st.dmac.owner = .block
    ∧ (∀ g ∈ [(⟨0x1000#32, 16#32⟩ : Seg)], g.addr.toNat % calm.cfg.dmaAlign = 0 ∧ g.len.toNat % calm.cfg.dmaAlign = 0)
    ∧ calm.cfg.dmaMinBytes ≤ ([(⟨0x1000#32, 16#32⟩ : Seg)].map fun g => g.len.toNat).sum
    ∧ (chunks calm.cfg.descMaxLen [⟨0x1000#32, 16#32⟩]).length ≤ calm.cfg.ndesc
    ∧ ∀ x, calm.cfg.ringBase ≤ x → x < calm.cfg.ringBase + 16 * calm.cfg.ndesc → mapped calm.cfg x = true := by
  refine ⟨valid_standard, rfl, ⟨List.Pairwise.nil, fun _ h => nomatch h⟩, rfl, by decide, by decide, by decide, ?_⟩
  intro x _ h
  refine mapped_standard x (Nat.lt_trans (m := 0x11000) h (by decide))

/-- V3.6 to V3.10: each case, and the 3 bytes that meet two. -/
theorem test_hyp_DmaPrepareDeclines :
    (∃ t, exec (.dmaPrepare [⟨0x1002#32, 512#32⟩]) calm = .next t ∧ t.ctl.ret = .dmaDeclined)
    ∧ (∃ t, exec (.dmaPrepare [⟨0x1000#32, 8#32⟩]) calm = .next t ∧ t.ctl.ret = .dmaDeclined)
    ∧ (∃ t, exec (.dmaPrepare [⟨0x4000#32, 10000#32⟩]) { calm with cfg := { calm.cfg with ndesc := 2 } } = .next t
      ∧ t.ctl.ret = .dmaDeclined)
    ∧ calm.cfg.dmaAlign = Config.standard.dmaAlign ∧ calm.cfg.dmaMinBytes = Config.standard.dmaMinBytes
    ∧ calm.st.dmac.owner = .block :=
  ⟨⟨_, rfl, by decide⟩, ⟨_, rfl, by decide⟩, ⟨_, rfl, by decide⟩, rfl, rfl, rfl⟩

theorem test_hyp_ChunksCoverTheList :
    Config.standard.Valid ∧ ∀ g ∈ [segA], g.addr.toNat % Config.standard.dmaAlign = 0
      ∧ g.len.toNat % Config.standard.dmaAlign = 0 :=
  ⟨valid_standard, by decide⟩

/-- One descriptor of 8 bytes at RING_BASE (R310), as DMA_PREPARE would write it, and two FIFO words. -/
def oneDesc (d : Dir) : State :=
  let s := dmaStarted d calm
  { s with
    mem := [(0x10000, 0x1C#8), (0x10003, 0x80#8), (0x10004, 0x08#8), (0x10009, 0x10#8)]
    st := { s.st with fifo := if d = .read then [0x04030201#64, 0x08070605#64] else [] } }

theorem test_hyp_DmacRunsDescriptor :
    (oneDesc .read).cfg.Valid ∧ Memory.wf (oneDesc .read).mem ∧ (oneDesc .read).st.dmac.state = .running
    ∧ (oneDesc .read).st.dmac.desc = none ∧ (oneDesc .read).st.dmac.moved = 0
    ∧ memLoad (oneDesc .read) 0x10000 4 = some 0x8000001C ∧ memLoad (oneDesc .read) 0x10004 4 = some 8
    ∧ memLoad (oneDesc .read) 0x10008 4 = some 0x1000 ∧ memLoad (oneDesc .read) 0x1000C 4 = some 0
    ∧ (oneDesc .read).st.dmac.cur = 0x10000#32 ∧ bit (BitVec.ofNat 32 0x8000001C) 31 = true
    ∧ 8 % 2 ^ 13 = (oneDesc .read).cfg.w * 2
    ∧ (∀ x, 0x1000 ≤ x → x < 0x1000 + (oneDesc .read).cfg.w * 2 → mapped (oneDesc .read).cfg x = true ∧ x < 0x10000)
    ∧ 2 ≤ (oneDesc .read).st.fifo.length ∧ (oneDesc .write).st.fifo.length + 2 ≤ (oneDesc .write).cfg.fifoDepth := by
  refine ⟨valid_standard, by decide, rfl, rfl, rfl, by decide, by decide, by decide, by decide, rfl, by decide, by decide, ?_,
    by decide, by decide⟩
  intro x _ h
  have h' : x < 0x1008 := h
  exact ⟨mapped_standard x (by omega), by omega⟩

/-- A descriptor with `OWN` 0; a hole at the first descriptor, at its second word, at the buffer; a beat that has its FIFO
word, or room for one; a descriptor whose bytes have all moved. -/
theorem test_hyp_DmacRunsDescriptor_stops :
    let hole : Nat → Nat → State := fun a n => { oneDesc .read with cfg := { calm.cfg with mapped := [⟨0, a⟩, ⟨a + n, 2 ^ 32 - (a + n)⟩] } }
    let held := fun (n : Nat) (s : State) => { s with st := { s.st with
      dmac := { s.st.dmac with desc := some ⟨0x8000001C#32, 8, 0x1000#32, 0#32⟩, moved := n } } }
    ((dmaStarted .read calm).st.dmac.state = .running ∧ (dmaStarted .read calm).st.dmac.desc = none
      ∧ memLoad (dmaStarted .read calm) 0x10000 4 = some 0 ∧ bit (BitVec.ofNat 32 0) 31 = false)
    ∧ memLoad (hole 0x10000 4) 0x10000 4 = none
    ∧ (memLoad (hole 0x10004 4) 0x10000 4 = some 0x8000001C ∧ memLoad (hole 0x10004 4) (0x10000 + 4 * 1) 4 = none)
    ∧ memLoad (hole 0x1007 1) (0x1000 + 4) 4 = none ∧ (hole 0x1007 1).st.fifo ≠ []
    ∧ (held 4 (hole 0x1007 1)).st.dmac.moved < 8 ∧ (oneDesc .write).st.fifo.length < (oneDesc .write).cfg.fifoDepth
    ∧ 8 ≤ (held 8 (hole 0x10003 1)).st.dmac.moved ∧ memLoad (held 8 (hole 0x10003 1)) 0x10000 4 = none := by
  decide

/-- The start of the stream; a drain that finds too few words; a tuning read, and one whose drain finds too few. -/
theorem test_hyp_PioPullMovesWords :
    let s := pioState .read [⟨0x3001#32, 3#32⟩] 3 [0x00332211#64]
    (∃ a, s.st.active = some a ∧ a.origin = .host ∧ a.dataErr = none) ∧ s.cfg.Valid ∧ FifoBounded s ∧ bit s.regs.ctrl 5 = false
    ∧ s.st.dmac.owner = .block ∧ CursorAt [⟨0x3001#32, 3#32⟩] 0 s.st.pio
    ∧ 0 + s.st.pio.remaining ≤ (streamAddrs [⟨0x3001#32, 3#32⟩]).length
    ∧ (∀ x ∈ streamAddrs [⟨0x3001#32, 3#32⟩], mapped s.cfg x = true) ∧ s.st.pio.remaining ≤ s.cfg.w * pulledWords s
    ∧ (let e := pioState .read [⟨0x3001#32, 3#32⟩] 3 []
       e.cfg.w * pulledWords e < e.st.pio.remaining)
    ∧ (probe (tuneJob 0 0#16)).origin = .tuning ∧ 0 + 3 ≤ calm.st.tbuf.length
    ∧ (let e := withActive (Active.fresh (Request.fresh (probe (tuneJob 0 0#16)))) (pioState .read [] 3 [])
       e.cfg.w * pulledWords e < e.st.pio.remaining ∧ ∃ a, e.st.active = some a ∧ a.origin = .tuning ∧ a.dataErr = none) := by
  refine ⟨⟨_, rfl, rfl, rfl⟩, valid_standard, by unfold FifoBounded; decide, by decide, rfl, ⟨.inl rfl, rfl⟩, by decide, ?_,
    by decide, by decide, rfl, ?_, ⟨by decide, _, rfl, rfl, rfl⟩⟩
  · intro x h
    have h' : x ∈ [0x3001, 0x3002, 0x3003] := h
    exact mapped_standard x (by rcases h' with _ | ⟨_, _ | ⟨_, _ | ⟨_, h⟩⟩⟩ <;> first | decide | cases h)
  · show 3 ≤ (List.replicate 128 0#8).length
    rw [List.length_replicate]
    decide

theorem test_hyp_PioPushMovesWords :
    let s := pioState .write [⟨0x3001#32, 3#32⟩, ⟨0x6000#32, 5#32⟩] 8 []
    (∃ a, s.st.active = some a ∧ a.origin = .host ∧ a.path = .pio) ∧ s.cfg.Valid ∧ FifoBounded s ∧ bit s.regs.ctrl 5 = false
    ∧ CursorAt [⟨0x3001#32, 3#32⟩, ⟨0x6000#32, 5#32⟩] 0 s.st.pio ∧ CursorAt [⟨0x3001#32, 3#32⟩, ⟨0x6000#32, 5#32⟩] 8 ⟨2, 0, 0⟩
    ∧ 0 + s.st.pio.remaining ≤ (streamAddrs [⟨0x3001#32, 3#32⟩, ⟨0x6000#32, 5#32⟩]).length ∧ s.st.dst = .dXfer :=
  ⟨⟨_, rfl, rfl, rfl⟩, valid_standard, by unfold FifoBounded; decide, by decide, ⟨.inl rfl, rfl⟩, ⟨.inl rfl, by decide⟩,
    by decide, rfl⟩

theorem test_hyp_TuneStartFourWays :
    (slotAt State.reset 0).present = false ∧ (slotAt calm 0).present = true ∧ 6#4 ≠ (slotAt calm 0).mode
    ∧ 0#4 = (slotAt calm 0).mode ∧ (slotAt calm 0).tuned.valid = false
    ∧ (⟨true, 0#4, 3, 0x1C#16⟩ : Tuned).valid = true ∧ (⟨true, 0#4, 3, 0x1C#16⟩ : Tuned).mode = 0#4 := by
  decide

theorem test_hyp_TuneStepSendsRead :
    let s := tuneState (tuneJob 7 0#16)
    s.st.tuning = true ∧ s.st.active = none ∧ (tuneJob 7 0#16).await = false ∧ (tuneJob 7 0#16).idx < 8 ∧ Prompt s
    ∧ (tuneJob 7 0#16).slot.toNat < s.cfg.nslots ∧ bit s.regs.cmd 31 = false ∧ s.cfg.fineTune = false
    ∧ 8 ≤ (tuneJob 8 0#16).idx ∧ ({ tuneJob 7 0#16 with await := true } : TuneCtx).await = true :=
  ⟨rfl, rfl, rfl, by decide, ⟨valid_standard, rfl⟩, by decide, by decide, rfl, by decide, rfl⟩

theorem longestRun_all : LongestRun 0x00FF#16 8 0 8 := by
  refine ⟨by decide, by decide, by decide, by unfold RunAt; decide, fun q h => by omega, fun h => by omega⟩

theorem longestRun_wraps : LongestRun 0x0083#16 8 7 3 := by
  refine ⟨by decide, by decide, by decide, by unfold RunAt; decide, ?_, ?_⟩
  · unfold RunAt; decide
  · unfold RunAt; decide

/-- V6.1: every phase passes; a run that wraps; an even run with the heuristic. -/
theorem test_hyp_TuneSelectsMedian :
    LongestRun (tuneJob 8 0xFF#16).bitmap 8 0 8 ∧ LongestRun (tuneJob 8 0x83#16).bitmap 8 7 3
    ∧ (tuneState (tuneJob 8 0xFF#16)).cfg.Valid ∧ (tuneState (tuneJob 8 0xFF#16)).cfg.fineTune = false
    ∧ max 1 (calm.cfg.minRun.getD calm.st.clkDiv 1) ≤ 3 ∧ calm.cfg.tunePrevHeuristic = false
    ∧ ({ Slot.reset with prevPhase := some 5 } : Slot).prevPhase = some 5 ∧ 8 % 2 = 0 :=
  ⟨longestRun_all, longestRun_wraps, valid_standard, rfl, by decide, rfl, rfl, rfl⟩

/-- V6.2: a threshold of 4 against a run of 3; one retry left, and none. -/
theorem test_hyp_TuneRejectsAndFinishes :
    (∀ q, q < 8 → ¬ RunAt 0x001C#16 8 q (max 1 (([4] : List Nat).getD 0 1)))
    ∧ 8 < max 1 (([9] : List Nat).getD 0 1) ∧ (tuneJob 8 0x1C#16).scan < 1 ∧ calm.cfg.tuneRetryMax ≤ (tuneJob 8 0x1C#16).scan
    ∧ (tuneState (tuneJob 8 0x1C#16)).st.tctx = some (tuneJob 8 0x1C#16) ∧ Code.noMedium ≠ .noViableMode := by
  refine ⟨?_, by decide, by decide, by decide, rfl, by decide⟩
  unfold RunAt
  decide

theorem test_hyp_TuningReadScored :
    (ofReq (probe (tuneJob 3 0#16)) .pio).origin = .tuning ∧ summary (ofReq (probe (tuneJob 3 0#16)) .pio) = .ok
    ∧ summary { ofReq (probe (tuneJob 3 0#16)) .pio with nomedium := some .noMedium } = .noMedium
    ∧ summary { ofReq (probe (tuneJob 3 0#16)) .pio with fatalErr := some .hardFailure } = .hardFailure
    ∧ (tuneState (tuneJob 3 0#16)).st.tctx = some (tuneJob 3 0#16) ∧ (tuneState (tuneJob 3 0#16)).st.dmac.owner = .block := by
  refine ⟨rfl, by decide, by decide, by decide, rfl, rfl⟩

/-- A queue whose second entry is the acknowledgement; heads of each other kind; an empty queue. -/
theorem test_hyp_ControlOperationsRun :
    NoAck [⟨.setClock 0#32, 1#32, 0#4⟩] ∧ NoAck [] ∧ NoAck [⟨.tune 6#4 19#6 [1#8], 1#32, 0#4⟩]
    ∧ NoAck [⟨.setBusTiming 6#4 4#4, 1#32, 0#4⟩] ∧ (slotAt State.reset 0).present = false ∧ (slotAt calm 0).present = true
    ∧ Prompt calm ∧ RegsLegal calm ∧ NoReset calm ∧ bit (regRead .STATUS calm) 9 = false ∧ calm.st.ctlq = []
    ∧ calm.st.now + ticks calm.cfg calm.cfg.resetTimeout ≤ 500000
    ∧ (Prompt busyCalm ∧ RegsLegal busyCalm ∧ NoReset busyCalm ∧ bit (regRead .STATUS busyCalm) 9 = true
      ∧ (slotAt busyCalm 0).present = true)
    ∧ busyCalm.st.now + ticks busyCalm.cfg busyCalm.cfg.busyTimeout ≤ 500000
    ∧ 500000 + ticks busyCalm.cfg busyCalm.cfg.busyTimeout ≤ 1000000 := by
  refine ⟨?_, ?_, ?_, ?_, by decide, by decide, prompt_calm, legal_calm, noReset_calm, by decide, rfl, by decide,
    ⟨⟨valid_standard, rfl⟩, legal_calm, noReset_calm, by decide, by decide⟩, by decide, by decide⟩ <;>
    · unfold NoAck
      decide

theorem test_hyp_SetClockRuns :
    calm.cfg.Valid ∧ calm.ctl.yields = false ∧ RegsLegal calm ∧ NoAck [] ∧ calm.st.active = none ∧ calm.st.tuning = false
    ∧ bit (regRead .STATUS calm) 9 = false ∧ bit calm.regs.cmd 31 = false ∧ xferHolds calm = false
    ∧ (0#4).toNat < calm.cfg.nslots ∧ 400000#32 ≠ 0#32 ∧ calm.cfg.clkSrcHz ≤ 510 * (400000#32).toNat
    ∧ dividerFor calm.cfg.clkSrcHz (400000#32).toNat = 125 ∧ dividerFor calm.cfg.clkSrcHz (1#32).toNat = 255
    ∧ dividerFor calm.cfg.clkSrcHz (100000000#32).toNat = 0
    ∧ calm.st.now + ticks calm.cfg calm.cfg.cmdAcceptTimeout ≤ 500000 ∧ bit (0x80202000#32) 31 = true :=
  ⟨valid_standard, rfl, legal_calm, (fun _ h => nomatch h), rfl, rfl, by decide, by decide, rfl, by decide, by decide, by decide,
    by decide, by decide, by decide, by decide, by decide⟩

theorem test_hyp_ControllerInitRuns :
    let s := withCtlq [⟨.controllerInit, 3#32, 0#4⟩] calm
    Prompt s ∧ RegsLegal s ∧ NoReset s ∧ ShapeOk s ∧ s.st.ctlq = ⟨.controllerInit, 3#32, 0#4⟩ :: [] ∧ NoAck []
    ∧ s.st.active = none ∧ s.st.tuning = false ∧ s.cfg.dmaPresent = true
    ∧ s.st.now + ticks s.cfg s.cfg.resetTimeout ≤ 500000 :=
  ⟨⟨valid_standard, rfl⟩, legal_calm, noReset_calm, shape_calm, rfl, (fun _ h => nomatch h), rfl, rfl, rfl, by decide⟩

/-- A clause each: a fatal flush, event words at the ends of the code range, an acknowledgement, a tuning step, a control
operation, a dispatch, nothing to do. -/
theorem test_hyp_DpuRunOrder :
    (fatalCalm.st.fatal = true ∧ CanFlush fatalCalm ∧ fatalCalm.st.active = none)
    ∧ ¬ (calm.st.fatal = true ∧ CanFlush calm)
    ∧ (∃ e ∈ [0x00000009#32, 0x00000010#32], bits e 0 8 = 0 ∨ 9 < bits e 0 8)
    ∧ (∀ e ∈ [0x00000009#32, 0x00000401#32], 1 ≤ bits e 0 8 ∧ bits e 0 8 ≤ 9) ∧ fatalCalm.st.evq = []
    ∧ ¬ rowMatches 0x00000009#32 calm
    ∧ (0x00000401#32 : Word) = ((0x000004#24) ++ 0x01#8 : BitVec 32)
    ∧ (under .cIssuing .dIdle (ofReq plainReq .none) calm).st.cst = .cIssuing
    ∧ NoAck [⟨.setClock 0#32, 1#32, 0#4⟩] ∧ NoAck calm.st.ctlq
    ∧ (tuneState (tuneJob 7 0#16)).st.tctx = some (tuneJob 7 0#16)
    ∧ (∃ t, exec (.tuneStart 1#32 0#4 6#4 19#6 [1#8]) (withCtlq [] calm) = .next t)
    ∧ (slotAt { calm with st := { calm.st with slots := [{ Slot.reset with queue := [Request.fresh plainReq] }] } }
        ((calm.st.rr + 1) % calm.cfg.nslots)).queue = Request.fresh plainReq :: []
    ∧ (calm.st.tuning = false ∧ calm.st.ctlq = [] ∧ ∀ x ∈ calm.st.slots, x.queue = [])
    ∧ (let s := tuneState { tuneJob 7 0#16 with await := true }
       s.st.tuning = true ∧ ∃ c ∈ s.st.tctx, c.await = true) := by
  refine ⟨⟨rfl, .inr (.inl ⟨_, List.mem_singleton.mpr rfl, fun h => nomatch h⟩), rfl⟩, (fun h => nomatch h.1),
    ⟨0x00000010#32, List.mem_cons_of_mem _ (List.mem_singleton.mpr rfl), by decide⟩,
    List.forall_mem_cons.mpr ⟨by decide, List.forall_mem_singleton.mpr (by decide)⟩, rfl, ?_, by decide, rfl, ?_,
    (fun _ h => nomatch h), rfl, ⟨_, rfl⟩, rfl, ⟨rfl, rfl, by decide⟩, rfl, _, rfl, rfl⟩
  · rintro (h | h | ⟨a, h, -⟩)
    · exact absurd h (by decide)
    · exact absurd h (by decide)
    · exact nomatch h
  · unfold NoAck
    decide

theorem test_hyp_InterruptAndTimerPost :
    RegsLegal calm ∧ EventsLegal calm ∧ calm.st.wd.armed = false
    ∧ (let s := { calm with st := { calm.st with wd := ⟨true, 1, 2#32⟩ } }
       s.st.wd.armed = true ∧ s.st.wd.deadline ≤ s.st.now + 1)
    ∧ ({ calm with ctl := { calm.ctl with agenda := [.irq] } } : State).ctl.agenda = .irq :: [] :=
  ⟨legal_calm, events_calm, rfl, ⟨rfl, by decide⟩, rfl⟩

/-- A step of TIMER from a state that has the forms. -/
theorem test_hyp_StepKeepsForms :
    calm.cfg.nslots ≤ 16 ∧ Forms calm ∧ ∃ s', step { calm with ctl := { calm.ctl with agenda := [.timer] } } = .next s' :=
  ⟨by decide, forms_calm, _, rfl⟩

/-- HOST writes a byte. -/
theorem test_hyp_StepKeepsMemoryCanonical :
    Memory.wf calm.mem ∧ ∃ s', step { calm with ctl := { calm.ctl with agenda := [.hostWrite 0x1000 [5#8]] } } = .next s' :=
  ⟨⟨List.Pairwise.nil, fun _ h => nomatch h⟩, _, rfl⟩

/-- A well-formed operation at reset. -/
theorem test_hyp_ResetState :
    HostOp.setClock ≠ .controllerInit ∧ operandsLegal State.reset.cfg .setClock 0#4 [0#32] = true := by
  decide

/-- Each agent's stimulus; HOST's bytes inside and outside the arena, the arena the block's and the DMA engine's. -/
theorem test_hyp_AgentsKeepToTheirState :
    ([.timer, .irq, .dpu, .dmac, .feed .host [4#32], .feed .trace [0x51#32], .bus (.setPresent 0 false), .hostRead 0 4,
        .hostWrite 0x10000 [1#8]] : List Stimulus).all
      (fun t => (got (step { calm with ctl := { calm.ctl with agenda := [t] } }) fun _ => ()).isSome) = true
    ∧ Memory.wf calm.mem ∧ reservedForHost calm 0xFFFF = false ∧ mapped calm.cfg 0xFFFF = true
    ∧ reservedForHost calm 0x10000 = true ∧ inHeldBuffer calm 0x10000 = false
    ∧ ¬ OwnedArenaHit calm 0x10000 1 ∧ OwnedArenaHit (dmaStarted .read calm) 0xFFFF 2
    ∧ ¬ OwnedArenaHit (dmaStarted .read calm) 0xFFFF 1 :=
  ⟨by decide, ⟨List.Pairwise.nil, fun _ h => nomatch h⟩, by decide, by decide, by decide, by decide,
    (fun h => nomatch h.2.1), ⟨rfl, rfl, 1, by decide, by decide, by decide⟩,
    fun ⟨_, _, i, h, g, _⟩ => by have e : 0x10000 ≤ 0xFFFF + i := g; omega⟩

/-- Offsets at the ends of their ranges; a FIFO that is empty, one that has a word, one that is full. -/
theorem test_hyp_RegisterAccess :
    (RegsLegal calm ∧ calm.ctl.dpu = []) ∧ bit calm.regs.cmd 31 = false ∧ bit (0x80000000#32) 31 = true
    ∧ (0x202 ≠ 0x200 ∧ 0x202 % 4 ≠ 0) ∧ 0x400 ≤ 0x400
    ∧ ([0x004, 0x00C, 0x3FC].all fun off => decide (off % 4 = 0 ∧ off < 0x400 ∧ off ≠ 0x200) &&
        !((storedRegs calm ++ computedRegs calm).any fun x => x.1 == off) && !fieldRegs.contains off) = true
    ∧ 2 ≠ calm.cfg.w ∧ bit calm.regs.ctrl 5 = false ∧ bit (dmaStarted .read calm).regs.ctrl 5 = true
    ∧ calm.st.fifo = [] ∧ calm.st.fifo.length < calm.cfg.fifoDepth
    ∧ calm.cfg.fifoDepth ≤ (List.replicate 64 0#64).length ∧ calm.st.fifo.length < 2 ^ 13
    ∧ (calm.env.present.length ≤ 16 ∧ 1 ≤ calm.cfg.nslots ∧ calm.cfg.nslots ≤ 16) :=
  ⟨⟨legal_calm, rfl⟩, by decide, by decide, by decide, by decide, by decide, by decide, by decide, by decide, rfl, by decide,
    by decide, by decide, by decide⟩

/-- A command waiting and none; one whose previous data are on the wire; a command accepted, with and without a response
that signals busy. -/
theorem test_hyp_BusServesCommands :
    bit 0x80202000#32 31 = true ∧ xferHolds calm = false ∧ bit 0x00202000#32 31 = false
    ∧ xferHolds { calm with env := { calm.env with xfer := some ⟨0, .read, 512, 0, 0, 0#32, false, false, false⟩ } } = true
    ∧ bit 0x80002351#32 13 = true ∧ calm.env.cmds = []
    ∧ (let c : WireCmd := ⟨0x2351#32, 0#32, 0#32, 0#32, 0#32, 0#32, 0#32, false⟩
       bit c.cmd 6 = true ∧ c.signals = false)
    ∧ (let c : WireCmd := ⟨0x2347#32, 0#32, 0#32, 0#32, 0#32, 0#32, 0#32, true⟩
       bit c.cmd 6 = true ∧ c.signals = true)
    ∧ bit (⟨0x2300#32, 0#32, 0#32, 0#32, 0#32, 0#32, 0#32, false⟩ : WireCmd).cmd 6 = false := by
  decide

/-- Transfers of 3 bytes: one word, then none left; thresholds met and not;
a card that is there, one that is busy; and what is outside the contract: no error bits, a bit a read and a write cannot
have, no reset under way, a slot without a card, past the last, not busy. -/
theorem test_hyp_BusServesCommands_data :
    let rd : WireXfer := ⟨0, .read, 3, 0, 0, 0#32, false, false, false⟩
    let wr : WireXfer := ⟨0, .write, 3, 0, 0, 0#32, false, false, false⟩
    calm.cfg.Valid ∧ (withXfer (some rd) calm).env.xfer = some rd
    ∧ (rd.moved < wordsOf calm.cfg rd ∧ wordsOf calm.cfg rd ≤ (wordMoved calm.cfg rd).moved)
    ∧ bits calm.regs.fifoth 16 12 < (List.replicate 32 0#64).length ∧ (List.replicate 31 0#64).length ≤ bits calm.regs.fifoth 16 12
    ∧ calm.st.fifo.length ≤ bits calm.regs.fifoth 0 12 ∧ bits calm.regs.fifoth 0 12 < [0#64].length
    ∧ (0xA280#32 ≠ 0#32 ∧ 0xA280#32 &&& ~~~(0xA280#32 ||| 0#32) = 0#32) ∧ 0x8080#32 &&& ~~~(0x8080#32 ||| 0#32) = 0#32
    ∧ wr.moved < wordsOf calm.cfg wr ∧ (ShapeOk calm ∧ 0 < calm.cfg.nslots) ∧ calm.env.present[0]? = some (!false)
    ∧ calm.env.xfer = none ∧ busyCalm.env.busy[0]? = some true
    ∧ (0x800#32 &&& ~~~(0xA280#32 ||| 0#32) ≠ 0#32 ∧ 0x2000#32 &&& ~~~(0x8080#32 ||| 0xC00#32) ≠ 0#32)
    ∧ (bit calm.regs.ctrl 0 = false ∧ bit calm.regs.ctrl 1 = false ∧ bit calm.regs.ctrl 2 = false ∧ bit calm.regs.bmod 0 = false)
    ∧ (State.reset.env.present[0]? ≠ some true ∧ calm.cfg.nslots ≤ 1 ∧ calm.env.busy[0]? ≠ some true)
    ∧ (calm.env.signalled[0]? ≠ some true ∧ [true][0]? = some true)
    ∧ (calm.env.present[0]? = some true ∧ busStep (.dataErr 0x800#32) (withXfer (some rd) calm) = .fault .busContract
      ∧ busStep (.resetDone true false false) calm = .fault .busContract) :=
  ⟨valid_standard, rfl, by decide, by decide, by decide, by decide, by decide, by decide, by decide,
    by decide, ⟨shape_calm, by decide⟩, rfl, rfl, rfl, by decide, by decide, by decide, by decide, ⟨rfl, rfl, rfl⟩⟩

end Sys2Proof.Tests
end

section
/-! PROOFS. The family 00_scope.md: a poll that expires raises FATAL (R47, R724). Each operation is run up to the poll it
waits in; one rule, `expiry_of_waiting`, then says what the poll's expiry leaves. -/

namespace Sys2Proof.Machine

/-! ### What a FATAL passes over -/

/-- Work the DPU passes over once a primitive has failed: none of it handles the failure (R724). -/
abbrev PassedOver (ws : List Work) : Prop := ∀ w ∈ ws, w.plain = true ∧ w.handles = false

/-- The work left of a micro-operation that failed is passed over up to its end. -/
theorem drive_passedOver {rest : List Work} (ws : List Work) {s : State} (hr : s.ctl.ret ≠ .ok)
    (hrest : PassedOver rest) (k : Nat) :
    drive (rest.length + 1 + k) (setDpu (rest ++ .halt :: ws) s) = .next (setDpu ws s) := by
  induction rest with
  | nil =>
    rw [List.length_nil, Nat.zero_add, Nat.add_comm]
    exact drive_halt k ws s
  | cons w rest ih =>
    obtain ⟨hw, htail⟩ := List.forall_mem_cons.mp hrest
    calc drive ((w :: rest).length + 1 + k) (setDpu (w :: rest ++ .halt :: ws) s)
        = drive (rest.length + 1 + k + 1) (setDpu (w :: (rest ++ .halt :: ws)) s) := by
          rw [List.length_cons, List.cons_append]; congr 1; omega
      _ = drive (rest.length + 1 + k) (setDpu (rest ++ .halt :: ws) s) := drive_skip _ w _ s hw.1 hr hw.2
      _ = .next (setDpu ws s) := ih htail

/-- A micro-operation waits in a poll that ends in FATAL. At the poll's deadline, whatever the poll's condition, FATAL is
raised and the rest of the micro-operation is passed over (R47, R724). -/
theorem expiry_of_waiting {r : Res} {c : PollCond} {t n : Nat} {rest ws : List Work} {x : State}
    (h : r = .next (setDpu (.poll c t .fatal :: rest ++ .halt :: ws) x)) (hy : x.ctl.yields = false) (ht : t ≤ n)
    (hrest : PassedOver rest) (hlen : rest.length < driveBound) :
    ∃ u, r = .next u ∧ dpuStep (atTick n u) = .next (setDpu ws (fatalAt n x)) := by
  refine ⟨_, h, ?_⟩
  have hstep : dpuStep (atTick n (setDpu (.poll c t .fatal :: rest ++ .halt :: ws) x))
      = drive driveBound (setDpu (rest ++ .halt :: ws) (fatalAt n x)) := dpuStep_expired (e := .fatal) rfl hy ht
  obtain ⟨k, hk⟩ := Nat.exists_eq_add_of_le (Nat.succ_le_of_lt hlen)
  rw [hstep, hk]
  exact drive_passedOver ws (s := fatalAt n x) (by simp [fatalAt]) hrest k

/-! ### Resets that are not completed -/

/-- A reset of `CTRL` bits with more work behind it (R684, R685). -/
theorem reset_expiry (m : Word) (rest : List Work) {s : State} {n : Nat} (hp : Prompt s) (hr : RegsLegal s)
    (ht : s.st.now + ticks s.cfg s.cfg.resetTimeout ≤ n) (hm : m &&& 0x7#32 = m) (h0 : m ≠ 0#32)
    (hrest : PassedOver rest) (hlen : rest.length + 1 < driveBound) :
    ∃ u, runProg (.assertReset m :: .await (.resetClear m) .fatal :: .clearPartBuf :: rest) s = .next u ∧
      dpuStep (atTick n u) = .next (fatalAt n (asserted m 0#32 s)) := by
  refine expiry_of_waiting (c := .resetClear m) (rest := .clearPartBuf :: rest) (x := asserted m 0#32 (setRet .ok s))
    ?_ hp.2 ht (List.forall_mem_cons.mpr ⟨⟨rfl, rfl⟩, hrest⟩) hlen
  rw [runProg_eq]
  exact reset_waits (setRet .ok s) m _ 509 hp hr hm h0 rfl

/-- DMA_RESET with more work behind it (R566). -/
theorem dmaReset_expiry (rest : List Work) {s : State} {n : Nat} (hp : Prompt s) (hr : RegsLegal s)
    (ht : s.st.now + ticks s.cfg s.cfg.resetTimeout ≤ n) (hrest : PassedOver rest) (hlen : rest.length + 1 < driveBound) :
    ∃ u, runProg (dmaResetProg ++ rest) s = .next u ∧
      dpuStep (atTick n u) = .next (fatalAt n (asserted 0x4#32 0x1#32 s)) := by
  refine expiry_of_waiting (c := .dmaResetClear) (rest := .dmaRelease :: rest)
    (x := asserted 0x4#32 0x1#32 (setRet .ok s)) ?_ hp.2 ht (List.forall_mem_cons.mpr ⟨⟨rfl, rfl⟩, hrest⟩) hlen
  rw [runProg_eq, List.append_assoc]
  exact dma_reset_waits (setRet .ok s) _ 509 hp hr rfl

/-- DMA_STOP ends at once, so a failure of the DMA_RESET behind it is one after DMA_STOP's effect (R565, R566). -/
theorem dmaStop_dmaReset_expiry (rest : List Work) {s : State} {n : Nat} (hp : Prompt s) (hr : RegsLegal s)
    (ht : s.st.now + ticks s.cfg s.cfg.resetTimeout ≤ n) (hrest : PassedOver rest) (hlen : rest.length + 1 < driveBound) :
    ∃ u, runProg (dmaStopProg ++ (dmaResetProg ++ rest)) s = .next u ∧
      dpuStep (atTick n u) = .next (fatalAt n (asserted 0x4#32 0x1#32 (dmaStopped s))) := by
  refine expiry_of_waiting (c := .dmaResetClear) (rest := .dmaRelease :: rest)
    (x := asserted 0x4#32 0x1#32 (dmaStopped (setRet .ok s))) ?_ hp.2 ht
    (List.forall_mem_cons.mpr ⟨⟨rfl, rfl⟩, hrest⟩) hlen
  have hr' : RegsLegal (dmaStopped (setRet .ok s)) :=
    { hr with ctrl := not_mask_zero _ _ _ hr.ctrl, bmod := not_mask_zero _ _ _ hr.bmod }
  rw [runProg_eq, List.append_assoc, List.append_assoc]
  exact (dmaStop_tail (setRet .ok s) _ 508 hp hr rfl).trans
    (dma_reset_waits (dmaStopped (setRet .ok s)) _ 505 hp hr' rfl)

/-- RECOVER's work behind its FIFO reset (R690). -/
def recoverTail (a : Active) : List Work := (if deep a then resetControllerProg else []) ++ [.recoverEnd]

theorem recoverProg_eq (a : Active) : recoverProg a =
    (if a.path = .dma then dmaStopProg ++ dmaResetProg else []) ++ (resetFifoProg ++ recoverTail a) := by
  simp only [recoverProg, recoverTail, List.append_assoc]

theorem recoverTail_passedOver (a : Active) : PassedOver (recoverTail a) := by
  unfold recoverTail; cases deep a <;> decide

theorem recoverTail_length_le (a : Active) : (recoverTail a).length ≤ 4 := by
  unfold recoverTail; cases deep a <;> decide

/-- RECOVER's first reset: DMA_RESET on the DMA path, RESET_FIFO on another (R690). -/
theorem recover_expiry {a : Active} {s : State} {n : Nat} (hp : Prompt s) (hr : RegsLegal s)
    (ht : s.st.now + ticks s.cfg s.cfg.resetTimeout ≤ n) (ha : s.st.active = some a) :
    ∃ u, exec .recover s = .next u ∧ dpuStep (atTick n u) = .next (fatalAt n
      (if a.path = .dma then asserted 0x4#32 0x1#32 (dmaStopped s) else asserted 0x2#32 0#32 s)) := by
  have hexec : exec .recover s = runProg (recoverProg a) s := by simp only [exec, execRecover, ha]
  have htail := recoverTail_passedOver a
  have hlen := recoverTail_length_le a
  rw [hexec, recoverProg_eq]
  by_cases hpath : a.path = .dma
  · rw [if_pos hpath, if_pos hpath, List.append_assoc]
    have hfifo : (resetFifoProg ++ recoverTail a).length = 3 + (recoverTail a).length := List.length_append
    exact dmaStop_dmaReset_expiry _ hp hr ht (List.forall_mem_append.mpr ⟨by decide, htail⟩)
      (by rw [hfifo, driveBound]; omega)
  · rw [if_neg hpath, if_neg hpath, List.nil_append]
    exact reset_expiry 0x2#32 (recoverTail a) hp hr ht (by decide) (by decide) htail (by rw [driveBound]; omega)

/-! ### Commands BUS does not accept -/

/-- The command-accept poll with a command waiting, whatever work is behind it (R412, R692). -/
theorem startClear_expiry {rest : List Work} {s : State} {n : Nat} (hp : Prompt s)
    (ht : s.st.now + ticks s.cfg s.cfg.cmdAcceptTimeout ≤ n) (hbusy : bit s.regs.cmd 31 = true)
    (hrest : PassedOver rest) (hlen : rest.length < driveBound) :
    ∃ u, runProg (.await .startClear .fatal :: rest) s = .next u ∧ dpuStep (atTick n u) = .next (fatalAt n s) := by
  refine expiry_of_waiting (c := .startClear) (x := setRet .ok s) ?_ hp.2 ht hrest hlen
  rw [runProg_eq]
  exact drive_await_wait 510 .startClear .fatal _ (setRet .ok s) rfl hp.2 (pollTimeout_pos hp.1 .startClear)
    (by simp [pollHolds, regRead, hbusy])

/-- DISPATCH of a request with no data while a command waits (R460). -/
theorem dispatch_expiry {r : ReqOp} {s : State} {n : Nat} (hp : Prompt s)
    (ht : s.st.now + ticks s.cfg s.cfg.cmdAcceptTimeout ≤ n) (hbusy : bit s.regs.cmd 31 = true)
    (ha : s.st.active = none) (hslot : r.slot.toNat < s.cfg.nslots) (hd : r.data = none) :
    ∃ u, exec (.dispatch r) s = .next u ∧ dpuStep (atTick n u) = .next (fatalAt n (armed r s)) := by
  refine expiry_of_waiting (c := .startClear) (rest := [.writeCommand]) (x := setRet .ok (armed r s)) ?_ hp.2 ht
    (by decide) (by decide)
  show runProg [.dispatch (Request.fresh r)] s = _
  rw [runProg_first _ _ _ rfl, perform, List.nil_append, dispatchBegin_without_data r s ha hslot hd, ofExcept_ok,
    andThen_next]
  exact drive_await_wait 509 .startClear .fatal _ (setRet .ok (armed r s)) rfl hp.2 (pollTimeout_pos hp.1 .startClear)
    (by simp [pollHolds, regRead, armed, hbusy])

/-- The update-clock command word has no reserved bit of `CMD` set (R309, R112). -/
theorem updateClockWord_mask (slot : BitVec 4) :
    (0x80202000#32 ||| cardField slot) &&& 0x803FFFFF#32 = 0x80202000#32 ||| cardField slot := by
  revert slot; decide

/-- The update-clock command word asks BUS to accept it (R309, R112). -/
theorem updateClockWord_starts (slot : BitVec 4) : bit (0x80202000#32 ||| cardField slot) 31 = true := by
  revert slot; decide

/-- UPDATE_CLOCK's command written while none waits (R412). -/
theorem writeUpdateClock_eq (slot : BitVec 4) {s : State} (hfree : bit s.regs.cmd 31 = false) :
    writeUpdateClock slot s = updateSent slot s := by
  rw [writeUpdateClock, regWrite_cmd _ _ hfree]
  exact congrArg (fun w => { s with regs := { s.regs with cmd := w } }) (updateClockWord_mask slot)

/-- UPDATE_CLOCK with no command waiting writes its own, which BUS does not accept (R412). -/
theorem updateClock_expiry (slot : BitVec 4) {s : State} {n : Nat} (hp : Prompt s)
    (ht : s.st.now + ticks s.cfg s.cfg.cmdAcceptTimeout ≤ n) (hfree : bit s.regs.cmd 31 = false) :
    ∃ u, exec (.updateClock slot) s = .next u ∧ dpuStep (atTick n u) = .next (fatalAt n (updateSent slot s)) := by
  refine expiry_of_waiting (c := .startClear) (rest := []) (x := updateSent slot (setRet .ok s)) ?_ hp.2 ht
    (by decide) (by decide)
  show runProg (updateClockProg slot) s = _
  have hpos := pollTimeout_pos hp.1 .startClear
  rw [runProg_eq]
  calc drive driveBound (setDpu (updateClockProg slot ++ .halt :: s.ctl.dpu) (setRet .ok s))
      = drive 510 (setDpu (.writeUpdateClock slot :: .await .startClear .fatal :: .halt :: s.ctl.dpu) (setRet .ok s)) :=
        drive_await_ok 510 .startClear .fatal _ (setRet .ok s) rfl hp.2 hpos (by simp [pollHolds, regRead, hfree])
    _ = drive 509 (writeUpdateClock slot (setDpu (.await .startClear .fatal :: .halt :: s.ctl.dpu) (setRet .ok s))) :=
        drive_work 509 _ _ _ rfl (.inl rfl)
    _ = drive 509 (setDpu (.await .startClear .fatal :: .halt :: s.ctl.dpu) (updateSent slot (setRet .ok s))) := by
        rw [writeUpdateClock_eq slot (s := setDpu _ (setRet .ok s)) hfree]; rfl
    _ = _ := drive_await_wait 507 .startClear .fatal _ (updateSent slot (setRet .ok s)) rfl hp.2 hpos
        (by simp [pollHolds, regRead, updateSent, updateClockWord_starts slot])

/-- Settles O36: every one of these operations waits in a poll that ends in FATAL, and what it has left then is passed
over. -/
theorem pollExpiryIsFatal : Obligations.PollExpiryIsFatal := by
  unfold Obligations.PollExpiryIsFatal
  intro s n hp hr
  refine ⟨fun _ ht => ⟨?fifo, ?controller, ?dma, ?recover⟩, fun ht => ⟨fun hbusy => ⟨?stop, ?clock, ?dispatch⟩, ?sent⟩⟩
  case fifo => exact reset_expiry 0x2#32 [] hp hr ht (by decide) (by decide) (by decide) (by decide)
  case controller => exact reset_expiry 0x7#32 [] hp hr ht (by decide) (by decide) (by decide) (by decide)
  case dma =>
    intro hd
    have hexec : exec .dmaReset s = runProg (dmaResetProg ++ []) s := if_pos hd
    rw [hexec]
    exact dmaReset_expiry [] hp hr ht (by decide) (by decide)
  case recover => exact fun a ha => recover_expiry hp hr ht ha
  case stop =>
    intro hactive
    obtain ⟨a, ha⟩ := Option.ne_none_iff_exists'.mp hactive
    have hexec : exec .issueStop s = runProg issueStopProg s := by simp only [exec, execIssueStop, ha]
    rw [hexec]
    exact startClear_expiry hp ht hbusy (by decide) (by decide)
  case clock =>
    intro slot
    exact startClear_expiry (rest := [.writeUpdateClock slot, .await .startClear .fatal]) hp ht hbusy
      (List.forall_mem_cons.mpr ⟨⟨rfl, rfl⟩, by decide⟩) (by simp [driveBound])
  case dispatch => exact fun r ha hslot hd => dispatch_expiry hp ht hbusy ha hslot hd
  case sent => exact fun hfree slot => updateClock_expiry slot hp ht hfree

end Sys2Proof.Machine
end

section
/-! PROOFS. The family 10_state.md: every step keeps the forms, what the register accesses do, DMA_START and DMA_STOP, and
the operations whose operand is missing. Each operation of the DPU, of IRQ, of the DMA engine and of HOST's memory accesses
is a `Moves`; the host port, TIMER and BUS, which `Moves` excludes, keep `Forms` lemma by lemma. -/

namespace Sys2Proof.Machine

/-! ### The event queue -/

theorem eventCode_or {a b : Word} (h : eventCode a = eventCode b) : eventCode (a ||| b) = eventCode a := by
  unfold eventCode bits at *
  rw [BitVec.toNat_or, pow_zero, Nat.div_one, Nat.or_mod_two_pow]
  simp only [pow_zero, Nat.div_one] at h ⊢
  rw [← h, Nat.or_self]

/-- A merged event keeps the code it is merged under (R148). -/
theorem eventCode_mergeEvent {old new : Word} (h : eventCode old = eventCode new) :
    eventCode (mergeEvent old new) = eventCode old := by
  unfold mergeEvent
  split
  · exact eventCode_or h
  · split
    · exact h.symm
    · rfl

/-- A post leaves the codes of the queue as they are but for a new one at its end (R148). -/
theorem postTo_codes (e : Word) (q : List Word) :
    (postTo e q).map eventCode =
      q.map eventCode ++ if eventCode e ∈ q.map eventCode then [] else [eventCode e] := by
  have hany : (q.any fun x => decide (eventCode x = eventCode e)) = decide (eventCode e ∈ q.map eventCode) := by
    rw [Bool.eq_iff_iff]; simp
  have hmerge : ∀ x, eventCode (if eventCode x = eventCode e then mergeEvent x e else x) = eventCode x := fun x => by
    split
    · rename_i h; exact eventCode_mergeEvent h
    · rfl
  unfold postTo
  rw [hany]
  by_cases h : eventCode e ∈ q.map eventCode
  · rw [if_pos (decide_eq_true h), if_pos h, List.append_nil, List.map_map]
    exact List.map_congr_left fun x _ => hmerge x
  · rw [if_neg (by simpa using h), if_neg h, List.map_append, List.map_singleton]

/-- `EventsLegal` speaks of the codes in the queue alone. -/
theorem eventsLegal_iff (s : State) : EventsLegal s ↔
    (s.st.evq.map eventCode).Nodup ∧ ∀ c ∈ s.st.evq.map eventCode, 1 ≤ c ∧ c ≤ 9 := by
  simp [EventsLegal, List.Nodup, List.pairwise_map]

theorem eventCode_eventWord (code : Nat) (p : BitVec 24) (h : code < 256) : eventCode (eventWord code p) = code :=
  eventWord_code code p h

/-- A posted event of a code of R304 keeps the queue legal. -/
theorem eventsLegal_post {e : Word} {s : State} (he : 1 ≤ eventCode e ∧ eventCode e ≤ 9) (h : EventsLegal s) :
    EventsLegal (post e s) := by
  rw [eventsLegal_iff] at h ⊢
  obtain ⟨hnodup, hrange⟩ := h
  rw [post_st, postTo_codes]
  by_cases hmem : eventCode e ∈ s.st.evq.map eventCode
  · rw [if_pos hmem, List.append_nil]; exact ⟨hnodup, hrange⟩
  · rw [if_neg hmem]
    refine ⟨?_, ?_⟩
    · rw [List.nodup_append]
      refine ⟨hnodup, List.nodup_singleton _, fun a ha b hb heq => hmem ?_⟩
      rw [← List.mem_singleton.mp hb, ← heq]; exact ha
    · intro c hc
      rcases List.mem_append.mp hc with hc | hc
      · exact hrange c hc
      · rw [List.mem_singleton.mp hc]; exact he

theorem moves_post {e : Word} (s : State) (he : 1 ≤ eventCode e ∧ eventCode e ≤ 9) : Moves s (post e s) :=
  moves_st rfl rfl (List.prefix_refl _) id (Nat.le_refl _) (eventsLegal_post he) rfl rfl id

theorem moves_postAll : ∀ (es : List Word) (s : State), (∀ e ∈ es, 1 ≤ eventCode e ∧ eventCode e ≤ 9) →
    Moves s (postAll es s)
  | [], s, _ => Moves.refl s
  | e :: rest, s, h => by
    obtain ⟨he, hrest⟩ := List.forall_mem_cons.mp h
    exact (moves_post s he).trans (moves_postAll rest _ hrest)

theorem eventIf_codes {b : Bool} {code : Nat} {p : Word} (hc : 1 ≤ code ∧ code ≤ 9) :
    ∀ e ∈ eventIf b code p, 1 ≤ eventCode e ∧ eventCode e ≤ 9 := by
  intro e he
  cases b
  · cases he
  · rw [List.mem_singleton.mp he, eventCode_eventWord code _ (by omega)]; exact hc

theorem irqEvents_codes (m d : Word) : ∀ e ∈ irqEvents m d, 1 ≤ eventCode e ∧ eventCode e ≤ 9 := by
  simp only [irqEvents, List.forall_mem_append]
  refine ⟨⟨⟨⟨⟨⟨⟨?_, ?_⟩, ?_⟩, ?_⟩, ?_⟩, ?_⟩, ?_⟩, ?_⟩ <;> exact eventIf_codes (by decide)

theorem moves_dpuSched (b : Bool) (s : State) : Moves s { s with st := { s.st with dpuSched := b } } :=
  moves_st rfl rfl (List.prefix_refl _) id (Nat.le_refl _) id rfl rfl id

/-- IRQ_DISPATCH (R730). -/
theorem moves_irqDispatch (s : State) : Moves s (irqDispatch s) :=
  ((((moves_regWrite _ _ _).trans (moves_regWrite _ _ _)).trans
    (moves_postAll _ _ (irqEvents_codes _ _))).trans (moves_dpuSched true _))

/-! ### The DMA engine agent -/

theorem moves_setIdsts {v : Word} (s : State) (hv : v &&& 0xFFFFFCC8#32 = 0#32) : Moves s (setIdsts v s) :=
  ⟨rfl, rfl, rfl, rfl, List.prefix_refl _, id, id, id, id, id, id,
    fun h => { h with idsts := or_mask_zero _ _ _ h.idsts hv }⟩

/-- The DMA engine's own fields changed. -/
theorem moves_dmac {d : Dmac} {s : State} (hd : DescHeld s → d.desc ≠ none → d.state = .running) :
    Moves s { s with st := { s.st with dmac := d } } :=
  moves_st rfl rfl (List.prefix_refl _) id (Nat.le_refl _) id rfl rfl hd

theorem moves_memStore {s s' : State} {a n v : Nat} (h : memStore s a n v = some s') : Moves s s' := by
  have hw := @memStore_wf s s' a n v h
  rw [(memStore_spec h).2] at hw ⊢
  exact ⟨rfl, rfl, rfl, rfl, List.prefix_refl _, hw, id, id, id, id, id, id⟩

theorem moves_halted (s : State) : Moves s { s with st := { s.st with dmac := s.st.dmac.halted } } :=
  moves_dmac fun _ hd => absurd rfl hd

theorem moves_dmacBusError (s : State) : Moves s (dmacBusError s) :=
  (moves_halted s).trans (moves_setIdsts _ (by decide))

theorem moves_dmacAdvance (s : State) : Moves s (dmacAdvance s) := moves_dmac id

/-- A fetch of a Running engine that holds no descriptor (R561). -/
theorem moves_dmacFetch {s : State} (hrun : s.st.dmac.state = .running) (hdesc : s.st.dmac.desc = none) :
    Moves s (dmacFetch s) := by
  unfold dmacFetch
  simp only
  split
  · exact moves_dmacBusError s
  · split
    · refine Moves.trans ?_ (moves_setIdsts _ (by decide))
      exact moves_dmac fun _ hd => absurd hdesc hd
    · split
      · exact moves_dmac fun _ _ => hrun
      · exact moves_dmacBusError s

theorem moves_dmacBeat (d : Desc) (s : State) : Moves s (dmacBeat d s) := by
  unfold dmacBeat
  split
  · split
    · exact Moves.refl s
    · split
      · exact moves_dmacBusError s
      · rename_i hs
        exact ((moves_fifoTail s).trans (moves_memStore hs)).trans (moves_dmacAdvance _)
  · split
    · rename_i hroom
      split
      · exact moves_dmacBusError s
      · exact (moves_fifoAppend _ s hroom).trans (moves_dmacAdvance _)
    · exact Moves.refl s

theorem moves_dmacWriteBack (d : Desc) (s : State) : Moves s (dmacWriteBack d s) := by
  unfold dmacWriteBack
  split
  · exact moves_dmacBusError s
  · rename_i s1 hs
    have h2 : Moves s (if cardError s then setIdsts 0x220#32 s1 else s1) := by
      split
      · exact (moves_memStore hs).trans (moves_setIdsts _ (by decide))
      · exact moves_memStore hs
    simp only
    split
    · refine Moves.trans ?_ (moves_halted _)
      split
      · exact h2
      · refine h2.trans (moves_setIdsts _ ?_)
        cases s.st.dmac.dir <;> decide
    · exact h2.trans (moves_dmac fun _ hd => absurd rfl hd)

/-- A step of the DMA engine agent (R564). -/
theorem moves_dmacStep (s : State) : Moves s (dmacStep s) := by
  unfold dmacStep
  split
  · exact Moves.refl s
  · exact Moves.refl s
  · rename_i hrun
    split
    · rename_i hdesc; exact moves_dmacFetch hrun hdesc
    · split
      · exact moves_dmacWriteBack _ s
      · exact moves_dmacBeat _ s

/-! ### HOST's memory accesses, register accesses by offset -/

theorem moves_hostWrite (a : Nat) (bytes : List Byte) (s : State) : Moves s (hostWrite a bytes s) := by
  obtain ⟨hframe, hwf⟩ := hostWrite_spec bytes a s
  rw [hframe]
  exact ⟨rfl, rfl, rfl, rfl, List.prefix_refl _, hwf, id, id, id, id, id, id⟩

theorem moves_hostRead (a n : Nat) (s : State) : Moves s (hostRead a n s) := by
  unfold hostRead
  simp only
  rw [(hostBytes_spec n a s).1]
  exact moves_ctl s _

theorem moves_readRegister {off width : Nat} {s s' : State} (h : readRegister off width s = .next s') : Moves s s' := by
  unfold readRegister at h
  split at h
  · split at h
    · split at h
      · rename_i hd; cases h; exact (moves_dataRead hd).trans (moves_ctl _ _)
      · cases h
    · cases h
  · split at h
    · cases h; exact moves_ctl s _
    · cases h

theorem moves_writeRegister {off width : Nat} {v : Beat} {s s' : State} (h : writeRegister off width v s = .next s') :
    Moves s s' := by
  unfold writeRegister at h
  split at h
  · split at h
    · exact moves_dataWrite (ofExcept_next h)
    · cases h
  · split at h
    · split at h
      · cases h; exact moves_regWrite _ _ _
      · cases h; exact Moves.refl s
    · cases h

/-! ### Instructions -/

theorem moves_enqueue (r : Request) (s : State) : Moves s (enqueue r s) := moves_modSlot _ _ s

theorem moves_finish {s t s' : State} (m : Moves s t) (h : finish t = .next s') : Moves s s' := by
  cases h; exact m.trans (moves_setRet _ _)

theorem moves_settleTurn {ws : List Work} {s s' : State} (h : settleTurn ws s = .next s') : Moves s s' :=
  (workKeeps_moves s).settleTurn (Moves.refl s) h

theorem moves_loopTurn {ws : List Work} {s s' : State} (h : loopTurn ws s = .next s') : Moves s s' :=
  (workKeeps_moves s).loopTurn (Moves.refl s) h

/-- COMPLETE, named by a trace (R510). -/
theorem moves_execComplete {s s' : State} (h : execComplete s = .next s') : Moves s s' := by
  unfold execComplete at h
  split at h
  · cases h
  · split at h
    · cases h
    · exact moves_finish (moves_completeActive s) h

/-- DPU_RUN, named by a trace (R450). -/
theorem moves_execDpuRun {s s' : State} (h : execDpuRun s = .next s') : Moves s s' := by
  unfold execDpuRun at h
  split at h
  · exact ((moves_dpuSched false s).trans (moves_push _ _)).trans (moves_loopTurn h)
  · cases h; exact Moves.refl s

/-- DMA_PREPARE, named by a trace (R552). -/
theorem moves_execDmaPrepare {sg : List Seg} {s s' : State} (h : execDmaPrepare sg s = .next s') : Moves s s' := by
  unfold execDmaPrepare at h
  split at h
  · split at h
    · rename_i hprep; cases h; exact (moves_prepare hprep).trans (moves_setRet _ _)
    · cases h
  · cases h; exact Moves.refl s

/-- DMA_START, named by a trace (R557). -/
theorem moves_execDmaStart {dir : Dir} {s s' : State} (h : execDmaStart dir s = .next s') : Moves s s' := by
  unfold execDmaStart at h
  split at h
  · split at h
    · exact moves_finish (moves_dmaStart dir s) h
    · cases h
  · cases h; exact Moves.refl s

/-- A micro-operation that has no step without a DMA engine (log 6). -/
theorem moves_runProg_ifDma {ws : List Work} {s s' : State}
    (h : (if s.cfg.dmaPresent then runProg ws s else .next s) = .next s') : Moves s s' := by
  split at h
  · exact moves_runProg h
  · cases h; exact Moves.refl s

/-- WATCHDOG_RECOVER, named by a trace (R491). -/
theorem moves_execWatchdogRecover {s s' : State} (h : execWatchdogRecover s = .next s') : Moves s s' := by
  unfold execWatchdogRecover at h
  split at h
  · exact (((moves_setRet _ s).trans (moves_push _ _)).trans (moves_settleFire _ _)).trans (moves_drive h)
  · cases h; exact Moves.refl s

/-- Every micro-operation and event word but WATCHDOG_CHECK, which lets time pass, moves the state as the DPU's operations
do. -/
theorem moves_exec {i : Instr} {s s' : State} (hport : i.port ≠ .host) (htimer : i ≠ .watchdogCheck)
    (h : exec i s = .next s') : Moves s s' := by
  cases i
  case submit | setBusTiming | setClock | getCardPresent | tune | sdioIrqAck | controllerInit => exact absurd rfl hport
  case watchdogCheck => exact absurd rfl htimer
  case enqueue r =>
    simp only [exec, execEnqueue] at h
    split at h
    · cases h
    · cases h; exact moves_enqueue _ s
  case settle => exact (moves_push _ s).trans (moves_settleTurn h)
  case complete => exact moves_execComplete h
  case issueStop =>
    simp only [exec, execIssueStop] at h
    split at h
    · cases h
    · exact moves_runProg h
  case dpuRun => exact moves_execDpuRun h
  case dmaPrepare sg => exact moves_execDmaPrepare h
  case dmaStart dir => exact moves_execDmaStart h
  case dmaStop => exact moves_runProg_ifDma h
  case dmaReset => exact moves_runProg_ifDma h
  case pioPull drain => exact (moves_setRet _ s).trans (moves_pioPull (ofExcept_next h))
  case pioPush => exact (moves_setRet _ s).trans (moves_pioPush (ofExcept_next h))
  case tuneStart tag slot mode ix pattern => exact moves_finish (moves_tuneStart _ _ _ _ _ s) h
  case tuneSelect =>
    simp only [exec, execTuneSelect] at h
    split at h
    · cases h
    · exact moves_finish (moves_tuneSelect s) h
  case tuneFinish code =>
    simp only [exec, execTuneFinish] at h
    split at h
    · cases h
    · exact moves_finish (moves_tuneFinish code s) h
  case recover =>
    simp only [exec, execRecover] at h
    split at h
    · cases h
    · exact moves_runProg h
  case watchdogRecover => exact moves_execWatchdogRecover h
  case irqDispatch => cases h; exact moves_irqDispatch s
  -- every other one is a list of work run as a trace names it
  all_goals
    simp only [exec] at h
    exact moves_runProg h

/-! ### Forms -/

theorem Forms.moves {s s' : State} (h : Forms s) (m : Moves s s') : Forms s' :=
  ⟨m.idle h.idle, m.fifo h.fifo, m.evq h.evq, m.shape h.shape, m.desc h.desc, m.regs h.regs⟩

/-- The next tag is taken (R404). -/
theorem Forms.takeTag {s : State} (h : Forms s) : Forms (takeTag s) :=
  ⟨h.idle, h.fifo, h.evq, h.shape, h.desc, h.regs⟩

theorem Forms.refuse {s : State} (h : Forms s) (c : Code) : Forms (refuse c s) := h.moves (moves_ctl s _)

theorem Forms.acceptCtl {s : State} (h : Forms s) (op : HostOp) (c : CtlOp) (slot : BitVec 4) (ws : List Word) :
    Forms (acceptCtl op c slot ws s) := by
  unfold Machine.acceptCtl
  split
  · exact h.refuse _
  · exact (h.moves (moves_ctlq _ s)).takeTag

/-- The acceptance step of a host-port operation (R401). -/
theorem Forms.hostPort {i : Instr} {s s' : State} (h : Forms s) (hport : i.port = .host) (hx : exec i s = .next s') :
    Forms s' := by
  cases i
  case submit slot ws =>
    simp only [exec, execSubmit] at hx
    split at hx
    · cases hx; exact h.refuse _
    · cases hx; exact (h.moves (moves_enqueue _ s)).takeTag
  case getCardPresent slot ws =>
    simp only [exec, execGetCardPresent] at hx
    split at hx
    · cases hx; exact h.refuse _
    · cases hx; exact h.moves (moves_ctl s _)
  case setBusTiming | setClock | tune | sdioIrqAck | controllerInit => cases hx; exact h.acceptCtl _ _ _ _
  all_goals cases hport

/-- WATCHDOG_CHECK: time passes, and an expired watchdog posts its event (R745). -/
theorem Forms.watchdogCheck {s : State} (h : Forms s) : Forms (watchdogCheck s) := by
  have htick : Forms { s with st := { s.st with now := s.st.now + 1 } } :=
    ⟨h.idle, h.fifo, h.evq, h.shape, h.desc, h.regs⟩
  unfold Machine.watchdogCheck
  simp only
  split
  · have hpost := htick.moves (moves_post _ (e := eventWord 9 (s.st.wd.seq.truncate 24))
      (by rw [eventCode_eventWord _ _ (by decide)]; decide))
    exact ⟨hpost.idle, hpost.fifo, hpost.evq, hpost.shape, hpost.desc, hpost.regs⟩
  · exact htick

theorem Forms.exec {i : Instr} {s s' : State} (h : Forms s) (hx : exec i s = .next s') : Forms s' := by
  by_cases hport : i.port = .host
  · exact h.hostPort hport hx
  · by_cases htimer : i = .watchdogCheck
    · subst htimer; cases hx; exact h.watchdogCheck
    · exact h.moves (moves_exec hport htimer hx)

theorem Forms.feed {p : Port} {ws : List Word} {s s' : State} (h : Forms s) (hx : feed p ws s = .next s') : Forms s' := by
  cases p
  case host =>
    simp only [Machine.feed, feedHost] at hx
    split at hx
    · exact h.exec hx
    · cases hx
    · cases hx; exact h.refuse _
  case trace =>
    simp only [Machine.feed, feedTrace] at hx
    split at hx
    · split at hx
      · cases hx
      · exact h.exec hx
    · cases hx
  case event =>
    simp only [Machine.feed, feedEvent] at hx
    split at hx
    · split at hx
      · cases hx
      · exact h.exec hx
    · cases hx
    · cases hx

/-! ### BUS -/

/-- The environment has the signals of every slot it had. -/
def SameSlots (e e' : Env) : Prop :=
  e'.present.length = e.present.length ∧ e'.busy.length = e.busy.length ∧ e'.signalled.length = e.signalled.length

/-- BUS changes registers and the environment, with what that must keep. -/
theorem Forms.ofBus {s : State} (h : Forms s) {r : Regs} {e : Env} (hr : Regs.Legal s.cfg r) (he : SameSlots s.env e) :
    Forms { s with regs := r, env := e } := by
  obtain ⟨hslots, hpresent, hbusy, htbuf, hsignalled⟩ := h.shape
  obtain ⟨ep, eb, es⟩ := he
  exact ⟨h.idle, h.fifo, h.evq, ⟨hslots, ep.trans hpresent, eb.trans hbusy, htbuf, es.trans hsignalled⟩, h.desc, hr⟩

theorem Forms.ofEnv {s : State} (h : Forms s) {e : Env} (he : SameSlots s.env e) : Forms { s with env := e } :=
  h.ofBus h.regs he

theorem Forms.setXfer {s : State} (h : Forms s) (x : Option WireXfer) : Forms (setXfer x s) := h.ofEnv ⟨rfl, rfl, rfl⟩

theorem Forms.setBusy {s : State} (h : Forms s) (i : Nat) (b : Bool) :
    Forms { s with env := { s.env with busy := s.env.busy.set i b } } := h.ofEnv ⟨rfl, List.length_set, rfl⟩

/-- Bits of `RINTSTS` that are not reserved (R115). -/
theorem Forms.raise {s : State} (h : Forms s) {v : Word} (hv : v &&& 0x4000#32 = 0#32) : Forms (raise v s) :=
  h.ofBus (e := s.env) { h.regs with rintsts := or_mask_zero _ _ _ h.regs.rintsts hv } ⟨rfl, rfl, rfl⟩

theorem readyBits_mask (s : State) : readyBits s &&& 0x4000#32 = 0#32 := by
  unfold readyBits
  split
  · decide
  · split
    · decide
    · split <;> split <;> decide

theorem Forms.raiseReady {s : State} (h : Forms s) : Forms (raiseReady s) := by
  refine h.raise ?_
  split
  · exact readyBits_mask s
  · decide

theorem busStepIf_next {ok : Bool} {t s' : State} (h : busStepIf ok t = .next s') : ok = true ∧ t = s' := by
  unfold busStepIf at h
  split at h
  · rename_i hok; cases h; exact ⟨hok, rfl⟩
  · cases h

/-- BUS accepts the command waiting in `CMD` (R760). -/
theorem Forms.acceptCommand {s : State} (h : Forms s) : Forms (acceptCommand s) := by
  have hregs : Regs.Legal s.cfg { s.regs with cmd := s.regs.cmd &&& 0x7FFFFFFF#32 } :=
    { h.regs with cmd := not_mask_zero _ _ _ h.regs.cmd }
  unfold Machine.acceptCommand
  simp only
  split
  · exact h.ofBus hregs ⟨rfl, rfl, rfl⟩
  · have hcmd := h.ofBus hregs (e := { s.env with
        lastSlot := some (cardNumber s.regs.cmd)
        cmds := s.env.cmds ++ [latch s]
        signalled := s.env.signalled.set (cardNumber s.regs.cmd) false }) ⟨rfl, rfl, List.length_set⟩
    split <;> split
    · exact (hcmd.setXfer _).setXfer _
    · exact hcmd.setXfer _
    · exact hcmd.setXfer _
    · exact hcmd

theorem Regs.Legal.writeResp {cfg : Config} {r : Regs} (h : Regs.Legal cfg r) (c : WireCmd) (r0 r1 r2 r3 : Word) :
    Regs.Legal cfg (writeResp c r0 r1 r2 r3 r) := by
  unfold Machine.writeResp
  split <;> exact { h with }

theorem length_ite_set (b v : Bool) (l : List Bool) (i : Nat) : (if b then l.set i v else l).length = l.length := by
  split
  · exact List.length_set
  · rfl

/-- The end of a command phase (R761). -/
theorem Forms.commandEnd {s : State} (h : Forms s) (c : WireCmd) (rto rcrc re busy : Bool) (r0 r1 r2 r3 : Word) :
    Forms (commandEnd c rto rcrc re busy r0 r1 r2 r3 s) := by
  unfold Machine.commandEnd
  refine Forms.raise (h.ofBus ?_ ?_) ?_
  · split
    · exact h.regs.writeResp c r0 r1 r2 r3
    · exact h.regs
  · exact ⟨rfl, length_ite_set _ _ _ _, length_ite_set _ _ _ _⟩
  · cases rto <;> cases rcrc <;> cases re <;> decide

theorem Forms.controllerResetEffect {s : State} (h : Forms s) : Forms (controllerResetEffect s) :=
  ⟨h.idle, Nat.zero_le _, h.evq, h.shape, h.desc,
    { h.regs with cmd := not_mask_zero _ _ _ h.regs.cmd, ctrl := not_mask_zero _ _ _ h.regs.ctrl }⟩

theorem Forms.fifoResetEffect {s : State} (h : Forms s) : Forms (fifoResetEffect s) :=
  ⟨h.idle, Nat.zero_le _, h.evq, h.shape, h.desc, { h.regs with ctrl := not_mask_zero _ _ _ h.regs.ctrl }⟩

theorem Forms.dmaResetEffect {s : State} (h : Forms s) : Forms (dmaResetEffect s) :=
  ⟨h.idle, h.fifo, h.evq, h.shape, fun hd => absurd rfl hd, { h.regs with
    idsts := BitVec.zero_and
    bmod := not_mask_zero _ _ _ h.regs.bmod
    ctrl := not_mask_zero _ _ _ h.regs.ctrl }⟩

theorem Forms.ite {b : Bool} {s t : State} (ht : Forms t) (hs : Forms s) : Forms (if b then t else s) := by
  split
  · exact ht
  · exact hs

/-- The resets BUS completes (R765). -/
theorem Forms.completeResets {s : State} (h : Forms s) (ctl fifo dma : Bool) : Forms (completeResets ctl fifo dma s) := by
  have hctl : Forms (if ctl then Machine.controllerResetEffect s else s) := .ite h.controllerResetEffect h
  have hfifo := Forms.ite (b := fifo) hctl.fifoResetEffect hctl
  exact .ite hfifo.dmaResetEffect hfifo

/-- The reserved bit of `RINTSTS` is outside the data error bits BUS may raise (R762, R763). -/
theorem reserved_not_errorMask (s : State) (x : WireXfer) : 0x4000#32 &&& ~~~errorMask s x = 0x4000#32 := by
  unfold errorMask
  split <;> split <;> decide

/-- The SDIO interrupt bits are none of the reserved ones of `RINTSTS` (R115). -/
theorem bitAt_sdio_mask (slot : Nat) (hslot : slot < 16) : bitAt (16 + slot) &&& 0x4000#32 = 0#32 := by
  revert slot; decide

/-- What BUS does in a step, within its contract, keeps the forms (R760 to R767). -/
theorem Forms.busAct {b : BusAct} {s s' : State} (h : Forms s) (hn : s.cfg.nslots ≤ 16) (hx : busAct b s = .next s') :
    Forms s' := by
  cases b
  case acceptCmd => obtain ⟨-, rfl⟩ := busStepIf_next hx; exact h.acceptCommand
  case cmdDone rto rcrc re busy r0 r1 r2 r3 =>
    simp only [Machine.busAct] at hx
    split at hx
    · cases hx
    · split at hx
      · cases hx; exact h.commandEnd _ _ _ _ _ _ _ _ _
      · cases hx
  case pushWord w =>
    simp only [Machine.busAct] at hx
    split at hx
    · cases hx
    · obtain ⟨hok, rfl⟩ := busStepIf_next hx
      simp only [Bool.and_eq_true, decide_eq_true_eq] at hok
      obtain ⟨⟨-, hroom⟩, -⟩ := hok
      exact (h.moves (moves_fifoAppend w s hroom)).setXfer _
  case popWord =>
    simp only [Machine.busAct] at hx
    split at hx
    · cases hx
    · obtain ⟨-, rfl⟩ := busStepIf_next hx
      exact (h.moves (moves_fifoTail s)).setXfer _
  case fifoReady => obtain ⟨-, rfl⟩ := busStepIf_next hx; exact h.raise (readyBits_mask s)
  case writeBusy =>
    simp only [Machine.busAct] at hx
    split at hx
    · cases hx
    · obtain ⟨-, rfl⟩ := busStepIf_next hx; exact h.setBusy _ _
  case dataErr v =>
    simp only [Machine.busAct] at hx
    split at hx
    · cases hx
    · obtain ⟨hok, rfl⟩ := busStepIf_next hx
      simp only [Bool.and_eq_true, decide_eq_true_eq] at hok
      obtain ⟨-, hwithin⟩ := hok
      exact (h.raise (and_zero_of_sub hwithin (reserved_not_errorMask s _))).setXfer _
  case dataOver =>
    simp only [Machine.busAct] at hx
    split at hx
    · cases hx
    · obtain ⟨-, rfl⟩ := busStepIf_next hx; exact (h.raise (by decide)).setXfer _
  case resetDone ctl fifo dma => obtain ⟨-, rfl⟩ := busStepIf_next hx; exact h.completeResets ctl fifo dma
  case setPresent slot b =>
    obtain ⟨-, rfl⟩ := busStepIf_next hx
    have hpresent : Forms { s with env := { s.env with present := s.env.present.set slot b } } :=
      h.ofEnv ⟨List.length_set, rfl, rfl⟩
    exact hpresent.raise (by decide)
  case sdioInt slot =>
    obtain ⟨hok, rfl⟩ := busStepIf_next hx
    simp only [Bool.and_eq_true, decide_eq_true_eq] at hok
    exact h.raise (bitAt_sdio_mask slot (Nat.lt_of_lt_of_le hok.1 hn))
  case cardBusy slot => obtain ⟨-, rfl⟩ := busStepIf_next hx; exact h.setBusy _ _
  case busyEnd slot => obtain ⟨-, rfl⟩ := busStepIf_next hx; exact h.setBusy _ _

theorem Forms.busStep {b : BusAct} {s s' : State} (h : Forms s) (hn : s.cfg.nslots ≤ 16) (hx : busStep b s = .next s') :
    Forms s' := by
  obtain ⟨t, hact, hready⟩ := andThen_eq_next hx
  cases hready
  exact (h.busAct hn hact).raiseReady

/-! ### Every step -/

theorem betweenRuns_next {r : State → Res} {s s' : State} (h : betweenRuns r s = .next s') :
    s.ctl.dpu = [] ∧ r s = .next s' := by
  unfold betweenRuns at h
  split at h
  · cases h
  · rename_i hd; exact ⟨not_not.mp hd, h⟩

theorem Forms.react {t : Stimulus} {s s' : State} (h : Forms s) (hn : s.cfg.nslots ≤ 16) (hx : react t s = .next s') :
    Forms s' := by
  cases t
  case feed p ws => exact h.feed hx
  case irq =>
    simp only [Machine.react] at hx
    split at hx
    · exact h.exec hx
    · cases hx; exact h
  case timer => exact h.exec (i := .watchdogCheck) hx
  case dpu => exact h.moves (moves_dpuStep hx)
  case dmac =>
    simp only [Machine.react] at hx
    split at hx
    · cases hx; exact h.moves (moves_dmacStep s)
    · cases hx; exact h
  case bus b => exact h.busStep hn hx
  case hostWrite a bytes =>
    simp only [Machine.react, hostStep] at hx
    split at hx
    · cases hx
    · cases hx; exact h.moves (moves_hostWrite a bytes s)
  case hostRead a n => cases hx; exact h.moves (moves_hostRead a n s)
  case yielding b => cases hx; exact h.moves (moves_ctl s _)
  case regRead off width => exact h.moves (moves_readRegister (betweenRuns_next hx).2)
  case regWrite off width v => exact h.moves (moves_writeRegister (betweenRuns_next hx).2)

/-- The next stimulus is taken from the agenda or drawn: the model's own bookkeeping alone changes (log 1). -/
theorem moves_nextStimulus (s : State) : Moves s (nextStimulus s).2 := by
  unfold nextStimulus
  split <;> exact moves_ctl s _

/-- Settles O56, agent by agent: the DPU, the DMA engine, HOST's memory accesses and the register accesses move the state
as `Moves` says; HOST's packets, TIMER and BUS keep the forms beside the tag, the time and the signals they change. -/
theorem stepKeepsForms : Obligations.StepKeepsForms := by
  unfold Obligations.StepKeepsForms
  intro s s' hn h hx
  have m := moves_nextStimulus s
  exact (h.moves m).react (by rw [m.cfg]; exact hn) hx

/-! ### DMA_START and DMA_STOP -/

/-- Bits set in a register whose written bits are `a` and whose sticky bits are `b`. -/
theorem sticky_set {v m a b : Word} (hv : v &&& ~~~(a ||| b) = 0#32) (hm : m &&& ~~~(a ||| b) = 0#32) :
    ((v ||| m) &&& a) ||| ((v ||| (v ||| m)) &&& b) = v ||| m := by
  have hkept : v &&& b &&& ~~~(v ||| m) = 0#32 := by
    apply BitVec.eq_of_getLsbD_eq
    intro i hi
    simp only [BitVec.getLsbD_and, BitVec.getLsbD_not, BitVec.getLsbD_or, BitVec.getLsbD_zero]
    cases v.getLsbD i <;> simp
  exact sticky_write (or_mask_zero _ _ _ hv hm) hkept

theorem bit_or_of_right {v m : Word} {i : Nat} (h : bit m i = true) : bit (v ||| m) i = true := by
  rw [bit_eq_getLsbD] at h ⊢
  rw [BitVec.getLsbD_or, h, Bool.or_true]

/-- `DMA_ENABLE` and `USE_INTERNAL_DMAC` set (R103). -/
theorem regSet_ctrl_enables {s : State} (h : s.regs.ctrl &&& 0xFDFFFFC8#32 = 0#32) : regSet .CTRL 0x02000020#32 s =
    { s with regs := { s.regs with ctrl := s.regs.ctrl ||| 0x02000020#32 } } := by
  have hset := sticky_set (v := s.regs.ctrl) (m := 0x02000020#32) (a := 0x02000030#32) (b := 0x7#32) h (by decide)
  have h5 : bit (s.regs.ctrl ||| 0x02000020#32) 5 = true := bit_or_of_right (by decide)
  simp only [regSet, regRead, regWrite, writeCtrl, h5, if_true, hset]

/-- `DE` set (R120). -/
theorem regSet_bmod_enable {s : State} (h : s.regs.bmod &&& 0xFFFFF87C#32 = 0#32) : regSet .BMOD 0x80#32 s =
    { s with regs := { s.regs with bmod := s.regs.bmod ||| 0x80#32 } } := by
  have hset := sticky_set (v := s.regs.bmod) (m := 0x80#32) (a := 0x782#32) (b := 0x1#32) h (by decide)
  have h7 : bit (s.regs.bmod ||| 0x80#32) 7 = true := bit_or_of_right (by decide)
  simp only [regSet, regRead, regWrite, writeBmod, h7, if_true, hset]

/-- What DMA_START has written when it demands a poll: the enables, the ring's base, the status cleared, the arena given
to the engine (R557). -/
def dmaArmed (dir : Dir) (s : State) : State :=
  { s with
    regs := (dmaStarted dir s).regs
    st := { s.st with dmac := { s.st.dmac with owner := .engine, dir := dir } } }

theorem dmaStart_eq_writePldmnd (dir : Dir) {s : State} (hr : RegsLegal s) :
    dmaStart dir s = writePldmnd (dmaArmed dir s) := by
  unfold dmaStart
  simp only
  rw [regSet_ctrl_enables (by exact hr.ctrl), regSet_bmod_enable (by exact hr.bmod)]
  rfl

/-- A poll demand with the engine enabled (R121, R560). -/
theorem writePldmnd_enabled {s : State} (hd : s.cfg.dmaPresent = true) (h7 : bit s.regs.bmod 7 = true)
    (h5 : bit s.regs.ctrl 5 = true) (h25 : bit s.regs.ctrl 25 = true) (hst : s.st.dmac.state ≠ .stopped) :
    writePldmnd s = { s with st := { s.st with dmac := { s.st.dmac with state := .running } } } := by
  unfold writePldmnd
  rw [if_pos (by simp [hd, h7, h5, h25])]
  split
  · rename_i h; exact absurd h hst
  · rfl
  · rename_i h; rw [← h]

/-- DMA_START on an engine that is not stopped: it goes on (R557, R560). -/
theorem dmaStart_goesOn (dir : Dir) {s : State} (hd : s.cfg.dmaPresent = true) (hr : RegsLegal s)
    (hst : s.st.dmac.state ≠ .stopped) :
    dmaStart dir s = { dmaStarted dir s with
      st := { s.st with dmac := { s.st.dmac with state := .running, owner := .engine, dir := dir } } } := by
  rw [dmaStart_eq_writePldmnd dir hr]
  exact writePldmnd_enabled hd (bit_or_of_right (by decide)) (bit_or_of_right (by decide))
    (bit_or_of_right (by decide)) hst

theorem activePath_iff (p : Path) (s : State) : activePath p s = true ↔ ∃ a, s.st.active = some a ∧ a.path = p := by
  unfold activePath
  cases s.st.active <;> simp

/-- DMA_STOP named by a trace (R565). -/
theorem runProg_dmaStop {s : State} (hp : Prompt s) (hr : RegsLegal s) :
    runProg dmaStopProg s = .next (setRet .ok (dmaStopped s)) := by
  rw [runProg_eq]
  exact (dmaStop_tail (setRet .ok s) (.halt :: s.ctl.dpu) 508 hp hr rfl).trans (drive_halt 507 _ _)

/-- Settles O38: DMA_START's poll demand starts a stopped engine and lets another go on; DMA_STOP is `dmaStop_tail`. -/
theorem dmaStartAndStop : Obligations.DmaStartAndStop := by
  unfold Obligations.DmaStartAndStop
  intro s hr
  refine ⟨fun hd => ⟨?start, ?noRequest, ?owned, ?stop⟩, fun hd => ⟨fun dir => ?_, ?_, fun sg => ?_⟩⟩
  case start =>
    intro dir a ha hpath
    have hexec : exec (.dmaStart dir) s = .next (setRet .ok (dmaStart dir s)) := by
      simp only [exec, execDmaStart, hd, (activePath_iff .dma s).mpr ⟨a, ha, hpath⟩, if_true, finish]
    exact ⟨fun hst => by rw [hexec, dmaStart_eq dir s hd hr hst],
      fun hst => by rw [hexec, dmaStart_goesOn dir hd hr hst]⟩
  case noRequest =>
    intro dir hno
    have hpath : activePath .dma s = false := by
      rw [Bool.eq_false_iff, Ne, activePath_iff]
      rintro ⟨a, ha, hdma⟩
      exact hno a ha hdma
    simp [exec, execDmaStart, hd, hpath]
  case owned => exact fun sg howner => by simp [exec, execDmaPrepare, hd, prepare, howner]
  case stop => exact fun hp => (if_pos hd).trans (runProg_dmaStop hp hr)
  all_goals exact if_neg (by rw [hd]; decide)

/-! ### Missing operands -/

/-- A DISPATCH that meets a model fault stops the machine with it. -/
theorem exec_dispatch_fault {r : ReqOp} {s : State} {e : Fault}
    (h : ∀ ws, dispatchBegin (Request.fresh r) (setDpu ws (setRet .ok s)) = .error e) :
    exec (.dispatch r) s = .fault e := by
  show runProg [.dispatch (Request.fresh r)] s = .fault e
  rw [runProg_first _ _ _ rfl, perform, List.nil_append, h, ofExcept_error, andThen_fault]

/-- Settles O15: each operation looks for its operand first. -/
theorem missingOperandsStop : Obligations.MissingOperandsStop := by
  unfold Obligations.MissingOperandsStop
  intro s
  refine ⟨fun hnone => ⟨?_, ?_, ?_⟩, fun hnone => ⟨?_, fun c => ?_⟩, fun hsome r => ?_,
    fun r hslot => ⟨?_, fun hnone => ?_⟩⟩
  · simp only [exec, execComplete, hnone]
  · simp only [exec, execIssueStop, hnone]
  · simp only [exec, execRecover, hnone]
  · simp only [exec, execTuneSelect, hnone]
  · simp only [exec, execTuneFinish, hnone]
  · exact exec_dispatch_fault fun ws => if_pos (Option.isSome_iff_ne_none.mpr hsome)
  · exact if_pos hslot
  · refine exec_dispatch_fault fun ws => (if_neg ?_).trans (if_pos hslot)
    show ¬ s.st.active.isSome = true
    rw [hnone]; decide

/-! ### Fields of assembled register values -/

theorem bits_ofNat_of_le (v : Nat) {lo n : Nat} (h : lo + n ≤ 32) :
    bits (BitVec.ofNat 32 v) lo n = v / 2 ^ lo % 2 ^ n := by
  rw [bits, BitVec.toNat_ofNat]
  apply Nat.eq_of_testBit_eq
  intro i
  simp only [Nat.testBit_mod_two_pow, Nat.testBit_div_two_pow]
  by_cases hi : i < n
  · simp [hi, show i + lo < 32 by omega]
  · simp [hi]

theorem bit_ofNat {v i : Nat} {b : Bool} (hi : i < 32) (hv : v / 2 ^ i % 2 = bitVal b) :
    bit (BitVec.ofNat 32 v) i = b := by
  rw [bit, bits_ofNat_of_le v (by omega), Nat.pow_one, hv]
  cases b <;> rfl

/-- A register value has no bit of a mask whose bits lie in fields that read 0. -/
theorem and_zero_of_fields {w m : Word} (fields : List (Nat × Nat)) (hz : ∀ f ∈ fields, bits w f.1 f.2 = 0)
    (hm : ∀ i < 32, m.getLsbD i = true → ∃ f ∈ fields, f.1 ≤ i ∧ i < f.1 + f.2) : w &&& m = 0#32 := by
  apply BitVec.eq_of_getLsbD_eq
  intro i hi
  rw [BitVec.getLsbD_and, BitVec.getLsbD_zero]
  cases hb : m.getLsbD i with
  | false => exact Bool.and_false _
  | true =>
    obtain ⟨f, hf, hlo, hhi⟩ := hm i hi hb
    have hbit : (bits w f.1 f.2).testBit (i - f.1) = false := by rw [hz f hf, Nat.zero_testBit]
    rw [bits, Nat.testBit_mod_two_pow, Nat.testBit_div_two_pow, Nat.sub_add_cancel hlo, BitVec.testBit_toNat] at hbit
    simpa [show i - f.1 < f.2 by omega] using hbit

/-- `STATUS`: the FIFO's flags and, of a FIFO whose words bits 29:17 can count, the count, with no reserved bit set
(R116). -/
theorem statusVal_fields (s : State) :
    bit (statusVal s) 0 = decide (rxWmark s.regs < s.st.fifo.length) ∧
    bit (statusVal s) 1 = decide (s.st.fifo.length ≤ txWmark s.regs) ∧
    bit (statusVal s) 2 = decide (s.st.fifo.length = 0) ∧
    bit (statusVal s) 3 = decide (s.st.fifo.length = s.cfg.fifoDepth) ∧
    (s.st.fifo.length < 2 ^ 13 →
      bits (statusVal s) 17 13 = s.st.fifo.length ∧ statusVal s &&& 0xC001FDF0#32 = 0#32) := by
  have h0 := bitVal_le (decide (rxWmark s.regs < s.st.fifo.length))
  have h1 := bitVal_le (decide (s.st.fifo.length ≤ txWmark s.regs))
  have h2 := bitVal_le (decide (s.st.fifo.length = 0))
  have h3 := bitVal_le (decide (s.st.fifo.length = s.cfg.fifoDepth))
  have h9 := bitVal_le (dataBusy s)
  refine ⟨bit_ofNat (by decide) (by omega), bit_ofNat (by decide) (by omega), bit_ofNat (by decide) (by omega),
    bit_ofNat (by decide) (by omega), fun hn => ⟨(bits_ofNat_of_le _ (by decide)).trans (by omega),
      and_zero_of_fields [(4, 5), (10, 7), (30, 2)] ?_ (by decide)⟩⟩
  simp only [List.forall_mem_cons, List.not_mem_nil, false_imp_iff, implies_true, and_true]
  refine ⟨(bits_ofNat_of_le _ (by decide)).trans ?_, (bits_ofNat_of_le _ (by decide)).trans ?_,
    (bits_ofNat_of_le _ (by decide)).trans ?_⟩ <;> omega

theorem dataBusy_iff (s : State) : dataBusy s = true ↔ ∃ i ∈ s.env.lastSlot, s.env.busy[i]? = some true := by
  unfold dataBusy
  cases s.env.lastSlot with
  | none => simp
  | some i => cases h : s.env.busy[i]? <;> simp [List.getD, h]

/-- Bit `i` of a list of Bools as a number is its `i`-th element. -/
theorem boolsVal_bit : ∀ (l : List Bool) (i : Nat), boolsVal l / 2 ^ i % 2 = bitVal (l.getD i false)
  | [], i => by simp [boolsVal, bitVal]
  | b :: rest, 0 => by
    have := bitVal_le b
    rw [boolsVal, pow_zero, Nat.div_one, List.getD_cons_zero]; omega
  | b :: rest, i + 1 => by
    have := bitVal_le b
    rw [List.getD_cons_succ, ← boolsVal_bit rest i, boolsVal, Nat.pow_succ', ← Nat.div_div_eq_div_mul]
    congr 2; omega

/-- `CDETECT` (R118). -/
theorem cdetectVal_bit (s : State) {i : Nat} (hi : i < 32) :
    bit (cdetectVal s) i = true ↔ s.env.present[i]? = some false := by
  rw [cdetectVal, bit_ofNat hi (boolsVal_bit _ i), List.getD, List.getElem?_map]
  cases s.env.present[i]? <;> simp

/-- `HCON` (R128). -/
theorem hconVal_fields (c : Config) (h1 : 1 ≤ c.nslots) (h16 : c.nslots ≤ 16) :
    bits (hconVal c) 1 5 = c.nslots - 1 ∧
    bits (hconVal c) 7 3 = (if c.w = 2 then 0 else if c.w = 4 then 1 else 2) ∧
    (bit (hconVal c) 16 = true ↔ c.dmaPresent = true) ∧ hconVal c &&& 0xFFFEFC41#32 = 0#32 := by
  have hd := bitVal_le c.dmaPresent
  have hw : (if c.w = 2 then 0 else if c.w = 4 then 1 else 2) ≤ 2 := by split_ifs <;> decide
  have h16' : bit (hconVal c) 16 = c.dmaPresent := bit_ofNat (by decide) (by omega)
  refine ⟨(bits_ofNat_of_le _ (by decide)).trans (by omega), (bits_ofNat_of_le _ (by decide)).trans (by omega),
    by rw [h16'], and_zero_of_fields [(0, 1), (6, 1), (10, 6), (17, 15)] ?_ (by decide)⟩
  simp only [List.forall_mem_cons, List.not_mem_nil, false_imp_iff, implies_true, and_true]
  refine ⟨(bits_ofNat_of_le _ (by decide)).trans ?_, (bits_ofNat_of_le _ (by decide)).trans ?_,
    (bits_ofNat_of_le _ (by decide)).trans ?_, (bits_ofNat_of_le _ (by decide)).trans ?_⟩ <;> omega

/-! ### The offsets of the register space -/

/-- A register's offset (R102): `Reg.ofOffset` read the other way. -/
def Reg.offset : Reg → Nat
  | .CTRL => 0x000
  | .CLKDIV => 0x008
  | .CLKENA => 0x010
  | .TMOUT => 0x014
  | .CTYPE => 0x018
  | .BLKSIZ => 0x01C
  | .BYTCNT => 0x020
  | .INTMASK => 0x024
  | .CMDARG => 0x028
  | .CMD => 0x02C
  | .RESP0 => 0x030
  | .RESP1 => 0x034
  | .RESP2 => 0x038
  | .RESP3 => 0x03C
  | .MINTSTS => 0x040
  | .RINTSTS => 0x044
  | .STATUS => 0x048
  | .FIFOTH => 0x04C
  | .CDETECT => 0x050
  | .HCON => 0x070
  | .UHS_REG => 0x074
  | .BMOD => 0x080
  | .PLDMND => 0x084
  | .DBADDR => 0x088
  | .IDSTS => 0x08C
  | .IDINTEN => 0x090
  | .DSCADDR => 0x094
  | .SMPL_CTRL => 0x180

theorem ofOffset_offset (r : Reg) : Reg.ofOffset r.offset = some r := by cases r <;> rfl

theorem offset_of_ofOffset {off : Nat} {r : Reg} (h : Reg.ofOffset off = some r) : off = r.offset := by
  unfold Reg.ofOffset at h
  split at h <;> cases h <;> rfl

/-- A register's offset is aligned, within the register space and not `DATA`'s. -/
theorem offset_placed (r : Reg) : r.offset ≠ Config.dataOffset ∧ r.offset < 0x400 ∧ r.offset % 4 = 0 := by
  cases r <;> decide

/-- The registers whose value the statement gives whole: the stored ones, then the computed ones. -/
def wholeRegs : List Reg :=
  [.CTRL, .CLKDIV, .CLKENA, .TMOUT, .CTYPE, .BLKSIZ, .BYTCNT, .INTMASK, .CMDARG, .CMD, .RESP0, .RESP1, .RESP2, .RESP3,
    .RINTSTS, .FIFOTH, .UHS_REG, .BMOD, .DBADDR, .IDINTEN, .SMPL_CTRL, .MINTSTS, .PLDMND, .IDSTS, .DSCADDR]

theorem wholeRegs_spec (s : State) :
    storedRegs s ++ computedRegs s = wholeRegs.map fun r => (r.offset, regRead r s) := rfl

theorem wholeRegs_or_fieldRegs (r : Reg) : r ∈ wholeRegs ∨ r.offset ∈ fieldRegs := by cases r <;> decide

/-- An offset the statement names no register for is a reserved one (R129). -/
theorem ofOffset_reserved {off : Nat} {s : State} (hwhole : ∀ x, (off, x) ∉ storedRegs s ++ computedRegs s)
    (hfield : off ∉ fieldRegs) : Reg.ofOffset off = none := by
  rw [Option.eq_none_iff_forall_ne_some]
  intro r hr
  have hoff := offset_of_ofOffset hr
  subst hoff
  rcases wholeRegs_or_fieldRegs r with h | h
  · exact hwhole _ (by rw [wholeRegs_spec]; exact List.mem_map_of_mem h)
  · exact hfield h

/-! ### Accesses by offset -/

section
variable {s : State} (hdpu : s.ctl.dpu = [])
include hdpu

theorem react_regRead (off width : Nat) : react (.regRead off width) s = readRegister off width s :=
  if_neg (not_not.mpr hdpu)

theorem react_regWrite (off width : Nat) (v : Beat) : react (.regWrite off width v) s = writeRegister off width v s :=
  if_neg (not_not.mpr hdpu)

theorem react_regRead_offset (r : Reg) :
    react (.regRead r.offset 4) s = .next (sees ((regRead r s).zeroExtend 64) s) := by
  obtain ⟨hdata, hspace, halign⟩ := offset_placed r
  rw [react_regRead hdpu, readRegister, if_neg hdata, if_pos ⟨hspace, halign, rfl⟩, ofOffset_offset]
  rfl

theorem react_regWrite_offset (r : Reg) (v : Beat) :
    react (.regWrite r.offset 4 v) s = .next (regWrite r (v.truncate 32) s) := by
  obtain ⟨hdata, hspace, halign⟩ := offset_placed r
  rw [react_regWrite hdpu, writeRegister, if_neg hdata, if_pos ⟨hspace, halign, rfl⟩, ofOffset_offset]

/-- A reserved offset reads 0 and ignores a write (R129). -/
theorem react_reserved {off : Nat} (v : Beat) (halign : off % 4 = 0) (hspace : off < 0x400)
    (hdata : off ≠ Config.dataOffset) (hnone : Reg.ofOffset off = none) :
    react (.regRead off 4) s = .next (sees 0#64 s) ∧ react (.regWrite off 4 v) s = .next s := by
  rw [react_regRead hdpu, react_regWrite hdpu, readRegister, writeRegister, if_neg hdata, if_neg hdata,
    if_pos ⟨hspace, halign, rfl⟩, if_pos ⟨hspace, halign, rfl⟩, hnone]
  exact ⟨rfl, rfl⟩

/-- An access of another width or alignment, or outside the register space, is refused (R205, log 26). -/
theorem react_misplaced {off width : Nat} (v : Beat) (hdata : off ≠ Config.dataOffset)
    (h : off % 4 ≠ 0 ∨ width ≠ 4 ∨ 0x400 ≤ off) :
    react (.regRead off width) s = .refused .registerAccess ∧
    react (.regWrite off width v) s = .refused .registerAccess := by
  have hno : ¬ (off < 0x400 ∧ off % 4 = 0 ∧ width = 4) := by omega
  rw [react_regRead hdpu, react_regWrite hdpu, readRegister, writeRegister, if_neg hdata, if_neg hdata, if_neg hno,
    if_neg hno]
  exact ⟨rfl, rfl⟩

/-- `DATA` is `W` bytes wide (R127, R205). -/
theorem react_data_width {width : Nat} (v : Beat) (hw : width ≠ s.cfg.w) :
    react (.regRead 0x200 width) s = .refused .registerAccess ∧
    react (.regWrite 0x200 width v) s = .refused .registerAccess := by
  rw [react_regRead hdpu, react_regWrite hdpu]
  exact ⟨if_neg hw, if_neg hw⟩

theorem react_data_read {w : Beat} {t : State} (h : dataRead s = .ok (w, t)) :
    react (.regRead 0x200 s.cfg.w) s = .next (sees w t) := by
  rw [react_regRead hdpu]
  simp [readRegister, Config.dataOffset, h, sees]

theorem react_data_read_fault {e : Fault} (h : dataRead s = .error e) :
    react (.regRead 0x200 s.cfg.w) s = .fault e := by
  rw [react_regRead hdpu]
  simp [readRegister, Config.dataOffset, h]

theorem react_data_write (v : Beat) : react (.regWrite 0x200 s.cfg.w v) s = .ofExcept (dataWrite v s) := by
  rw [react_regWrite hdpu]
  simp [writeRegister, Config.dataOffset]

end

/-! ### What the writes leave -/

/-- `IDSTS` holds no reserved bit, so that a write need not spare one (R123). -/
theorem regWrite_idsts {s : State} (hr : RegsLegal s) (v : Word) :
    regWrite .IDSTS v s = { s with regs := { s.regs with idsts := s.regs.idsts &&& ~~~v } } := by
  have hidsts : s.regs.idsts &&& ~~~(v &&& 0x337#32) = s.regs.idsts &&& ~~~v := by
    have hin : s.regs.idsts &&& 0x337#32 = s.regs.idsts := and_of_masked hr.idsts (by decide)
    apply BitVec.eq_of_getLsbD_eq
    intro i hi
    have hi' : (s.regs.idsts &&& 0x337#32).getLsbD i = s.regs.idsts.getLsbD i := by rw [hin]
    revert hi'
    simp only [BitVec.getLsbD_and, BitVec.getLsbD_not, hi, decide_true, Bool.true_and]
    cases s.regs.idsts.getLsbD i <;> cases v.getLsbD i <;> simp
  simp only [regWrite, hidsts]

theorem regWrite_ctrl (v : Word) (s : State) : regWrite .CTRL v s = { s with
    regs := { s.regs with ctrl := (v &&& 0x02000030#32) ||| ((s.regs.ctrl ||| v) &&& 0x7#32) }
    st := { s.st with dmac := if bit v 5 then s.st.dmac else s.st.dmac.halted } } := by
  cases h : bit v 5 <;> simp [regWrite, writeCtrl, h]

theorem regWrite_bmod (v : Word) (s : State) : regWrite .BMOD v s = { s with
    regs := { s.regs with bmod := (v &&& 0x782#32) ||| ((s.regs.bmod ||| v) &&& 0x1#32) }
    st := { s.st with dmac := if bit v 7 then s.st.dmac else s.st.dmac.halted } } := by
  cases h : bit v 7 <;> simp [regWrite, writeBmod, h]

theorem writePldmnd_demanded (s : State) : writePldmnd s = { s with st := { s.st with dmac := demanded s } } := by
  unfold writePldmnd demanded
  by_cases h : s.cfg.dmaPresent = true ∧ bit s.regs.bmod 7 = true ∧ bit s.regs.ctrl 5 = true ∧
      bit s.regs.ctrl 25 = true
  · rw [if_pos (by simpa [and_assoc] using h), if_pos h]
    cases s.st.dmac.state <;> rfl
  · rw [if_neg (by simpa [and_assoc] using h), if_neg h]

theorem regWrite_waiting {s : State} (v : Word) (h : bit s.regs.cmd 31 = true) :
    regWrite .CMDARG v s = setHle s ∧ regWrite .CMD v s = setHle s := ⟨if_pos h, if_pos h⟩

/-- The `DATA` port closed by `DMA_ENABLE` (R830). -/
theorem dataPort_dmaEnabled {s : State} (h : bit s.regs.ctrl 5 = true) (v : Beat) :
    dataRead s = .error .dataPortDmaEnabled ∧ dataWrite v s = .error .dataPortDmaEnabled := ⟨if_pos h, if_pos h⟩

theorem dataRead_nil {s : State} (h : bit s.regs.ctrl 5 = false) (hf : s.st.fifo = []) :
    dataRead s = .error .dataPortEmpty := by
  simp [dataRead, h, hf]

theorem dataRead_cons {s : State} {x : Beat} {q : List Beat} (h : bit s.regs.ctrl 5 = false) (hf : s.st.fifo = x :: q) :
    dataRead s = .ok (x, { s with st := { s.st with fifo := q } }) := by
  simp [dataRead, fifoTail, h, hf]

theorem dataWrite_full {s : State} (h : bit s.regs.ctrl 5 = false) (v : Beat) (hf : s.cfg.fifoDepth ≤ s.st.fifo.length) :
    dataWrite v s = .error .dataPortFull := by
  simp [dataWrite, h, Nat.not_lt.mpr hf]

theorem dataWrite_room {s : State} (h : bit s.regs.ctrl 5 = false) (v : Beat) (hf : s.st.fifo.length < s.cfg.fifoDepth) :
    dataWrite v s = .ok (fifoAppend v s) := by
  simp [dataWrite, h, hf]

/-- Settles O59: every offset of the register space is a register's, `DATA`'s or reserved, and each access is `regRead`,
`regWrite`, `dataRead` or `dataWrite` of what stands there. -/
theorem registerAccess : Obligations.RegisterAccess := by
  unfold Obligations.RegisterAccess
  intro s v hr hdpu w put get
  have hget : ∀ r : Reg, get r.offset = .next (sees ((regRead r s).zeroExtend 64) s) := react_regRead_offset hdpu
  have hput : ∀ (r : Reg) {t : State}, regWrite r w s = t → put r.offset = .next t := by
    rintro r _ rfl
    exact react_regWrite_offset hdpu r v
  refine ⟨?whole, ?status, ?cdetect, ?hcon, hput .CLKDIV rfl, hput .CLKENA rfl, hput .TMOUT rfl, hput .CTYPE rfl,
    hput .BLKSIZ rfl, hput .BYTCNT rfl, hput .INTMASK rfl, hput .RINTSTS rfl, hput .FIFOTH rfl, hput .UHS_REG rfl,
    hput .DBADDR rfl, hput .IDSTS (regWrite_idsts hr w), hput .IDINTEN rfl, hput .SMPL_CTRL rfl, ?free, ?waiting,
    hput .CTRL (regWrite_ctrl w s), hput .BMOD (regWrite_bmod w s), hput .PLDMND (writePldmnd_demanded s), ?readOnly,
    ?reserved, ?misplaced, ?width, ?closed, ?opened⟩
  case whole =>
    intro off x hx
    rw [wholeRegs_spec] at hx
    obtain ⟨r, -, h⟩ := List.mem_map.mp hx
    cases h
    exact hget r
  case status =>
    obtain ⟨h0, h1, h2, h3, hcount⟩ := statusVal_fields s
    refine ⟨statusVal s, hget .STATUS, ?_, ?_, ?_, ?_, ?_, hcount⟩
    · rw [h0, decide_eq_true_eq]; rfl
    · rw [h1, decide_eq_true_eq]; rfl
    · rw [h2, decide_eq_true_eq, List.length_eq_zero_iff]
    · rw [h3, decide_eq_true_eq]
    · exact Iff.trans (by rw [← status_dataBusy]; rfl) (dataBusy_iff s)
  case cdetect => exact fun _ => ⟨cdetectVal s, hget .CDETECT, fun i hi => cdetectVal_bit s hi⟩
  case hcon => exact fun h1 h16 => ⟨hconVal s.cfg, hget .HCON, hconVal_fields s.cfg h1 h16⟩
  case free => exact fun hfree => ⟨hput .CMDARG (regWrite_cmdarg w s hfree), hput .CMD (regWrite_cmd w s hfree)⟩
  case waiting =>
    intro hwaits
    obtain ⟨harg, hcmd⟩ := regWrite_waiting w hwaits
    exact ⟨hput .CMDARG harg, hput .CMD hcmd⟩
  case readOnly =>
    simp only [List.forall_mem_cons, List.not_mem_nil, false_imp_iff, implies_true, and_true]
    exact ⟨hput .RESP0 rfl, hput .RESP1 rfl, hput .RESP2 rfl, hput .RESP3 rfl, hput .MINTSTS rfl, hput .STATUS rfl,
      hput .CDETECT rfl, hput .HCON rfl, hput .DSCADDR rfl⟩
  case reserved =>
    exact fun off halign hspace hdata hwhole hfield =>
      react_reserved hdpu v halign hspace hdata (ofOffset_reserved hwhole hfield)
  case misplaced => exact fun off width hdata h => react_misplaced hdpu v hdata h
  case width => exact fun width hw => react_data_width hdpu v hw
  case closed =>
    intro hdma
    obtain ⟨hread, hwrite⟩ := dataPort_dmaEnabled hdma v
    exact ⟨react_data_read_fault hdpu hread, by rw [react_data_write hdpu, hwrite, ofExcept_error]⟩
  case opened =>
    intro hdma
    refine ⟨fun hf => react_data_read_fault hdpu (dataRead_nil hdma hf),
      fun x q hf => react_data_read hdpu (dataRead_cons hdma hf), fun hf => ?_, fun hf => ?_⟩
    · rw [react_data_write hdpu, dataWrite_full hdma v hf, ofExcept_error]
    · rw [react_data_write hdpu, dataWrite_room hdma v hf, ofExcept_ok]; rfl

end Sys2Proof.Machine
end

section
/-! PROOFS. The family 20_memory.md: every step keeps host memory canonical (R200, R201, R203). The operations that are a
`Moves` keep it by that relation; those `Moves` excludes, the host port, TIMER and BUS, leave host memory as it is. -/

namespace Sys2Proof.Machine

/-! ### The host port and TIMER -/

theorem acceptCtl_mem (op : HostOp) (c : CtlOp) (slot : BitVec 4) (ws : List Word) (s : State) :
    (acceptCtl op c slot ws s).mem = s.mem := by
  unfold acceptCtl
  split <;> rfl

/-- The acceptance step of a host-port operation leaves host memory as it is (R401). -/
theorem exec_hostPort_mem {i : Instr} {s s' : State} (hport : i.port = .host) (hx : exec i s = .next s') :
    s'.mem = s.mem := by
  cases i
  case submit slot ws =>
    simp only [exec, execSubmit] at hx
    split at hx <;> cases hx <;> rfl
  case getCardPresent slot ws =>
    simp only [exec, execGetCardPresent] at hx
    split at hx <;> cases hx <;> rfl
  case setBusTiming | setClock | tune | sdioIrqAck | controllerInit => cases hx; exact acceptCtl_mem _ _ _ _ s
  all_goals cases hport

/-- WATCHDOG_CHECK leaves host memory as it is (R745). -/
theorem watchdogCheck_mem (s : State) : (watchdogCheck s).mem = s.mem := by
  unfold watchdogCheck
  simp only
  split <;> rfl

/-- Every instruction keeps host memory canonical. -/
theorem exec_mem_wf {i : Instr} {s s' : State} (hx : exec i s = .next s') (hw : Memory.wf s.mem) : Memory.wf s'.mem := by
  by_cases hport : i.port = .host
  · rw [exec_hostPort_mem hport hx]; exact hw
  · by_cases htimer : i = .watchdogCheck
    · subst htimer; cases hx; rw [watchdogCheck_mem]; exact hw
    · exact (moves_exec hport htimer hx).mem hw

/-- Words at a port run the instruction they name, or are HOST's packet of no operation, which is refused (R401). -/
theorem feed_next {p : Port} {ws : List Word} {s s' : State} (hx : feed p ws s = .next s') :
    (∃ i, exec i s = .next s') ∨ (p = .host ∧ s' = refuse .illegalOp s) := by
  cases p
  case host =>
    simp only [feed, feedHost] at hx
    split at hx
    · exact .inl ⟨_, hx⟩
    · cases hx
    · cases hx; exact .inr ⟨rfl, rfl⟩
  case trace =>
    simp only [feed, feedTrace] at hx
    split at hx
    · split at hx
      · cases hx
      · exact .inl ⟨_, hx⟩
    · cases hx
  case event =>
    simp only [feed, feedEvent] at hx
    split at hx
    · split at hx
      · cases hx
      · exact .inl ⟨_, hx⟩
    · cases hx
    · cases hx

/-! ### BUS -/

theorem acceptCommand_mem (s : State) : (acceptCommand s).mem = s.mem := by
  unfold acceptCommand
  simp only
  split
  · rfl
  · split <;> split <;> rfl

theorem completeResets_mem (ctl fifo dma : Bool) (s : State) : (completeResets ctl fifo dma s).mem = s.mem := by
  cases ctl <;> cases fifo <;> cases dma <;> rfl

/-- What BUS does in a step reaches registers, FIFO and wire, never host memory (R760 to R767). -/
theorem busAct_mem {b : BusAct} {s s' : State} (hx : busAct b s = .next s') : s'.mem = s.mem := by
  cases b
  case acceptCmd => obtain ⟨-, rfl⟩ := busStepIf_next hx; exact acceptCommand_mem s
  case resetDone ctl fifo dma => obtain ⟨-, rfl⟩ := busStepIf_next hx; exact completeResets_mem ctl fifo dma s
  case cmdDone =>
    simp only [busAct] at hx
    split at hx
    · cases hx
    · split at hx <;> cases hx
      rfl
  -- a step of the transfer on the wire, a fault without one
  case pushWord | popWord | writeBusy | dataErr | dataOver =>
    simp only [busAct] at hx
    split at hx
    · cases hx
    · obtain ⟨-, rfl⟩ := busStepIf_next hx; rfl
  -- a signal or a FIFO-ready bit
  case fifoReady | setPresent | sdioInt | cardBusy | busyEnd => obtain ⟨-, rfl⟩ := busStepIf_next hx; rfl

@[simp] theorem raiseReady_mem (s : State) : (raiseReady s).mem = s.mem := rfl

theorem busStep_mem {b : BusAct} {s s' : State} (hx : busStep b s = .next s') : s'.mem = s.mem := by
  obtain ⟨t, hact, hready⟩ := andThen_eq_next hx
  cases hready
  rw [raiseReady_mem]
  exact busAct_mem hact

/-! ### Every step -/

/-- Every stimulus keeps host memory canonical, whichever agent moves. -/
theorem react_mem_wf {t : Stimulus} {s s' : State} (hx : react t s = .next s') (hw : Memory.wf s.mem) :
    Memory.wf s'.mem := by
  cases t
  case feed p ws =>
    rcases feed_next hx with ⟨i, hi⟩ | ⟨-, rfl⟩
    · exact exec_mem_wf hi hw
    · exact hw
  case irq =>
    simp only [react] at hx
    split at hx
    · exact exec_mem_wf hx hw
    · cases hx; exact hw
  case timer => exact exec_mem_wf (i := .watchdogCheck) hx hw
  case dpu => exact (moves_dpuStep hx).mem hw
  case dmac =>
    simp only [react] at hx
    split at hx
    · cases hx; exact (moves_dmacStep s).mem hw
    · cases hx; exact hw
  case bus b => rw [busStep_mem hx]; exact hw
  case hostWrite a bytes =>
    simp only [react, hostStep] at hx
    split at hx
    · cases hx
    · cases hx; exact (moves_hostWrite a bytes s).mem hw
  case hostRead a n => cases hx; exact (moves_hostRead a n s).mem hw
  case yielding b => cases hx; exact hw
  case regRead off width => exact (moves_readRegister (betweenRuns_next hx).2).mem hw
  case regWrite off width v => exact (moves_writeRegister (betweenRuns_next hx).2).mem hw

/-- Settles O57, agent by agent: whoever stores does so by `Memory.write`, which keeps the canonical form, and the agents
that are no `Moves` do not store. -/
theorem stepKeepsMemoryCanonical : Obligations.StepKeepsMemoryCanonical := by
  unfold Obligations.StepKeepsMemoryCanonical
  intro s s' hw hx
  exact react_mem_wf hx ((moves_nextStimulus s).mem hw)

end Sys2Proof.Machine
end

section
/-! PROOFS. The family 30_encoding.md: the decoder gives back what the encoder writes, the acceptance step of the host-port
operations, words at a port, and event words. Fields are read back word by word; which check of the acceptance step refuses
is said once for all operations; ON_EVENT is taken row by row. -/

namespace Sys2Proof.Machine

/-! ### The fields of `CMDW`, of `GEOM` and of TUNE's first word -/

/-- The fields of `CMDW` as numbers (R302, log 3). -/
theorem cmdwVal_fields (r : ReqOp) :
    cmdwVal r % 2 ^ 6 = r.cmd.index.toNat ∧ cmdwVal r / 2 ^ 6 % 2 ^ 2 = respVal r.cmd.resp ∧
    cmdwVal r / 2 ^ 8 % 2 = bitVal r.cmd.crc ∧ cmdwVal r / 2 ^ 9 % 2 = bitVal r.data.isSome ∧
    cmdwVal r / 2 ^ 10 % 2 = writeVal r.data ∧ cmdwVal r / 2 ^ 11 % 2 = bitVal r.stopFlag ∧
    cmdwVal r / 2 ^ 12 = originVal r.origin := by
  have hindex := r.cmd.index.isLt
  have hresp := respVal_lt r.cmd.resp
  have hcrc := bitVal_le r.cmd.crc
  have hdata := bitVal_le r.data.isSome
  have hstop := bitVal_le r.stopFlag
  have hwrite : writeVal r.data ≤ 1 := by
    rcases r.data with - | d
    · exact Nat.zero_le 1
    · cases h : d.dir <;> simp [writeVal, dirVal, h]
  unfold cmdwVal
  omega

/-- A word of `cmdwVal` carries the request's command (R302). -/
theorem cmdSpecOf_cmdwVal (r : ReqOp) : cmdSpecOf (BitVec.ofNat 32 (cmdwVal r)) r.cmd.arg = r.cmd := by
  obtain ⟨hindex, hresp, hcrc, -⟩ := cmdwVal_fields r
  have hc : bit (BitVec.ofNat 32 (cmdwVal r)) 8 = r.cmd.crc := bit_ofNat (by decide) hcrc
  rw [cmdSpecOf, bits_ofNat_of_le _ (by decide), bits_ofNat_of_le _ (by decide), hc, hresp, respOf_respVal, pow_zero,
    Nat.div_one, hindex, BitVec.ofNat_toNat, BitVec.setWidth_eq]

/-- `CMDW.DATA` says whether the request moves data (R302). -/
theorem bit_cmdwVal_data (r : ReqOp) : bit (BitVec.ofNat 32 (cmdwVal r)) 9 = r.data.isSome := by
  obtain ⟨-, -, -, hdata, -⟩ := cmdwVal_fields r
  exact bit_ofNat (by decide) hdata

/-- `CMDW.STOP` is the request's stop flag (R302). -/
theorem bit_cmdwVal_stop (r : ReqOp) : bit (BitVec.ofNat 32 (cmdwVal r)) 11 = r.stopFlag := by
  obtain ⟨-, -, -, -, -, hstop, -⟩ := cmdwVal_fields r
  exact bit_ofNat (by decide) hstop

/-- `CMDW.WRITE` is the direction of the data, 0 without data (R302). -/
theorem bit_cmdwVal_write (r : ReqOp) : bit (BitVec.ofNat 32 (cmdwVal r)) 10 = dirIs r .write := by
  obtain ⟨-, -, -, -, hwrite, -⟩ := cmdwVal_fields r
  refine bit_ofNat (by decide) (hwrite.trans ?_)
  rcases hd : r.data with - | ⟨dir, _, _, _⟩
  · simp [writeVal, dirIs, hd, bitVal]
  · cases dir <;> simp [writeVal, dirIs, hd, bitVal, dirVal]

/-- The origin bit of a record (log 3). -/
theorem bit_cmdwVal_origin (r : ReqOp) : bit (BitVec.ofNat 32 (cmdwVal r)) 12 = decide (r.origin = .tuning) := by
  obtain ⟨-, -, -, -, -, -, horigin⟩ := cmdwVal_fields r
  refine bit_ofNat (by decide) ?_
  rw [horigin]
  cases r.origin <;> rfl

/-- The bits above a record's `CMDW` are 0 (log 3). -/
theorem bits_cmdwVal_above (r : ReqOp) : bits (BitVec.ofNat 32 (cmdwVal r)) 13 19 = 0 := by
  have := cmdwVal_lt r
  rw [bits_ofNat_of_le _ (by decide)]
  omega

/-- `GEOM` gives the block size and the block count back (R302). -/
theorem geom_fields (blksz blocks : BitVec 16) :
    BitVec.ofNat 16 (bits (BitVec.ofNat 32 (blksz.toNat + 65536 * blocks.toNat)) 0 16) = blksz ∧
    BitVec.ofNat 16 (bits (BitVec.ofNat 32 (blksz.toNat + 65536 * blocks.toNat)) 16 16) = blocks := by
  have h1 := blksz.isLt
  have h2 := blocks.isLt
  rw [bits_ofNat_of_le _ (by decide), bits_ofNat_of_le _ (by decide)]
  constructor <;> apply BitVec.eq_of_toNat_eq <;> rw [BitVec.toNat_ofNat] <;> omega

/-- The fields of TUNE's first word (R303). -/
theorem tuneWord_fields (mode : BitVec 4) (index : BitVec 6) {n : Nat} (hn : n < 65536) :
    let w : Word := BitVec.ofNat 32 (mode.toNat + 2 ^ 8 * index.toNat + 2 ^ 16 * n)
    bits w 0 4 = mode.toNat ∧ bits w 4 4 = 0 ∧ bits w 8 6 = index.toNat ∧ bits w 14 2 = 0 ∧ bits w 16 16 = n := by
  have hmode := mode.isLt
  have hindex := index.isLt
  intro w
  have hw (lo k : Nat) (h : lo + k ≤ 32) :
      bits w lo k = (mode.toNat + 2 ^ 8 * index.toNat + 2 ^ 16 * n) / 2 ^ lo % 2 ^ k := bits_ofNat_of_le _ h
  rw [hw 0 4 (by decide), hw 4 4 (by decide), hw 8 6 (by decide), hw 14 2 (by decide), hw 16 16 (by decide)]
  omega

/-! ### Operand words of trace records -/

/-- A request record gives its request back (R302, log 3). -/
theorem reqOpOf_reqWords {r : ReqOp} (hr : r.wellFormed = true) : reqOpOf r.slot (reqWords r) = .ok r := by
  have horigin : (if decide (r.origin = .tuning) = true then Origin.tuning else Origin.host) = r.origin := by
    cases r.origin <;> rfl
  have hcmd := cmdSpecOf_cmdwVal r
  have hwrite := bit_cmdwVal_write r
  rw [reqWords, reqOpOf, bits_cmdwVal_above, if_neg (not_not_intro rfl)]
  simp only [bit_cmdwVal_data, bit_cmdwVal_stop, bit_cmdwVal_origin, hwrite, hcmd, horigin]
  obtain ⟨seq, slot, origin, cmd, data, stop⟩ := r
  cases data with
  | none => simp [dirIs]
  | some d =>
    obtain ⟨dir, blksz, blocks, sg⟩ := d
    have hlen : 2 * sg.length + 5 < 65536 := of_decide_eq_true hr
    have hdir : (if dirIs ⟨seq, slot, origin, cmd, some ⟨dir, blksz, blocks, sg⟩, stop⟩ .write = true then Dir.write
        else .read) = dir := by cases dir <;> rfl
    obtain ⟨hblksz, hblocks⟩ := geom_fields blksz blocks
    have hnsg : (BitVec.ofNat 32 sg.length).toNat = sg.length := Nat.mod_eq_of_lt (by omega)
    simp [hdir, hblksz, hblocks, hnsg, segsOf_segWords]

/-- A scatter list of a record (log 3). -/
theorem sgOf_segWords {sg : List Seg} (h : sg.length < 2 ^ 32) :
    sgOf (BitVec.ofNat 32 sg.length :: segWords sg) = .ok sg := by
  have hn : (BitVec.ofNat 32 sg.length).toNat = sg.length := Nat.mod_eq_of_lt h
  rw [sgOf, hn, segWords_length, if_pos rfl, segsOf_segWords]

/-- A small operand of a record (log 3). -/
theorem smallOperand_ofNat {n v : Nat} (h : v < n) (hn : n ≤ 2 ^ 32) : smallOperand n [BitVec.ofNat 32 v] = .ok v := by
  have hv : (BitVec.ofNat 32 v).toNat = v := Nat.mod_eq_of_lt (by omega)
  rw [smallOperand, hv, if_pos h]

/-- TUNE_START's operands (R303, log 3). -/
theorem tuneStartOf_packBytes (tag : Word) (slot mode : BitVec 4) (index : BitVec 6) {pat : List Byte}
    (h : pat.length < 65536) :
    tuneStartOf slot (tag :: BitVec.ofNat 32 (mode.toNat + 2 ^ 8 * index.toNat + 2 ^ 16 * pat.length) :: packBytes pat)
      = .ok (.tuneStart tag slot mode index pat) := by
  obtain ⟨hmode, hres, hindex, hres', hlen⟩ := tuneWord_fields mode index h
  rw [tuneStartOf, hmode, hres, hindex, hres', hlen, if_neg (by decide), packBytes_length, if_neg (not_not_intro rfl),
    unpack_pack, BitVec.ofNat_toNat, BitVec.ofNat_toNat, BitVec.setWidth_eq, BitVec.setWidth_eq]

/-! ### Packets, records, event words -/

theorem splitPacket_self (op : Nat) (slot : BitVec 4) {ops : List Word} (ho : op < 256) (hn : ops.length < 65536) :
    splitPacket (packet op slot ops) = .ok (⟨op, slot, 0, ops.length⟩, ops) := by
  have h := splitPacket_packet op slot ops [] ho hn
  rwa [List.append_nil] at h

/-- A host-port operation is read back from its packet (R300, R301). -/
theorem decode_encode_hostInstr (op : HostOp) (slot : BitVec 4) {ws : List Word} (h : operandsFit ws = true) :
    decode .host (encode (hostInstr op slot ws)) = .ok (hostInstr op slot ws) := by
  have hn : ws.length < 65536 := of_decide_eq_true h
  cases op <;> simp only [decode, hostInstr, encode] <;> rw [decodePacket, splitPacket_self _ slot (by decide) hn] <;> rfl

/-- A trace record is the micro-operation of its opcode, slot and operands; the slot is 0 where there is no slot field
(R318, log 3). -/
theorem decode_trace_packet (op : Nat) (slot : BitVec 4) {ops : List Word} (ho : op < 256) (hn : ops.length < 65536)
    (hs : slotField op = true ∨ slot = 0#4) : decode .trace (packet op slot ops) = microOf op slot ops := by
  have hslot : ¬ (slotField op = false ∧ slot ≠ 0#4) := by rcases hs with h | h <;> simp [h]
  rw [decode, decodeMicro, splitPacket_self op slot ho hn]
  simp only [ne_eq, not_true_eq_false, if_false]
  exact if_neg hslot

/-- A record without slot and operands (R318). -/
theorem decode_trace_bare {op : Nat} {i : Instr} (ho : op < 256) (h : microOf op 0#4 [] = .ok i) :
    decode .trace (packet op 0#4 []) = .ok i :=
  (decode_trace_packet op 0#4 ho (by decide) (.inr rfl)).trans h

/-- A record without slot and with one operand word (R318, log 3). -/
theorem decode_trace_one {op : Nat} {w : Word} {i : Instr} (ho : op < 256) (h : microOf op 0#4 [w] = .ok i) :
    decode .trace (packet op 0#4 [w]) = .ok i :=
  (decode_trace_packet op 0#4 ho (by rw [List.length_singleton]; decide) (.inr rfl)).trans h

/-- Every host-port operation is read back (R300, R301). -/
theorem decode_encode_host {i : Instr} (hi : i.wellFormed = true) (hport : i.port = .host) :
    decode .host (encode i) = .ok i := by
  cases i
  case submit slot ws => exact decode_encode_hostInstr .submit slot hi
  case setBusTiming slot ws => exact decode_encode_hostInstr .setBusTiming slot hi
  case setClock slot ws => exact decode_encode_hostInstr .setClock slot hi
  case getCardPresent slot ws => exact decode_encode_hostInstr .getCardPresent slot hi
  case tune slot ws => exact decode_encode_hostInstr .tune slot hi
  case sdioIrqAck slot ws => exact decode_encode_hostInstr .sdioIrqAck slot hi
  case controllerInit slot ws => exact decode_encode_hostInstr .controllerInit slot hi
  all_goals cases hport

/-- Every micro-operation is read back from its trace record (R318, log 3). -/
theorem decode_encode_trace {i : Instr} (hi : i.wellFormed = true) (hport : i.port = .trace) :
    decode .trace (encode i) = .ok i := by
  cases i
  case enqueue r =>
    refine (decode_trace_packet 0x20 r.slot (by decide) (Laws.OpcodeByte.reqWords_length r hi) (.inl rfl)).trans ?_
    exact congrArg (Except.map Instr.enqueue) (reqOpOf_reqWords hi)
  case dispatch r =>
    refine (decode_trace_packet 0x22 r.slot (by decide) (Laws.OpcodeByte.reqWords_length r hi) (.inl rfl)).trans ?_
    exact congrArg (Except.map Instr.dispatch) (reqOpOf_reqWords hi)
  case updateClock slot => exact decode_trace_packet 0x28 slot (by decide) (by decide) (.inl rfl)
  case dmaPrepare sg =>
    have hlen : 2 * sg.length + 1 < 65536 := of_decide_eq_true hi
    refine (decode_trace_packet 0x30 0#4 (by decide) ?_ (.inr rfl)).trans ?_
    · rw [List.length_cons, segWords_length]; exact hlen
    · exact congrArg (Except.map Instr.dmaPrepare) (sgOf_segWords (by omega))
  case tuneStart tag slot mode index pat =>
    have hlen : pat.length < 65536 := of_decide_eq_true hi
    refine (decode_trace_packet 0x40 slot (by decide) ?_ (.inl rfl)).trans (tuneStartOf_packBytes tag slot mode index hlen)
    rw [List.length_cons, List.length_cons, packBytes_length]
    omega
  case tuneFinish c =>
    have hc := codeVal_lt c
    refine decode_trace_one (by decide) ?_
    rw [microOf, smallOperand_ofNat (by omega) (by decide)]
    simp only [codeOf_codeVal]
  case onEvent w => exact decode_trace_one (by decide) rfl
  case dmaStart dir => cases dir <;> exact decode_trace_one (by decide) rfl
  case pioPull drain => cases drain <;> exact decode_trace_one (by decide) rfl
  case dispatchNext | settle | complete | cardScan | issueStop | runCtl | dpuRun | dmaStop | dmaReset | pioPush | tuneStep
    | tuneSelect | resetFifo | resetController | waitNotBusy | recover | watchdogRecover | irqDispatch | watchdogCheck =>
    exact decode_trace_bare (by decide) rfl
  all_goals cases hport

/-- Every event is read back from its word, its payload whatever it is (R304). -/
theorem decode_encode_event {i : Instr} (hport : i.port = .event) : decode .event (encode i) = .ok i := by
  cases i
  case evCmdDone p | evDataErr p | evRxReady p | evTxReady p | evDataOver p | evDmaDone p | evCardDetect p | evSdioIrq p
    | evWatchdog p =>
    simp only [decode, encode]
    rw [decodeEvent, eventWord_code _ p (by decide), eventWord_payload _ p (by decide)]
    rfl
  all_goals cases hport

/-- Settles O2, port by port: the operation word splits, and each layout of operand words is read back. -/
theorem encodeDecodeRoundTrip : Obligations.EncodeDecodeRoundTrip := by
  unfold Obligations.EncodeDecodeRoundTrip
  intro i hi
  cases hport : i.port
  case host => exact decode_encode_host hi hport
  case trace => exact decode_encode_trace hi hport
  case event => exact decode_encode_event hport

/-! ### The acceptance step, by the first check that fails (R401) -/

section
variable {op : HostOp} {slot : BitVec 4} {ws : List Word} {s : State}

theorem refusalOf_length (hlen : lengthOk op ws = false) : refusalOf op slot ws s = some .invalidArg := by
  simp [refusalOf, hlen]

theorem refusalOf_reserved (hlen : lengthOk op ws = true) (hres : reservedSet op ws = true) :
    refusalOf op slot ws s = some .illegalOp := by
  simp [refusalOf, hlen, hres]

theorem refusalOf_range (hlen : lengthOk op ws = true) (hres : reservedSet op ws = false)
    (hrange : inRange s.cfg op slot ws = false) : refusalOf op slot ws s = some .invalidArg := by
  simp [refusalOf, hlen, hres, hrange]

/-- Every check passes: the packet is legal, the engine in service, the card present and the queue not full. -/
theorem refusalOf_none (hlegal : operandsLegal s.cfg op slot ws = true) (hservice : op = .controllerInit ∨ InService s)
    (hcard : op = .submit ∨ op = .setBusTiming ∨ op = .tune → (slotAt s slot.toNat).present = true)
    (hqueue : op = .submit → (slotAt s slot.toNat).queue.length ≠ s.cfg.qdepth)
    (hctlq : op ≠ .submit → op ≠ .getCardPresent → s.st.ctlq.length ≠ s.cfg.qdepth) :
    refusalOf op slot ws s = none := by
  simp only [operandsLegal, Bool.and_eq_true, Bool.not_eq_true'] at hlegal
  obtain ⟨⟨hlen, hres⟩, hrange⟩ := hlegal
  have hinited : (decide (op ≠ .controllerInit) && !s.st.inited) = false := by
    rcases hservice with rfl | ⟨h, -⟩
    · rfl
    · rw [h]; simp
  have hfatal : (decide (op ≠ .controllerInit) && s.st.fatal) = false := by
    rcases hservice with rfl | ⟨-, h⟩
    · rfl
    · rw [h]; simp
  have hmedium : ((decide (op = .submit) || decide (op = .setBusTiming) || decide (op = .tune))
      && !(slotAt s slot.toNat).present) = false := by simpa [or_assoc] using hcard
  have hroom : (decide (op = .submit) && decide ((slotAt s slot.toNat).queue.length = s.cfg.qdepth)) = false := by
    simpa using hqueue
  have hctlroom : (decide (op ≠ .submit) && decide (op ≠ .getCardPresent)
      && decide (s.st.ctlq.length = s.cfg.qdepth)) = false := by simpa using hctlq
  simp only [refusalOf, hlen, hres, hrange, hinited, hfatal, hmedium, hroom, hctlroom, Bool.not_true, Bool.false_eq_true,
    if_false]

/-- The six refusal codes (R307). -/
theorem refusalOf_codes {c : Code} (h : refusalOf op slot ws s = some c) :
    c ∈ [Code.queueFull, .illegalOp, .invalidArg, .notReady, .noMedium, .hardFailure] := by
  unfold refusalOf at h
  repeat' split at h
  all_goals cases h
  all_goals decide

/-- An operation a check refuses (R307). -/
theorem exec_hostInstr_refused {c : Code} (h : refusalOf op slot ws s = some c) :
    exec (hostInstr op slot ws) s = .next (refuse c s) := by
  cases op <;>
    simp only [hostInstr, exec, execSubmit, execSetBusTiming, execSetClock, execGetCardPresent, execTune, execSdioIrqAck,
      execControllerInit, acceptCtl, h]

/-- A SUBMIT no check refuses (R401, R406). -/
theorem exec_submit_accepted (h : refusalOf .submit slot ws s = none) :
    exec (.submit slot ws) s = .next (accepted (queued slot (requestOf s.st.nextSeq slot ws) s)) := by
  simp only [exec, execSubmit, h]
  rfl

/-- A control operation no check refuses (R401). -/
theorem acceptCtl_accepted (c : CtlOp) (h : refusalOf op slot ws s = none) :
    acceptCtl op c slot ws s = accepted (ctlQueued c slot s) := by
  simp only [acceptCtl, h]
  rfl

/-- A GET_CARD_PRESENT no check refuses (R413). -/
theorem exec_getCardPresent_accepted (h : refusalOf .getCardPresent slot ws s = none) :
    exec (.getCardPresent slot ws) s
      = .next (answer .ok 0#32 (if (slotAt s slot.toNat).present = true then 1#32 else 0#32) s) := by
  simp only [exec, execGetCardPresent, h]

/-- An operation no check refuses is answered OK (R401). -/
theorem exec_hostInstr_accepted (h : refusalOf op slot ws s = none) :
    ∃ t, exec (hostInstr op slot ws) s = .next t ∧ t.ctl.accepted.status = .ok := by
  cases op
  case submit => exact ⟨_, exec_submit_accepted h, rfl⟩
  case getCardPresent => exact ⟨_, exec_getCardPresent_accepted h, rfl⟩
  case setBusTiming | setClock | tune | sdioIrqAck | controllerInit =>
    exact ⟨_, congrArg Host.Outcome.next (acceptCtl_accepted _ h), rfl⟩

end

/-- Settles O4: either a check refuses, with one of the six codes, or the operation is accepted. -/
theorem hostPortAnswersAtOnce : Obligations.HostPortAnswersAtOnce := by
  unfold Obligations.HostPortAnswersAtOnce
  intro op slot ws s
  cases h : refusalOf op slot ws s with
  | none =>
    obtain ⟨t, hexec, hok⟩ := exec_hostInstr_accepted h
    exact ⟨t, hexec, .inl hok⟩
  | some c => exact ⟨refuse c s, exec_hostInstr_refused h, .inr ⟨refusalOf_codes h, rfl⟩⟩

/-! ### Slots and segments in range (R405) -/

section
variable {slot : BitVec 4} {s : State}

/-- A 16-bit field of a word as a value of its own. -/
theorem toNat_ofNat_bits16 (w : Word) (lo : Nat) : (BitVec.ofNat 16 (bits w lo 16)).toNat = bits w lo 16 :=
  Nat.mod_eq_of_lt (bits_lt w lo 16)

theorem ofNat_bits16_eq_zero (w : Word) (lo : Nat) : BitVec.ofNat 16 (bits w lo 16) = 0#16 ↔ bits w lo 16 = 0 := by
  rw [← BitVec.toNat_inj, toNat_ofNat_bits16]
  rfl

theorem inRange_noSlot {c : Config} (op : HostOp) (ws : List Word) (h : c.nslots ≤ slot.toNat) :
    inRange c op slot ws = false := by
  simp [inRange, h]

theorem segOk_iff (c : Config) (g : Seg) : segOk c g = true ↔
    g.len ≠ 0#32 ∧ g.addr.toNat + g.len.toNat ≤ 2 ^ 32 ∧
      (c.dmaPresent = true → g.addr.toNat + g.len.toNat ≤ c.ringBase ∨ c.ringBase + 16 * c.ndesc ≤ g.addr.toNat) := by
  simp only [segOk, Bool.and_eq_true, decide_eq_true_eq, and_assoc]
  refine and_congr_right fun _ => and_congr_right fun _ => ?_
  cases c.dmaPresent
  · simp
  · simp [overlapsArena]
    omega

/-! ### SUBMIT's packet (R302) -/

/-- SUBMIT's operand words with data. -/
abbrev submitWords (w arg geom : Word) (sg : List Seg) : List Word :=
  w :: arg :: geom :: BitVec.ofNat 32 sg.length :: segWords sg

theorem lengthOk_submit_bare {w : Word} (arg : Word) (hdata : bit w 9 = false) : lengthOk .submit [w, arg] = true := by
  simp [lengthOk, operand, hdata]

theorem lengthOk_submit_data {w : Word} (arg geom : Word) {sg : List Seg} (hdata : bit w 9 = true)
    (hlen : sg.length < 2 ^ 32) : lengthOk .submit (submitWords w arg geom sg) = true := by
  have hnsg : sg.length % 4294967296 = sg.length := Nat.mod_eq_of_lt hlen
  simp [lengthOk, operand, hdata, hnsg]
  omega

theorem reservedSet_submit (w : Word) (rest : List Word) : reservedSet .submit (w :: rest) = decide (bits w 12 20 ≠ 0) :=
  rfl

theorem submitData_bare {w : Word} (rest : List Word) (hdata : bit w 9 = false) : submitData (w :: rest) = none := by
  simp [submitData, operand, hdata]

theorem submitData_data {w : Word} (arg geom : Word) (sg : List Seg) (hdata : bit w 9 = true) :
    submitData (submitWords w arg geom sg) = some ⟨if bit w 10 then .write else .read, BitVec.ofNat 16 (bits geom 0 16),
      BitVec.ofNat 16 (bits geom 16 16), sg⟩ := by
  simp [submitData, operand, hdata, segsOf_segWords]

theorem inRange_submit_bare {c : Config} {w : Word} (arg : Word) (hdata : bit w 9 = false) :
    inRange c .submit slot [w, arg] = true ↔ slot.toNat < c.nslots ∧ bit w 10 = false ∧ bit w 11 = false := by
  simp [inRange, submitData_bare _ hdata, operand]

theorem inRange_submit_data {c : Config} {w : Word} (arg geom : Word) (sg : List Seg) (hdata : bit w 9 = true) :
    inRange c .submit slot (submitWords w arg geom sg) = true ↔ slot.toNat < c.nslots ∧
      ∃ d ∈ submitData (submitWords w arg geom sg), ScatterInRange c d := by
  simp only [inRange, submitData_data arg geom sg hdata, ScatterInRange, Option.mem_some_iff, exists_eq_left',
    Bool.and_eq_true, decide_eq_true_eq, List.all_eq_true, segOk_iff, and_assoc]
  exact Iff.rfl

/-- The Request of a packet whose first word is `CMDW` of `r` (R406). -/
theorem requestOf_cmdwVal (r : ReqOp) (ops : List Word)
    (hdata : submitData (BitVec.ofNat 32 (cmdwVal r) :: r.cmd.arg :: ops) = r.data) (horigin : r.origin = .host) :
    requestOf r.seq r.slot (BitVec.ofNat 32 (cmdwVal r) :: r.cmd.arg :: ops) = Request.fresh r := by
  have hcmd := cmdSpecOf_cmdwVal r
  have hstop := bit_cmdwVal_stop r
  obtain ⟨seq, slot, origin, cmd, data, stop⟩ := r
  cases horigin
  simp [requestOf, operand, hcmd, hstop, hdata]

/-- A HOST request's `CMDW` has no reserved bit set (R302). -/
theorem bits_cmdwVal_reserved {r : ReqOp} (horigin : r.origin = .host) : bits (BitVec.ofNat 32 (cmdwVal r)) 12 20 = 0 := by
  obtain ⟨-, -, -, -, -, -, h⟩ := cmdwVal_fields r
  rw [bits_ofNat_of_le _ (by decide), h, horigin]
  rfl

/-- SUBMIT of a Request without data is accepted (R401, R406). -/
theorem submit_bare_accepted {r : ReqOp} (horigin : r.origin = .host) (hdata : r.data = none) (hstop : r.stopFlag = false)
    (hseq : r.seq = s.st.nextSeq) (hservice : InService s) (hslot : r.slot.toNat < s.cfg.nslots)
    (hcard : (slotAt s r.slot.toNat).present = true)
    (hqueue : (slotAt s r.slot.toNat).queue.length ≠ s.cfg.qdepth) :
    exec (.submit r.slot [BitVec.ofNat 32 (cmdwVal r), r.cmd.arg]) s
      = .next (accepted (queued r.slot (Request.fresh r) s)) := by
  have hbit : bit (BitVec.ofNat 32 (cmdwVal r)) 9 = false := by rw [bit_cmdwVal_data, hdata]; rfl
  have hrange : inRange s.cfg .submit r.slot [BitVec.ofNat 32 (cmdwVal r), r.cmd.arg] = true := by
    rw [inRange_submit_bare _ hbit, bit_cmdwVal_write, bit_cmdwVal_stop]
    exact ⟨hslot, by rw [dirIs, hdata], hstop⟩
  have hlegal : operandsLegal s.cfg .submit r.slot [BitVec.ofNat 32 (cmdwVal r), r.cmd.arg] = true := by
    rw [operandsLegal, lengthOk_submit_bare _ hbit, hrange, reservedSet_submit, bits_cmdwVal_reserved horigin]
    rfl
  rw [exec_submit_accepted (refusalOf_none hlegal (.inr hservice) (fun _ => hcard) (fun _ => hqueue) (fun h => absurd rfl h)),
    ← hseq, requestOf_cmdwVal r [] ((submitData_bare _ hbit).trans hdata.symm) horigin]

/-- SUBMIT of a Request with data in range is accepted (R401, R406). -/
theorem submit_data_accepted {r : ReqOp} {d : DataSpec} (horigin : r.origin = .host) (hdata : r.data = some d)
    (hlen : d.sg.length < 2 ^ 32) (hscatter : ScatterInRange s.cfg d)
    (hseq : r.seq = s.st.nextSeq) (hservice : InService s) (hslot : r.slot.toNat < s.cfg.nslots)
    (hcard : (slotAt s r.slot.toNat).present = true)
    (hqueue : (slotAt s r.slot.toNat).queue.length ≠ s.cfg.qdepth) :
    exec (.submit r.slot (submitWords (BitVec.ofNat 32 (cmdwVal r)) r.cmd.arg
        (BitVec.ofNat 32 (d.blksz.toNat + 65536 * d.blocks.toNat)) d.sg)) s
      = .next (accepted (queued r.slot (Request.fresh r) s)) := by
  have hbit : bit (BitVec.ofNat 32 (cmdwVal r)) 9 = true := by rw [bit_cmdwVal_data, hdata]; rfl
  have hpacket : submitData (submitWords (BitVec.ofNat 32 (cmdwVal r)) r.cmd.arg
      (BitVec.ofNat 32 (d.blksz.toNat + 65536 * d.blocks.toNat)) d.sg) = r.data := by
    obtain ⟨hblksz, hblocks⟩ := geom_fields d.blksz d.blocks
    rw [submitData_data _ _ _ hbit, hblksz, hblocks, bit_cmdwVal_write, dirIs, hdata]
    obtain ⟨dir, blksz, blocks, sg⟩ := d
    cases dir <;> rfl
  have hrange := (inRange_submit_data (slot := r.slot) (c := s.cfg) r.cmd.arg
    (BitVec.ofNat 32 (d.blksz.toNat + 65536 * d.blocks.toNat)) d.sg hbit).mpr ⟨hslot, d, hpacket.trans hdata, hscatter⟩
  have hlegal : operandsLegal s.cfg .submit r.slot (submitWords (BitVec.ofNat 32 (cmdwVal r)) r.cmd.arg
      (BitVec.ofNat 32 (d.blksz.toNat + 65536 * d.blocks.toNat)) d.sg) = true := by
    rw [operandsLegal, lengthOk_submit_data _ _ hbit hlen, hrange, reservedSet_submit, bits_cmdwVal_reserved horigin]
    rfl
  rw [exec_submit_accepted (refusalOf_none hlegal (.inr hservice) (fun _ => hcard) (fun _ => hqueue) (fun h => absurd rfl h)),
    ← hseq, requestOf_cmdwVal r _ hpacket horigin]

end

/-- Settles O6: the packet's first word is `CMDW` of the Request, and every check of the acceptance step passes. -/
theorem submitAccepted : Obligations.SubmitAccepted := by
  unfold Obligations.SubmitAccepted
  intro s slot index resp crc arg hservice hslot hcard hqueue
  refine ⟨?bare, fun d stop hlen hscatter => ?data⟩
  case bare =>
    exact submit_bare_accepted (r := ⟨s.st.nextSeq, slot, .host, ⟨index, arg, resp, crc⟩, none, false⟩) rfl rfl rfl rfl
      hservice hslot hcard hqueue
  case data =>
    exact submit_data_accepted (r := ⟨s.st.nextSeq, slot, .host, ⟨index, arg, resp, crc⟩, some d, stop⟩) rfl rfl
      (by omega) hscatter rfl hservice hslot hcard hqueue

/-! ### Packets of control operations (R303) -/

section
variable {op : HostOp} {slot : BitVec 4} {ws : List Word} {s : State}

@[simp] theorem operand_one (w : Word) (rest : List Word) : operand (w :: rest) 1 = w := rfl

/-- The padding of packed bytes is 0 (R303). -/
theorem unpack_pack_padding (bs : List Byte) : ∀ b ∈ (unpackBytes (packBytes bs)).drop bs.length, b = 0#8 := by
  induction bs using packBytes.induct with
  | case1 a b c d rest ih =>
    simp only [packBytes, unpackBytes, wordBytes_ofBytes, List.length_cons]
    exact ih
  | case2 a b c =>
    have h := wordBytes_ofBytes a b c 0#8
    simp only [BitVec.toNat_ofNat, Nat.zero_mod, Nat.mul_zero, Nat.add_zero] at h
    simp only [packBytes, unpackBytes, h]
    simp
  | case3 a b =>
    have h := wordBytes_ofBytes a b 0#8 0#8
    simp only [BitVec.toNat_ofNat, Nat.zero_mod, Nat.mul_zero, Nat.add_zero] at h
    simp only [packBytes, unpackBytes, h]
    simp
  | case4 a =>
    have h := wordBytes_ofBytes a 0#8 0#8 0#8
    simp only [BitVec.toNat_ofNat, Nat.zero_mod, Nat.mul_zero, Nat.add_zero] at h
    simp only [packBytes, unpackBytes, h]
    simp
  | case5 => intro b hb; cases hb

theorem lengthOk_tune (w : Word) (pat : List Word) :
    lengthOk .tune (w :: pat) = decide (pat.length = (bits w 16 16 + 3) / 4) := by
  simp [lengthOk, operand, ceilDiv, Nat.add_comm 1]

theorem lengthOk_tune_pack {w : Word} {pattern : List Byte} (hlen : pattern.length = bits w 16 16) :
    lengthOk .tune (w :: packBytes pattern) = true := by
  rw [lengthOk_tune, packBytes_length, hlen, decide_eq_true rfl]

theorem reservedSet_tune (w : Word) (pat : List Word) : reservedSet .tune (w :: pat) = true ↔
    bits w 4 4 ≠ 0 ∨ bits w 14 2 ≠ 0 ∨ ∃ b ∈ (unpackBytes pat).drop (bits w 16 16), b ≠ 0#8 := by
  simp only [reservedSet, patternBytes, List.tail_cons, Bool.or_eq_true, decide_eq_true_eq, List.any_eq_true, or_assoc]
  exact Iff.rfl

theorem reservedSet_tune_pack {w : Word} {pattern : List Byte} (hlen : pattern.length = bits w 16 16)
    (h4 : bits w 4 4 = 0) (h14 : bits w 14 2 = 0) : reservedSet .tune (w :: packBytes pattern) = false := by
  rw [Bool.eq_false_iff, ne_eq, reservedSet_tune, ← hlen]
  rintro (h | h | ⟨b, hb, h⟩)
  · exact h h4
  · exact h h14
  · exact h (unpack_pack_padding pattern b hb)

theorem inRange_tune {c : Config} (w : Word) (pat : List Word) : inRange c .tune slot (w :: pat) = true ↔
    slot.toNat < c.nslots ∧ bits w 0 4 ≤ 9 ∧ bits w 16 16 ≠ 0 ∧ bits w 16 16 ≤ 128 := by
  simp only [inRange, Bool.and_eq_true, decide_eq_true_eq, and_assoc]
  exact Iff.rfl

theorem reservedSet_setBusTiming (w : Word) :
    reservedSet .setBusTiming [w] = true ↔ bits w 12 20 ≠ 0 ∨ bits w 4 4 ≠ 0 := by
  simp only [reservedSet, Bool.or_eq_true, decide_eq_true_eq]
  exact Iff.rfl

theorem inRange_setBusTiming {c : Config} (w : Word) : inRange c .setBusTiming slot [w] = true ↔
    slot.toNat < c.nslots ∧ bits w 0 4 ≤ 9 ∧ (bits w 8 4 = 1 ∨ bits w 8 4 = 4 ∨ bits w 8 4 = 8) := by
  simp only [inRange, Bool.and_eq_true, Bool.or_eq_true, decide_eq_true_eq, or_assoc]
  exact Iff.rfl

/-- The fields of SET_BUS_TIMING's word (R303). -/
theorem timingWord_fields (mode width : BitVec 4) :
    let w : Word := BitVec.ofNat 32 (mode.toNat + 256 * width.toNat)
    bits w 0 4 = mode.toNat ∧ bits w 4 4 = 0 ∧ bits w 8 4 = width.toNat ∧ bits w 12 20 = 0 := by
  have hmode := mode.isLt
  have hwidth := width.isLt
  intro w
  have hw (lo k : Nat) (h : lo + k ≤ 32) : bits w lo k = (mode.toNat + 256 * width.toNat) / 2 ^ lo % 2 ^ k :=
    bits_ofNat_of_le _ h
  rw [hw 0 4 (by decide), hw 4 4 (by decide), hw 8 4 (by decide), hw 12 20 (by decide)]
  omega

/-! ### Control operations accepted (R401) -/

/-- The checks on the engine pass for a control operation: in service, the card present, room in the control queue. -/
theorem refusalOf_control (hop : op ≠ .submit) (hlegal : operandsLegal s.cfg op slot ws = true)
    (hservice : op = .controllerInit ∨ InService s)
    (hcard : op = .setBusTiming ∨ op = .tune → (slotAt s slot.toNat).present = true)
    (hroom : op ≠ .getCardPresent → s.st.ctlq.length ≠ s.cfg.qdepth) : refusalOf op slot ws s = none :=
  refusalOf_none hlegal hservice (fun h => hcard (h.resolve_left hop)) (fun h => absurd h hop) (fun _ => hroom)

/-- SET_BUS_TIMING in range is accepted with the fields of its word (R407). -/
theorem setBusTiming_accepted {mode width : BitVec 4} (hslot : slot.toNat < s.cfg.nslots) (hservice : InService s)
    (hcard : (slotAt s slot.toNat).present = true) (hroom : s.st.ctlq.length ≠ s.cfg.qdepth)
    (hmode : mode.toNat ≤ 9) (hwidth : width = 1#4 ∨ width = 4#4 ∨ width = 8#4) :
    exec (.setBusTiming slot [BitVec.ofNat 32 (mode.toNat + 256 * width.toNat)]) s
      = .next (accepted (ctlQueued (.setBusTiming mode width) slot s)) := by
  obtain ⟨f0, f4, f8, f12⟩ := timingWord_fields mode width
  have hrange : inRange s.cfg .setBusTiming slot [BitVec.ofNat 32 (mode.toNat + 256 * width.toNat)] = true := by
    rw [inRange_setBusTiming, f0, f8]
    exact ⟨hslot, hmode, by rcases hwidth with rfl | rfl | rfl <;> decide⟩
  have hres : reservedSet .setBusTiming [BitVec.ofNat 32 (mode.toNat + 256 * width.toNat)] = false := by
    rw [Bool.eq_false_iff, ne_eq, reservedSet_setBusTiming, f4, f12]
    decide
  have hlegal : operandsLegal s.cfg .setBusTiming slot [BitVec.ofNat 32 (mode.toNat + 256 * width.toNat)] = true := by
    rw [operandsLegal, hrange, hres]
    rfl
  have h := acceptCtl_accepted (.setBusTiming mode width)
    (refusalOf_control (by decide) hlegal (.inr hservice) (fun _ => hcard) (fun _ => hroom))
  simp only [exec, execSetBusTiming, operand_one, f0, f8, BitVec.ofNat_toNat, BitVec.setWidth_eq, h]

/-- TUNE in range is accepted with the fields of its word and its pattern (R414). -/
theorem tune_accepted {mode : BitVec 4} {index : BitVec 6} {pattern : List Byte} (hslot : slot.toNat < s.cfg.nslots)
    (hservice : InService s) (hcard : (slotAt s slot.toNat).present = true) (hroom : s.st.ctlq.length ≠ s.cfg.qdepth)
    (hmode : mode.toNat ≤ 9) (hne : pattern ≠ []) (hlen : pattern.length ≤ 128) :
    exec (.tune slot (BitVec.ofNat 32 (mode.toNat + 256 * index.toNat + 65536 * pattern.length) :: packBytes pattern)) s
      = .next (accepted (ctlQueued (.tune mode index pattern) slot s)) := by
  have hfields := tuneWord_fields mode index (n := pattern.length) (by omega)
  simp only [Nat.reducePow] at hfields
  generalize BitVec.ofNat 32 (mode.toNat + 256 * index.toNat + 65536 * pattern.length) = w at hfields ⊢
  obtain ⟨f0, f4, f8, f14, f16⟩ := hfields
  have hrange : inRange s.cfg .tune slot (w :: packBytes pattern) = true := by
    rw [inRange_tune, f0, f16]
    exact ⟨hslot, hmode, fun h => hne (List.length_eq_zero_iff.mp h), hlen⟩
  have hlegal : operandsLegal s.cfg .tune slot (w :: packBytes pattern) = true := by
    rw [operandsLegal, lengthOk_tune_pack f16.symm, reservedSet_tune_pack f16.symm f4 f14, hrange]
    rfl
  have h := acceptCtl_accepted (.tune mode index pattern)
    (refusalOf_control (by decide) hlegal (.inr hservice) (fun _ => hcard) (fun _ => hroom))
  simp only [exec, execTune, operand_one, patternBytes, List.tail_cons, f0, f8, f16, unpack_pack,
    BitVec.ofNat_toNat, BitVec.setWidth_eq, h]

/-- Operations without checks on their operands beyond number and slot (R405). -/
theorem operandsLegal_plain {c : Config} (h : slot.toNat < c.nslots) :
    operandsLegal c .getCardPresent slot [] = true ∧ operandsLegal c .sdioIrqAck slot [] = true ∧
    (∀ rate, operandsLegal c .setClock slot [rate] = true) ∧
    (slot = 0#4 → operandsLegal c .controllerInit slot [] = true) := by
  simp [operandsLegal, lengthOk, reservedSet, inRange, h]

end

/-- Settles O7: every check passes, and the operands queued are the fields of the packet's words. -/
theorem controlOperationsAccepted : Obligations.ControlOperationsAccepted := by
  unfold Obligations.ControlOperationsAccepted
  intro s slot hslot
  obtain ⟨hget, hack, hclock, hinit⟩ := operandsLegal_plain hslot
  refine ⟨fun hservice => ?present, fun hroom hzero => ?init, fun hroom hservice => ⟨?ack, fun rate => ?clock,
    fun hcard => ⟨fun mode width => setBusTiming_accepted hslot hservice hcard hroom,
      fun mode index pattern => tune_accepted hslot hservice hcard hroom⟩⟩⟩
  case present =>
    exact exec_getCardPresent_accepted
      (refusalOf_control (by decide) hget (.inr hservice) (by simp) (fun h => absurd rfl h))
  case init =>
    exact congrArg Host.Outcome.next (acceptCtl_accepted .controllerInit
      (refusalOf_control (by decide) (hinit hzero) (.inl rfl) (by simp) (fun _ => hroom)))
  case ack =>
    exact congrArg Host.Outcome.next (acceptCtl_accepted .sdioIrqAck
      (refusalOf_control (by decide) hack (.inr hservice) (by simp) (fun _ => hroom)))
  case clock =>
    exact congrArg Host.Outcome.next (acceptCtl_accepted (.setClock rate)
      (refusalOf_control (by decide) (hclock rate) (.inr hservice) (by simp) (fun _ => hroom)))

/-! ### Operands refused (R405) -/

section
variable {ws : List Word}

theorem lengthOk_submit_wrong (hne : ws.length ≠ 2)
    (h : ws.length < 4 ∨ bit (operand ws 1) 9 = false ∨ ws.length ≠ 4 + 2 * (operand ws 4).toNat) :
    lengthOk .submit ws = false := by
  cases hdata : bit (operand ws 1) 9 <;> simp [lengthOk, hdata, hne] at h ⊢
  omega

theorem lengthOk_submit_dataless (hlen : ws.length = 2) (hdata : bit (operand ws 1) 9 = true) :
    lengthOk .submit ws = false := by
  simp [lengthOk, hlen, hdata]

/-- A scatter list that fails one of R405's checks. -/
theorem not_scatterInRange {c : Config} {d : DataSpec} (h : d.blksz = 0#16 ∨ d.blocks = 0#16 ∨ d.sg = [] ∨
      c.maxSg < d.sg.length ∨
      (∃ g ∈ d.sg, g.len = 0#32 ∨ 2 ^ 32 < g.addr.toNat + g.len.toNat ∨
        (c.dmaPresent = true ∧ g.addr.toNat < c.ringBase + 16 * c.ndesc ∧ c.ringBase < g.addr.toNat + g.len.toNat)) ∨
      (d.sg.map fun g => g.len.toNat).sum ≠ d.blksz.toNat * d.blocks.toNat) : ¬ ScatterInRange c d := by
  rintro ⟨hblksz, hblocks, hsg, hmax, hsegs, hsum⟩
  rcases h with h | h | h | h | ⟨g, hg, h⟩ | h
  · exact hblksz h
  · exact hblocks h
  · exact hsg h
  · omega
  · obtain ⟨hlen, hend, harena⟩ := hsegs g hg
    rcases h with h | h | ⟨hdma, hbelow, habove⟩
    · exact hlen h
    · omega
    · have := harena hdma
      omega
  · exact h hsum

/-- A packet with another number of operand words is refused (R405). -/
theorem exec_refused_length (op : HostOp) (slot : BitVec 4) (s : State) (hlen : lengthOk op ws = false) :
    exec (hostInstr op slot ws) s = .next (refuse .invalidArg s) :=
  exec_hostInstr_refused (refusalOf_length hlen)

/-- A packet with a reserved bit set is refused (R405). -/
theorem exec_refused_reserved (op : HostOp) (slot : BitVec 4) (s : State) (hlen : lengthOk op ws = true)
    (hres : reservedSet op ws = true) : exec (hostInstr op slot ws) s = .next (refuse .illegalOp s) :=
  exec_hostInstr_refused (refusalOf_reserved hlen hres)

/-- A packet with a field out of range is refused (R405). -/
theorem exec_refused_range (op : HostOp) (slot : BitVec 4) (s : State) (hlen : lengthOk op ws = true)
    (hres : ¬ reservedSet op ws = true) (hrange : ¬ inRange s.cfg op slot ws = true) :
    exec (hostInstr op slot ws) s = .next (refuse .invalidArg s) :=
  exec_hostInstr_refused (refusalOf_range hlen (Bool.eq_false_iff.mpr hres) (Bool.eq_false_iff.mpr hrange))

/-- A packet of a slot that does not exist is refused (R405). -/
theorem exec_refused_slot (op : HostOp) (slot : BitVec 4) (s : State) (hlen : lengthOk op ws = true)
    (hres : ¬ reservedSet op ws = true) (hslot : s.cfg.nslots ≤ slot.toNat) :
    exec (hostInstr op slot ws) s = .next (refuse .invalidArg s) :=
  exec_refused_range op slot s hlen hres (by rw [inRange_noSlot op ws hslot]; decide)

end

/-- Settles O8, operation by operation: the check that fails, and that those before it pass. -/
theorem illFormedOperandsRefused : Obligations.IllFormedOperandsRefused := by
  unfold Obligations.IllFormedOperandsRefused
  intro s slot ws
  refine ⟨fun hne h => ?count, fun hlen hdata => ?dataless, fun hne => ⟨?timingCount, ?clockCount⟩,
    fun hne => ⟨?presentCount, ?ackCount, ?initCount⟩, fun hne => ?tuneCount, fun w arg hdata hres => ?bareReserved,
    fun w arg geom sg hlen hdata hres => ?dataReserved, fun w hres => ?timingReserved, fun w pat hlen hres => ?tuneReserved,
    fun w arg hdata hres h => ?bareRange, fun w arg geom sg hlen hdata hres h => ?dataRange,
    fun w h12 h4 h => ?timingRange, fun w pattern hlen h4 h14 h => ?tuneRange, fun w hslot => ?clockSlot,
    fun hslot => ⟨?presentSlot, ?ackSlot⟩, fun h => ?initRange⟩
  -- the number of operand words
  case count => exact exec_refused_length .submit slot s (lengthOk_submit_wrong hne h)
  case dataless => exact exec_refused_length .submit slot s (lengthOk_submit_dataless hlen hdata)
  case timingCount => exact exec_refused_length .setBusTiming slot s (decide_eq_false hne)
  case clockCount => exact exec_refused_length .setClock slot s (decide_eq_false hne)
  case presentCount => exact exec_refused_length .getCardPresent slot s (by simpa [lengthOk] using hne)
  case ackCount => exact exec_refused_length .sdioIrqAck slot s (by simpa [lengthOk] using hne)
  case initCount => exact exec_refused_length .controllerInit slot s (by simpa [lengthOk] using hne)
  case tuneCount => exact exec_refused_length .tune slot s (decide_eq_false hne)
  -- reserved bits
  case bareReserved =>
    exact exec_refused_reserved .submit slot s (lengthOk_submit_bare arg hdata) (decide_eq_true hres)
  case dataReserved =>
    exact exec_refused_reserved .submit slot s (lengthOk_submit_data arg geom hdata hlen) (decide_eq_true hres)
  case timingReserved => exact exec_refused_reserved .setBusTiming slot s rfl ((reservedSet_setBusTiming w).mpr hres)
  case tuneReserved =>
    exact exec_refused_reserved .tune slot s ((lengthOk_tune w pat).trans (decide_eq_true hlen))
      ((reservedSet_tune w pat).mpr hres)
  -- ranges
  case bareRange =>
    refine exec_refused_range .submit slot s (lengthOk_submit_bare arg hdata) (by simp [reservedSet_submit, hres]) ?_
    rw [inRange_submit_bare arg hdata]
    rintro ⟨hslot, hwrite, hstop⟩
    rcases h with h | h | h
    · omega
    · rw [hwrite] at h; cases h
    · rw [hstop] at h; cases h
  case dataRange =>
    refine exec_refused_range .submit slot s (lengthOk_submit_data arg geom hdata hlen)
      (by simp [reservedSet_submit, hres]) ?_
    rw [inRange_submit_data arg geom sg hdata, submitData_data arg geom sg hdata]
    rintro ⟨hslot, d, hd, hscatter⟩
    cases hd
    refine not_scatterInRange ?_ hscatter
    rw [ofNat_bits16_eq_zero, ofNat_bits16_eq_zero, toNat_ofNat_bits16, toNat_ofNat_bits16]
    exact h.resolve_left (by omega)
  case timingRange =>
    refine exec_refused_range .setBusTiming slot s rfl ?_ ?_
    · rw [reservedSet_setBusTiming, h12, h4]; decide
    · rw [inRange_setBusTiming]; omega
  case tuneRange =>
    refine exec_refused_range .tune slot s (lengthOk_tune_pack hlen) ?_ ?_
    · rw [reservedSet_tune_pack hlen h4 h14]; decide
    · rw [inRange_tune, ← hlen]
      rintro ⟨hslot, hmode, hne, hmax⟩
      rcases h with h | h | rfl | h
      · omega
      · omega
      · exact hne rfl
      · omega
  case clockSlot => exact exec_refused_slot .setClock slot s rfl Bool.false_ne_true hslot
  case presentSlot => exact exec_refused_slot .getCardPresent slot s rfl Bool.false_ne_true hslot
  case ackSlot => exact exec_refused_slot .sdioIrqAck slot s rfl Bool.false_ne_true hslot
  case initRange =>
    refine exec_refused_range .controllerInit slot s rfl (by decide) ?_
    rcases h with h | h <;> simp [inRange, h]

/-! ### Words at a port -/

/-- Settles O1: the words are literals, and the decoder computes on them. -/
theorem specWordsDecode : Obligations.SpecWordsDecode := by
  unfold Obligations.SpecWordsDecode
  exact ⟨rfl, rfl, rfl, rfl, rfl, rfl, rfl, rfl, rfl, rfl, rfl, rfl⟩

theorem step_feed {s : State} {p : Port} {ws : List Word} {rest : List Stimulus} (h : s.ctl.agenda = .feed p ws :: rest) :
    step s = feed p ws { s with ctl := { s.ctl with agenda := rest } } := by
  simp only [step, advance, nextStimulus, h, react]

/-- A packet presented to the host port is what the next step reads (log 2). -/
theorem step_present_host (ws : List Word) (s : State) : step (present .host ws s) = feed .host ws s := step_feed rfl

/-- A record or an event word finds the DPU between runs (log 2). -/
theorem step_present_dpu {p : Port} (hp : p ≠ .host) (ws : List Word) (s : State) :
    step (present p ws s) = feed p ws (setDpu [] s) := by
  cases p
  case host => exact absurd rfl hp
  case trace | event => exact step_feed rfl

/-- Event words are the DPU's (R465). -/
theorem ofDpu_of_decodeEvent {w : Word} {i : Instr} (h : decodeEvent w = .ok i) : ofDpu i = true := by
  unfold decodeEvent at h
  split at h <;> cases h <;> rfl

/-- Words that decode run their instruction, unless they name work of a DPU that is not between runs (R221, log 8). -/
theorem feed_decoded {p : Port} {ws : List Word} {i : Instr} {s : State} (hdec : decode p ws = .ok i)
    (hfree : p = .host ∨ ofDpu i = false ∨ s.ctl.dpu = []) : feed p ws s = exec i s := by
  have hidle (hp : p ≠ .host) (hdpu : ofDpu i = true) : s.ctl.dpu = [] := by
    rcases hfree with h | h | h
    · exact absurd h hp
    · rw [hdpu] at h; cases h
    · exact h
  cases p
  case host =>
    replace hdec : decodePacket ws = .ok i := hdec
    simp only [feed, feedHost, hdec]
  case trace =>
    replace hdec : decodeMicro ws = .ok i := hdec
    simp only [feed, feedTrace, hdec]
    exact if_neg fun ⟨hdpu, hne⟩ => hne (hidle (by decide) hdpu)
  case event =>
    have hdpu : ofDpu i = true := by
      cases ws with
      | nil => cases hdec
      | cons w _ => exact ofDpu_of_decodeEvent hdec
    simp only [feed, feedEvent, hdec]
    exact if_neg fun hne => hne (hidle (by decide) hdpu)

/-- A packet that decodes has clear reserved bits and one of the seven operations (R301, R317). -/
theorem decodePacket_ok {ws ops : List Word} {p : Opw} {i : Instr} (hsplit : splitPacket ws = .ok (p, ops))
    (h : decodePacket ws = .ok i) : p.rsv = 0 ∧ 1 ≤ p.op ∧ p.op ≤ 7 := by
  simp only [decodePacket, hsplit] at h
  split at h
  · cases h
  · next hrsv =>
    refine ⟨not_not.mp hrsv, ?_⟩
    split at h <;> simp_all

/-- A packet with all its words is not cut short (R300). -/
theorem decodePacket_not_truncated {ws ops : List Word} {p : Opw} (hsplit : splitPacket ws = .ok (p, ops)) :
    decodePacket ws ≠ .error .truncated := by
  intro h
  simp only [decodePacket, hsplit] at h
  split at h
  · cases h
  · split at h <;> cases h

/-- A packet of no operation, or with a reserved bit set, is refused ILLEGAL_OP (R401, R317). -/
theorem feedHost_illegal {ws ops : List Word} {p : Opw} (s : State) (hsplit : splitPacket ws = .ok (p, ops))
    (hbad : p.rsv ≠ 0 ∨ p.op = 0 ∨ 7 < p.op) : feedHost ws s = .next (refuse .illegalOp s) := by
  cases hdec : decodePacket ws with
  | ok i =>
    obtain ⟨hrsv, hlow, hhigh⟩ := decodePacket_ok hsplit hdec
    omega
  | error e =>
    cases e
    case truncated => exact absurd hdec (decodePacket_not_truncated hsplit)
    all_goals simp only [feedHost, hdec]

/-- Settles O3: a step takes the head of the agenda, and words at a port run what they decode to. -/
theorem stepRunsDecodedInstruction : Obligations.StepRunsDecodedInstruction := by
  unfold Obligations.StepRunsDecodedInstruction
  refine ⟨fun s p ws rest i hagenda hdec hfree => ?agenda, fun s nbits w i hdec => ?table,
    fun s w ops rest hagenda hlen hbad => ?illegal⟩
  case agenda => exact (step_feed hagenda).trans (feed_decoded hdec hfree)
  case table =>
    have hword : decode (tablePort nbits w) (tableWords w) = .ok i := by
      unfold decodeTableWord at hdec
      split at hdec
      · next h => cases hdec; exact h
      · cases hdec
    refine ⟨fun hp => ?host, fun hp => ?other⟩
    case host =>
      show step (present (tablePort nbits w) (tableWords w) s) = _
      rw [hp] at hword ⊢
      exact (step_present_host _ s).trans (feed_decoded hword (.inl rfl))
    case other => exact (step_present_dpu hp _ s).trans (feed_decoded hword (.inr (.inr rfl)))
  case illegal =>
    have hsplit : splitPacket (w :: ops) = .ok (Opw.ofWord w, ops.take (Opw.ofWord w).nwords) :=
      if_neg (Nat.not_lt.mpr hlen)
    exact (step_feed hagenda).trans (feedHost_illegal _ hsplit hbad)

/-! ### ON_EVENT row by row (R465) -/

/-- The active request moves data by PIO in direction `d` (R473 to R475). -/
theorem pioMoving_iff (d : Dir) (s : State) : pioMoving d s = true ↔
    ∃ a ∈ s.st.active, s.st.dst = .dXfer ∧ a.path = .pio ∧ ∃ x ∈ a.data, x.dir = d := by
  cases ha : s.st.active with
  | none => simp [pioMoving, ha]
  | some a => cases hd : a.data <;> simp [pioMoving, dirIs, ha, hd, and_assoc]

theorem movesByPio_iff (w : Word) (s : State) : movesByPio w s ↔
    (pioMoving .read s = true ∧ (eventCode w = 3 ∨ eventCode w = 5)) ∨ (pioMoving .write s = true ∧ eventCode w = 4) := by
  rw [pioMoving_iff, pioMoving_iff]
  constructor
  · rintro ⟨a, ha, hdst, hpath, x, hx, ⟨hdir, hcode⟩ | ⟨hdir, hcode⟩⟩
    · exact .inl ⟨⟨a, ha, hdst, hpath, x, hx, hdir⟩, hcode⟩
    · exact .inr ⟨⟨a, ha, hdst, hpath, x, hx, hdir⟩, hcode⟩
  · rintro (⟨⟨a, ha, hdst, hpath, x, hx, hdir⟩, hcode⟩ | ⟨⟨a, ha, hdst, hpath, x, hx, hdir⟩, hcode⟩)
    · exact ⟨a, ha, hdst, hpath, x, hx, .inl ⟨hdir, hcode⟩⟩
    · exact ⟨a, ha, hdst, hpath, x, hx, .inr ⟨hdir, hcode⟩⟩

/-- CMD_DONE leaves at most a repeated stop command to do (R470, R471). -/
theorem onCmdDone_grows (p : Word) (s : State) : Grows s (onCmdDone p s) := by
  unfold onCmdDone
  split
  · exact .of_eq rfl
  · split
    · exact .of_eq rfl
    · unfold stopDone
      simp only
      split
      · exact .push _ (by decide) rfl
      · exact .of_eq rfl
    · exact .of_eq rfl
    · exact .of_eq rfl

theorem toDRecovery_dpu (s : State) : (toDRecovery s).ctl.dpu = s.ctl.dpu := by
  unfold toDRecovery
  split
  · rfl
  · split <;> simp

/-- DATA_ERR leaves at most the stop of the DMA engine to do (R472). -/
theorem onDataErr_grows (p : Word) (s : State) : Grows s (onDataErr p s) := by
  unfold onDataErr
  split
  · exact .of_eq rfl
  · split
    · unfold quiesceData
      split
      · exact .of_eq rfl
      · split
        · exact .push _ (by decide) rfl
        · exact .of_eq (toDRecovery_dpu _)
    · exact .of_eq rfl

/-- DATA_OVER without a drain only changes the phase and masks interrupts (R475). -/
theorem onDataOver_grows {s : State} (h : pioMoving .read s = false) : ∃ t, onDataOver s = .ok t ∧ Grows s t := by
  have hdrain : drainRead s = .ok s := by simp [drainRead, h]
  unfold onDataOver
  split
  · exact ⟨s, rfl, .of_eq rfl⟩
  · split
    · rw [hdrain, except_ok_bind]
      refine ⟨_, rfl, .of_eq ?_⟩
      split <;> simp
    · exact ⟨s, rfl, .of_eq rfl⟩

theorem onDmaDone_dpu (s : State) : (onDmaDone s).ctl.dpu = s.ctl.dpu := by
  unfold onDmaDone
  split <;> rfl

theorem onSdioIrq_dpu (p : Word) (slots : List Nat) : ∀ s : State, (onSdioIrq p slots s).ctl.dpu = s.ctl.dpu := by
  induction slots with
  | nil => exact fun s => rfl
  | cons i rest ih =>
    intro s
    rw [onSdioIrq, ih]
    split
    · simp [sdioNotify, regClr]
    · rfl

theorem onWatchdog_dpu (p : Word) (s : State) : (onWatchdog p s).ctl.dpu = s.ctl.dpu := by
  unfold onWatchdog
  split
  · rfl
  · split <;> rfl

/-- A word of a reserved code is a model fault (R319, 93 I19). -/
theorem applyEvent_reserved {w : Word} (h : eventCode w = 0 ∨ 9 < eventCode w) (s : State) :
    applyEvent w s = .fault .badEventWord := by
  unfold applyEvent
  split
  case h_10 => rfl
  all_goals omega

/-- The row of an event that moves no data by PIO answers, and leaves only work that cannot stop (R465, R466). -/
theorem applyEvent_grows {w : Word} {s : State} (hlow : 1 ≤ eventCode w) (hhigh : eventCode w ≤ 9)
    (hpio : ¬ movesByPio w s) : ∃ t, applyEvent w s = .next t ∧ Grows s t := by
  rw [movesByPio_iff] at hpio
  unfold applyEvent
  split
  · exact ⟨_, rfl, onCmdDone_grows _ s⟩
  · exact ⟨_, rfl, onDataErr_grows _ s⟩
  · next hcode =>
    have hread : pioMoving .read s = false := by simpa [hcode] using hpio
    exact ⟨s, by simp [onRxReady, hread], .of_eq rfl⟩
  · next hcode =>
    have hwrite : pioMoving .write s = false := by simpa [hcode] using hpio
    exact ⟨s, by simp [onTxReady, hwrite], .of_eq rfl⟩
  · next hcode =>
    have hread : pioMoving .read s = false := by simpa [hcode] using hpio
    obtain ⟨t, ht, hgrows⟩ := onDataOver_grows hread
    exact ⟨t, by rw [ht, ofExcept_ok], hgrows⟩
  · exact ⟨_, rfl, .of_eq (onDmaDone_dpu s)⟩
  · exact ⟨_, rfl, .push _ (calm_one rfl) rfl⟩
  · exact ⟨_, rfl, .of_eq (onSdioIrq_dpu _ _ s)⟩
  · exact ⟨_, rfl, .of_eq (onWatchdog_dpu _ s)⟩
  · -- no code from 1 to 9 is left
    grind

/-! ### ON_EVENT as a micro-operation -/

/-- What ON_EVENT's row starts from: the end of the micro-operation behind it, the result OK. -/
abbrev eventEntry (s : State) : State := setDpu (.halt :: s.ctl.dpu) (setRet .ok s)

theorem runProg_event_eq (w : Word) (s : State) :
    runProg [.event w] s = Res.andThen (applyEvent w (eventEntry s)) (drive 511) :=
  runProg_first (.event w) [] s rfl

/-- A row that is an operation of the PIO controller, which looks at no bookkeeping, is that operation (R473, R474). -/
theorem runProg_event_pio {w : Word} {s : State} {f : State → Except Fault State}
    (hf : ∀ c x, f (withCtl c x) = (f x).map fun t => withCtl { c with retCount := t.ctl.retCount } t)
    (hrow : applyEvent w (eventEntry s) = .ofExcept (f (eventEntry s))) :
    runProg [.event w] s = .ofExcept (f (setRet .ok s)) := by
  have hself : f (setRet .ok s) = _ := hf (setRet .ok s).ctl (setRet .ok s)
  have hentry : f (eventEntry s) = _ := hf (eventEntry s).ctl (setRet .ok s)
  rw [runProg_event_eq, hrow, hentry]
  cases hx : f (setRet .ok s) with
  | error e => rfl
  | ok t =>
    rw [hx] at hself
    have ht : t = withCtl { (setRet .ok s).ctl with retCount := t.ctl.retCount } t := Except.ok.inj hself
    show drive 511 (withCtl { (eventEntry s).ctl with retCount := t.ctl.retCount } t) = .next t
    rw [drive_done (n := 510) rfl]
    exact congrArg Host.Outcome.next ht.symm

/-- ON_EVENT where it is PIO_PULL or PIO_PUSH (R473, R474). -/
theorem exec_onEvent_rxReady {w : Word} {s : State} (hpio : movesByPio w s) (hcode : eventCode w = 3) :
    exec (.onEvent w) s = exec (.pioPull false) s := by
  have hread : pioMoving .read (eventEntry s) = true := by simpa [hcode] using (movesByPio_iff w (eventEntry s)).mp hpio
  refine runProg_event_pio (pioPull_withCtl false) ?_
  simp only [applyEvent, hcode, onRxReady, hread, if_true]

theorem exec_onEvent_txReady {w : Word} {s : State} (hpio : movesByPio w s) (hcode : eventCode w = 4) :
    exec (.onEvent w) s = exec .pioPush s := by
  have hwrite : pioMoving .write (eventEntry s) = true := by simpa [hcode] using (movesByPio_iff w (eventEntry s)).mp hpio
  refine runProg_event_pio pioPush_withCtl ?_
  simp only [applyEvent, hcode, onTxReady, hwrite, if_true]

/-- ON_EVENT of any other event answers a next state (R465). -/
theorem exec_onEvent_next {w : Word} {s : State} (hlow : 1 ≤ eventCode w) (hhigh : eventCode w ≤ 9)
    (hpio : ¬ movesByPio w s) : ∃ t, exec (.onEvent w) s = .next t := by
  obtain ⟨t, ht, hgrows⟩ := applyEvent_grows (s := eventEntry s) hlow hhigh hpio
  exact runProg_calm (w := .event w) rfl ht hgrows

theorem exec_onEvent_reserved {w : Word} (h : eventCode w = 0 ∨ 9 < eventCode w) (s : State) :
    exec (.onEvent w) s = .fault .badEventWord := by
  show runProg [.event w] s = _
  rw [runProg_event_eq, applyEvent_reserved h, andThen_fault]

/-- Settles O16: an event word's row is ON_EVENT's, and each row of R465 is run. -/
theorem eventWordsAreOnEvent : Obligations.EventWordsAreOnEvent := by
  unfold Obligations.EventWordsAreOnEvent
  intro p s
  have hword (c : Nat) (hc : c < 256) : runProg [.event (eventWord c p)] s
      = exec (.onEvent (p ++ BitVec.ofNat 8 c : BitVec 32)) s :=
    congrArg (fun w => runProg [.event w] s) (eventWord_append p c hc)
  refine ⟨hword 1 (by decide), hword 2 (by decide), hword 3 (by decide), hword 4 (by decide), hword 5 (by decide),
    hword 6 (by decide), hword 7 (by decide), hword 8 (by decide), hword 9 (by decide), fun w => ?_⟩
  exact ⟨fun h => exec_onEvent_reserved h s, exec_onEvent_next, exec_onEvent_rxReady, exec_onEvent_txReady⟩

end Sys2Proof.Machine
end

section
/-! PROOFS. The family 40_host_ops.md, the agents: what an acceptance step writes and in which order the engine's state
refuses (R401, R404), and which state each agent leaves to the others (R402, R10, R201). The DPU, IRQ, the DMA engine and
HOST's accesses are `Moves`; the acceptance step, TIMER and BUS, which `Moves` excludes, have a frame of their own. -/

namespace Sys2Proof.Machine

/-! ### The acceptance step: frame and refusals by state (R401) -/

theorem requestOf_seq (tag : Word) (slot : BitVec 4) (ws : List Word) : (requestOf tag slot ws).seq = tag := rfl
theorem requestOf_slot (tag : Word) (slot : BitVec 4) (ws : List Word) : (requestOf tag slot ws).slot = slot := rfl

/-- A control operation no check refuses joins `st.ctlq` as some entry (R401). -/
theorem exec_ctl_accepted {op : HostOp} {slot : BitVec 4} {ws : List Word} {s : State} (hsubmit : op ≠ .submit)
    (hget : op ≠ .getCardPresent) (h : refusalOf op slot ws s = none) :
    ∃ c, exec (hostInstr op slot ws) s = .next (accepted (ctlQueued c slot s)) := by
  cases op
  case submit => exact absurd rfl hsubmit
  case getCardPresent => exact absurd rfl hget
  case setBusTiming | setClock | tune | sdioIrqAck | controllerInit =>
    exact ⟨_, congrArg Host.Outcome.next (acceptCtl_accepted _ h)⟩

/-- Settles O5, by whether a check refuses and by the kind of operation. -/
theorem acceptanceStepFrame : Obligations.AcceptanceStepFrame := by
  unfold Obligations.AcceptanceStepFrame
  intro op slot ws s t hx
  cases h : refusalOf op slot ws s with
  | some c =>
    rw [exec_hostInstr_refused h] at hx
    cases hx
    exact .inl ⟨rfl, rfl⟩
  | none =>
    by_cases hsubmit : op = .submit
    · subst hsubmit
      have hexec := (exec_submit_accepted h).symm.trans hx
      cases hexec
      exact .inr (.inl ⟨rfl, _, requestOf_seq _ _ _, requestOf_slot _ _ _, rfl⟩)
    · by_cases hget : op = .getCardPresent
      · subst hget
        have hexec := (exec_getCardPresent_accepted h).symm.trans hx
        cases hexec
        exact .inl ⟨rfl, rfl⟩
      · obtain ⟨c, hc⟩ := exec_ctl_accepted hsubmit hget h
        have hexec := hc.symm.trans hx
        cases hexec
        exact .inr (.inr ⟨hsubmit, hget, c, rfl⟩)

section
variable {op : HostOp} {slot : BitVec 4} {ws : List Word} {s : State}

/-- A legal packet passes the three checks on the packet alone (R405). -/
theorem operandsLegal_checks (hlegal : operandsLegal s.cfg op slot ws = true) :
    lengthOk op ws = true ∧ reservedSet op ws = false ∧ inRange s.cfg op slot ws = true := by
  simpa [operandsLegal, and_assoc] using hlegal

theorem refusalOf_notReady (hlegal : operandsLegal s.cfg op slot ws = true) (hop : op ≠ .controllerInit)
    (hinited : s.st.inited = false) : refusalOf op slot ws s = some .notReady := by
  obtain ⟨hlen, hres, hrange⟩ := operandsLegal_checks hlegal
  simp [refusalOf, hlen, hres, hrange, hop, hinited]

theorem refusalOf_fatal (hlegal : operandsLegal s.cfg op slot ws = true) (hop : op ≠ .controllerInit)
    (hinited : s.st.inited = true) (hfatal : s.st.fatal = true) : refusalOf op slot ws s = some .hardFailure := by
  obtain ⟨hlen, hres, hrange⟩ := operandsLegal_checks hlegal
  simp [refusalOf, hlen, hres, hrange, hop, hinited, hfatal]

/-- No check refuses for the engine being out of service. -/
theorem serviceChecks_pass (hservice : op = .controllerInit ∨ InService s) :
    (decide (op ≠ .controllerInit) && !s.st.inited) = false ∧ (decide (op ≠ .controllerInit) && s.st.fatal) = false := by
  rcases hservice with rfl | ⟨hinited, hfatal⟩
  · exact ⟨rfl, rfl⟩
  · simp [hinited, hfatal]

theorem refusalOf_noMedium (hlegal : operandsLegal s.cfg op slot ws = true) (hservice : InService s)
    (hop : op = .submit ∨ op = .setBusTiming ∨ op = .tune) (hcard : (slotAt s slot.toNat).present = false) :
    refusalOf op slot ws s = some .noMedium := by
  obtain ⟨hlen, hres, hrange⟩ := operandsLegal_checks hlegal
  obtain ⟨hinited, hfatal⟩ := serviceChecks_pass (op := op) (.inr hservice)
  have hneeds : (decide (op = .submit) || decide (op = .setBusTiming) || decide (op = .tune)) = true := by
    simpa [or_assoc] using hop
  simp only [refusalOf, hlen, hres, hrange, hinited, hfatal, hneeds, hcard, Bool.not_true, Bool.not_false, Bool.and_self,
    Bool.false_eq_true, if_false, if_true]

/-- A full queue refuses the operation that would join it. -/
theorem refusalOf_queueFull (hlegal : operandsLegal s.cfg op slot ws = true) (hservice : op = .controllerInit ∨ InService s)
    (hcard : op = .submit ∨ op = .setBusTiming ∨ op = .tune → (slotAt s slot.toNat).present = true)
    (hfull : (op = .submit ∧ (slotAt s slot.toNat).queue.length = s.cfg.qdepth) ∨
      (op ≠ .submit ∧ op ≠ .getCardPresent ∧ s.st.ctlq.length = s.cfg.qdepth)) :
    refusalOf op slot ws s = some .queueFull := by
  obtain ⟨hlen, hres, hrange⟩ := operandsLegal_checks hlegal
  obtain ⟨hinited, hfatal⟩ := serviceChecks_pass hservice
  have hmedium : ((decide (op = .submit) || decide (op = .setBusTiming) || decide (op = .tune))
      && !(slotAt s slot.toNat).present) = false := by simpa [or_assoc] using hcard
  simp only [refusalOf, hlen, hres, hrange, hinited, hfatal, hmedium, Bool.not_true, Bool.false_eq_true, if_false]
  rcases hfull with ⟨rfl, hq⟩ | ⟨hsubmit, hget, hq⟩
  · simp [hq]
  · simp [hsubmit, hget, hq]

end

/-- Settles O9, one check of the acceptance step after the other. -/
theorem refusalsByState : Obligations.RefusalsByState := by
  unfold Obligations.RefusalsByState
  intro op slot ws s hlegal
  refine ⟨fun hop => ⟨fun hinited => ?notReady, fun hinited hfatal => ?fatal, fun hservice hneeds hcard => ?noMedium⟩,
    fun hservice hcard => ⟨fun hsubmit hq => ?slotFull, fun hsubmit hget hq => ?ctlFull⟩⟩
  case notReady => exact exec_hostInstr_refused (refusalOf_notReady hlegal hop hinited)
  case fatal => exact exec_hostInstr_refused (refusalOf_fatal hlegal hop hinited hfatal)
  case noMedium => exact exec_hostInstr_refused (refusalOf_noMedium hlegal hservice hneeds hcard)
  case slotFull => exact exec_hostInstr_refused (refusalOf_queueFull hlegal hservice hcard (.inl ⟨hsubmit, hq⟩))
  case ctlFull => exact exec_hostInstr_refused (refusalOf_queueFull hlegal hservice hcard (.inr ⟨hsubmit, hget, hq⟩))

/-! ### HOST's accesses to host memory (R201) -/

theorem inOwnedArena_iff (s : State) (a n : Nat) : inOwnedArena s a n = true ↔ OwnedArenaHit s a n := by
  simp [inOwnedArena, OwnedArenaHit, inArena, and_assoc]

theorem hostStore_frame (a : Nat) (b : Byte) (s : State) :
    hostStore a b s = { s with mem := (hostStore a b s).mem } := by
  unfold hostStore
  split <;> rfl

theorem hostStore_wf {s : State} (a : Nat) (b : Byte) (hw : Memory.wf s.mem) : Memory.wf (hostStore a b s).mem := by
  unfold hostStore
  split
  · exact Memory.write_wf _ _ _ hw
  · exact hw

/-- A byte HOST stores changes no byte elsewhere, and none at an unmapped address (log 15). -/
theorem read_hostStore_other {a x : Nat} {s : State} (b : Byte) (h : x ≠ a ∨ mapped s.cfg x = false) :
    Memory.read (hostStore a b s).mem x = Memory.read s.mem x := by
  unfold hostStore
  split
  · next hmapped =>
    have hne : x ≠ a := h.elim id fun hun hxa => by rw [hxa, hmapped] at hun; cases hun
    exact Memory.read_write_other _ _ _ _ hne
  · rfl

theorem read_hostStore_same {a : Nat} {s : State} (b : Byte) (hw : Memory.wf s.mem) (hmapped : mapped s.cfg a = true) :
    Memory.read (hostStore a b s).mem a = b := by
  unfold hostStore
  rw [if_pos hmapped]
  exact Memory.read_write_same _ _ _ hw

/-- HOST's first byte: its own, or a free value in a window HOST must not write (R790, log 15). -/
theorem hostWrite_cons (a : Nat) (b : Byte) (rest : List Byte) (s : State) :
    ∃ v free, hostWrite a (b :: rest) s
        = hostWrite (a + 1) rest (hostStore a v { s with ctl := { s.ctl with free := free } }) ∧
      (reservedForHost s a = false → v = b) := by
  rw [hostWrite]
  split
  · next h => exact ⟨(takeFree s).1, s.ctl.free + 1, rfl, fun hfree => by rw [h] at hfree; cases hfree⟩
  · exact ⟨b, s.ctl.free, rfl, fun _ => rfl⟩

/-- HOST's write changes no byte outside its range, and none at an unmapped address (R201, log 15). -/
theorem read_hostWrite_outside : ∀ (bytes : List Byte) (a x : Nat) (s : State),
    (x < a ∨ a + bytes.length ≤ x ∨ mapped s.cfg x = false) →
    Memory.read (hostWrite a bytes s).mem x = Memory.read s.mem x
  | [], _, _, _, _ => rfl
  | b :: rest, a, x, s, h => by
    obtain ⟨v, free, hcons, -⟩ := hostWrite_cons a b rest s
    have hstore := hostStore_frame a v { s with ctl := { s.ctl with free := free } }
    rw [List.length_cons] at h
    rw [hcons, read_hostWrite_outside rest (a + 1) x _ (by rw [hstore]; exact h.imp (by omega) (Or.imp_left (by omega)))]
    exact read_hostStore_other v (h.elim (fun h => .inl (by omega)) (Or.imp_left (by omega)))

/-- HOST's write leaves HOST's byte at a mapped address that is in no window of the engine's (R201, R226). -/
theorem read_hostWrite_own : ∀ (bytes : List Byte) (a i : Nat) (b : Byte) (s : State), Memory.wf s.mem →
    bytes[i]? = some b → reservedForHost s (a + i) = false → mapped s.cfg (a + i) = true →
    Memory.read (hostWrite a bytes s).mem (a + i) = b
  | [], _, _, _, _, _, hi, _, _ => by cases hi
  | c :: rest, a, i, b, s, hw, hi, hown, hmapped => by
    obtain ⟨v, free, hcons, hv⟩ := hostWrite_cons a c rest s
    have hstore := hostStore_frame a v { s with ctl := { s.ctl with free := free } }
    rw [hcons]
    cases i with
    | zero =>
      cases hi
      rw [read_hostWrite_outside rest (a + 1) (a + 0) _ (.inl (by omega)), hv hown]
      exact read_hostStore_same c hw hmapped
    | succ i =>
      have haddr : a + (i + 1) = a + 1 + i := by omega
      rw [haddr] at hown hmapped ⊢
      exact read_hostWrite_own rest (a + 1) i b _ (hostStore_wf a v hw) hi (by rw [hstore]; exact hown)
        (by rw [hstore]; exact hmapped)

/-- HOST's read sees memory as it is but in the engine's buffers and at unmapped addresses (R217, R226, log 15). -/
theorem hostBytes_getElem? : ∀ (n a i : Nat) (s : State), i < n → inHeldBuffer s (a + i) = false →
    mapped s.cfg (a + i) = true → (hostBytes a n s).1[i]? = some (Memory.read s.mem (a + i))
  | 0, _, _, _, hi, _, _ => absurd hi (Nat.not_lt_zero _)
  | n + 1, a, 0, s, _, hown, hmapped => by
    rw [Nat.add_zero] at hown hmapped
    simp [hostBytes, hown, hmapped]
  | n + 1, a, i + 1, s, hi, hown, hmapped => by
    have haddr : a + (i + 1) = a + 1 + i := by omega
    rw [haddr] at hown hmapped ⊢
    have hrest (u : State) (hu : u.cfg = s.cfg ∧ u.mem = s.mem ∧ inHeldBuffer u (a + 1 + i) = inHeldBuffer s (a + 1 + i)) :
        (hostBytes (a + 1) n u).1[i]? = some (Memory.read s.mem (a + 1 + i)) := by
      obtain ⟨hcfg, hmem, hheld⟩ := hu
      rw [hostBytes_getElem? n (a + 1) i u (by omega) (hheld.trans hown) (by rw [hcfg]; exact hmapped), hmem]
    simp only [hostBytes, List.getElem?_cons_succ]
    split
    · exact hrest (takeFree s).2 ⟨rfl, rfl, rfl⟩
    · exact hrest s ⟨rfl, rfl, rfl⟩

/-- HOST's read leaves the bytes it sees and the counter of free values, and nothing else (R201). -/
theorem hostRead_frame (a n : Nat) (s : State) : hostRead a n s = { s with ctl := { s.ctl with
    free := (hostBytes a n s).2.ctl.free, hostData := (hostBytes a n s).1 } } := by
  unfold hostRead
  simp only
  conv => lhs; rw [(hostBytes_spec n a s).1]

/-- The state with the stimuli still to come replaced (log 1). -/
abbrev withAgenda (rest : List Stimulus) (s : State) : State := { s with ctl := { s.ctl with agenda := rest } }

/-- HOST's write of host memory, from the agenda (R201, R224). -/
theorem step_hostWrite {s : State} {a : Nat} {bytes : List Byte} {rest : List Stimulus}
    (h : s.ctl.agenda = .hostWrite a bytes :: rest) :
    step s = hostStep a bytes (withAgenda rest s) := by
  simp only [step, advance, nextStimulus, h, react]

/-- HOST's read of host memory, from the agenda (R201). -/
theorem step_hostRead {s : State} {a n : Nat} {rest : List Stimulus} (h : s.ctl.agenda = .hostRead a n :: rest) :
    step s = .next (hostRead a n (withAgenda rest s)) := by
  simp only [step, advance, nextStimulus, h, react]

/-! ### What each agent leaves to the others (R10, R402, R404, R151) -/

/-- The frame of a step by stimulus `t`: parameters, records, tags, time and signals change only as their owners have it. -/
structure AgentFrame (t : Stimulus) (s s' : State) : Prop where
  cfg     : s'.cfg = s.cfg
  records : s.st.cport <+: s'.st.cport
  quiet   : (∀ ws, t ≠ .feed .trace ws) → (∀ ws, t ≠ .feed .event ws) → t ≠ .dpu → s'.st.cport = s.st.cport
  tags    : (∀ ws, t ≠ .feed .host ws) → s'.st.nextSeq = s.st.nextSeq
  tick    : t = .timer → s'.st.now = s.st.now + 1
  time    : t ≠ .timer → (∀ ws, t ≠ .feed .trace ws) → s'.st.now = s.st.now
  signals : (∀ b, t ≠ .bus b) → s'.env = s.env

/-- A step that moves the state as the DPU's operations do is in the frame of any agent but TIMER, if that agent may append
records or did not. -/
theorem Moves.agentFrame {t : Stimulus} {s s' : State} (m : Moves s s') (ht : t ≠ .timer)
    (hquiet : (∀ ws, t ≠ .feed .trace ws) → (∀ ws, t ≠ .feed .event ws) → t ≠ .dpu → s'.st.cport = s.st.cport) :
    AgentFrame t s s' where
  cfg     := m.cfg
  records := m.cport
  quiet   := hquiet
  tags    := fun _ => m.tags
  tick    := fun h => absurd h ht
  time    := fun _ _ => m.now
  signals := fun _ => m.env

/-! #### No records from IRQ, the DMA engine and the register accesses -/

theorem regWrite_cport (r : Reg) (v : Word) (s : State) : (regWrite r v s).st.cport = s.st.cport := by
  rw [regWrite_st]

theorem postAll_cport : ∀ (es : List Word) (s : State), (postAll es s).st.cport = s.st.cport
  | [], _ => rfl
  | e :: rest, s => postAll_cport rest (post e s)

/-- IRQ appends no record (R730). -/
theorem irqDispatch_cport (s : State) : (irqDispatch s).st.cport = s.st.cport := by
  simp only [irqDispatch, postAll_cport, regWrite_cport]

theorem memStore_cport {s s' : State} {a n v : Nat} (hx : memStore s a n v = some s') : s'.st.cport = s.st.cport := by
  rw [(memStore_spec hx).2]

theorem dmacFetch_cport (s : State) : (dmacFetch s).st.cport = s.st.cport := by
  unfold dmacFetch
  simp only
  split
  · rfl
  · split
    · rfl
    · split <;> rfl

theorem dmacBeat_cport (d : Desc) (s : State) : (dmacBeat d s).st.cport = s.st.cport := by
  unfold dmacBeat
  split
  · split
    · rfl
    · split
      · rfl
      · next t hx =>
        have ht : t.st.cport = (fifoTail s).st.cport := memStore_cport hx
        exact ht
  · split
    · split <;> rfl
    · rfl

theorem dmacWriteBack_cport (d : Desc) (s : State) : (dmacWriteBack d s).st.cport = s.st.cport := by
  unfold dmacWriteBack
  split
  · rfl
  · next t hx =>
    have ht := memStore_cport hx
    have hcard : (if cardError s then setIdsts 0x220#32 t else t).st.cport = s.st.cport := by
      split <;> exact ht
    simp only
    split
    · split <;> exact hcard
    · exact hcard

/-- The DMA engine appends no record (R560 to R564). -/
theorem dmacStep_cport (s : State) : (dmacStep s).st.cport = s.st.cport := by
  unfold dmacStep
  split
  · rfl
  · rfl
  · split
    · exact dmacFetch_cport s
    · split
      · exact dmacWriteBack_cport _ s
      · exact dmacBeat_cport _ s

theorem readRegister_cport {off width : Nat} {s s' : State} (hx : readRegister off width s = .next s') :
    s'.st.cport = s.st.cport := by
  unfold readRegister dataRead at hx
  repeat' split at hx
  all_goals cases hx
  · next hpop =>
    split at hpop
    · cases hpop
    · split at hpop <;> cases hpop
      rfl
  all_goals rfl

theorem writeRegister_cport {off width : Nat} {v : Beat} {s s' : State} (hx : writeRegister off width v s = .next s') :
    s'.st.cport = s.st.cport := by
  unfold writeRegister at hx
  split at hx
  · split at hx
    · have hpush := ofExcept_next hx
      unfold dataWrite at hpush
      split at hpush
      · cases hpush
      · split at hpush <;> cases hpush
        rfl
    · cases hx
  · split at hx
    · split at hx <;> cases hx
      · exact regWrite_cport _ _ s
      · rfl
    · cases hx

/-! #### The agents `Moves` excludes -/

/-- BUS reaches the registers, the wire, the FIFO and the DMA engine (R760 to R767). -/
def BusReach (s s' : State) : Prop := s'.cfg = s.cfg ∧ s'.st = { s.st with fifo := s'.st.fifo, dmac := s'.st.dmac }

theorem acceptCommand_reach (s : State) : BusReach s (acceptCommand s) := by
  unfold acceptCommand
  simp only
  split
  · exact ⟨rfl, rfl⟩
  · split <;> split <;> exact ⟨rfl, rfl⟩

theorem completeResets_reach (ctl fifo dma : Bool) (s : State) : BusReach s (completeResets ctl fifo dma s) := by
  cases ctl <;> cases fifo <;> cases dma <;> exact ⟨rfl, rfl⟩

theorem busAct_reach {b : BusAct} {s s' : State} (hx : busAct b s = .next s') : BusReach s s' := by
  cases b
  case acceptCmd => obtain ⟨-, rfl⟩ := busStepIf_next hx; exact acceptCommand_reach s
  case resetDone ctl fifo dma => obtain ⟨-, rfl⟩ := busStepIf_next hx; exact completeResets_reach ctl fifo dma s
  case cmdDone =>
    simp only [busAct] at hx
    split at hx
    · cases hx
    · split at hx <;> cases hx
      unfold commandEnd
      exact ⟨rfl, rfl⟩
  -- a step of the transfer on the wire, a fault without one
  case pushWord | popWord | writeBusy | dataErr | dataOver =>
    simp only [busAct] at hx
    split at hx
    · cases hx
    · obtain ⟨-, rfl⟩ := busStepIf_next hx; exact ⟨rfl, rfl⟩
  -- a signal or a FIFO-ready bit
  case fifoReady | setPresent | sdioInt | cardBusy | busyEnd => obtain ⟨-, rfl⟩ := busStepIf_next hx; exact ⟨rfl, rfl⟩

theorem busStep_agentFrame {b : BusAct} {s s' : State} (hx : busStep b s = .next s') : AgentFrame (.bus b) s s' := by
  obtain ⟨t, hact, hready⟩ := andThen_eq_next hx
  cases hready
  obtain ⟨hcfg, hst⟩ := busAct_reach hact
  have hst' : (raiseReady t).st = t.st := rfl
  exact {
    cfg     := hcfg
    records := by rw [hst', hst]
    quiet   := fun _ _ _ => by rw [hst', hst]
    tags    := fun _ => by rw [hst', hst]
    tick    := fun h => by cases h
    time    := fun _ _ => by rw [hst', hst]
    signals := fun h => absurd rfl (h b) }

/-- TIMER's step is one tick (R151, R745). -/
theorem watchdogCheck_frame (s : State) : (watchdogCheck s).cfg = s.cfg ∧ (watchdogCheck s).env = s.env ∧
    (watchdogCheck s).st.cport = s.st.cport ∧ (watchdogCheck s).st.nextSeq = s.st.nextSeq ∧
    (watchdogCheck s).st.now = s.st.now + 1 := by
  unfold watchdogCheck
  simp only
  split <;> exact ⟨rfl, rfl, rfl, rfl, rfl⟩

/-- HOST's packets take tags and queue requests; they append no record and let no time pass (R401, R404). -/
theorem hostInstr_agentFrame {op : HostOp} {slot : BitVec 4} {ws ps : List Word} {s s' : State}
    (hx : exec (hostInstr op slot ws) s = .next s') : AgentFrame (.feed .host ps) s s' := by
  have hown (hcfg : s'.cfg = s.cfg) (hcport : s'.st.cport = s.st.cport) (hnow : s'.st.now = s.st.now)
      (henv : s'.env = s.env) : AgentFrame (.feed .host ps) s s' := {
    cfg     := hcfg
    records := by rw [hcport]
    quiet   := fun _ _ _ => hcport
    tags    := fun h => absurd rfl (h ps)
    tick    := fun h => by cases h
    time    := fun _ _ => hnow
    signals := fun _ => henv }
  rcases acceptanceStepFrame op slot ws s s' hx with ⟨h, -⟩ | ⟨-, r, -, -, h⟩ | ⟨-, -, c, h⟩
  all_goals rw [h] at hown ⊢; exact hown rfl rfl rfl rfl

/-- A packet names a host-port operation (R301). -/
theorem decodePacket_hostInstr {ws : List Word} {i : Instr} (h : decodePacket ws = .ok i) :
    ∃ op slot ops, i = hostInstr op slot ops := by
  unfold decodePacket at h
  split at h
  · cases h
  · split at h
    · cases h
    · split at h <;> cases h
      · exact ⟨.submit, _, _, rfl⟩
      · exact ⟨.setBusTiming, _, _, rfl⟩
      · exact ⟨.setClock, _, _, rfl⟩
      · exact ⟨.getCardPresent, _, _, rfl⟩
      · exact ⟨.tune, _, _, rfl⟩
      · exact ⟨.sdioIrqAck, _, _, rfl⟩
      · exact ⟨.controllerInit, _, _, rfl⟩

/-- A trace record names a micro-operation (R318). -/
theorem decodeMicro_port {ws : List Word} {i : Instr} (h : decodeMicro ws = .ok i) : i.port = .trace := by
  have hmap {α : Type} {x : Except DecodeError α} {f : α → Instr} (hf : ∀ a, (f a).port = .trace)
      (hx : x.map f = .ok i) : i.port = .trace := by
    cases x <;> cases hx
    exact hf _
  have hbare {j : Instr} {ops : List Word} (hj : j.port = .trace) (hx : noOperands j ops = .ok i) : i.port = .trace := by
    unfold noOperands at hx
    split at hx <;> cases hx
    exact hj
  have hmicro {op : Nat} {slot : BitVec 4} {ops : List Word} (hx : microOf op slot ops = .ok i) : i.port = .trace := by
    unfold microOf at hx
    split at hx
    -- ENQUEUE, DISPATCH, DMA_PREPARE, DMA_START, PIO_PULL
    case h_1 | h_3 | h_12 | h_13 | h_16 => exact hmap (fun _ => rfl) hx
    case h_4 => split at hx <;> cases hx <;> rfl
    case h_18 =>
      unfold tuneStartOf at hx
      repeat' split at hx
      all_goals cases hx
      all_goals rfl
    case h_21 =>
      repeat' split at hx
      all_goals cases hx
      all_goals rfl
    -- the host-port operations and the reserved values
    case h_29 | h_30 | h_31 | h_32 | h_33 | h_34 | h_35 | h_36 => cases hx
    all_goals exact hbare rfl hx
  unfold decodeMicro at h
  split at h
  · cases h
  · split at h
    · cases h
    · split at h
      · cases h
      · exact hmicro h

/-- An event word names its own instruction (R304). -/
theorem decodeEvent_port {ws : List Word} {i : Instr} (h : decode .event ws = .ok i) : i.port = .event := by
  cases ws with
  | nil => cases h
  | cons w _ =>
    replace h : decodeEvent w = .ok i := h
    unfold decodeEvent at h
    split at h <;> cases h <;> rfl

/-- Words at a port run the instruction they decode to, or are HOST's packet of no operation (R401, R317). -/
theorem feed_decodes {p : Port} {ws : List Word} {s s' : State} (hx : feed p ws s = .next s') :
    (∃ i, decode p ws = .ok i ∧ exec i s = .next s') ∨ (p = .host ∧ s' = refuse .illegalOp s) := by
  cases p
  case host =>
    simp only [feed, feedHost] at hx
    split at hx
    · next i hdec => exact .inl ⟨i, hdec, hx⟩
    · cases hx
    · cases hx; exact .inr ⟨rfl, rfl⟩
  case trace =>
    simp only [feed, feedTrace] at hx
    split at hx
    · next i hdec =>
      split at hx
      · cases hx
      · exact .inl ⟨i, hdec, hx⟩
    · cases hx
  case event =>
    simp only [feed, feedEvent] at hx
    split at hx
    · next i hdec =>
      split at hx
      · cases hx
      · exact .inl ⟨i, hdec, hx⟩
    · cases hx
    · cases hx

/-- A micro-operation a trace names: the DPU's, IRQ's or TIMER's, so that time may pass (R318). -/
theorem trace_agentFrame {i : Instr} {ws : List Word} {s s' : State} (hport : i.port = .trace)
    (hx : exec i s = .next s') : AgentFrame (.feed .trace ws) s s' := by
  by_cases htimer : i = .watchdogCheck
  · subst htimer
    cases hx
    obtain ⟨hcfg, henv, hcport, htags, -⟩ := watchdogCheck_frame s
    exact {
      cfg     := hcfg
      records := by rw [hcport]
      quiet   := fun h => absurd rfl (h ws)
      tags    := fun _ => htags
      tick    := fun h => by cases h
      time    := fun _ h => absurd rfl (h ws)
      signals := fun _ => henv }
  · have m := moves_exec (by rw [hport]; decide) htimer hx
    exact m.agentFrame (by simp) fun h => absurd rfl (h ws)

/-- Words at a port, by the port. -/
theorem feed_agentFrame {p : Port} {ws : List Word} {s s' : State} (hx : feed p ws s = .next s') :
    AgentFrame (.feed p ws) s s' := by
  rcases feed_decodes hx with ⟨i, hdec, hexec⟩ | ⟨rfl, rfl⟩
  · cases p
    case host =>
      obtain ⟨op, slot, ops, rfl⟩ := decodePacket_hostInstr hdec
      exact hostInstr_agentFrame hexec
    case trace => exact trace_agentFrame (decodeMicro_port hdec) hexec
    case event =>
      have hport := decodeEvent_port hdec
      have m := moves_exec (by rw [hport]; decide) (by rintro rfl; cases hport) hexec
      exact m.agentFrame (by simp) fun _ h => absurd rfl (h ws)
  · exact (moves_ctl s _).agentFrame (by simp) fun _ _ _ => rfl

/-- Every stimulus keeps its agent's frame. -/
theorem react_agentFrame {t : Stimulus} {s s' : State} (hx : react t s = .next s') : AgentFrame t s s' := by
  cases t
  case feed p ws => exact feed_agentFrame hx
  case irq =>
    simp only [react] at hx
    split at hx
    · cases hx; exact (moves_irqDispatch s).agentFrame (by simp) fun _ _ _ => irqDispatch_cport s
    · cases hx; exact (Moves.refl s).agentFrame (by simp) fun _ _ _ => rfl
  case timer =>
    cases hx
    obtain ⟨hcfg, henv, hcport, htags, hnow⟩ := watchdogCheck_frame s
    exact {
      cfg     := hcfg
      records := by rw [hcport]
      quiet   := fun _ _ _ => hcport
      tags    := fun _ => htags
      tick    := fun _ => hnow
      time    := fun h => absurd rfl h
      signals := fun _ => henv }
  case dpu => exact (moves_dpuStep hx).agentFrame (by simp) fun _ _ h => absurd rfl h
  case dmac =>
    simp only [react] at hx
    split at hx
    · cases hx; exact (moves_dmacStep s).agentFrame (by simp) fun _ _ _ => dmacStep_cport s
    · cases hx; exact (Moves.refl s).agentFrame (by simp) fun _ _ _ => rfl
  case bus b => exact busStep_agentFrame hx
  case hostWrite a bytes =>
    simp only [react, hostStep] at hx
    split at hx
    · cases hx
    · cases hx
      exact (moves_hostWrite a bytes s).agentFrame (by simp) fun _ _ _ => by rw [(hostWrite_spec bytes a s).1]
  case hostRead a n =>
    cases hx
    exact (moves_hostRead a n s).agentFrame (by simp) fun _ _ _ => by rw [hostRead_frame]
  case yielding b => cases hx; exact (moves_ctl s _).agentFrame (by simp) fun _ _ _ => rfl
  case regRead off width =>
    have hread := (betweenRuns_next hx).2
    exact (moves_readRegister hread).agentFrame (by simp) fun _ _ _ => readRegister_cport hread
  case regWrite off width v =>
    have hwrite := (betweenRuns_next hx).2
    exact (moves_writeRegister hwrite).agentFrame (by simp) fun _ _ _ => writeRegister_cport hwrite

/-- A step keeps the frame of the agent the agenda names. -/
theorem step_agentFrame {s s' : State} {t : Stimulus} (ht : s.ctl.agenda.head? = some t) (hx : step s = .next s') :
    AgentFrame t s s' := by
  obtain ⟨rest, hagenda⟩ := List.head?_eq_some_iff.mp ht
  have hstep : react t (withAgenda rest s) = .next s' := by
    simpa only [step, advance, nextStimulus, hagenda] using hx
  obtain ⟨hcfg, hrecords, hquiet, htags, htick, htime, hsignals⟩ := react_agentFrame hstep
  exact ⟨hcfg, hrecords, hquiet, htags, htick, htime, hsignals⟩

/-- Settles O58: each agent's frame, then HOST's write and HOST's read byte by byte. -/
theorem agentsKeepToTheirState : Obligations.AgentsKeepToTheirState := by
  unfold Obligations.AgentsKeepToTheirState
  refine ⟨fun s s' t ht hx => ?frame, fun s a bytes rest hagenda => ?write, fun s a n rest hagenda => ?read⟩
  case frame =>
    obtain ⟨hcfg, ⟨new, hnew⟩, hquiet, htags, htick, htime, hsignals⟩ := step_agentFrame ht hx
    exact ⟨hcfg, ⟨new, hnew.symm⟩, hquiet, htags, htick, htime, hsignals⟩
  case write =>
    rw [step_hostWrite hagenda]
    have harena : inOwnedArena (withAgenda rest s) a bytes.length = true ↔
        OwnedArenaHit s a bytes.length := inOwnedArena_iff _ a bytes.length
    refine ⟨fun hhit => if_pos (harena.mpr hhit), fun hmiss => ?_⟩
    have hframe := (hostWrite_spec bytes a (withAgenda rest s)).1
    exact ⟨_, _, (if_neg (mt harena.mp hmiss)).trans (congrArg Host.Outcome.next hframe),
      fun hw i b => read_hostWrite_own bytes a i b (withAgenda rest s) hw,
      fun x => read_hostWrite_outside bytes a x (withAgenda rest s)⟩
  case read =>
    rw [step_hostRead hagenda]
    exact ⟨_, _, congrArg Host.Outcome.next (hostRead_frame a n (withAgenda rest s)),
      (hostBytes_spec n a (withAgenda rest s)).2, fun i => hostBytes_getElem? n a i (withAgenda rest s)⟩

end Sys2Proof.Machine
end

section
/-! PROOFS. The family 40_host_ops.md, the control operations (R407 to R419): which entry RUN_CTL takes, what its work does
piece by piece, and where it waits. Each operation that polls is its wait for the card, its own work and the record at its
end; a poll that expires passes over the work and leaves the record. -/

namespace Sys2Proof.Machine

/-! ### Which entry RUN_CTL takes (R417) -/

theorem isAck_eq_false {e : CtlEntry} (h : e.op ≠ .sdioIrqAck) : isAck e = false := decide_eq_false h

theorem takeFirst_noAck : ∀ {q : List CtlEntry}, NoAck q → takeFirst isAck q = none
  | [], _ => rfl
  | e :: rest, h => by
    obtain ⟨he, hrest⟩ := List.forall_mem_cons.mp h
    simp [takeFirst, isAck_eq_false he, takeFirst_noAck hrest]

/-- The oldest SDIO_IRQ_ACK is the first one. -/
theorem takeFirst_ack (tag : Word) (slot : BitVec 4) (post : List CtlEntry) : ∀ {pre : List CtlEntry}, NoAck pre →
    takeFirst isAck (pre ++ ⟨.sdioIrqAck, tag, slot⟩ :: post) = some (⟨.sdioIrqAck, tag, slot⟩, pre ++ post)
  | [], _ => rfl
  | e :: pre, h => by
    obtain ⟨he, hpre⟩ := List.forall_mem_cons.mp h
    simp [takeFirst, isAck_eq_false he, takeFirst_ack tag slot post hpre]

theorem runCtl_ack {s : State} {pre post : List CtlEntry} {tag : Word} {slot : BitVec 4}
    (hq : s.st.ctlq = pre ++ ⟨.sdioIrqAck, tag, slot⟩ :: post) (hpre : NoAck pre) :
    runCtl s = runAck tag slot (withCtlq (pre ++ post) s) := by
  simp only [runCtl, hq, takeFirst_ack tag slot post hpre]
  rfl

theorem runCtl_head {s : State} {e : CtlEntry} {rest : List CtlEntry} (hack : NoAck s.st.ctlq)
    (hactive : s.st.active = none) (htuning : s.st.tuning = false) (hq : s.st.ctlq = e :: rest) :
    runCtl s = runEntry e (withCtlq rest s) := by
  have hready : ctlReady s = true := by simp [ctlReady, hactive, htuning, hq]
  rw [hq] at hack
  simp only [runCtl, hq, takeFirst_noAck hack, hready, if_true]
  rfl

/-- RUN_CTL has no step while nothing is enabled (log 6). -/
theorem runCtl_disabled {s : State} (hack : NoAck s.st.ctlq)
    (h : s.st.active ≠ none ∨ s.st.tuning = true ∨ s.st.ctlq = []) : runCtl s = s := by
  have hready : ctlReady s = false := by
    rcases h with h | h | h
    · obtain ⟨a, ha⟩ := Option.ne_none_iff_exists'.mp h
      simp [ctlReady, ha]
    · simp [ctlReady, h]
    · simp [ctlReady, h]
  simp [runCtl, takeFirst_noAck hack, hready]

/-! ### What the pieces of work leave -/

theorem bitAt_eq (i : Nat) : bitAt i = 1#32 <<< i := by
  apply BitVec.eq_of_toNat_eq
  simp [bitAt, Nat.one_shiftLeft]

theorem runAck_eq (tag : Word) (slot : BitVec 4) (s : State) : runAck tag slot s = ackRun tag slot s := by
  simp only [runAck, bitAt_eq]
  rfl

/-- SET_BUS_TIMING's writes, with its record (R408). -/
theorem recorded_setTiming (tag : Word) (slot mode width : BitVec 4) (s : State) :
    recorded (plainRecord .ctl tag slot.toNat .ok 0#32) (setTiming slot mode width s)
      = timingSet tag slot mode width s := by
  have htuned (x : Slot) : (decide (mode = x.mode) && x.tuned.valid) = if mode = x.mode then x.tuned.valid else false := by
    split <;> simp [*]
  simp only [setTiming, bitAt_eq, htuned]
  rfl

theorem clkGate_off (slot : BitVec 4) {s : State} (h : s.regs.clkena &&& ~~~slotPairBits s.cfg = 0#32) :
    clkGate slot false s = gated slot false s := by
  have hkeep : (s.regs.clkena &&& ~~~bitAt slot.toNat) &&& slotPairBits s.cfg = s.regs.clkena &&& ~~~bitAt slot.toNat :=
    and_of_masked (not_mask_zero _ _ _ h) (by rw [BitVec.not_not]; exact BitVec.and_not_self _)
  rw [bitAt_eq] at hkeep
  show { s with regs := { s.regs with clkena := (s.regs.clkena &&& ~~~bitAt slot.toNat) &&& slotPairBits s.cfg } } = _
  rw [bitAt_eq, hkeep]
  rfl

/-- A slot that exists has its bit in `CLKENA` (R105). -/
theorem slotBit_mask {c : Config} {i : Nat} (h : i < c.nslots) : (1#32 <<< i) &&& ~~~slotPairBits c = 0#32 := by
  apply BitVec.eq_of_getLsbD_eq
  intro j hj
  have hbit : j = i → (slotMask c).getLsbD j = true := by
    rintro rfl
    simp [slotMask, BitVec.getLsbD_ofNat, Nat.testBit_two_pow_sub_one, hj, h]
  rw [← BitVec.twoPow_eq]
  by_cases hji : j = i
  · simp [slotPairBits, hbit hji]
  · simp [BitVec.getLsbD_twoPow, Ne.symm hji]

theorem clkGate_on {slot : BitVec 4} {s : State} (h : s.regs.clkena &&& ~~~slotPairBits s.cfg = 0#32)
    (hslot : slot.toNat < s.cfg.nslots) : clkGate slot true s = gated slot true s := by
  have hkeep : (s.regs.clkena ||| 1#32 <<< slot.toNat) &&& slotPairBits s.cfg = s.regs.clkena ||| 1#32 <<< slot.toNat :=
    and_of_masked (or_mask_zero _ _ _ h (slotBit_mask hslot)) (by rw [BitVec.not_not]; exact BitVec.and_not_self _)
  show { s with regs := { s.regs with clkena := (s.regs.clkena ||| bitAt slot.toNat) &&& slotPairBits s.cfg } } = _
  rw [bitAt_eq, hkeep]
  rfl

theorem dividerFor_le (src rate : Nat) : dividerFor src rate ≤ 255 := by
  unfold dividerFor
  split
  · omega
  · exact Nat.min_le_left _ _

theorem write_clkdiv {div : Nat} (h : div ≤ 255) (s : State) : regWrite .CLKDIV (BitVec.ofNat 32 div) s = divided div s := by
  have hmask : BitVec.ofNat 32 div &&& 0xFF#32 = BitVec.ofNat 32 div := by
    apply BitVec.eq_of_toNat_eq
    rw [BitVec.toNat_and, BitVec.toNat_ofNat, Nat.mod_eq_of_lt (by omega)]
    exact Nat.and_two_pow_sub_one_of_lt_two_pow (n := 8) (by omega)
  show { s with regs := { s.regs with clkdiv := BitVec.ofNat 32 div &&& 0xFF#32 } } = _
  rw [hmask]
  rfl

/-- The actual rate is not above the request unless the divider would have to be larger than its limit (R410). -/
theorem rateOf_dividerFor_le {src rate : Nat} (hrate : 0 < rate) (hlimit : src ≤ 510 * rate) :
    rateOf src (dividerFor src rate) ≤ rate := by
  unfold dividerFor
  split
  · next h => simpa [rateOf] using h
  · next h =>
    have hceil : src ≤ (src + 2 * rate - 1) / (2 * rate) * (2 * rate) := by
      have := Nat.lt_div_mul_add (a := src + 2 * rate - 1) (b := 2 * rate) (by omega)
      omega
    have hpos : 1 ≤ (src + 2 * rate - 1) / (2 * rate) := (Nat.one_le_div_iff (by omega)).mpr (by omega)
    generalize (src + 2 * rate - 1) / (2 * rate) = d at hceil hpos ⊢
    have hmin : min 255 d ≠ 0 := by omega
    rw [rateOf, if_neg hmin]
    refine Nat.div_le_of_le_mul ?_
    rcases Nat.le_total 255 d with hd | hd
    · rw [Nat.min_eq_left hd]; omega
    · rw [Nat.min_eq_right hd]; nlinarith

theorem tuneStart_withCtl (tag : Word) (slot mode : BitVec 4) (ix : BitVec 6) (pattern : List Byte) (c : Control)
    (s : State) : tuneStart tag slot mode ix pattern (withCtl c s) = withCtl c (tuneStart tag slot mode ix pattern s) := by
  have hslot : slotAt (withCtl c s) slot.toNat = slotAt s slot.toNat := rfl
  simp only [tuneStart, hslot, apply_ite (withCtl c)]
  rfl

/-! ### The end of a control operation that polls (R419) -/

theorem drive_ctlEnd (n : Nat) (tag : Word) (slot : BitVec 4) (p : Word) (ws : List Work) (x : State) :
    drive (n + 2) (setDpu (.ctlEnd tag slot p :: .halt :: ws) x) = .next (setDpu ws (ctlEnd tag slot p x)) :=
  drive_work (n + 1) _ _ x rfl (.inr rfl)

/-- The record of an operation whose work succeeded. -/
theorem drive_ctlEnd_ok (n : Nat) (tag : Word) (slot : BitVec 4) (p : Word) (ws : List Work) {x : State}
    (hret : x.ctl.ret = .ok) : drive (n + 2) (setDpu (.ctlEnd tag slot p :: .halt :: ws) x)
      = .next (setDpu ws (recorded (plainRecord .ctl tag slot.toNat .ok p) x)) := by
  rw [drive_ctlEnd, ctlEnd, hret, if_pos rfl]
  rfl

/-- Work passed over, whatever is behind it (R724). -/
theorem drive_over {rest : List Work} (ws : List Work) {x : State} (hret : x.ctl.ret ≠ .ok) (hrest : PassedOver rest)
    (k : Nat) : drive (rest.length + k) (setDpu (rest ++ ws) x) = drive k (setDpu ws x) := by
  induction rest with
  | nil => rw [List.length_nil, Nat.zero_add, List.nil_append]
  | cons w rest ih =>
    obtain ⟨hw, htail⟩ := List.forall_mem_cons.mp hrest
    rw [List.length_cons, Nat.add_right_comm]
    exact (drive_skip _ w _ x hw.1 hret hw.2).trans (ih htail)

/-- A poll of a control operation expires: the work left is passed over, the record carries the failure, its payload is 0
(R419, R724). -/
theorem dpuStep_ctlExpired {c : PollCond} {t : Nat} {e : PollEnd} {rest : List Work} {tag p : Word} {slot : BitVec 4}
    {ws : List Work} {x : State} (hfail : (pollExpire e x).ctl.ret ≠ .ok) (hy : x.ctl.yields = false) (ht : t ≤ x.st.now)
    (hrest : PassedOver rest) (hlen : rest.length + 2 ≤ driveBound) :
    dpuStep (setDpu (.poll c t e :: (rest ++ .ctlEnd tag slot p :: .halt :: ws)) x) = .next (setDpu ws
      (recorded (plainRecord .ctl tag slot.toNat (pollExpire e x).ctl.ret 0#32) (pollExpire e x))) := by
  have hexpire (l : List Work) : pollExpire e (setDpu l x) = setDpu l (pollExpire e x) := by cases e <;> rfl
  obtain ⟨k, hk⟩ := Nat.exists_eq_add_of_le hlen
  rw [dpuStep_expired (s := setDpu _ x) rfl hy ht, setDpu_setDpu, hexpire, hk,
    show rest.length + 2 + k = rest.length + (k + 2) by omega, drive_over _ hfail hrest, drive_ctlEnd, ctlEnd,
    if_neg hfail]
  rfl

/-- A poll of a control operation that ends in FATAL expires: the record is HARD_FAILURE (R419). -/
theorem dpuStep_ctlFatal {c : PollCond} {t n : Nat} {rest : List Work} {tag p : Word} {slot : BitVec 4} {ws : List Work}
    {x : State} (hy : x.ctl.yields = false) (ht : t ≤ n) (hrest : PassedOver rest) (hlen : rest.length + 2 ≤ driveBound) :
    dpuStep (atTick n (setDpu (.poll c t .fatal :: (rest ++ .ctlEnd tag slot p :: .halt :: ws)) x))
      = .next (setDpu ws (recorded (plainRecord .ctl tag slot.toNat .hardFailure 0#32) (fatalAt n x))) :=
  dpuStep_ctlExpired (e := .fatal) (x := atTick n x) (by simp [pollExpire, raiseFatal]) hy ht hrest hlen

/-! ### The wait for the card (R686) -/

theorem waitNotBusy_passes (n : Nat) (ws : List Work) {x : State} (hp : Prompt x) (hret : x.ctl.ret = .ok)
    (hfree : bit (regRead .STATUS x) 9 = false) :
    drive (n + 3) (setDpu (waitNotBusyProg ++ ws) x) = drive n (setDpu ws x) :=
  calc drive (n + 3) (setDpu (waitNotBusyProg ++ ws) x)
      = drive (n + 1) (setDpu (.busyAgain :: ws) x) :=
        drive_await_ok (n + 1) .notBusy .busy _ x hret hp.2 (pollTimeout_pos hp.1 .notBusy) (by simp [pollHolds, hfree])
    _ = drive n (busyAgain (setDpu ws x)) := drive_work n _ _ x rfl (.inl hret)
    _ = drive n (setDpu ws x) := by rw [busyAgain, if_neg (by rw [setDpu_ret, hret]; decide)]

theorem waitNotBusy_waits (n : Nat) (ws : List Work) {x : State} (hp : Prompt x) (hret : x.ctl.ret = .ok)
    (hbusy : bit (regRead .STATUS x) 9 = true) : drive (n + 2) (setDpu (waitNotBusyProg ++ ws) x)
      = .next (setDpu (.poll .notBusy (x.st.now + ticks x.cfg x.cfg.busyTimeout) .busy :: .busyAgain :: ws) x) :=
  drive_await_wait n .notBusy .busy _ x hret hp.2 (pollTimeout_pos hp.1 .notBusy) (by simp [pollHolds, hbusy])

/-- Behind a first window that expired stand a controller reset and the second window (R686). -/
theorem busyAgain_expired (ws : List Work) (x : State) : busyAgain (setDpu ws (setRet .busyTimeout x))
    = setDpu (.assertReset 0x7#32 :: .await (.resetClear 0x7#32) .fatal :: .clearPartBuf :: .await .notBusy .busy :: ws)
        (setRet .ok x) := rfl

/-- The first window expires: the controller reset is under way, the second window behind it (R686). -/
theorem firstWindow_expires {t : Nat} (ws : List Work) {x : State} (hp : Prompt x) (hr : RegsLegal x) (ht : t ≤ x.st.now) :
    dpuStep (setDpu (.poll .notBusy t .busy :: .busyAgain :: ws) x) = .next (setDpu
      (.poll (.resetClear 0x7#32) (x.st.now + ticks x.cfg x.cfg.resetTimeout) .fatal :: .clearPartBuf ::
        .await .notBusy .busy :: ws) (asserted 0x7#32 0#32 (setRet .ok x))) := by
  have hexpired : pollExpire .busy (setDpu (.busyAgain :: ws) x) = setDpu (.busyAgain :: ws) (setRet .busyTimeout x) := rfl
  rw [dpuStep_expired (s := setDpu (.poll .notBusy t .busy :: .busyAgain :: ws) x) rfl hp.2 ht, setDpu_setDpu, hexpired,
    show driveBound = 511 + 1 from rfl, drive_work 511 .busyAgain ws _ rfl (.inr rfl), perform, andThen_next,
    busyAgain_expired]
  exact reset_waits (setRet .ok x) 0x7#32 _ 508 hp hr (by decide) (by decide) rfl

/-- BUS completes the controller reset and the card is still busy: the second window is under way (R686). -/
theorem secondWindow_waits {t : Nat} (ws : List Work) {x : State} (hp : Prompt x) (hn : NoReset x) (ht : x.st.now < t)
    (hret : x.ctl.ret = .ok) (hbusy : bit (regRead .STATUS x) 9 = true) :
    serveResets (setDpu (.poll (.resetClear 0x7#32) t .fatal :: .clearPartBuf :: .await .notBusy .busy :: ws)
      (asserted 0x7#32 0#32 x)) = .next (setDpu
        (.poll .notBusy (x.st.now + ticks x.cfg x.cfg.busyTimeout) .busy :: ws) (controllerReset x)) := by
  have hstill : bit (regRead .STATUS (controllerReset x)) 9 = true := by
    rw [status_dataBusy] at hbusy ⊢
    exact hbusy
  rw [controller_reset_served x t _ hp hn ht hret]
  exact drive_await_wait 509 .notBusy .busy ws (controllerReset x) hret hp.2 (pollTimeout_pos hp.1 .notBusy)
    (by simp [pollHolds, hstill])

/-! ### RUN_CTL as a micro-operation -/

/-- An entry that leaves no work. -/
theorem exec_runCtl_done {s t : State}
    (h : runCtl (setDpu (.halt :: s.ctl.dpu) (setRet .ok s)) = setDpu (.halt :: s.ctl.dpu) t) :
    exec .runCtl s = .next (setDpu s.ctl.dpu t) :=
  runProg_only (w := .runCtl) (t := setDpu (.halt :: s.ctl.dpu) t) rfl (congrArg Host.Outcome.next h) rfl

/-- An entry taken from the control queue, its micro-operation begun (R417). -/
abbrev begun (rest : List CtlEntry) (s : State) : State := setRet .ok (withCtlq rest s)

/-- The head entry's work, up to the end of the micro-operation. -/
theorem exec_runCtl_work {s : State} {e : CtlEntry} {rest : List CtlEntry} {ws : List Work} (hack : NoAck s.st.ctlq)
    (hactive : s.st.active = none) (htuning : s.st.tuning = false) (hq : s.st.ctlq = e :: rest)
    (hrun : ∀ l, runEntry e (setDpu l (begun rest s)) = push ws (setDpu l (begun rest s))) :
    exec .runCtl s = drive 511 (setDpu (ws ++ .halt :: s.ctl.dpu) (begun rest s)) := by
  have hhead : runCtl (setDpu (.halt :: s.ctl.dpu) (setRet .ok s)) = _ := runCtl_head hack hactive htuning hq
  show runProg [.runCtl] s = _
  rw [runProg_first _ _ _ rfl, List.nil_append, perform, andThen_next, hhead]
  exact congrArg (drive 511) (hrun _)

/-- The work of a control operation between its wait for the card and its record (R408, R411). -/
def pollingWork (c : Config) (slot : BitVec 4) : CtlOp → List Work
  | .setBusTiming mode width => resetFifoProg ++ [.setTiming slot mode width]
  | .setClock rate => setClockProg c slot rate
  | _ => []

/-- The payload of its record (R411). -/
def pollingPayload (c : Config) : CtlOp → Word
  | .setClock rate => setClockPayload c rate
  | _ => 0#32

/-- The operations that wait for the card first: SET_BUS_TIMING of a present card and SET_CLOCK (R408, R411). -/
def WaitsForCard (s : State) (slot : BitVec 4) (op : CtlOp) : Prop :=
  (∃ mode width, op = .setBusTiming mode width ∧ (slotAt s slot.toNat).present = true) ∨ ∃ rate, op = .setClock rate

theorem passedOver_of_all {ws : List Work} (h : (ws.all fun w => w.plain && !w.handles) = true) : PassedOver ws := by
  simpa [PassedOver] using h

theorem setClockProg_passedOver (c : Config) (slot : BitVec 4) (rate : Word) :
    PassedOver (setClockProg c slot rate) ∧ (setClockProg c slot rate).length ≤ 13 := by
  unfold setClockProg
  split
  · exact ⟨passedOver_of_all rfl, Nat.le_of_ble_eq_true rfl⟩
  · exact ⟨passedOver_of_all rfl, Nat.le_of_ble_eq_true rfl⟩

theorem pollingWork_passedOver (c : Config) (slot : BitVec 4) (op : CtlOp) :
    PassedOver (pollingWork c slot op) ∧ (pollingWork c slot op).length ≤ 13 := by
  cases op
  case setClock rate => exact setClockProg_passedOver c slot rate
  case setBusTiming | tune | sdioIrqAck | controllerInit =>
    exact ⟨passedOver_of_all rfl, Nat.le_of_ble_eq_true rfl⟩

theorem runEntry_polling {s : State} {op : CtlOp} {tag : Word} {slot : BitVec 4} (h : WaitsForCard s slot op) :
    runEntry ⟨op, tag, slot⟩ s = push (waitNotBusyProg ++ (pollingWork s.cfg slot op ++
      [.ctlEnd tag slot (pollingPayload s.cfg op)])) s := by
  rcases h with ⟨mode, width, rfl, hpresent⟩ | ⟨rate, rfl⟩
  · simp only [runEntry, hpresent, if_true]
    rfl
  · simp only [runEntry, List.append_assoc]
    rfl

section
variable {s : State} {op : CtlOp} {tag : Word} {slot : BitVec 4} {rest : List CtlEntry}

theorem exec_runCtl_polling (hack : NoAck s.st.ctlq) (hactive : s.st.active = none) (htuning : s.st.tuning = false)
    (hq : s.st.ctlq = ⟨op, tag, slot⟩ :: rest) (hop : WaitsForCard s slot op) :
    exec .runCtl s = drive 511 (setDpu (waitNotBusyProg ++ (pollingWork s.cfg slot op ++
      .ctlEnd tag slot (pollingPayload s.cfg op) :: .halt :: s.ctl.dpu)) (begun rest s)) := by
  have hrun (l : List Work) : runEntry ⟨op, tag, slot⟩ (setDpu l (begun rest s)) = push (waitNotBusyProg ++
      (pollingWork s.cfg slot op ++ [.ctlEnd tag slot (pollingPayload s.cfg op)])) (setDpu l (begun rest s)) :=
    runEntry_polling (s := setDpu l (begun rest s)) hop
  rw [exec_runCtl_work hack hactive htuning hq hrun]
  simp only [List.append_assoc, List.cons_append, List.nil_append]

/-- The card is not busy: the operation's own work begins in the same step. -/
theorem exec_runCtl_notBusy (hack : NoAck s.st.ctlq) (hactive : s.st.active = none) (htuning : s.st.tuning = false)
    (hq : s.st.ctlq = ⟨op, tag, slot⟩ :: rest) (hop : WaitsForCard s slot op) (hp : Prompt s)
    (hfree : bit (regRead .STATUS s) 9 = false) :
    exec .runCtl s = drive 508 (setDpu (pollingWork s.cfg slot op ++
      .ctlEnd tag slot (pollingPayload s.cfg op) :: .halt :: s.ctl.dpu) (begun rest s)) :=
  (exec_runCtl_polling hack hactive htuning hq hop).trans
    (waitNotBusy_passes 508 _ (x := begun rest s) hp rfl hfree)

/-- The card stays busy through both windows: BUSY_TIMEOUT, nothing of the operation's own done (R686, R408, R411). -/
theorem exec_runCtl_busy (hack : NoAck s.st.ctlq) (hactive : s.st.active = none) (htuning : s.st.tuning = false)
    (hq : s.st.ctlq = ⟨op, tag, slot⟩ :: rest) (hop : WaitsForCard s slot op) (hp : Prompt s) (hr : RegsLegal s)
    (hn : NoReset s) (hbusy : bit (regRead .STATUS s) 9 = true) {n m : Nat}
    (hfirst : s.st.now + ticks s.cfg s.cfg.busyTimeout ≤ n) (hsecond : n + ticks s.cfg s.cfg.busyTimeout ≤ m) :
    ∃ u v w, exec .runCtl s = .next u ∧ dpuStep (atTick n u) = .next v ∧ serveResets v = .next w ∧
      dpuStep (atTick m w) = .next (setRet .busyTimeout (recorded (plainRecord .ctl tag slot.toNat .busyTimeout 0#32)
        (atTick m (controllerReset (withCtlq rest s))))) := by
  obtain ⟨hover, hlen⟩ := pollingWork_passedOver s.cfg slot op
  refine ⟨_, _, _, (exec_runCtl_polling hack hactive htuning hq hop).trans
      (waitNotBusy_waits 509 _ (x := begun rest s) hp rfl hbusy),
    firstWindow_expires _ (x := atTick n (begun rest s)) hp hr hfirst,
    secondWindow_waits _ (x := atTick n (begun rest s)) hp hn
      (Nat.lt_add_of_pos_right (pollTimeout_pos hp.1 (.resetClear 0x7#32))) rfl hbusy, ?_⟩
  exact dpuStep_ctlExpired (e := .busy) (x := atTick m (controllerReset (begun rest s)))
    (by simp [pollExpire]) hp.2 hsecond hover (by rw [driveBound]; omega)

end

/-! ### RUN_CTL's operations (R415, R408, R631) -/

/-- SDIO_IRQ_ACK, at any time (R415, R417). -/
theorem exec_runCtl_ack {s : State} {pre post : List CtlEntry} {tag : Word} {slot : BitVec 4}
    (hq : s.st.ctlq = pre ++ ⟨.sdioIrqAck, tag, slot⟩ :: post) (hpre : NoAck pre) :
    exec .runCtl s = .next (setRet .ok (ackRun tag slot (withCtlq (pre ++ post) s))) :=
  exec_runCtl_done (t := setRet .ok (ackRun tag slot (withCtlq (pre ++ post) s)))
    ((runCtl_ack (s := setDpu _ (setRet .ok s)) hq hpre).trans (runAck_eq tag slot _))

section
variable {s : State} {tag : Word} {slot : BitVec 4} {rest : List CtlEntry} (hack : NoAck s.st.ctlq)
  (hactive : s.st.active = none) (htuning : s.st.tuning = false)
include hack hactive htuning

/-- TUNE is TUNE_START (R417, R631). -/
theorem exec_runCtl_tune {mode : BitVec 4} {index : BitVec 6} {pattern : List Byte}
    (hq : s.st.ctlq = ⟨.tune mode index pattern, tag, slot⟩ :: rest) :
    exec .runCtl s = exec (.tuneStart tag slot mode index pattern) (withCtlq rest s) := by
  have hctl (c : Control) := tuneStart_withCtl tag slot mode index pattern c (withCtlq rest s)
  have hown : tuneStart tag slot mode index pattern (withCtlq rest s) = withCtl s.ctl _ := hctl s.ctl
  have hrun := (runCtl_head (s := setDpu (.halt :: s.ctl.dpu) (setRet .ok s)) hack hactive htuning hq).trans
    (hctl { s.ctl with dpu := .halt :: s.ctl.dpu, ret := .ok })
  rw [exec_runCtl_done
    (t := withCtl { s.ctl with ret := .ok } (tuneStart tag slot mode index pattern (withCtlq rest s))) hrun]
  show _ = Host.Outcome.next (setRet .ok (tuneStart tag slot mode index pattern (withCtlq rest s)))
  rw [hown]
  rfl

/-- SET_BUS_TIMING of an absent card (R408). -/
theorem exec_runCtl_noCard {mode width : BitVec 4} (hq : s.st.ctlq = ⟨.setBusTiming mode width, tag, slot⟩ :: rest)
    (habsent : (slotAt s slot.toNat).present = false) :
    exec .runCtl s = .next (setRet .ok (recorded (plainRecord .ctl tag slot.toNat .noMedium 0#32) (withCtlq rest s))) := by
  refine exec_runCtl_done (t := setRet .ok (recorded _ (withCtlq rest s))) ?_
  refine (runCtl_head (s := setDpu _ (setRet .ok s)) hack hactive htuning hq).trans ?_
  have habsent' : (slotAt (withCtlq rest (setDpu (.halt :: s.ctl.dpu) (setRet .ok s))) slot.toNat).present = false := habsent
  simp only [runEntry, habsent', Bool.false_eq_true, if_false]
  rfl

/-- SET_BUS_TIMING of a present card waits in its FIFO reset (R408, R684). -/
theorem exec_runCtl_timing {mode width : BitVec 4} (hq : s.st.ctlq = ⟨.setBusTiming mode width, tag, slot⟩ :: rest)
    (hpresent : (slotAt s slot.toNat).present = true) (hp : Prompt s) (hr : RegsLegal s)
    (hfree : bit (regRead .STATUS s) 9 = false) :
    exec .runCtl s = .next (setDpu (.poll (.resetClear 0x2#32) (s.st.now + ticks s.cfg s.cfg.resetTimeout) .fatal ::
      ([.clearPartBuf, .setTiming slot mode width] ++ .ctlEnd tag slot 0#32 :: .halt :: s.ctl.dpu))
      (asserted 0x2#32 0#32 (begun rest s))) :=
  (exec_runCtl_notBusy hack hactive htuning hq (.inl ⟨mode, width, rfl, hpresent⟩) hp hfree).trans
    (reset_waits (begun rest s) 0x2#32 _ 505 hp hr (by decide) (by decide) rfl)

end

/-- SET_BUS_TIMING once BUS has completed its FIFO reset (R408). -/
theorem timing_served {t : Nat} {tag : Word} {slot mode width : BitVec 4} (ws : List Work) {x : State} (hp : Prompt x)
    (hn : NoReset x) (ht : x.st.now < t) (hret : x.ctl.ret = .ok) :
    serveResets (setDpu (.poll (.resetClear 0x2#32) t .fatal ::
      ([.clearPartBuf, .setTiming slot mode width] ++ .ctlEnd tag slot 0#32 :: .halt :: ws)) (asserted 0x2#32 0#32 x))
      = .next (setDpu ws (timingSet tag slot mode width (fifoReset x))) := by
  have hwork (l : List Work) : setTiming slot mode width (setDpu l (fifoReset x))
      = setDpu l (setTiming slot mode width (fifoReset x)) := rfl
  refine (fifo_reset_served x t (.setTiming slot mode width :: .ctlEnd tag slot 0#32 :: .halt :: ws) hp hn ht hret).trans ?_
  rw [drive_work 510 (.setTiming slot mode width) _ (fifoReset x) rfl (.inl hret), perform, andThen_next, hwork,
    drive_ctlEnd_ok 508 tag slot 0#32 ws (x := setTiming slot mode width (fifoReset x)) hret, recorded_setTiming]

/-- Settles O50: SDIO_IRQ_ACK, the operations at the head of the queue, the busy card, and nothing enabled. -/
theorem controlOperationsRun : Obligations.ControlOperationsRun := by
  unfold Obligations.ControlOperationsRun
  intro s
  refine ⟨fun pre tag slot post hq hpre => exec_runCtl_ack hq hpre,
    fun hack hactive htuning tag slot rest => ⟨fun mode index pattern hq => ?tune,
      fun mode width hq => ⟨fun habsent => ?absent, fun hpresent hp hr hn hfree => ?present⟩,
      fun op n m hop hq hp hr hn hbusy hfirst hsecond => ?busy⟩, fun hack h => ?disabled⟩
  case tune => exact exec_runCtl_tune hack hactive htuning hq
  case absent => exact exec_runCtl_noCard hack hactive htuning hq habsent
  case present =>
    refine ⟨_, exec_runCtl_timing hack hactive htuning hq hpresent hp hr hfree,
      timing_served s.ctl.dpu (x := begun rest s) hp hn
        (Nat.lt_add_of_pos_right (pollTimeout_pos hp.1 (.resetClear 0x2#32))) rfl, fun n ht => ?_⟩
    exact dpuStep_ctlFatal (x := asserted 0x2#32 0#32 (begun rest s)) hp.2 ht (passedOver_of_all rfl)
      (Nat.le_of_ble_eq_true rfl)
  case busy => exact exec_runCtl_busy hack hactive htuning hq hop hp hr hn hbusy hfirst hsecond
  case disabled =>
    exact exec_runCtl_done (t := setRet .ok s) (runCtl_disabled (s := setDpu _ (setRet .ok s)) hack h)

/-! ### SET_CLOCK (R411) -/

/-- The work behind the second of SET_CLOCK's update-clock commands, and behind the first (R411). -/
def clockOnWork (slot : BitVec 4) (div : Nat) : List Work := .clkGate slot true :: (updateClockProg slot ++ [.clkDone div])
def clockOffWork (c : Config) (slot : BitVec 4) (rate : Word) : List Work :=
  if rate = 0#32 then [.clkStopped]
  else .clkSetDiv (clockDivider c rate.toNat) :: (updateClockProg slot ++ clockOnWork slot (clockDivider c rate.toNat))

theorem setClockProg_eq (c : Config) (slot : BitVec 4) (rate : Word) :
    setClockProg c slot rate = .clkGate slot false :: (updateClockProg slot ++ clockOffWork c slot rate) := by
  unfold setClockProg clockOffWork clockOnWork
  split <;> simp [List.append_assoc]

theorem clockOffWork_passedOver (c : Config) (slot : BitVec 4) (rate : Word) :
    PassedOver (clockOffWork c slot rate) ∧ (clockOffWork c slot rate).length ≤ 10 := by
  unfold clockOffWork
  split
  · exact ⟨passedOver_of_all rfl, Nat.le_of_ble_eq_true rfl⟩
  · exact ⟨passedOver_of_all rfl, Nat.le_of_ble_eq_true rfl⟩

/-- An update-clock command can be written: the DPU does not yield, nothing has failed and no command waits (R412). -/
structure ClockReady (x : State) : Prop where
  prompt : Prompt x
  ret    : x.ctl.ret = .ok
  free   : bit x.regs.cmd 31 = false

theorem ClockReady.gated {x : State} (h : ClockReady x) (slot : BitVec 4) (on : Bool) : ClockReady (gated slot on x) :=
  ⟨h.prompt, h.ret, h.free⟩

theorem ClockReady.divided {x : State} (h : ClockReady x) (div : Nat) : ClockReady (divided div x) :=
  ⟨h.prompt, h.ret, h.free⟩

/-- An accepted command waits no more (R412, R760). -/
theorem acceptedClockWord_free (slot : BitVec 4) : bit (0x00202000#32 ||| cardField slot) 31 = false := by
  revert slot; decide

theorem ClockReady.clockUpdated {x : State} (h : ClockReady x) (slot : BitVec 4) : ClockReady (clockUpdated slot x) :=
  ⟨h.prompt, h.ret, acceptedClockWord_free slot⟩

/-- The DPU waits for BUS to accept the update-clock command it has written, with the work `ws` behind (R412). -/
def clockSent (slot : BitVec 4) (ws : List Work) (x : State) : State :=
  setDpu (.poll .startClear (x.st.now + ticks x.cfg x.cfg.cmdAcceptTimeout) .fatal :: ws) (updateSent slot x)

theorem updateClock_waits (n : Nat) (slot : BitVec 4) (ws : List Work) {x : State} (h : ClockReady x) :
    drive (n + 5) (setDpu (updateClockProg slot ++ ws) x) = .next (clockSent slot ws x) := by
  have hpos := pollTimeout_pos h.prompt.1 .startClear
  have hwrite (l : List Work) : writeUpdateClock slot (setDpu l x) = setDpu l (updateSent slot x) :=
    writeUpdateClock_eq slot (s := setDpu l x) h.free
  calc drive (n + 5) (setDpu (updateClockProg slot ++ ws) x)
      = drive (n + 3) (setDpu (.writeUpdateClock slot :: .await .startClear .fatal :: ws) x) :=
        drive_await_ok (n + 3) .startClear .fatal _ x h.ret h.prompt.2 hpos (by simp [pollHolds, regRead, h.free])
    _ = drive (n + 2) (setDpu (.await .startClear .fatal :: ws) (updateSent slot x)) := by
        rw [drive_work (n + 2) _ _ x rfl (.inl h.ret), perform, andThen_next, hwrite]
    _ = .next (clockSent slot ws x) :=
        drive_await_wait n .startClear .fatal ws (updateSent slot x) h.ret h.prompt.2 hpos
          (by simp [pollHolds, regRead, updateSent, updateClockWord_starts slot])

/-- A piece of SET_CLOCK's work and the update-clock command behind it. -/
theorem work_updateClock_waits (n : Nat) {w : Work} (slot : BitVec 4) (ws : List Work) {x y : State} (hw : w.plain = true)
    (hret : x.ctl.ret = .ok) (hperform : ∀ l, perform w (setDpu l x) = .next (setDpu l y)) (h : ClockReady y) :
    drive (n + 6) (setDpu (w :: (updateClockProg slot ++ ws)) x) = .next (clockSent slot ws y) := by
  rw [drive_work (n + 5) w _ x hw (.inl hret), hperform, andThen_next, updateClock_waits n slot ws h]

theorem raiseReady_idle {x : State} (h : xferHolds x = false) : raiseReady x = x := by
  refine state_ext rfl ?_ rfl rfl rfl rfl
  show { x.regs with rintsts := x.regs.rintsts ||| if xferHolds x then readyBits x else 0#32 } = x.regs
  simp [h]

/-- What BUS makes of the update-clock command word (R412, R766). -/
theorem updateClockWord_fields (slot : BitVec 4) :
    (0x80202000#32 ||| cardField slot) &&& 0x7FFFFFFF#32 = 0x00202000#32 ||| cardField slot ∧
    cardNumber (0x80202000#32 ||| cardField slot) = slot.toNat ∧ bit (0x80202000#32 ||| cardField slot) 21 = true := by
  revert slot; decide

theorem acceptCommand_updateSent (slot : BitVec 4) (ws : List Work) (x : State) :
    acceptCommand (setDpu ws (updateSent slot x)) = setDpu ws (clockUpdated slot x) := by
  obtain ⟨haccepted, hcard, hclock⟩ := updateClockWord_fields slot
  have hcmd : (setDpu ws (updateSent slot x)).regs.cmd = 0x80202000#32 ||| cardField slot := rfl
  unfold acceptCommand
  simp only [hcmd, haccepted, hcard, hclock, if_true]
  rfl

/-- BUS accepts the update-clock command, and the DPU goes on (R412, R766). -/
theorem serveCommand_clockSent (slot : BitVec 4) (ws : List Work) {x : State} (h : ClockReady x)
    (hidle : xferHolds x = false) :
    serveCommand (clockSent slot ws x) = drive driveBound (setDpu ws (clockUpdated slot x)) := by
  have hpos := pollTimeout_pos h.prompt.1 .startClear
  have hready : (startCmd (clockSent slot ws x) &&
      !(bit (clockSent slot ws x).regs.cmd 13 && xferHolds (clockSent slot ws x))) = true := by
    rw [show xferHolds (clockSent slot ws x) = false from hidle,
      show startCmd (clockSent slot ws x) = true from updateClockWord_starts slot, Bool.and_false]
    rfl
  have hbus : busStep .acceptCmd (clockSent slot ws x) = .next (setDpu
      (.poll .startClear (x.st.now + ticks x.cfg x.cfg.cmdAcceptTimeout) .fatal :: ws) (clockUpdated slot x)) := by
    rw [busStep, busAct, busStepIf, hready, if_pos rfl, andThen_next, clockSent, acceptCommand_updateSent,
      raiseReady_idle (by exact hidle)]
  rw [serveCommand, hbus, andThen_next]
  exact dpuStep_poll_ok .startClear _ .fatal ws (clockUpdated slot x) h.prompt.2 (Nat.lt_add_of_pos_right hpos)
    (by simp [pollHolds, regRead, clockUpdated, acceptedClockWord_free slot])

/-- BUS does not accept the update-clock command in time: HARD_FAILURE, and what was written stays (R411, R419). -/
theorem clockSent_expires {n : Nat} {tag p : Word} {slot : BitVec 4} {rest ws : List Work} {x : State} (hp : Prompt x)
    (ht : x.st.now + ticks x.cfg x.cfg.cmdAcceptTimeout ≤ n) (hrest : PassedOver rest)
    (hlen : rest.length + 2 ≤ driveBound) :
    dpuStep (atTick n (clockSent slot (rest ++ .ctlEnd tag slot p :: .halt :: ws) x)) = .next (setDpu ws
      (recorded (plainRecord .ctl tag slot.toNat .hardFailure 0#32) (fatalAt n (updateSent slot x)))) :=
  dpuStep_ctlFatal (x := updateSent slot x) hp.2 ht hrest hlen

/-- SET_CLOCK's states at its second and third update-clock command: the clock's stop accepted and the divider written; that
accepted too and the clock on (R411). -/
def clockDivided (slot : BitVec 4) (div : Nat) (x : State) : State := divided div (clockUpdated slot (gated slot false x))
def clockOn (slot : BitVec 4) (div : Nat) (x : State) : State :=
  gated slot true (clockUpdated slot (clockDivided slot div x))

theorem clockOn_setRet (slot : BitVec 4) (div : Nat) (c : Code) (x : State) :
    clockOn slot div (setRet c x) = setRet c (clockOn slot div x) := rfl

/-- After BUS has accepted a command, the next piece of work and the update-clock command behind it. -/
theorem serveCommand_next {w : Work} {slot : BitVec 4} {ws : List Work} {x y : State} (hw : w.plain = true)
    (h : ClockReady x) (hidle : xferHolds x = false)
    (hperform : ∀ l, perform w (setDpu l (clockUpdated slot x)) = .next (setDpu l y)) (hy : ClockReady y) :
    serveCommand (clockSent slot (w :: (updateClockProg slot ++ ws)) x) = .next (clockSent slot ws y) :=
  (serveCommand_clockSent slot _ h hidle).trans
    (work_updateClock_waits 506 slot ws hw h.ret hperform hy)

/-- After BUS has accepted the last command, the last piece of work and the record. -/
theorem serveCommand_ends {w : Work} {tag p : Word} {slot : BitVec 4} {ws : List Work} {x y : State} (hw : w.plain = true)
    (h : ClockReady x) (hidle : xferHolds x = false)
    (hperform : ∀ l, perform w (setDpu l (clockUpdated slot x)) = .next (setDpu l y)) (hy : y.ctl.ret = .ok) :
    serveCommand (clockSent slot (w :: .ctlEnd tag slot p :: .halt :: ws) x)
      = .next (setDpu ws (recorded (plainRecord .ctl tag slot.toNat .ok p) y)) := by
  rw [serveCommand_clockSent slot _ h hidle, show driveBound = 511 + 1 from rfl,
    drive_work 511 w _ _ hw (.inl (h.clockUpdated slot).ret), hperform, andThen_next]
  exact drive_ctlEnd_ok 509 tag slot p ws hy

section
variable {s : State} {tag rate : Word} {slot : BitVec 4} {rest : List CtlEntry} (hack : NoAck s.st.ctlq)
  (hactive : s.st.active = none) (htuning : s.st.tuning = false) (hq : s.st.ctlq = ⟨.setClock rate, tag, slot⟩ :: rest)
  (hp : Prompt s) (hr : RegsLegal s) (hfree : bit (regRead .STATUS s) 9 = false)
include hack hactive htuning hq hp hr hfree

/-- SET_CLOCK up to its first update-clock command: the slot's clock is off in `CLKENA` (R411). -/
theorem exec_runCtl_setClock : exec .runCtl s = drive 507 (setDpu (updateClockProg slot ++ (clockOffWork s.cfg slot rate ++
    .ctlEnd tag slot (setClockPayload s.cfg rate) :: .halt :: s.ctl.dpu)) (gated slot false (begun rest s))) := by
  have hgate (l : List Work) : clkGate slot false (setDpu l (begun rest s))
      = setDpu l (gated slot false (begun rest s)) :=
    clkGate_off slot (s := setDpu l (begun rest s)) hr.clkena
  rw [exec_runCtl_notBusy hack hactive htuning hq (.inr ⟨rate, rfl⟩) hp hfree, pollingWork, setClockProg_eq,
    List.cons_append, List.append_assoc, drive_work 507 _ _ _ rfl (.inl rfl), perform, andThen_next, hgate]
  rfl

/-- A command that still waits, or the first update-clock command, is not accepted in time (R411, R419). -/
theorem setClock_firstExpires {n : Nat} (ht : s.st.now + ticks s.cfg s.cfg.cmdAcceptTimeout ≤ n) :
    ∃ u, exec .runCtl s = .next u ∧ dpuStep (atTick n u) = .next (recorded
      (plainRecord .ctl tag slot.toNat .hardFailure 0#32) (fatalAt n (if bit s.regs.cmd 31 then gated slot false (withCtlq rest s)
        else updateSent slot (gated slot false (withCtlq rest s))))) := by
  obtain ⟨hover, hlen⟩ := clockOffWork_passedOver s.cfg slot rate
  rw [exec_runCtl_setClock hack hactive htuning hq hp hr hfree]
  cases hcmd : bit s.regs.cmd 31 with
  | true =>
    refine ⟨_, drive_await_wait 505 .startClear .fatal _ (gated slot false (begun rest s)) rfl hp.2
      (pollTimeout_pos hp.1 .startClear) (by simp [pollHolds, regRead, gated, begun, withCtlq, hcmd]), ?_⟩
    exact dpuStep_ctlFatal (rest := .writeUpdateClock slot :: .await .startClear .fatal :: clockOffWork s.cfg slot rate)
      (x := gated slot false (begun rest s)) hp.2 ht
      (List.forall_mem_cons.mpr ⟨⟨rfl, rfl⟩, List.forall_mem_cons.mpr ⟨⟨rfl, rfl⟩, hover⟩⟩)
      (by simp only [List.length_cons, driveBound]; omega)
  | false =>
    have hready : ClockReady (gated slot false (begun rest s)) := ⟨hp, rfl, hcmd⟩
    exact ⟨_, updateClock_waits 502 slot _ hready,
      clockSent_expires (x := gated slot false (begun rest s)) hp ht hover (by rw [driveBound]; omega)⟩

section
variable (hcmd : bit s.regs.cmd 31 = false)
include hcmd

/-- The first update-clock command waits for BUS. -/
theorem setClock_firstWaits : exec .runCtl s = .next (clockSent slot (clockOffWork s.cfg slot rate ++
    .ctlEnd tag slot (setClockPayload s.cfg rate) :: .halt :: s.ctl.dpu) (gated slot false (begun rest s))) :=
  (exec_runCtl_setClock hack hactive htuning hq hp hr hfree).trans (updateClock_waits 502 slot _ ⟨hp, rfl, hcmd⟩)

variable (hidle : xferHolds s = false)
include hidle

/-- Rate 0 ends with the clock off (R411). -/
theorem setClock_stops (hrate : rate = 0#32) : Res.chain (exec .runCtl s) [serveCommand] = .next (setRet .ok (recorded
    (plainRecord .ctl tag slot.toNat .ok 0#32) (clkStopped (clockUpdated slot (gated slot false (withCtlq rest s)))))) := by
  have hready : ClockReady (gated slot false (begun rest s)) := ⟨hp, rfl, hcmd⟩
  have hwork : clockOffWork s.cfg slot rate = [.clkStopped] := if_pos hrate
  have hpayload : setClockPayload s.cfg rate = 0#32 := if_pos hrate
  rw [setClock_firstWaits hack hactive htuning hq hp hr hfree hcmd, hwork, hpayload]
  exact serveCommand_ends (w := .clkStopped)
    (y := clkStopped (clockUpdated slot (gated slot false (begun rest s)))) rfl hready hidle (fun _ => rfl) rfl

variable (hrate : rate ≠ 0#32)
include hrate

/-- The second update-clock command waits for BUS, the divider written (R411). -/
theorem setClock_secondWaits : Res.chain (exec .runCtl s) [serveCommand] = .next (clockSent slot
    (clockOnWork slot (dividerFor s.cfg.clkSrcHz rate.toNat) ++
      .ctlEnd tag slot (setClockPayload s.cfg rate) :: .halt :: s.ctl.dpu)
    (clockDivided slot (dividerFor s.cfg.clkSrcHz rate.toNat) (begun rest s))) := by
  have hready : ClockReady (gated slot false (begun rest s)) := ⟨hp, rfl, hcmd⟩
  have hwork : clockOffWork s.cfg slot rate = .clkSetDiv (dividerFor s.cfg.clkSrcHz rate.toNat) ::
      (updateClockProg slot ++ clockOnWork slot (dividerFor s.cfg.clkSrcHz rate.toNat)) := if_neg hrate
  have hdiv (l : List Work) (x : State) := write_clkdiv (dividerFor_le s.cfg.clkSrcHz rate.toNat) (setDpu l x)
  rw [setClock_firstWaits hack hactive htuning hq hp hr hfree hcmd, hwork, List.cons_append, List.append_assoc]
  exact serveCommand_next rfl hready hidle (fun l => congrArg Host.Outcome.next (hdiv l _))
    ((hready.clockUpdated slot).divided _)

variable (hslot : slot.toNat < s.cfg.nslots)
include hslot

/-- The third update-clock command waits for BUS, the slot's clock on in `CLKENA` (R411). -/
theorem setClock_thirdWaits : Res.chain (exec .runCtl s) [serveCommand, serveCommand] = .next (clockSent slot
    (.clkDone (dividerFor s.cfg.clkSrcHz rate.toNat) ::
      .ctlEnd tag slot (setClockPayload s.cfg rate) :: .halt :: s.ctl.dpu)
    (clockOn slot (dividerFor s.cfg.clkSrcHz rate.toNat) (begun rest s))) := by
  generalize hdiv : dividerFor s.cfg.clkSrcHz rate.toNat = div
  have hsecond := setClock_secondWaits hack hactive htuning hq hp hr hfree hcmd hidle hrate
  have hready : ClockReady (clockDivided slot div (begun rest s)) := ⟨hp, rfl, acceptedClockWord_free slot⟩
  have hgate (l : List Work) : clkGate slot true (setDpu l (clockUpdated slot (clockDivided slot div
      (begun rest s)))) = setDpu l (clockOn slot div (begun rest s)) :=
    clkGate_on (s := setDpu l (clockUpdated slot (clockDivided slot div (begun rest s))))
      (not_mask_zero _ _ _ hr.clkena) hslot
  rw [hdiv, clockOnWork, List.cons_append, List.append_assoc, List.singleton_append] at hsecond
  show Res.andThen (Res.chain (exec .runCtl s) [serveCommand]) serveCommand = _
  rw [hsecond, andThen_next]
  exact serveCommand_next (w := .clkGate slot true) (y := clockOn slot div (begun rest s)) rfl hready hidle
    (fun l => congrArg Host.Outcome.next (hgate l)) ((hready.clockUpdated slot).gated slot true)

/-- BUS accepts all three: the clock runs at the actual rate, which the record carries (R411). -/
theorem setClock_ends : Res.chain (exec .runCtl s) [serveCommand, serveCommand, serveCommand] = .next (setRet .ok (recorded
    (plainRecord .ctl tag slot.toNat .ok (setClockPayload s.cfg rate)) (clkDone (dividerFor s.cfg.clkSrcHz rate.toNat)
      (clockUpdated slot (clockOn slot (dividerFor s.cfg.clkSrcHz rate.toNat) (withCtlq rest s)))))) := by
  have hthird := setClock_thirdWaits hack hactive htuning hq hp hr hfree hcmd hidle hrate hslot
  generalize dividerFor s.cfg.clkSrcHz rate.toNat = div at hthird ⊢
  have hready : ClockReady (clockOn slot div (begun rest s)) := ⟨hp, rfl, acceptedClockWord_free slot⟩
  show Res.andThen (Res.chain (exec .runCtl s) [serveCommand, serveCommand]) serveCommand = _
  rw [hthird, andThen_next, serveCommand_ends (w := .clkDone div)
    (y := clkDone div (clockUpdated slot (clockOn slot div (begun rest s)))) rfl hready hidle
    (fun _ => rfl) rfl, clockOn_setRet]
  have hdpu : s.ctl.dpu = (clockOn slot div (withCtlq rest s)).ctl.dpu := rfl
  rw [hdpu]
  rfl

end

end

/-- Settles O51: SET_CLOCK's update-clock commands one after another, each accepted by BUS or expiring. -/
theorem setClockRuns : Obligations.SetClockRuns := by
  unfold Obligations.SetClockRuns
  intro s tag rate slot rest hvalid hyields hr hq hrest hactive htuning hfree hslot off late
  have hp : Prompt s := ⟨hvalid, hyields⟩
  have hack : NoAck s.st.ctlq := by
    rw [hq]
    exact List.forall_mem_cons.mpr ⟨by simp, hrest⟩
  refine ⟨fun n ht => setClock_firstExpires hack hactive htuning hq hp hr hfree ht,
    fun hcmd hidle => ⟨fun hrate => setClock_stops hack hactive htuning hq hp hr hfree hcmd hidle hrate, ?_⟩⟩
  rintro div on hrate rfl rfl
  refine ⟨?ends, fun hlimit => ?rate, fun n ht => ⟨?second, ?third⟩⟩
  case ends =>
    have hpayload : setClockPayload s.cfg rate
        = BitVec.ofNat 32 (rateOf s.cfg.clkSrcHz (dividerFor s.cfg.clkSrcHz rate.toNat)) := if_neg hrate
    rw [← hpayload]
    exact setClock_ends hack hactive htuning hq hp hr hfree hcmd hidle hrate hslot
  case rate =>
    have hpos : 0 < rate.toNat := Nat.pos_of_ne_zero fun h => hrate (BitVec.eq_of_toNat_eq h)
    exact rateOf_dividerFor_le hpos hlimit
  case second =>
    exact ⟨_, setClock_secondWaits hack hactive htuning hq hp hr hfree hcmd hidle hrate,
      clockSent_expires (x := clockDivided slot _ (begun rest s)) hp ht (passedOver_of_all rfl)
        (Nat.le_of_ble_eq_true rfl)⟩
  case third =>
    exact ⟨_, setClock_thirdWaits hack hactive htuning hq hp hr hfree hcmd hidle hrate hslot,
      clockSent_expires (rest := [.clkDone _]) (x := clockOn slot _ (begun rest s)) hp ht
        (passedOver_of_all rfl) (Nat.le_of_ble_eq_true rfl)⟩

end Sys2Proof.Machine
end

section
/-! PROOFS. The family 41_state_machine.md, dispatch (R455 to R460): the relation "so much work takes one state to another",
DISPATCH's three data paths, DISPATCH_NEXT's choice of a slot and ENQUEUE. -/

namespace Sys2Proof.Machine

/-! ### Work done -/

/-- `k` pieces of the DPU's work take `s` to `t`, whatever bound the step has beyond them. -/
def Runs (k : Nat) (s t : State) : Prop := ∀ n, drive (n + k) s = drive n t

theorem Runs.refl (s : State) : Runs 0 s s := fun _ => rfl

theorem Runs.trans {j k : Nat} {s t u : State} (h : Runs j s t) (g : Runs k t u) : Runs (j + k) s u := fun n => by
  rw [Nat.add_comm j k, ← Nat.add_assoc, h, g]

theorem Runs.drive_eq {k n : Nat} {s t : State} (h : Runs k s t) (hk : k ≤ n) : drive n s = drive (n - k) t := by
  rw [← h, Nat.sub_add_cancel hk]

/-- A piece of work that is done, not passed over. -/
theorem Runs.work {w : Work} {ws : List Work} {s t : State} (hw : w.plain = true)
    (hr : s.ctl.ret = .ok ∨ w.handles = true) (h : perform w (setDpu ws s) = .next t) : Runs 1 (setDpu (w :: ws) s) t :=
  fun n => by rw [drive_work n w ws s hw hr, h, andThen_next]

/-- A poll whose condition holds already. -/
theorem Runs.await {c : PollCond} {e : PollEnd} {ws : List Work} {s : State} (hp : Prompt s) (hr : s.ctl.ret = .ok)
    (hc : pollHolds c s = true) : Runs 2 (setDpu (.await c e :: ws) s) (setDpu ws s) :=
  fun n => drive_await_ok n c e ws s hr hp.2 (pollTimeout_pos hp.1 c) hc

theorem Runs.ends_halt {k n : Nat} {s t : State} {ws : List Work} (h : Runs k s (setDpu (.halt :: ws) t)) (hk : k < n) :
    drive n s = .next (setDpu ws t) := by
  obtain ⟨m, rfl⟩ := Nat.exists_eq_add_of_lt hk
  rw [show k + m + 1 = m + 1 + k by omega, h]
  exact drive_halt m ws t

theorem Runs.ends_settleLoop {k n : Nat} {s t : State} {ws : List Work} (h : Runs k s (setDpu (.settleLoop :: ws) t))
    (hk : k < n) : drive n s = .next (setDpu (.settleLoop :: ws) t) := by
  obtain ⟨m, rfl⟩ := Nat.exists_eq_add_of_lt hk
  rw [show k + m + 1 = m + 1 + k by omega, h]
  exact drive_settleLoop m ws t

theorem Runs.ends_dpuLoop {k n : Nat} {s t : State} {ws : List Work} (h : Runs k s (setDpu (.dpuLoop :: ws) t))
    (hk : k < n) : drive n s = .next (setDpu (.dpuLoop :: ws) t) := by
  obtain ⟨m, rfl⟩ := Nat.exists_eq_add_of_lt hk
  rw [show k + m + 1 = m + 1 + k by omega, h]
  exact drive_dpuLoop m ws t

/-- A micro-operation a trace names, up to its end. -/
theorem runProg_of_runs {k : Nat} {ws : List Work} {s t : State}
    (h : Runs k (setDpu (ws ++ .halt :: s.ctl.dpu) (setRet .ok s)) (setDpu (.halt :: s.ctl.dpu) t)) (hk : k < driveBound) :
    runProg ws s = .next (setDpu s.ctl.dpu t) := by
  rw [runProg_eq]
  exact h.ends_halt hk

/-! ### ENQUEUE (R455) -/

/-- Settles O10: the slot's queue is what `List.modify` changes. -/
theorem enqueueAppends : Obligations.EnqueueAppends := by
  unfold Obligations.EnqueueAppends
  intro r s hshape hslot
  have hlen : r.slot.toNat < s.st.slots.length := by rw [hshape.1]; exact hslot
  have hat (i : Nat) := getD_modify s.st.slots r.slot.toNat i
    (fun x => { x with queue := x.queue ++ [Request.fresh r] }) hlen
  refine ⟨enqueue (Request.fresh r) s, if_neg (Nat.not_le.mpr hslot), rfl, List.length_modify .., ?_, fun i hi => ?_⟩
  · exact (hat _).trans (if_pos rfl)
  · exact (hat i).trans (if_neg hi)

/-! ### DISPATCH (R460) -/

/-- `CMDARG` and `CMD` take their values while no command waits (R111, R112). -/
theorem write_command {s : State} {v : Word} (arg : Word) (hfree : bit s.regs.cmd 31 = false)
    (hv : v &&& 0x803FFFFF#32 = v) : regWrite .CMD v (regWrite .CMDARG arg s)
      = { s with regs := { s.regs with cmdarg := arg, cmd := v } } := by
  have hfree' : startCmd { s with regs := { s.regs with cmdarg := arg } } = false := hfree
  rw [regWrite_cmdarg _ _ hfree, regWrite_cmd _ _ hfree', hv]

/-- DISPATCH's last lines while no command waits (R460). -/
theorem writeCommand_eq {s : State} {a : Active} (ws : List Work) (ha : s.st.active = some a) (hr : s.ctl.ret = .ok)
    (hfree : bit s.regs.cmd 31 = false) : writeCommand (setDpu ws s) = setDpu ws (issued a.toReqOp s) := by
  have hword := cmdWord_mask a.toReqOp (slotAt (setDpu ws s) a.slot.toNat).needInit
  simp only [writeCommand, setDpu_st, ha]
  rw [cmdwOf_eq_cmdWord, write_command a.cmd.arg (s := setDpu ws s) hfree hword]
  refine state_ext rfl rfl rfl rfl rfl ?_
  show { s.ctl with dpu := ws } = { s.ctl with ret := .ok, dpu := ws }
  rw [← hr]

/-- What DISPATCH leaves behind its data path, while no command waits (R460). -/
theorem Runs.issue {s : State} {a : Active} (ws : List Work) (hp : Prompt s) (ha : s.st.active = some a)
    (hr : s.ctl.ret = .ok) (hfree : bit s.regs.cmd 31 = false) :
    Runs 3 (setDpu (.await .startClear .fatal :: .writeCommand :: ws) s) (setDpu ws (issued a.toReqOp s)) :=
  (Runs.await hp hr (by simp [pollHolds, regRead, hfree])).trans
    (.work (w := .writeCommand) rfl (.inl hr) (congrArg Host.Outcome.next (writeCommand_eq ws ha hr hfree)))

/-- A dispatch as a piece of work: `y` is what its data path leaves of the armed state. -/
theorem dispatchBegin_of_path {r : ReqOp} {x y : State} (ws : List Work) (ha : x.st.active = none)
    (hslot : r.slot.toNat < x.cfg.nslots)
    (hpath : dispatchPath (Request.fresh r) (armed r (setDpu ws x)) = .ok (setDpu ws y)) :
    dispatchBegin (Request.fresh r) (setDpu ws x) = .ok (setDpu (.await .startClear .fatal :: .writeCommand :: ws) y) := by
  rw [dispatchBegin_eq (Request.fresh r) (setDpu ws x) ha hslot, dispatchArm_eq, hpath, except_ok_bind, push_setDpu]
  rfl

/-- Settles O11: the data path is empty. -/
theorem dispatchWithoutData : Obligations.DispatchWithoutData := by
  unfold Obligations.DispatchWithoutData
  intro r s hp ha hslot hfree hdata
  exact dispatch_of_path r s (armed r s) hp ha hslot (dispatchPath_none _ _ hdata) rfl _ rfl rfl hfree

theorem prepare_declined {sg : List Seg} {s p : State} {c : Code} (h : prepare sg s = .ok (c, p)) (hc : c ≠ .ok) :
    p = s := by
  unfold prepare at h
  split at h
  · cases h
  · split at h
    · cases h; rfl
    · obtain ⟨s1, -, h⟩ := except_bind_ok h
      cases h; exact absurd rfl hc

/-- DMA_PREPARE named by a trace, in a block with a DMA engine (R552). -/
theorem prepare_of_exec {sg : List Seg} {s p : State} (hd : s.cfg.dmaPresent = true)
    (h : exec (.dmaPrepare sg) s = .next p) : ∃ t, prepare sg s = .ok (p.ctl.ret, t) ∧ p = setRet p.ctl.ret t := by
  simp only [exec, execDmaPrepare, hd, if_true] at h
  split at h
  · cases h; exact ⟨_, ‹_›, rfl⟩
  · cases h

/-- What DISPATCH's data path finds: the state armed, the transfer's geometry written, inside the DPU's work `ws`. -/
abbrev dataReady (r : ReqOp) (d : DataSpec) (ws : List Work) (s : State) : State :=
  setDpu ws (setRet .ok (sized d (armed r s)))

/-- What DMA_PREPARE wrote: the descriptors in memory, and their chain (R552). -/
abbrev chained (p s : State) : State := { s with mem := p.mem, st := { s.st with chain := p.st.chain } }

/-- DMA_PREPARE within a dispatch answers as it does before it (R460, R552). -/
theorem prepare_dataReady {sg : List Seg} {s p : State} {c : Code} (r : ReqOp) (d : DataSpec) (ws : List Work)
    (h : prepare sg s = .ok (c, p)) : prepare sg (dataReady r d ws s)
      = .ok (c, dataReady r d ws (chained p s)) := by
  have hmoves := moves_prepare h
  have hchain : (if c = .ok then p.st.chain else s.st.chain) = p.st.chain := by
    split
    · rfl
    · next hc => rw [prepare_declined h hc]
  have hready := prepare_reframe (dataReady r d ws s).regs (dataReady r d ws s).st (dataReady r d ws s).ctl sg s rfl
  rw [h] at hready
  refine hready.trans (congrArg (fun t => Except.ok (c, t)) ?_)
  refine state_ext hmoves.cfg rfl ?_ hmoves.env rfl rfl
  exact congrArg (fun ch => ({ (dataReady r d ws s).st with chain := ch } : Engine)) hchain

theorem dispatchPath_data {r : ReqOp} {d : DataSpec} (ws : List Work) (s : State) (hdata : r.data = some d) :
    dispatchPath (Request.fresh r) (armed r (setDpu ws (setRet .ok s))) = (do
      let (c, t) ← dispatchPrepare (Request.fresh r) d (dataReady r d ws s)
      if c = .ok then .ok (setDst .dXfer (dmaStart d.dir (modActive (fun a => { a with path := .dma }) t)))
      else .ok (setDst .dXfer (pioSetup d (modActive (fun a => { a with path := .pio }) t)))) := by
  rw [dispatchPath_some _ _ d hdata, dispatchData, sized_setDpu]

/-- The PIO path: PIO_SETUP after the transfer's geometry (R460, R602). -/
theorem dispatchPath_pio {r : ReqOp} {d : DataSpec} (ws : List Work) (s : State) (hdata : r.data = some d)
    (hprep : dispatchPrepare (Request.fresh r) d (dataReady r d ws s) = .ok (.dmaDeclined, dataReady r d ws s)) :
    dispatchPath (Request.fresh r) (armed r (setDpu ws (setRet .ok s)))
      = .ok (setDpu ws (setRet .ok (moving .pio (pioReady d (sized d (armed r s)))))) := by
  rw [dispatchPath_data ws s hdata, hprep, except_ok_bind]
  refine (if_neg (by decide)).trans (congrArg Except.ok ?_)
  cases hdir : d.dir <;> simp only [pioSetup, pioReady, hdir] <;> rfl

/-- Without a DMA engine, and for a tuning read, DISPATCH does not offer the list (R460). -/
theorem dispatchPrepare_skipped {r : ReqOp} (d : DataSpec) {s : State}
    (h : s.cfg.dmaPresent = false ∨ r.origin = .tuning) :
    dispatchPrepare (Request.fresh r) d s = .ok (.dmaDeclined, s) := by
  refine if_neg ?_
  rcases h with h | h
  · simp [h]
  · simp [Request.fresh, h]

theorem dispatchPrepare_offered {r : ReqOp} (d : DataSpec) {s : State} (hd : s.cfg.dmaPresent = true)
    (ho : r.origin = .host) : dispatchPrepare (Request.fresh r) d s = prepare d.sg s :=
  if_pos (by simp [hd, Request.fresh, ho])

/-- Settles O12: in each of the three cases DISPATCH has the list declined. -/
theorem dispatchByPio : Obligations.DispatchByPio := by
  unfold Obligations.DispatchByPio
  intro r d s hp ha hslot hfree hdata hpio
  have hprep (ws : List Work) :
      dispatchPrepare (Request.fresh r) d (dataReady r d ws s) = .ok (.dmaDeclined, dataReady r d ws s) := by
    by_cases hskip : s.cfg.dmaPresent = false ∨ r.origin = .tuning
    · exact dispatchPrepare_skipped d hskip
    · obtain ⟨hd, ho⟩ : s.cfg.dmaPresent = true ∧ r.origin = .host := by
        cases ho : r.origin <;> simp_all
      obtain ⟨p, hexec, hret⟩ := (hpio.resolve_left (by simp [hd])).resolve_left (by simp [ho])
      obtain ⟨t, ht, -⟩ := prepare_of_exec hd hexec
      rw [hret] at ht
      have hready := prepare_dataReady r d ws ht
      rw [prepare_declined ht (by decide)] at hready
      exact (dispatchPrepare_offered d (s := dataReady r d ws s) hd ho).trans hready
  exact dispatch_of_path r s (moving .pio (pioReady d (sized d (armed r s)))) hp ha hslot
    (dispatchPath_pio _ s hdata (hprep _)) rfl _ rfl rfl hfree

theorem regsLegal_dataReady {r : ReqOp} {d : DataSpec} {ws : List Work} {s : State} (hr : RegsLegal s) :
    RegsLegal (dataReady r d ws s) := by
  have harmed := (moves_dispatchArm (Request.fresh r) (setDpu ws (setRet .ok s))).regs hr
  rw [dispatchArm_eq] at harmed
  rw [dataReady, ← sized_setDpu]
  exact (moves_regWrite _ _ _).regs ((moves_regWrite _ _ _).regs harmed)

/-- The DMA path: DMA_START on the chain DMA_PREPARE wrote (R460, R557). -/
theorem dispatchPath_dma {r : ReqOp} {d : DataSpec} {s t : State} (ws : List Work) (hr : RegsLegal s)
    (hstopped : s.st.dmac.state = .stopped) (hdata : r.data = some d) (hd : s.cfg.dmaPresent = true)
    (ho : r.origin = .host) (hprep : prepare d.sg s = .ok (.ok, t)) :
    dispatchPath (Request.fresh r) (armed r (setDpu ws (setRet .ok s))) = .ok (setDpu ws (setRet .ok
      (moving .dma (dmaStarted d.dir (sized d (armed r (chained t s))))))) := by
  rw [dispatchPath_data ws s hdata, dispatchPrepare_offered d (s := dataReady r d ws s) hd ho,
    prepare_dataReady r d ws hprep, except_ok_bind]
  have hstart (f : Active → Active) := dmaStart_eq d.dir (modActive f (dataReady r d ws (chained t s))) hd
    (regsLegal_dataReady (ws := ws) (s := chained t s) hr) hstopped
  refine (if_pos rfl).trans (congrArg Except.ok ?_)
  rw [hstart]
  rfl

/-- Settles O13: DMA_PREPARE leaves its chain, DMA_START runs the engine. -/
theorem dispatchByDma : Obligations.DispatchByDma := by
  unfold Obligations.DispatchByDma
  intro r d s p hp hr ha hslot hfree hstopped hdata hd ho hexec hret
  obtain ⟨t, ht, hpt⟩ := prepare_of_exec hd hexec
  rw [hret] at ht
  rw [hpt]
  exact dispatch_of_path r s (moving .dma (dmaStarted d.dir (sized d (armed r (chained t s))))) hp ha hslot
    (dispatchPath_dma _ hr hstopped hdata hd ho ht) rfl _ rfl rfl hfree

/-! ### DISPATCH_NEXT (R456) -/

theorem slotAt_queue_mem {s : State} {i : Nat} (h : (slotAt s i).queue ≠ []) : slotAt s i ∈ s.st.slots := by
  unfold slotAt at h ⊢
  rw [List.getD_eq_getElem?_getD] at h ⊢
  cases hi : s.st.slots[i]? with
  | none => rw [hi] at h; exact absurd rfl h
  | some x => exact List.mem_of_getElem? hi

theorem nextSlot_eq {s : State} {k : Nat} (hk : 1 ≤ k) (hn : k ≤ s.cfg.nslots)
    (hbefore : ∀ j, 1 ≤ j → j < k → (slotAt s ((s.st.rr + j) % s.cfg.nslots)).queue = [])
    (hat : (slotAt s ((s.st.rr + k) % s.cfg.nslots)).queue ≠ []) :
    nextSlot s = some ((s.st.rr + k) % s.cfg.nslots) := by
  obtain ⟨m, rfl⟩ : ∃ m, k = m + 1 := ⟨k - 1, by omega⟩
  unfold nextSlot
  rw [List.find?_eq_some_iff_getElem]
  refine ⟨decide_eq_true hat, m, by simpa using hn, by simp [Nat.add_assoc], fun j hj => ?_⟩
  simpa [Nat.add_assoc] using hbefore (j + 1) (by omega) (by omega)

/-- DISPATCH_NEXT has no step (R456, log 6). -/
theorem dispatchReady_false {s : State} (h : s.st.active ≠ none ∨ s.st.tuning = true ∨ s.st.fatal = true ∨
    s.st.ctlq ≠ [] ∨ ∀ x ∈ s.st.slots, x.queue = []) : dispatchReady s = false := by
  rcases h with h | h | h | h | h
  · simp [dispatchReady, h]
  · simp [dispatchReady, h]
  · simp [dispatchReady, h]
  · simp [dispatchReady, h]
  · have hnone : anyQueued s = false := by simpa [anyQueued] using h
    simp [dispatchReady, hnone]

theorem dispatchReady_true {s : State} {i : Nat} (hactive : s.st.active = none) (htuning : s.st.tuning = false)
    (hfatal : s.st.fatal = false) (hctlq : s.st.ctlq = []) (hat : (slotAt s i).queue ≠ []) : dispatchReady s = true := by
  have hany : anyQueued s = true := List.any_eq_true.mpr ⟨_, slotAt_queue_mem hat, decide_eq_true hat⟩
  simp [dispatchReady, hactive, htuning, hfatal, hctlq, hany]

/-- The head of slot `i`'s queue taken, the round robin at `i` (R456). -/
abbrev served (i : Nat) (rest : List Request) (s : State) : State :=
  { s with st := { s.st with slots := s.st.slots.modify i fun x => { x with queue := rest }, rr := i } }

section
variable {s : State} {k : Nat} {r : Request} {rest : List Request} (hactive : s.st.active = none)
  (htuning : s.st.tuning = false) (hfatal : s.st.fatal = false) (hctlq : s.st.ctlq = []) (hk : 1 ≤ k)
  (hn : k ≤ s.cfg.nslots) (hbefore : ∀ j, 1 ≤ j → j < k → (slotAt s ((s.st.rr + j) % s.cfg.nslots)).queue = [])
  (hat : (slotAt s ((s.st.rr + k) % s.cfg.nslots)).queue = r :: rest)
include hactive htuning hfatal hctlq hk hn hbefore hat

/-- DISPATCH_NEXT is a dispatch of the request it takes (R456). -/
theorem dispatchNext_serves :
    dispatchNext s = dispatchBegin r (served ((s.st.rr + k) % s.cfg.nslots) rest s) := by
  have hne : (slotAt s ((s.st.rr + k) % s.cfg.nslots)).queue ≠ [] := by simp [hat]
  have hready := dispatchReady_true hactive htuning hfatal hctlq hne
  have hnext := nextSlot_eq hk hn hbefore hne
  simp only [dispatchNext, hready, if_true, hnext, hat]
  rfl

theorem exec_dispatchNext_serves {q : ReqOp} (hq : r = Request.fresh q) :
    exec .dispatchNext s = exec (.dispatch q) (served ((s.st.rr + k) % s.cfg.nslots) rest s) := by
  have hserve := dispatchNext_serves (s := setDpu (.halt :: s.ctl.dpu) (setRet .ok s)) hactive htuning hfatal hctlq hk hn
    hbefore hat
  show runProg [.dispatchNext] s = runProg [.dispatch (Request.fresh q)] _
  rw [runProg_first _ _ _ rfl, runProg_first _ _ _ rfl, List.nil_append, perform, perform, hserve, hq]
  rfl

end

/-- Settles O14: the search from `st.rr` finds the first slot with a request, and what follows is that request's dispatch. -/
theorem dispatchNextRoundRobin : Obligations.DispatchNextRoundRobin := by
  unfold Obligations.DispatchNextRoundRobin
  refine ⟨fun s k r rest hactive htuning hfatal hctlq hshape hk hn hbefore hat => ?_, fun s h => ?_⟩
  · have hserve := exec_dispatchNext_serves hactive htuning hfatal hctlq hk hn hbefore hat rfl
    refine ⟨hserve, fun hp hfree hdata hslot => ?_⟩
    have hdispatch := dispatchWithoutData r (served ((s.st.rr + k) % s.cfg.nslots) rest s) hp hactive hslot hfree hdata
    exact ⟨_, hserve.trans hdispatch, rfl, rfl, rfl⟩
  · have hready : dispatchReady (setDpu (.halt :: s.ctl.dpu) (setRet .ok s)) = false := dispatchReady_false h
    refine runProg_only (w := .dispatchNext) (t := setDpu (.halt :: s.ctl.dpu) (setRet .ok s)) rfl ?_ rfl
    simp only [perform, dispatchNext, hready, Bool.false_eq_true, if_false, ofExcept_ok]

end Sys2Proof.Machine
end

section
/-! PROOFS. The family 41_state_machine.md, events (R465 to R477): what each row leaves, and that an event of no row leaves
the state; the classifications of section 6. -/

namespace Sys2Proof.Machine

/-! ### The classifications (R511 to R513) -/

theorem firstCode_or (x : Option Code) (rest : List (Option Code)) : firstCode (x :: rest) = x.or (firstCode rest) := by
  cases x <;> rfl

theorem some_getD_ok (x : Option Code) : some (x.getD .ok) = x.or (some .ok) := by
  cases x <;> rfl

/-- Settles O23: each definition is the rule's list of cases, read in order. -/
theorem resultsClassified : Obligations.ResultsClassified := by
  unfold Obligations.ResultsClassified
  refine ⟨fun a => ?_, fun p crc => ?_, fun p => ?_⟩
  · simp only [summary, some_getD_ok, firstCode_or, firstCode, Option.or_assoc, Option.none_or]
  · simp only [classifyCmd, bit_eq_getLsbD, Bool.and_eq_true]
  · simp only [classifyData, bit_eq_getLsbD, Bool.or_eq_true]

/-! ### Rows of R465 by the word's code -/

theorem applyEvent_cmdDone (p : BitVec 24) (s : State) :
    applyEvent (eventWord 1 p) s = .next (onCmdDone (p.zeroExtend 32) s) := by
  simp only [applyEvent, eventCode_eventWord 1 p (by decide), eventPayload_eventWord 1 (by decide)]

theorem applyEvent_dataErr (p : BitVec 24) (s : State) :
    applyEvent (eventWord 2 p) s = .next (onDataErr (p.zeroExtend 32) s) := by
  simp only [applyEvent, eventCode_eventWord 2 p (by decide), eventPayload_eventWord 2 (by decide)]

theorem applyEvent_dataOver (p : BitVec 24) (s : State) :
    applyEvent (eventWord 5 p) s = .ofExcept (onDataOver s) := by
  simp only [applyEvent, eventCode_eventWord 5 p (by decide)]

theorem applyEvent_dmaDone (p : BitVec 24) (s : State) : applyEvent (eventWord 6 p) s = .next (onDmaDone s) := by
  simp only [applyEvent, eventCode_eventWord 6 p (by decide)]

theorem applyEvent_watchdog (p : BitVec 24) (s : State) :
    applyEvent (eventWord 9 p) s = .next (onWatchdog (p.zeroExtend 32) s) := by
  simp only [applyEvent, eventCode_eventWord 9 p (by decide), eventPayload_eventWord 9 (by decide)]

/-- The payload names the active request (R466, R477). -/
theorem payload_eq_iff (w v : Word) : eventPayload w = v &&& 0xFFFFFF#32 ↔ bits w 8 24 = bits v 0 24 := by
  have hw := w.isLt
  rw [← BitVec.toNat_inj, BitVec.toNat_and, show (0xFFFFFF#32).toNat = 2 ^ 24 - 1 from rfl,
    Nat.and_two_pow_sub_one_eq_mod, eventPayload, BitVec.toNat_ushiftRight, Nat.shiftRight_eq_div_pow, bits, bits]
  omega

theorem onCmdDone_stale (p : Word) {s : State} (h : ∀ a ∈ s.st.active, ¬ (s.st.cst = .cIssuing ∨ s.st.cst = .cStop)) :
    onCmdDone p s = s := by
  unfold onCmdDone
  split
  · rfl
  · next a ha =>
    have hcst := h a ha
    split
    · next hc => exact absurd (.inl hc) hcst
    · next hc => exact absurd (.inr hc) hcst
    · rfl
    · rfl

theorem onDataErr_stale (p : Word) {s : State} (h : ∀ a ∈ s.st.active, ¬ WireMoving s) : onDataErr p s = s := by
  unfold onDataErr
  split
  · rfl
  · next a ha => exact if_neg fun hm => h a ha ((dataMoving_iff s).mp hm)

theorem pioMoving_stale {d : Dir} {s : State}
    (h : ∀ a ∈ s.st.active, ¬ (s.st.dst = .dXfer ∧ a.path = .pio ∧ ∃ x ∈ a.data, x.dir = d)) :
    pioMoving d s = false := by
  rw [Bool.eq_false_iff, Ne, pioMoving_iff]
  rintro ⟨a, ha, hrow⟩
  exact h a ha hrow

theorem onDataOver_stale {s : State} (h : ∀ a ∈ s.st.active, s.st.dst ≠ .dXfer) : onDataOver s = .ok s := by
  unfold onDataOver
  split
  · rfl
  · next a ha => exact if_neg (h a ha)

theorem onDmaDone_stale {s : State} (h : ∀ a ∈ s.st.active, ¬ (a.path = .dma ∧ WireMoving s)) : onDmaDone s = s := by
  refine if_neg fun hrow => ?_
  rw [Bool.and_eq_true, activePath_iff, dataMoving_iff] at hrow
  obtain ⟨⟨a, ha, hpath⟩, hmoving⟩ := hrow
  exact h a ha ⟨hpath, hmoving⟩

theorem onWatchdog_stale {w : Word} {s : State} (h : ∀ a ∈ s.st.active, bits w 8 24 ≠ bits a.seq 0 24) :
    onWatchdog (eventPayload w) s = s := by
  unfold onWatchdog
  split
  · rfl
  · next a ha => exact if_neg fun hseq => h a ha ((payload_eq_iff w a.seq).mp hseq)

/-- An event of no row leaves the state (R466). -/
theorem applyEvent_stale {w : Word} {s : State} (hlow : 1 ≤ eventCode w) (hhigh : eventCode w ≤ 9)
    (hno : ¬ rowMatches w s) : applyEvent w s = .next s := by
  have hcode : bits w 0 8 = eventCode w := rfl
  simp only [rowMatches, hcode, not_or, not_exists, not_and] at hno
  obtain ⟨hscan, hsdio, hrows⟩ := hno
  unfold applyEvent
  split
  · next hc => exact congrArg _ (onCmdDone_stale _ fun a ha => by simpa using (hrows a ha).1 hc)
  · next hc => exact congrArg _ (onDataErr_stale _ fun a ha => by simpa [WireMoving] using (hrows a ha).2.1 hc)
  · next hc =>
    have hread := pioMoving_stale (d := .read) fun a ha => by simpa using (hrows a ha).2.2.1 hc
    simp [onRxReady, hread]
  · next hc =>
    have hwrite := pioMoving_stale (d := .write) fun a ha => by simpa using (hrows a ha).2.2.2.1 hc
    simp [onTxReady, hwrite]
  · next hc => rw [onDataOver_stale fun a ha => (hrows a ha).2.2.2.2.1 hc, ofExcept_ok]
  · next hc =>
    exact congrArg _ (onDmaDone_stale fun a ha => by simpa [WireMoving] using (hrows a ha).2.2.2.2.2.1 hc)
  · next hc => exact absurd hc hscan
  · next hc => exact absurd hc hsdio
  · next hc => exact congrArg _ (onWatchdog_stale fun a ha => (hrows a ha).2.2.2.2.2.2 hc)
  · -- no code from 1 to 9 is left
    grind

/-- Settles O17: whatever the code, the row's condition fails. -/
theorem staleEventsDiscarded : Obligations.StaleEventsDiscarded := by
  unfold Obligations.StaleEventsDiscarded
  intro w s hlow hhigh hno
  exact runProg_event w s s (applyEvent_stale (s := eventEntry s) hlow hhigh hno) rfl

/-! ### CMD_DONE (R470, R471) -/

theorem onCmdDone_issuing {s : State} {a : Active} (p : BitVec 24) (ha : s.st.active = some a)
    (hcst : s.st.cst = .cIssuing) : onCmdDone (p.zeroExtend 32) s = commandEnded p a s := by
  have hrow : onCmdDone (p.zeroExtend 32) s = primaryDone (p.zeroExtend 32) a s := by simp only [onCmdDone, ha, hcst]
  simp only [hrow, primaryDone, ite_isSome_or]
  rfl

theorem onCmdDone_stop {s : State} {a : Active} (p : Word) (ha : s.st.active = some a) (hcst : s.st.cst = .cStop) :
    onCmdDone p s = stopDone p a s := by
  simp only [onCmdDone, ha, hcst]

/-- The stop command has no reserved bit of `CMD` set (R309, R112). -/
theorem stopWord_mask (slot : BitVec 4) :
    (0x8000414C#32 ||| cardField slot) &&& 0x803FFFFF#32 = 0x8000414C#32 ||| cardField slot := by
  revert slot; decide

theorem writeStop_eq {s : State} {a : Active} (ha : s.st.active = some a) (hfree : bit s.regs.cmd 31 = false) :
    writeStop s = stopWritten a.slot s := by
  have hword : (0x8000414C#32 ||| a.slot.zeroExtend 32 <<< 16) &&& 0x803FFFFF#32 = _ := stopWord_mask a.slot
  simp only [writeStop, ha]
  rw [write_command 0#32 hfree hword]
  rfl

/-- ISSUE_STOP, whatever work follows it (R692). -/
theorem Runs.stop {s : State} {a : Active} (ws : List Work) (hp : Prompt s) (hr : s.ctl.ret = .ok)
    (ha : s.st.active = some a) (hfree : bit s.regs.cmd 31 = false) :
    Runs 3 (setDpu (issueStopProg ++ ws) s) (setDpu ws (stopWritten a.slot s)) :=
  (Runs.await hp hr (by simp [pollHolds, regRead, hfree])).trans
    (.work (w := .writeStop) rfl (.inl hr) (congrArg Host.Outcome.next (writeStop_eq (s := setDpu ws s) ha hfree)))

/-- An event word whose row leaves work of its own (R465). -/
theorem runProg_event_runs {w : Word} {k : Nat} {s t y : State} (hrow : applyEvent w (eventEntry s) = .next y)
    (h : Runs k y (setDpu (.halt :: s.ctl.dpu) t)) (hk : k + 1 < driveBound) :
    runProg [.event w] s = .next (setDpu s.ctl.dpu t) :=
  runProg_of_runs ((Runs.work (w := .event w) rfl (.inl rfl) hrow).trans h) (by omega)

/-- Settles O18: the command's end, the stop tried again, the stop's end. -/
theorem cmdDoneEndsCommandOrStop : Obligations.CmdDoneEndsCommandOrStop := by
  unfold Obligations.CmdDoneEndsCommandOrStop
  intro p a s ha
  refine ⟨fun hcst => ?ended, fun hcst herr htries hp hfree => ?again, fun hcst hend => ?stopped⟩
  case ended =>
    refine runProg_event _ s (commandEnded p a s) ?_ rfl
    rw [applyEvent_cmdDone, onCmdDone_issuing (s := eventEntry s) p ha hcst]
    rfl
  case again =>
    have hrow : applyEvent (eventWord 1 p) (eventEntry s) = .next (setDpu (issueStopProg ++ .halt :: s.ctl.dpu)
        (setRet .ok (withActive { a with stopResp := s.regs.resp0, stopTries := a.stopTries + 1 } s))) := by
      have hagain : (classifyCmd (p.zeroExtend 32) true).isSome = true ∧ a.stopTries < s.cfg.stopRetryMax :=
        ⟨Option.isSome_iff_ne_none.mpr herr, htries⟩
      rw [applyEvent_cmdDone, onCmdDone_stop (s := eventEntry s) _ ha hcst]
      exact congrArg _ (if_pos hagain)
    exact runProg_event_runs hrow
      (Runs.stop (a := { a with stopResp := s.regs.resp0, stopTries := a.stopTries + 1 }) _ hp rfl rfl hfree) (by decide)
  case stopped =>
    have hend' : ¬ ((classifyCmd (p.zeroExtend 32) true).isSome = true ∧ a.stopTries < s.cfg.stopRetryMax) := by
      rcases hend with h | h
      · simp [h]
      · omega
    refine runProg_event _ s (withActive { a with
        stopResp := s.regs.resp0
        stopErr := (classifyCmd (p.zeroExtend 32) true).or a.stopErr
        recovPending := (classifyCmd (p.zeroExtend 32) true).isSome || a.recovPending
        stopDone := true } { s with st := { s.st with cst := .cIdle } }) ?_ rfl
    rw [applyEvent_cmdDone, onCmdDone_stop (s := eventEntry s) _ ha hcst]
    simp only [stopDone, ite_isSome_or]
    exact congrArg _ (if_neg hend')

/-! ### DATA_ERR, DATA_OVER, DMA_DONE, WATCHDOG (R472, R475 to R477) -/

/-- A new phase of the data, the FIFO-ready interrupts masked on the PIO path (R472, R475). -/
abbrev maskedIn (d : DState) (a : Active) (s : State) : State := pioMasked a { s with st := { s.st with dst := d } }

theorem setDst_mask (d : DState) (a : Active) (s : State) :
    setDst d (if a.path = .pio then regWrite .INTMASK s.st.baseMask s else s) = maskedIn d a s := by
  unfold maskedIn pioMasked
  by_cases hpath : a.path = .pio
  · rw [if_pos hpath, if_pos hpath]
    rfl
  · rw [if_neg hpath, if_neg hpath]
    rfl

theorem toDRecovery_eq {s : State} {a : Active} (ha : s.st.active = some a) : toDRecovery s = maskedIn .dRecovery a s := by
  have hdef : toDRecovery s = setDst .dRecovery (if a.path = .pio then regWrite .INTMASK s.st.baseMask s else s) := by
    simp only [toDRecovery, ha]
  rw [hdef, setDst_mask]

/-- What quiescing the data phase of `a` leaves: the DMA engine stopped on the DMA path, the FIFO-ready interrupts masked on
the PIO path, DRecovery (R472, R491, R492). -/
abbrev quiesced (a : Active) (s : State) : State :=
  (if a.path = .dma then dmaStopped else pioMasked a) { s with st := { s.st with dst := .dRecovery } }

theorem quiesceData_direct {s : State} {a : Active} (ha : s.st.active = some a) (hpath : a.path ≠ .dma) :
    quiesceData s = quiesced a s := by
  have hdef : quiesceData s = toDRecovery s := by simp only [quiesceData, ha, if_neg hpath]
  rw [hdef, quiesced, if_neg hpath]
  exact toDRecovery_eq ha

/-- DMA_STOP's writes done: the enables are 0 and the engine is stopped, the arena not yet the block's (R565, R560). -/
def dmaDisabled (s : State) : State :=
  { s with
    regs := { s.regs with ctrl := s.regs.ctrl &&& ~~~0x02000020#32, bmod := s.regs.bmod &&& ~~~0x80#32 }
    st := { s.st with dmac := { s.st.dmac with state := .stopped, desc := none } } }

/-- DMA_STOP, whatever its poll's expiry would do and whatever work follows it: the poll's condition holds at once (R565). -/
theorem Runs.dmaStop {s : State} (e : PollEnd) (ws : List Work) (hp : Prompt s) (hr : RegsLegal s)
    (hret : s.ctl.ret = .ok) :
    Runs 4 (setDpu (.dmaOff :: .await .dmaStopped e :: .dmaRelease :: ws) s) (setDpu ws (dmaStopped s)) := by
  have hoff (l : List Work) : dmaOff (setDpu l s) = setDpu l (dmaDisabled s) := dmaOff_eq (setDpu l s) hr
  have hr' : RegsLegal (dmaDisabled s) :=
    { hr with ctrl := not_mask_zero _ _ _ hr.ctrl, bmod := not_mask_zero _ _ _ hr.bmod }
  have hidle : pollHolds .dmaStopped (dmaDisabled s) = true :=
    decide_eq_true (idsts_fsm _ hr' (by simp [dmaDisabled]))
  exact (Runs.work (w := .dmaOff) rfl (.inl hret) (congrArg Host.Outcome.next (hoff _))).trans
    ((Runs.await (s := dmaDisabled s) hp hret hidle).trans
      (.work (w := .dmaRelease) (t := setDpu ws (dmaStopped s)) rfl (.inl hret) rfl))

theorem Runs.quiesce_dma {s : State} {a : Active} (ws : List Work) (hp : Prompt s) (hr : RegsLegal s)
    (hret : s.ctl.ret = .ok) (ha : s.st.active = some a) (hpath : a.path = .dma) :
    Runs 5 (quiesceData (setDpu ws s)) (setDpu ws (quiesced a s)) := by
  have hbegin : quiesceData (setDpu ws s) = setDpu (dmaStopProg ++ (.toDRecovery :: ws)) s := by
    simp only [quiesceData, setDpu_st, ha, if_pos hpath]
    rfl
  have hend : toDRecovery (setDpu ws (dmaStopped s)) = setDpu ws (quiesced a s) := by
    rw [toDRecovery_eq (a := a) (by exact ha), quiesced, if_pos hpath]
    simp only [pioMasked, hpath]
    rfl
  rw [hbegin]
  exact (Runs.dmaStop .fatal _ hp hr hret).trans (.work (w := .toDRecovery) rfl (.inl hret) (congrArg Host.Outcome.next hend))

/-- Settles O19: DATA_ERR's row is the error kept and the data phase quiesced. -/
theorem dataErrorEntersRecovery : Obligations.DataErrorEntersRecovery := by
  unfold Obligations.DataErrorEntersRecovery
  intro p a s ha hmoving
  generalize hb : ({ a with
    dataErr := a.dataErr.or (classifyData (p.zeroExtend 32)), recovPending := true } : Active) = b
  have hpath : b.path = a.path := by rw [← hb]
  have hrow : applyEvent (eventWord 2 p) (eventEntry s)
      = .next (quiesceData (setDpu (.halt :: s.ctl.dpu) (setRet .ok (withActive b s)))) := by
    have hkeep : onDataErr (p.zeroExtend 32) (eventEntry s) = quiesceData (eventEntry (withActive b s)) := by
      rw [← hb]
      simp only [onDataErr, setDpu_st, setRet_st, ha, ite_isSome_or]
      exact if_pos ((dataMoving_iff s).mpr hmoving)
    rw [applyEvent_dataErr, hkeep]
    rfl
  refine ⟨fun hdma => ?direct, fun hdma hp hr => ?dma⟩
  case direct =>
    refine runProg_event _ s (pioMasked a (withActive b { s with st := { s.st with dst := .dRecovery } })) ?_ rfl
    rw [hrow, quiesceData_direct rfl (by rw [hpath]; exact hdma), quiesced, if_neg (by rw [hpath]; exact hdma)]
    simp only [pioMasked, hpath]
    rfl
  case dma =>
    have hstop := Runs.quiesce_dma (.halt :: s.ctl.dpu) (s := setRet .ok (withActive b s)) hp hr rfl rfl (hpath.trans hdma)
    have hend := runProg_event_runs hrow hstop (by decide)
    rw [quiesced, if_pos (hpath.trans hdma)] at hend
    exact hend

/-- DATA_OVER in DXfer, whatever its drain answers (R475). -/
theorem onDataOver_moving {s : State} {a : Active} (ha : s.st.active = some a) (hdst : s.st.dst = .dXfer) :
    onDataOver s = (drainRead s).map (maskedIn .dBusy a) := by
  have hdef : onDataOver s = (drainRead s >>= fun t => .ok (setDst .dBusy (if a.path = .pio then
      regWrite .INTMASK t.st.baseMask t else t))) := by
    simp only [onDataOver, ha]
    exact if_pos hdst
  rw [hdef]
  simp only [setDst_mask]
  cases drainRead s <;> rfl

/-- Settles O20: a read by PIO is drained by PIO_PULL, which looks at no bookkeeping; any other is not. -/
theorem dataOverEntersBusy : Obligations.DataOverEntersBusy := by
  unfold Obligations.DataOverEntersBusy
  intro p a s ha hdst
  have hrow : applyEvent (eventWord 5 p) (eventEntry s) = .ofExcept ((drainRead (eventEntry s)).map (maskedIn .dBusy a)) := by
    rw [applyEvent_dataOver, onDataOver_moving (s := eventEntry s) ha hdst]
  refine ⟨fun hno => ?kept, fun d t hpath hdata hdir hpull => ?drained⟩
  case kept =>
    have hread : pioMoving .read (eventEntry s) = false := by
      refine pioMoving_stale fun b (hb : s.st.active = some b) => ?_
      obtain rfl : a = b := Option.some.inj (ha.symm.trans hb)
      rintro ⟨-, hpath, d, hd, hdir⟩
      exact hno.elim (fun h => h hpath) fun h => by rw [h d hd] at hdir; cases hdir
    have hdrain : drainRead (eventEntry s) = .ok (eventEntry s) := if_neg (Bool.eq_false_iff.mp hread)
    refine runProg_event _ s (maskedIn .dBusy a s) ?_ rfl
    rw [hrow, hdrain]
    rfl
  case drained =>
    have hread : pioMoving .read (eventEntry s) = true := (pioMoving_iff _ _).mpr ⟨a, ha, hdst, hpath, d, hdata, hdir⟩
    have hpull' : pioPull true (setRet .ok s) = .ok t := ofExcept_next hpull
    rw [show drainRead (eventEntry s) = pioPull true (eventEntry s) from if_pos hread] at hrow
    have hrun := runProg_event_pio (f := fun x => (pioPull true x).map (maskedIn .dBusy a)) (fun c x => ?_) hrow
    · rw [hpull'] at hrun
      exact hrun
    · simp only [pioPull_withCtl]
      cases pioPull true x <;> rfl

/-- Settles O21: the row is one update of the active request. -/
theorem dmaDoneAndWatchdogRecorded : Obligations.DmaDoneAndWatchdogRecorded := by
  unfold Obligations.DmaDoneAndWatchdogRecorded
  intro p a s ha
  refine ⟨fun hpath hmoving => ?done, fun hseq => ?expired⟩
  case done =>
    have hrow : onDmaDone (eventEntry s) = modActive (fun a => { a with dmaDone := true }) (eventEntry s) := by
      refine if_pos ?_
      rw [Bool.and_eq_true, activePath_iff, dataMoving_iff]
      exact ⟨⟨a, ha, hpath⟩, hmoving⟩
    refine runProg_event _ s (withActive { a with dmaDone := true } s) ?_ rfl
    rw [applyEvent_dmaDone, hrow]
    simp only [modActive, setDpu_st, setRet_st, ha]
    rfl
  case expired =>
    have hpayload : p.zeroExtend 32 = a.seq &&& 0xFFFFFF#32 := by
      rw [hseq, ← BitVec.toNat_inj, BitVec.toNat_and, show (0xFFFFFF#32).toNat = 2 ^ 24 - 1 from rfl,
        Nat.and_two_pow_sub_one_eq_mod]
      simp
      omega
    have hrow : onWatchdog (p.zeroExtend 32) (eventEntry s) = setCst .cRecovery (withActive
        { a with reqErr := some .reqTimeout, recovPending := true } (eventEntry s)) := by
      simp only [onWatchdog, setDpu_st, setRet_st, ha, hpayload]
      exact if_pos trivial
    refine runProg_event _ s (withActive { a with reqErr := some .reqTimeout, recovPending := true }
      { s with st := { s.st with cst := .cRecovery } }) ?_ rfl
    rw [applyEvent_watchdog, hrow]
    rfl

end Sys2Proof.Machine
end

section
/-! PROOFS. The family 41_state_machine.md, the settle pass and completion (R490 to R503, R510, R515): what each firing leaves.
A firing runs up to the next turn of the pass, where a poll does not wait. -/

namespace Sys2Proof.Machine

/-! ### COMPLETE (R510) -/

theorem completeActive_host {s : State} {a : Active} (ha : s.st.active = some a) (ho : a.origin = .host) :
    completeActive s = completed a (summary a) s := by
  have hdef : completeActive s = deliver (reqRecord a) (keepBuffers a (clearActive s)) := by
    simp only [completeActive, ha, ho]
  rw [hdef, keepBuffers, completed]
  split <;> rfl

theorem completeActive_tuning {s : State} {a : Active} (ha : s.st.active = some a) (ho : a.origin = .tuning) :
    completeActive s = tuneResult (summary a) (clearActive s) := by
  simp only [completeActive, ha, ho]

theorem tuneFinish_withCtl (c : Control) (code : Code) (s : State) :
    tuneFinish code (withCtl c s) = withCtl c (tuneFinish code s) := by
  unfold tuneFinish
  rw [show (withCtl c s).st = s.st from rfl]
  split
  · rfl
  · split <;> rfl

theorem tuneResult_withCtl (c : Control) (code : Code) (s : State) :
    tuneResult code (withCtl c s) = withCtl c (tuneResult code s) := by
  unfold tuneResult
  rw [show (withCtl c s).st = s.st from rfl]
  split
  · rfl
  · split
    · exact tuneFinish_withCtl c code { s with st := _ }
    · rfl

/-- COMPLETE does not look at the DPU's work and leaves it. -/
theorem completeActive_within (ws : List Work) (r : Code) (s : State) :
    completeActive (setDpu ws (setRet r s)) = setDpu ws (setRet r (completeActive s)) := by
  cases ha : s.st.active with
  | none => simp only [completeActive, setDpu_st, setRet_st, ha]
  | some a =>
    cases ho : a.origin with
    | host =>
      rw [completeActive_host ha ho, completeActive_host (s := setDpu ws (setRet r s)) ha ho]
      rfl
    | tuning =>
      have hinside := tuneResult_withCtl { s.ctl with dpu := ws, ret := r } (summary a) (clearActive s)
      have houtside := tuneResult_withCtl s.ctl (summary a) (clearActive s)
      rw [completeActive_tuning ha ho, completeActive_tuning (s := setDpu ws (setRet r s)) ha ho]
      refine hinside.trans ?_
      rw [show withCtl s.ctl (clearActive s) = clearActive s from rfl] at houtside
      rw [houtside]
      rfl

theorem exec_complete {s : State} {a : Active} (ha : s.st.active = some a) (ho : s.st.dmac.owner = .block) :
    exec .complete s = .next (setRet .ok (completeActive s)) := by
  simp only [exec, execComplete, ha, ho]
  rfl

/-- Settles O24: the record of a HOST request is `completeActive_host`'s. -/
theorem completeDeliversRecord : Obligations.CompleteDeliversRecord := by
  unfold Obligations.CompleteDeliversRecord
  intro a s ha
  refine ⟨fun hhost howner => ?_, fun howner => ?_⟩
  · rw [exec_complete ha howner, completeActive_host ha hhost]
  · simp only [exec, execComplete, ha, howner, if_true]

/-! ### A firing of the settle pass (R490) -/

/-- The work left behind a firing: the next turn of the pass. -/
abbrev settleTail (s : State) : List Work := .settleLoop :: .halt :: s.ctl.dpu

/-- A firing that runs up to the next turn of the pass. -/
theorem settle_of_runs {r : SettleRule} {k : Nat} {s x : State} (h : SettlesBy r s) (hr : r ≠ .complete)
    (hx : x.ctl.dpu = s.ctl.dpu)
    (hfire : Runs k (settleFire r (setDpu (settleTail s) (setRet .ok s))) (setDpu (settleTail s) (setRet .ok x)))
    (hk : k < driveBound) : exec .settle s = .next (settling x) := by
  rw [settle_fires s r h fun hc => hr hc.1]
  refine (hfire.ends_settleLoop hk).trans (congrArg Host.Outcome.next ?_)
  rw [← hx]
  rfl

/-- A firing that leaves no work of its own. -/
theorem settle_of_fire {r : SettleRule} {s x : State} (h : SettlesBy r s) (hr : r ≠ .complete)
    (hx : x.ctl.dpu = s.ctl.dpu)
    (hfire : settleFire r (setDpu (settleTail s) (setRet .ok s)) = setDpu (settleTail s) (setRet .ok x)) :
    exec .settle s = .next (settling x) :=
  settle_of_runs h hr hx (by rw [hfire]; exact .refl _) (by decide)

/-! ### The data phase quiesced (R491, R492) -/

theorem Runs.quiesce {s : State} {a : Active} (ws : List Work) (hp : Prompt s) (hr : RegsLegal s)
    (hret : s.ctl.ret = .ok) (ha : s.st.active = some a) :
    ∃ k, k < driveBound ∧ Runs k (quiesceData (setDpu ws s)) (setDpu ws (quiesced a s)) := by
  by_cases hpath : a.path = .dma
  · exact ⟨5, by decide, .quiesce_dma ws hp hr hret ha hpath⟩
  · refine ⟨0, by decide, ?_⟩
    rw [quiesceData_direct (s := setDpu ws s) ha hpath, quiesced, quiesced, if_neg hpath]
    exact .refl _

theorem quiesced_setRet (a : Active) (r : Code) (s : State) : quiesced a (setRet r s) = setRet r (quiesced a s) := by
  unfold quiesced
  split <;> rfl

theorem quiesced_dpu (a : Active) (s : State) : (quiesced a s).ctl.dpu = s.ctl.dpu := by
  unfold quiesced
  split <;> rfl

/-- WATCHDOG_RECOVER is the firing its phases ask for (R491). -/
theorem exec_watchdogRecover {s : State} (ha : s.st.active ≠ none) (hcst : s.st.cst = .cRecovery) :
    exec .watchdogRecover s = drive driveBound (settleFire (if dataMoving s.st.dst then .wdData else .wdCmd)
      (setDpu (.halt :: s.ctl.dpu) (setRet .ok s))) :=
  if_pos ⟨Option.isSome_iff_ne_none.mpr ha, hcst⟩

/-- Settles O25: both rules fire `quiesceData`, and so does WATCHDOG_RECOVER. -/
theorem settleQuiescesData : Obligations.SettleQuiescesData := by
  unfold Obligations.SettleQuiescesData
  intro a s ha hp hr
  have hquiesce (ws : List Work) := Runs.quiesce ws (s := setRet .ok s) hp hr rfl ha
  simp only [quiesced_setRet] at hquiesce
  refine ⟨fun hrule => ?settle, fun hguard => ?named⟩
  case settle =>
    obtain ⟨k, hk, hruns⟩ := hquiesce (settleTail s)
    rcases hrule with hrule | hrule
    · exact settle_of_runs hrule (by decide) (quiesced_dpu a s) hruns hk
    · exact settle_of_runs hrule (by decide) (quiesced_dpu a s) hruns hk
  case named =>
    obtain ⟨k, hk, hruns⟩ := hquiesce (.halt :: s.ctl.dpu)
    obtain ⟨hactive, hcst, hmoving⟩ := hguard
    rw [exec_watchdogRecover hactive hcst, if_pos ((dataMoving_iff s).mpr hmoving)]
    refine (hruns.ends_halt hk).trans (congrArg Host.Outcome.next ?_)
    rw [← quiesced_dpu a s]
    rfl

/-! ### The command phase ended by the watchdog (R491) -/

theorem wdEnd_eq {s : State} {a : Active} (ha : s.st.active = some a) :
    wdEnd s = withActive (watchdogEnded a) { s with st := { s.st with cst := .cIdle } } := by
  have hdone : (a.stopIssued && !a.stopDone || a.stopDone) = (a.stopIssued || a.stopDone) := by
    cases a.stopIssued <;> cases a.stopDone <;> rfl
  have herr : (if (a.stopIssued && !a.stopDone && a.stopErr.isNone) = true then some .reqTimeout else a.stopErr)
      = if a.stopIssued = true ∧ a.stopDone = false then a.stopErr.or (some .reqTimeout) else a.stopErr := by
    cases a.stopIssued <;> cases a.stopDone <;> cases a.stopErr <;> rfl
  unfold wdEnd
  split
  · next h => rw [ha] at h; cases h
  · next b hb =>
    obtain rfl : a = b := Option.some.inj (ha.symm.trans hb)
    simp only [hdone, herr]
    rfl

/-- RESET_CONTROLLER with work behind it, up to its wait for BUS (R685). -/
theorem resetController_waits {s : State} (ws : List Work) (n : Nat) (hp : Prompt s) (hr : RegsLegal s)
    (hret : s.ctl.ret = .ok) : drive (n + 3) (setDpu (resetControllerProg ++ ws) s)
      = .next (setDpu (.poll (.resetClear 0x7#32) (s.st.now + ticks s.cfg s.cfg.resetTimeout) .fatal :: .clearPartBuf :: ws)
        (asserted 0x7#32 0#32 s)) :=
  reset_waits s 0x7#32 ws n hp hr (by decide) (by decide) hret

/-- Settles O26: RESET_CONTROLLER waits for BUS, and `wdEnd` follows it. -/
theorem watchdogResetsController : Obligations.WatchdogResetsController := by
  unfold Obligations.WatchdogResetsController
  intro a s ha hp hr hn
  have hpos : s.st.now < s.st.now + ticks s.cfg s.cfg.resetTimeout :=
    Nat.lt_add_of_pos_right (pollTimeout_pos hp.1 (.resetClear 0x7#32))
  have hwait (ws : List Work) := resetController_waits (s := setRet .ok s) (.wdEnd :: ws) 509 hp hr rfl
  have hserve (ws : List Work) : serveResets (setDpu (.poll (.resetClear 0x7#32)
      (s.st.now + ticks s.cfg s.cfg.resetTimeout) .fatal :: .clearPartBuf :: .wdEnd :: ws)
      (asserted 0x7#32 0#32 (setRet .ok s))) = drive 510 (setDpu ws (setRet .ok (withActive (watchdogEnded a)
        { controllerReset s with st := { (controllerReset s).st with cst := .cIdle } }))) := by
    have hend : wdEnd (setDpu ws (controllerReset (setRet .ok s))) = _ := wdEnd_eq (a := a) ha
    rw [controller_reset_served (setRet .ok s) _ _ hp hn hpos rfl, drive_work 510 .wdEnd _ _ rfl (.inl rfl),
      perform, andThen_next, hend]
    rfl
  refine ⟨fun hrule => ?settle, fun hguard => ?named⟩
  case settle =>
    refine ⟨_, (settle_fires s _ hrule (by simp)).trans (hwait (settleTail s)), (hserve _).trans ?_⟩
    exact drive_settleLoop 509 _ _
  case named =>
    obtain ⟨hactive, hcst, hmoving⟩ := hguard
    refine ⟨_, ?_, (hserve (.halt :: s.ctl.dpu)).trans (drive_halt 509 _ _)⟩
    rw [exec_watchdogRecover hactive hcst, if_neg fun h => hmoving ((dataMoving_iff s).mp h)]
    exact hwait _

/-! ### Busy waits, the data's end, the stop (R493 to R499) -/

section
variable {s : State} {a : Active} (ha : s.st.active = some a)
include ha

theorem dataBusyEnd_ready (hret : s.ctl.ret = .ok) : dataBusyEnd s = withActive { a with dbusyChecked := true } s := by
  simp only [dataBusyEnd, ha, hret]
  rfl

theorem cmdBusyEnd_ready (hret : s.ctl.ret = .ok) : cmdBusyEnd s = withActive { a with cbusyChecked := true } s := by
  simp only [cmdBusyEnd, ha, hret]
  rfl

theorem stopBusyEnd_ready (hret : s.ctl.ret = .ok) : stopBusyEnd s = withActive { a with sbusyChecked := true } s := by
  simp only [stopBusyEnd, ha, hret]
  rfl

theorem dataBusyEnd_timeout (hret : s.ctl.ret = .busyTimeout) : dataBusyEnd s = setRet .ok (withActive { a with
    dbusyChecked := true, dataErr := a.dataErr.or (some .busyTimeout), recovPending := true }
    { s with st := { s.st with dst := .dRecovery } }) := by
  simp only [dataBusyEnd, ha, hret, if_true, ite_isSome_or]
  rfl

theorem cmdBusyEnd_timeout (hret : s.ctl.ret = .busyTimeout) : cmdBusyEnd s = setRet .ok (withActive { a with
    cbusyChecked := true, cmdErr := some .busyTimeout, recovPending := true } s) := by
  simp only [cmdBusyEnd, ha, hret, if_true]
  rfl

theorem stopBusyEnd_timeout (hret : s.ctl.ret = .busyTimeout) : stopBusyEnd s = setRet .ok (withActive { a with
    sbusyChecked := true, stopErr := some .busyTimeout, recovPending := true } s) := by
  simp only [stopBusyEnd, ha, hret, if_true]
  rfl

theorem dataEnd_eq : dataEnd s = withActive { a with dataOk := true, bytesDone := transferBytes a.toReqOp }
    { s with st := { s.st with dst := .dIdle } } := by
  simp only [dataEnd, ha]
  rfl

theorem dataBusyBegin_write (h : dirIs a.toReqOp .write = true) :
    dataBusyBegin s = push (waitNotBusyProg ++ [.dataBusyEnd]) s := by
  simp only [dataBusyBegin, ha, h, if_true]

theorem dataBusyBegin_read (h : dirIs a.toReqOp .write = false) : dataBusyBegin s = dataBusyEnd s := by
  simp only [dataBusyBegin, ha, h, Bool.false_eq_true, if_false]

theorem activePath_of_active (p : Path) : activePath p s = true ↔ a.path = p := by
  simp [activePath, ha]

end

/-- A wait for a card that is not busy, and the firing's end behind it (R686). -/
theorem Runs.notBusy {w : Work} {s y : State} (ws : List Work) (hp : Prompt s) (hret : s.ctl.ret = .ok)
    (hfree : bit (regRead .STATUS s) 9 = false) (hw : w.plain = true) (hend : perform w (setDpu ws s) = .next (setDpu ws y)) :
    Runs 4 (setDpu (waitNotBusyProg ++ (w :: ws)) s) (setDpu ws y) :=
  Runs.trans (fun n => waitNotBusy_passes n (w :: ws) hp hret hfree) (.work hw (.inl hret) hend)

theorem dirIs_write_false {r : ReqOp} (h : ∀ d ∈ r.data, d.dir = .read) : dirIs r .write = false := by
  unfold dirIs
  split
  · rfl
  · next d hd => simp [h d hd]

/-- Settles O27: each rule's firing, with every poll's condition true at once. -/
theorem settlePhases : Obligations.SettlePhases := by
  unfold Obligations.SettlePhases
  intro a s ha hp
  refine ⟨fun hrule hready => ?dataBusy, fun hrule hr => ?dataDone, fun hrule hfree => ?cmdBusy,
    fun hrule hfree => ?stopBusy, fun hrule hfree => ?issueStop⟩
  case dataBusy =>
    have hend : dataBusyEnd (setDpu (settleTail s) (setRet .ok s)) = _ := dataBusyEnd_ready (a := a) ha rfl
    cases hdir : dirIs a.toReqOp .write with
    | false =>
      exact settle_of_fire hrule (by decide) rfl
        ((dataBusyBegin_read (s := setDpu (settleTail s) (setRet .ok s)) ha hdir).trans hend)
    | true =>
      have hfree : bit (regRead .STATUS s) 9 = false :=
        hready.resolve_left fun h => by rw [dirIs_write_false h] at hdir; cases hdir
      have hbegin : settleFire .dataBusy (setDpu (settleTail s) (setRet .ok s)) = _ :=
        dataBusyBegin_write (a := a) ha hdir
      refine settle_of_runs (k := 4) hrule (by decide) rfl ?_ (by decide)
      rw [hbegin]
      exact Runs.notBusy (w := .dataBusyEnd) (s := setRet .ok s) (settleTail s) hp rfl hfree rfl
        (congrArg Host.Outcome.next hend)
  case dataDone =>
    by_cases hpath : a.path = .dma
    · rw [if_pos hpath]
      have hbegin : settleFire .dataDone (setDpu (settleTail s) (setRet .ok s))
          = setDpu (dmaStopProg ++ (.dataEnd :: settleTail s)) (setRet .ok s) :=
        if_pos ((activePath_of_active (by exact ha) .dma).mpr hpath)
      have hend : dataEnd (setDpu (settleTail s) (dmaStopped (setRet .ok s))) = _ := dataEnd_eq (a := a) ha
      refine settle_of_runs (k := 5) hrule (by decide) rfl ?_ (by decide)
      rw [hbegin]
      exact (Runs.dmaStop .fatal _ (s := setRet .ok s) hp hr rfl).trans
        (.work (w := .dataEnd) rfl (.inl rfl) (congrArg Host.Outcome.next hend))
    · rw [if_neg hpath]
      have hbegin : settleFire .dataDone (setDpu (settleTail s) (setRet .ok s)) = dataEnd _ :=
        if_neg fun h => hpath ((activePath_of_active (by exact ha) .dma).mp h)
      exact settle_of_fire hrule (by decide) rfl (hbegin.trans (dataEnd_eq ha))
  case cmdBusy =>
    exact settle_of_runs hrule (by decide) rfl (Runs.notBusy (w := .cmdBusyEnd) (s := setRet .ok s) (settleTail s) hp rfl
      hfree rfl (congrArg Host.Outcome.next (cmdBusyEnd_ready (s := setDpu (settleTail s) (setRet .ok s)) ha rfl)))
      (by decide)
  case stopBusy =>
    exact settle_of_runs hrule (by decide) rfl (Runs.notBusy (w := .stopBusyEnd) (s := setRet .ok s) (settleTail s) hp rfl
      hfree rfl (congrArg Host.Outcome.next (stopBusyEnd_ready (s := setDpu (settleTail s) (setRet .ok s)) ha rfl)))
      (by decide)
  case issueStop =>
    have hbegin : settleFire .issueStop (setDpu (settleTail s) (setRet .ok s)) = setDpu (issueStopProg ++ settleTail s)
        (setRet .ok (withActive { a with stopIssued := true, stopTries := 0 } s)) := by
      show push issueStopProg (modActive _ _) = _
      simp only [modActive, setDpu_st, setRet_st, ha]
      rfl
    refine settle_of_runs (k := 3) hrule (by decide) rfl ?_ (by decide)
    rw [hbegin]
    exact Runs.stop (a := { a with stopIssued := true, stopTries := 0 }) (settleTail s) hp rfl rfl hfree

/-- Settles O28: the second window's expiry is BUSY_TIMEOUT, which the firing's end handles. -/
theorem busyTimeoutRecorded : Obligations.BusyTimeoutRecorded := by
  unfold Obligations.BusyTimeoutRecorded
  intro a s t rest ha hy ht
  have hexpire {w : Work} {y : State} (hw : w.plain = true) (hh : w.handles = true)
      (hdpu : s.ctl.dpu = .poll .notBusy t .busy :: w :: .settleLoop :: rest)
      (hend : perform w (setDpu (.settleLoop :: rest) (setRet .busyTimeout s)) = .next (setDpu (.settleLoop :: rest) y)) :
      dpuStep s = .next (setDpu (.settleLoop :: rest) y) :=
    (dpuStep_expired hdpu hy ht).trans ((Runs.work hw (.inr hh) hend).ends_settleLoop (by decide))
  refine ⟨fun hdpu => ?_, fun hdpu => ?_, fun hdpu => ?_⟩
  · exact hexpire rfl rfl hdpu (congrArg Host.Outcome.next
      (dataBusyEnd_timeout (s := setDpu (.settleLoop :: rest) (setRet .busyTimeout s)) ha rfl))
  · exact hexpire rfl rfl hdpu (congrArg Host.Outcome.next
      (cmdBusyEnd_timeout (s := setDpu (.settleLoop :: rest) (setRet .busyTimeout s)) ha rfl))
  · exact hexpire rfl rfl hdpu (congrArg Host.Outcome.next
      (stopBusyEnd_timeout (s := setDpu (.settleLoop :: rest) (setRet .busyTimeout s)) ha rfl))

/-! ### The request completed, the pass ended (R501, R502) -/

theorem exec_settle_complete {s : State} (h : SettlesBy .complete s) (ho : s.st.dmac.owner = .block) :
    exec .settle s = .next (settling (completeActive s)) := by
  have hfire : settleFire .complete (settling s) = setDpu (settleTail s) (setRet .ok (completeActive s)) :=
    completeActive_within (settleTail s) .ok s
  rw [settle_fires s _ h (by simp [ho]), hfire, settling, push_eq_setDpu]
  refine (drive_settleLoop 511 _ _).trans (congrArg Host.Outcome.next ?_)
  rw [setRet_dpu, completeActive_dpu]
  rfl

/-- The pass ends where no guard holds (R502). -/
theorem exec_settle_ends {s : State} (h : ∀ r, ¬ SettleGuard r s) : exec .settle s = .next (setRet .ok s) := by
  have hnone : settleRule (push [.settleLoop, .halt] s) = none := by
    cases hr : settleRule s with
    | none => exact hr
    | some r => exact absurd (settleRule_guard s r hr) (h r)
  show settleTurn _ _ = _
  rw [settleTurn, hnone]
  exact drive_halt 511 s.ctl.dpu (setRet .ok s)

/-- Settles O29: R501's firing is `completeActive`, the body of COMPLETE. -/
theorem settleCompletesOrEnds : Obligations.SettleCompletesOrEnds := by
  unfold Obligations.SettleCompletesOrEnds
  refine ⟨fun a s ha hrule => ⟨fun howner => ⟨fun hhost => ?_, ?_⟩, settle_owned s hrule⟩, fun s => exec_settle_ends⟩
  · rw [exec_settle_complete hrule howner, completeActive_host ha hhost]
  · exact ⟨_, exec_complete ha howner, exec_settle_complete hrule howner⟩

/-! ### FATAL_FLUSH (R515) -/

theorem tuneFinish_hardFailure {s : State} {c : TuneCtx} (hc : s.st.tctx = some c) :
    tuneFinish .hardFailure s = tuneEnd c .hardFailure 0#32 s := by
  simp only [tuneFinish, hc]
  rfl

/-- The records of the queued requests, slot by slot (R515). -/
theorem flushRecords_eq (slots : List Slot) : ∀ i, flushRecords i slots = (slots.zipIdx i).flatMap fun x =>
    x.1.queue.map fun r => plainRecord .req r.seq x.2 .hardFailure 0#32 := by
  induction slots with
  | nil => exact fun i => rfl
  | cons x rest ih =>
    intro i
    rw [flushRecords, ih, List.zipIdx_cons, List.flatMap_cons]
    rfl

/-- The tuning job ends first (R515). -/
theorem flushJob_eq {s : State} (h : s.st.tuning = true → s.st.tctx ≠ none) :
    (if s.st.tuning then tuneFinish .hardFailure s else s) = { s with st := { s.st with
      tuning := false
      tctx := if s.st.tuning then none else s.st.tctx
      cport := s.st.cport ++ (if s.st.tuning then
        s.st.tctx.toList.map (fun c => plainRecord .ctl c.tag c.slot.toNat .hardFailure 0#32) else []) } } := by
  cases ht : s.st.tuning with
  | false =>
    refine state_ext rfl rfl ?_ rfl rfl rfl
    show s.st = { s.st with tuning := false, cport := s.st.cport ++ [] }
    rw [List.append_nil, ← ht]
  | true =>
    obtain ⟨c, hc⟩ := Option.ne_none_iff_exists'.mp (h ht)
    rw [if_pos rfl, tuneFinish_hardFailure hc, if_pos rfl, if_pos rfl, hc]
    rfl

/-- The flush behind the active request: tuning job, slot queues, control queue (R515). -/
theorem flushQueues_eq {s : State} (h : s.st.tuning = true → s.st.tctx ≠ none) : flushQueues s = flushed s := by
  have hctl : (s.st.ctlq.filter fun c => !isInit c) = s.st.ctlq.filter fun c => decide (c.op ≠ .controllerInit) := by
    simp only [isInit, decide_not]
  unfold flushQueues flushed
  rw [flushJob_eq h, ← hctl]
  simp only [deliverAll, flushRecords_eq]
  rfl

/-- FATAL_FLUSH behind the DMA stop, with no request active (R515). -/
theorem flushRest_idle {s : State} (ha : s.st.active = none) (h : s.st.tuning = true → s.st.tctx ≠ none) :
    flushRest s = setRet .ok (flushed s) := by
  have hactive : completeActive (modActive (fun a => { a with fatalErr := some .hardFailure }) (setRet .ok s))
      = setRet .ok s := by
    simp only [completeActive, modActive, setRet_st, ha]
    refine state_ext rfl rfl ?_ rfl rfl rfl
    show { s.st with active := none } = s.st
    rw [← ha]
  rw [flushRest, hactive, flushQueues_eq (s := setRet .ok s) h]
  rfl

/-- The active request at a fatal flush (R515); its summary code is HARD_FAILURE (R511). -/
abbrev failed (a : Active) : Active := { a with fatalErr := some .hardFailure }

theorem modActive_failed {s : State} {a : Active} (ha : s.st.active = some a) :
    modActive failed (setRet .ok s) = withActive (failed a) (setRet .ok s) := by
  simp only [modActive, setRet_st, ha]
  rfl

theorem flushRest_host {s : State} {a : Active} (ha : s.st.active = some a) (ho : a.origin = .host)
    (ht : s.st.tuning = false) : flushRest s = setRet .ok (flushed (completed a .hardFailure s)) := by
  have hcomplete : completeActive (withActive (failed a) (setRet .ok s)) = setRet .ok (completed a .hardFailure s) :=
    completeActive_host (a := failed a) rfl ho
  rw [flushRest, modActive_failed ha, hcomplete,
    flushQueues_eq (s := setRet .ok (completed a .hardFailure s)) fun h => absurd (ht.symm.trans h) (by decide)]
  rfl

theorem tuneResult_hardFailure {s : State} {c : TuneCtx} (hc : s.st.tctx = some c) :
    tuneResult .hardFailure s = tuneEnd c .hardFailure 0#32 s := by
  simp only [tuneResult, hc]
  rfl

/-- A tuning read ends its job, whose record is the first (R515, R635). -/
theorem flushRest_tuning {s : State} {a : Active} (ha : s.st.active = some a) (ho : a.origin = .tuning)
    (ht : s.st.tuning = true) (hc : s.st.tctx ≠ none) : flushRest s = setRet .ok (flushed (cleared s)) := by
  obtain ⟨c, hc⟩ := Option.ne_none_iff_exists'.mp hc
  have hcomplete : completeActive (withActive (failed a) (setRet .ok s))
      = tuneEnd c .hardFailure 0#32 (setRet .ok (cleared s)) :=
    (completeActive_tuning (a := failed a) rfl ho).trans
      (tuneResult_hardFailure (s := clearActive (withActive (failed a) (setRet .ok s))) hc)
  rw [flushRest, modActive_failed ha, hcomplete,
    flushQueues_eq (s := tuneEnd c .hardFailure 0#32 (setRet .ok (cleared s))) fun h => absurd h Bool.false_ne_true]
  refine state_ext rfl rfl ?_ rfl rfl rfl
  simp only [flushed, tuneEnd, cleared, deliver, setRet, ht, hc, if_true, Option.toList_some, List.map_cons, List.map_nil,
    Bool.false_eq_true, if_false, List.append_nil]

theorem settlesBy_fatal {s : State} (h : s.st.fatal = true) (hf : CanFlush s) : SettlesBy .fatal s :=
  ⟨⟨h, hf⟩, fun _ hq => absurd hq (Nat.not_lt_zero _)⟩

/-- Settles O30: FATAL_FLUSH is `flushRest`, on the DMA path after a DMA_STOP that cannot fail the flush. -/
theorem fatalFlushCompletesAll : Obligations.FatalFlushCompletesAll := by
  unfold Obligations.FatalFlushCompletesAll
  intro s hp hr hfatal hcan hjob
  have hrule := settlesBy_fatal hfatal hcan
  have hdirect {x : State} (hpath : activePath .dma s = false) (hx : x.ctl.dpu = s.ctl.dpu)
      (hrest : flushRest (setDpu (settleTail s) (setRet .ok s)) = setDpu (settleTail s) (setRet .ok x)) :
      exec .settle s = .next (settling x) :=
    settle_of_fire hrule (by decide) hx ((if_neg (Bool.eq_false_iff.mp hpath)).trans hrest)
  refine ⟨fun ha => ?idle, fun a ha ho ht => ?host, fun a ha ho ht hpath => ?tuning⟩
  case idle =>
    have hpath : activePath .dma s = false := by simp only [activePath, ha]
    exact hdirect hpath rfl (flushRest_idle (s := setDpu (settleTail s) (setRet .ok s)) ha hjob)
  case host =>
    by_cases hpath : a.path = .dma
    · rw [if_pos hpath]
      have hbegin : settleFire .fatal (setDpu (settleTail s) (setRet .ok s)) = setDpu (.dmaOff :: .await .dmaStopped .noFail ::
          .dmaRelease :: .flushRest :: settleTail s) (setRet .ok s) :=
        if_pos ((activePath_of_active (by exact ha) .dma).mpr hpath)
      have hend : flushRest (setDpu (settleTail s) (dmaStopped (setRet .ok s))) = _ := flushRest_host (a := a) ha ho ht
      refine settle_of_runs (k := 5) hrule (by decide) rfl ?_ (by decide)
      rw [hbegin]
      exact (Runs.dmaStop .noFail _ (s := setRet .ok s) hp hr rfl).trans
        (.work (w := .flushRest) rfl (.inl rfl) (congrArg Host.Outcome.next hend))
    · rw [if_neg hpath]
      exact hdirect (Bool.eq_false_iff.mpr fun h => hpath ((activePath_of_active ha .dma).mp h)) rfl
        (flushRest_host (s := setDpu (settleTail s) (setRet .ok s)) ha ho ht)
  case tuning =>
    exact hdirect (Bool.eq_false_iff.mpr fun h => hpath ((activePath_of_active ha .dma).mp h)) rfl
      (flushRest_tuning (s := setDpu (settleTail s) (setRet .ok s)) ha ho ht (hjob ht))

end Sys2Proof.Machine
end

section
/-! PROOFS. The family 41_state_machine.md, card presence and recovery (R500, R505, R690): CARD_SCAN slot by slot, and the
operations that wait for resets which BUS completes one after another. -/

namespace Sys2Proof.Machine

/-! ### Resets that BUS completes (R684, R685, R566) -/

/-- A reset can begin: the DPU does not yield, the registers are legal, no reset is under way and nothing has failed. -/
structure ResetReady (x : State) : Prop where
  prompt : Prompt x
  legal  : RegsLegal x
  clear  : NoReset x
  ret    : x.ctl.ret = .ok

theorem ResetReady.begin {s : State} (hp : Prompt s) (hr : RegsLegal s) (hn : NoReset s) : ResetReady (setRet .ok s) :=
  ⟨hp, hr, hn, rfl⟩

theorem ResetReady.deadline {x : State} (h : ResetReady x) : x.st.now < x.st.now + ticks x.cfg x.cfg.resetTimeout :=
  Nat.lt_add_of_pos_right (pollTimeout_pos h.prompt.1 (.resetClear 0x7#32))

theorem regsLegal_readied {x : State} (h : RegsLegal x) : RegsLegal (readied x) := by
  rw [← raiseReady_eq]
  refine { h with rintsts := or_mask_zero _ _ _ h.rintsts ?_ }
  split
  · exact readyBits_mask x
  · exact BitVec.zero_and

theorem ResetReady.fifoReset {x : State} (h : ResetReady x) : ResetReady (fifoReset x) :=
  ⟨h.prompt, regsLegal_readied h.legal, h.clear, h.ret⟩

theorem ResetReady.dmaReset {x : State} (h : ResetReady x) : ResetReady (dmaReset x) where
  prompt := h.prompt
  legal  := regsLegal_readied { h.legal with idsts := BitVec.zero_and, bmod := not_mask_zero _ _ _ h.legal.bmod }
  clear  := ⟨h.clear.1, not_mask_zero _ _ _ h.clear.2⟩
  ret    := h.ret

theorem ResetReady.dmaStopped {x : State} (h : ResetReady x) : ResetReady (dmaStopped x) where
  prompt := h.prompt
  legal  := { h.legal with ctrl := not_mask_zero _ _ _ h.legal.ctrl, bmod := not_mask_zero _ _ _ h.legal.bmod }
  clear  := ⟨not_mask_zero _ _ _ h.clear.1, not_mask_zero _ _ _ h.clear.2⟩
  ret    := h.ret

theorem regsLegal_pioMasked {x : State} (h : RegsLegal x) (a : Active) : RegsLegal (pioMasked a x) := by
  refine { h with intmask := ?_ }
  show (if a.path = .pio then x.st.baseMask &&& intmaskBits x.cfg else x.regs.intmask) &&& ~~~intmaskBits x.cfg = 0#32
  split
  · exact and_mask_zero _ _ _ (BitVec.and_not_self _)
  · exact h.intmask

theorem ResetReady.pioMasked {x : State} (h : ResetReady x) (a : Active) : ResetReady (pioMasked a x) :=
  ⟨h.prompt, regsLegal_pioMasked h.legal a, h.clear, h.ret⟩

section
variable {x : State} (n : Nat) (ws : List Work) (h : ResetReady x)
include h

/-- RESET_FIFO waits, BUS completes it, and the DPU goes on with the work behind (R684). -/
theorem resetFifo_served : Res.andThen (drive (n + 3) (setDpu (resetFifoProg ++ ws) x)) serveResets
    = drive 511 (setDpu ws (fifoReset x)) := by
  have hwait : drive (n + 3) (setDpu (resetFifoProg ++ ws) x) = _ :=
    reset_waits x 0x2#32 ws n h.prompt h.legal (by decide) (by decide) h.ret
  rw [hwait, andThen_next, fifo_reset_served x _ ws h.prompt h.clear h.deadline h.ret]

/-- RESET_CONTROLLER likewise (R685). -/
theorem resetController_served : Res.andThen (drive (n + 3) (setDpu (resetControllerProg ++ ws) x)) serveResets
    = drive 511 (setDpu ws (controllerReset x)) := by
  rw [resetController_waits ws n h.prompt h.legal h.ret, andThen_next,
    controller_reset_served x _ ws h.prompt h.clear h.deadline h.ret]

/-- DMA_STOP, which waits for nothing, and DMA_RESET (R565, R566). -/
theorem dmaStopReset_served : Res.andThen (drive (n + 7) (setDpu (dmaStopProg ++ (dmaResetProg ++ ws)) x)) serveResets
    = drive 511 (setDpu ws (dmaReset (dmaStopped x))) := by
  have hstop : drive (n + 3 + 4) _ = _ := Runs.dmaStop .fatal (dmaResetProg ++ ws) h.prompt h.legal h.ret (n + 3)
  have hs := h.dmaStopped
  show Res.andThen (drive (n + 3 + 4) _) _ = _
  refine (congrArg (Res.andThen · serveResets) (hstop.trans (dma_reset_waits _ ws n hs.prompt hs.legal hs.ret))).trans ?_
  exact dma_reset_served (Machine.dmaStopped x) _ ws hs.prompt hs.clear h.deadline hs.ret

end

/-! ### RECOVER (R690, R500) -/

theorem deep_eq (a : Active) : deep a = deepError a := by
  rw [Bool.eq_iff_iff]
  simp [deep, deepError, Option.isSome_iff_ne_none, or_assoc]

/-- RECOVER's last step: the status cleared but for CD and SDIO, the base mask, the PIO state empty (R690). -/
abbrev recoverCleared (x : State) : State :=
  { x with
    regs := { x.regs with
      rintsts := x.regs.rintsts &&& ~~~0xFFFE#32
      idsts := if x.cfg.dmaPresent then x.regs.idsts &&& ~~~0x337#32 else x.regs.idsts
      intmask := x.st.baseMask &&& intmaskBits x.cfg }
    st := { x.st with pio := ⟨0, 0, 0⟩, partBuf := [] } }

theorem recoverEnd_eq (x : State) : recoverEnd x = recoverCleared x := by
  cases hdma : x.cfg.dmaPresent <;> simp [recoverEnd, recoverCleared, hdma, regWrite, intmaskBits]

/-- RECOVER's resets before the controller reset: the DMA engine's on the DMA path, the FIFO's (R690). -/
abbrev pathReset (a : Active) (x : State) : State :=
  fifoReset ((if a.path = .dma then dmaReset ∘ dmaStopped else id) x)

/-- RECOVER's first resets, its work `ws` behind them. -/
theorem pathReset_served (a : Active) (n : Nat) (fs : List (State → Res)) (ws : List Work) {x : State} (h : ResetReady x) :
    Res.chain (drive (n + 7) (setDpu ((if a.path = .dma then dmaStopProg ++ dmaResetProg else []) ++ (resetFifoProg ++ ws)) x))
      (List.replicate ((if a.path = .dma then 1 else 0) + 1) serveResets ++ fs)
      = Res.chain (drive 511 (setDpu ws (pathReset a x))) fs ∧ ResetReady (pathReset a x) := by
  by_cases hpath : a.path = .dma
  · have hmid := h.dmaStopped.dmaReset
    refine ⟨?_, by rw [pathReset, if_pos hpath]; exact hmid.fifoReset⟩
    rw [if_pos hpath, if_pos hpath, pathReset, if_pos hpath, List.append_assoc]
    show Res.chain (Res.andThen (Res.andThen _ serveResets) serveResets) fs = _
    rw [dmaStopReset_served n _ h, resetFifo_served 508 ws hmid]
    rfl
  · refine ⟨?_, by rw [pathReset, if_neg hpath]; exact h.fifoReset⟩
    rw [if_neg hpath, if_neg hpath, pathReset, if_neg hpath]
    show Res.chain (Res.andThen _ serveResets) fs = _
    rw [List.nil_append, resetFifo_served (n + 4) ws h]
    rfl

/-- RECOVER with BUS completing its resets one after another (R690). -/
theorem recover_served (a : Active) (n : Nat) (ws : List Work) {x : State} (h : ResetReady x) :
    Res.chain (drive (n + 7) (setDpu (recoverProg a ++ ws) x)) (List.replicate (recoverResets a) serveResets)
      = drive 510 (setDpu ws (afterRecover a x)) := by
  have hlast {y : State} (hret : y.ctl.ret = .ok) :
      drive 511 (setDpu (.recoverEnd :: ws) y) = drive 510 (setDpu ws (recoverCleared y)) :=
    Runs.work (w := .recoverEnd) rfl (.inl hret) (congrArg Host.Outcome.next (recoverEnd_eq (setDpu ws y))) 510
  obtain ⟨hchain, hready⟩ := pathReset_served a n (List.replicate (if deepError a then 1 else 0) serveResets)
    (recoverTail a ++ ws) h
  rw [recoverProg_eq, List.append_assoc, List.append_assoc, recoverResets, List.replicate_add, hchain, recoverTail, deep_eq]
  cases hdeep : deepError a with
  | false =>
    refine (hlast hready.ret).trans ?_
    rw [afterRecover, hdeep]
    rfl
  | true =>
    have hserved := resetController_served 508 (.recoverEnd :: ws) hready
    refine hserved.trans ((hlast (y := controllerReset (pathReset a x)) hready.ret).trans ?_)
    rw [afterRecover, hdeep]
    rfl

/-- RECOVER does not look at the DPU's work or result. -/
theorem afterRecover_setDpu (a : Active) (ws : List Work) (s : State) :
    setDpu ws (afterRecover a (setRet .ok s)) = setDpu ws (setRet .ok (afterRecover a s)) := by
  unfold afterRecover
  split <;> split <;> rfl

theorem afterRecover_active (a : Active) (s : State) : (afterRecover a s).st.active = s.st.active := by
  unfold afterRecover
  split <;> split <;> rfl

theorem afterRecover_ctl (a : Active) (s : State) : (afterRecover a s).ctl = s.ctl := by
  unfold afterRecover
  split <;> split <;> rfl

theorem recovered_eq {s : State} {a : Active} (ha : s.st.active = some a) :
    recovered s = withActive { a with recovered := true } { s with st := { s.st with dst := .dIdle } } := by
  simp only [recovered, ha]
  rfl

theorem recoverBegin_eq {s : State} {a : Active} (ha : s.st.active = some a) (ws : List Work) :
    recoverBegin (setDpu ws s) = setDpu (recoverProg a ++ ws) s := by
  simp only [recoverBegin, setDpu, ha]
  rfl

/-- Settles O35: RECOVER's resets are served one by one, and R500 has one piece of work more. -/
theorem recoverRestores : Obligations.RecoverRestores := by
  unfold Obligations.RecoverRestores
  intro a s ha hp hr hn
  have hready := ResetReady.begin hp hr hn
  refine ⟨?named, fun hrule => ?settle⟩
  case named =>
    have hexec : exec .recover s = drive 512 (setDpu (recoverProg a ++ .halt :: s.ctl.dpu) (setRet .ok s)) := by
      simp only [exec, execRecover, ha]
      exact runProg_eq _ s
    rw [hexec]
    refine (recover_served a 505 (.halt :: s.ctl.dpu) hready).trans ?_
    rw [drive_halt 509, afterRecover_setDpu, ← afterRecover_ctl a s]
    rfl
  case settle =>
    have hfire : settleFire .recover (settling s) = setDpu (recoverProg a ++ .recovered :: settleTail s) (setRet .ok s) :=
      recoverBegin_eq (s := setRet .ok s) ha (.recovered :: settleTail s)
    have hend := recovered_eq (s := setDpu (settleTail s) (setRet .ok (afterRecover a s))) ((afterRecover_active a s).trans ha)
    rw [settle_fires s _ hrule (by simp), hfire]
    refine (recover_served a 505 (.recovered :: settleTail s) hready).trans ?_
    rw [afterRecover_setDpu, drive_work 509 .recovered _ _ rfl (.inl rfl), perform, andThen_next, hend, settleTail,
      ← afterRecover_ctl a s]
    rfl

end Sys2Proof.Machine
end

section
/-! PROOFS. The family 41_state_machine.md, card presence (R505): CARD_SCAN slot by slot, and the removal that cancels the
active request. -/

namespace Sys2Proof.Machine

/-! ### CARD_SCAN's look at one slot (R505) -/

/-- The first thing a removal does: the slot's card is gone (R505). -/
abbrev cardGone (i : Nat) (s : State) : State := modSlot i (fun x => { x with present := false }) s

theorem cardGone_queue (i : Nat) (s : State) : (slotAt (cardGone i s) i).queue = (slotAt s i).queue := by
  simp only [slotAt, modSlot_st, List.getD_eq_getElem?_getD, List.getElem?_modify_eq]
  cases s.st.slots[i]? with
  | none => rfl
  | some x => rfl

theorem cardGone_emptied (i : Nat) (l : List Slot) :
    (l.modify i fun x => { x with present := false }).modify i (fun x => { x with queue := [] })
      = l.modify i fun x => { x with present := false, queue := [] } := List.modify_modify_eq ..

/-- The job a removal ends is the tuning job of the slot, while no request of it is active (R505). -/
theorem removedJob_of_tuningOn {s : State} {i : Nat} {c : TuneCtx} (hc : s.st.tctx = some c)
    (h : (tuningOn i s && s.st.active.isNone) = true) : removedJob s i = [c] ∧ c.slot.toNat = i := by
  simp only [tuningOn, hc, Bool.and_eq_true, decide_eq_true_eq, Option.isNone_iff_eq_none] at h
  obtain ⟨⟨htuning, hslot⟩, hactive⟩ := h
  simp [removedJob, htuning, hactive, hc, hslot]

theorem removedJob_of_not_tuningOn {s : State} {i : Nat} (h : (tuningOn i s && s.st.active.isNone) = false) :
    removedJob s i = [] := by
  unfold removedJob
  split
  case isTrue hjob =>
    cases hc : s.st.tctx with
    | none => rfl
    | some c => simpa [tuningOn, hc, hjob.1, hjob.2] using h
  case isFalse => rfl

/-- A removal's slot is empty, its queued requests are reported (R505). -/
abbrev queueEmptied (i : Nat) (s : State) : State :=
  deliverAll (queueRecords i .noMedium (slotAt s i).queue)
    (modSlot i (fun x => { x with present := false, queue := [] }) s)

theorem removalEnd_cardGone_eq (i : Nat) (s : State) : removalEnd i (cardGone i s) = deliver (plainRecord .cd 0#32 i .ok 0#32)
    (if tuningOn i s && s.st.active.isNone then tuneFinish .noMedium (queueEmptied i s) else queueEmptied i s) := by
  have hdef : removalEnd i (cardGone i s) = deliver (plainRecord .cd 0#32 i .ok 0#32)
      (if tuningOn i s && s.st.active.isNone then tuneFinish .noMedium (modSlot i (fun x => { x with queue := [] })
          (deliverAll (queueRecords i .noMedium (slotAt (cardGone i s) i).queue) (cardGone i s)))
        else modSlot i (fun x => { x with queue := [] })
          (deliverAll (queueRecords i .noMedium (slotAt (cardGone i s) i).queue) (cardGone i s))) := rfl
  have hslots : modSlot i (fun x => { x with queue := [] })
      (deliverAll (queueRecords i .noMedium (slotAt s i).queue) (cardGone i s)) = queueEmptied i s := by
    simp only [modSlot, deliverAll, cardGone_emptied]
  rw [hdef, cardGone_queue, hslots]

/-- The end of a removal (R505). -/
theorem removalEnd_cardGone (i : Nat) (s : State) : removalEnd i (cardGone i s) = slotEmptied i s := by
  rw [removalEnd_cardGone_eq]
  cases hjob : tuningOn i s && s.st.active.isNone with
  | false =>
    rw [slotEmptied, removedJob_of_not_tuningOn hjob]
    simp [deliver, deliverAll, queueRecords]
  | true =>
    cases hc : s.st.tctx with
    | none => simp [tuningOn, hc] at hjob
    | some c =>
      obtain ⟨hremoved, hslot⟩ := removedJob_of_tuningOn hc hjob
      rw [slotEmptied, hremoved]
      simp [deliver, deliverAll, queueRecords, tuneFinish, hc, tuneEnd, hslot]

/-! ### CARD_SCAN (R505) -/

/-- What CARD_SCAN keeps from slot to slot: a removed card's slot has no request active. -/
structure Scannable (s : State) : Prop where
  shape : ShapeOk s
  legal : RegsLegal s
  small : s.cfg.nslots ≤ 16
  kept  : ∀ a ∈ s.st.active, (slotAt s a.slot.toNat).present = true → s.env.present.getD a.slot.toNat false = true

/-- `CDETECT` shows the signal of a slot (R118). -/
theorem cdetectVal_present {s : State} (h : ShapeOk s) {i : Nat} (hi : i < s.cfg.nslots) (h32 : i < 32) :
    (!bit (cdetectVal s) i) = s.env.present.getD i false := by
  have hlen : i < s.env.present.length := by rw [h.2.1]; exact hi
  have hbit := cdetectVal_bit s h32
  rw [List.getElem?_eq_getElem hlen, Option.some.injEq] at hbit
  rw [List.getD_eq_getElem _ _ hlen]
  cases hp : s.env.present[i] <;> simp_all

theorem cardInserted_eq {s : State} (i : Nat) (hr : RegsLegal s) (hin : s.env.present.getD i false = true)
    (hout : (slotAt s i).present = false) : cardInserted i s = scanned s i := by
  have hctype : (s.regs.ctype &&& ~~~(1#32 <<< i ||| 1#32 <<< (16 + i))) &&& slotPairBits s.cfg
      = s.regs.ctype &&& ~~~(1#32 <<< i ||| 1#32 <<< (16 + i)) :=
    and_of_masked (not_mask_zero _ _ _ hr.ctype) (by rw [BitVec.not_not]; exact BitVec.and_not_self _)
  have huhs : (s.regs.uhs &&& ~~~(1#32 <<< (16 + i))) &&& slotMask s.cfg <<< 16 = s.regs.uhs &&& ~~~(1#32 <<< (16 + i)) :=
    and_of_masked (not_mask_zero _ _ _ hr.uhs) (by rw [BitVec.not_not]; exact BitVec.and_not_self _)
  rw [scanned, if_pos ⟨hin, hout⟩, ← hctype, ← huhs, ← bitAt_eq, ← bitAt_eq]
  rfl

theorem scanned_removal {s : State} {i : Nat} (hout : s.env.present.getD i false = false)
    (hin : (slotAt s i).present = true) : scanned s i = slotEmptied i s := by
  rw [scanned, if_neg (fun h => by simp [hin] at h), if_pos ⟨hout, hin⟩]

theorem scanned_same {s : State} {i : Nat} (h : (slotAt s i).present = s.env.present.getD i false) : scanned s i = s := by
  cases hp : s.env.present.getD i false <;> simp only [scanned, h, hp] <;> rfl

theorem scanned_frame (s : State) (i : Nat) : (scanned s i).cfg = s.cfg ∧ (scanned s i).env = s.env ∧
    (scanned s i).ctl = s.ctl ∧ (scanned s i).st.active = s.st.active ∧ (scanned s i).st.tbuf = s.st.tbuf ∧
    (scanned s i).st.slots.length = s.st.slots.length := by
  unfold scanned
  split
  · exact ⟨rfl, rfl, rfl, rfl, rfl, List.length_modify ..⟩
  · split
    · exact ⟨rfl, rfl, rfl, rfl, rfl, List.length_modify ..⟩
    · exact ⟨rfl, rfl, rfl, rfl, rfl, rfl⟩

/-- After CARD_SCAN's look a slot's flag is the card's signal (R505). -/
theorem scanned_present {s : State} {i : Nat} (hi : i < s.st.slots.length) (j : Nat) :
    (slotAt (scanned s i) j).present = if j = i then s.env.present.getD i false else (slotAt s j).present := by
  have hat (f : Slot → Slot) := getD_modify s.st.slots i j f hi
  unfold scanned
  split
  case isTrue hin =>
    show ((s.st.slots.modify i _).getD j Slot.reset).present = _
    rw [hat]; split
    · exact hin.1.symm
    · rfl
  case isFalse hin =>
    split
    case isTrue hout =>
      show ((s.st.slots.modify i _).getD j Slot.reset).present = _
      rw [hat]; split
      · exact hout.1.symm
      · rfl
    case isFalse hout =>
      split
      case isTrue hj =>
        subst hj
        cases hp : s.env.present.getD j false <;> cases hs : (slotAt s j).present <;> simp_all
      case isFalse => rfl

theorem regsLegal_scanned {s : State} (i : Nat) (h : RegsLegal s) : RegsLegal (scanned s i) := by
  unfold scanned
  split
  · exact { h with ctype := not_mask_zero _ _ _ h.ctype, uhs := not_mask_zero _ _ _ h.uhs }
  · split
    · exact h
    · exact h

theorem Scannable.scanned {s : State} (h : Scannable s) {i : Nat} (hi : i < s.cfg.nslots) : Scannable (scanned s i) := by
  obtain ⟨hcfg, henv, -, hactive, htbuf, hlen⟩ := scanned_frame s i
  obtain ⟨hslots, hpresent, hbusy, hbuf, hsignalled⟩ := h.shape
  refine ⟨?shape, regsLegal_scanned i h.legal, hcfg ▸ h.small, fun a ha hin => ?kept⟩
  case shape => rw [ShapeOk, hcfg, henv, htbuf, hlen]; exact h.shape
  case kept =>
    rw [hactive] at ha
    rw [henv]
    rw [scanned_present (hslots ▸ hi)] at hin
    split at hin
    case isTrue hslot => rw [hslot]; exact hin
    case isFalse => exact h.kept a ha hin

section
variable {s : State} {cd : Word} {i : Nat} (rest : List Nat) (ws : List Work)

/-- A slot without a change is left alone. -/
theorem Runs.scanSame (hret : s.ctl.ret = .ok) (h : (!bit cd i) = (slotAt s i).present) :
    Runs 1 (setDpu (.scan cd (i :: rest) :: ws) s) (setDpu (.scan cd rest :: ws) s) := by
  refine Runs.work rfl (.inl hret) (congrArg Host.Outcome.next ?_)
  show scanStep cd (i :: rest) (setDpu ws s) = push [.scan cd rest] (setDpu ws s)
  have hslot : (slotAt (setDpu ws s) i).present = !bit cd i := h.symm
  simp only [scanStep, hslot]
  cases bit cd i <;> rfl

theorem Runs.scanInserted (hret : s.ctl.ret = .ok) (hcd : (!bit cd i) = true) (hout : (slotAt s i).present = false) :
    Runs 1 (setDpu (.scan cd (i :: rest) :: ws) s) (setDpu (.scan cd rest :: ws) (cardInserted i s)) := by
  refine Runs.work rfl (.inl hret) (congrArg Host.Outcome.next ?_)
  show scanStep cd (i :: rest) (setDpu ws s) = push [.scan cd rest] (cardInserted i (setDpu ws s))
  have hslot : (slotAt (setDpu ws s) i).present = false := hout
  simp only [scanStep, hcd, hslot]
  rfl

/-- The work of a removal comes before the rest of the scan. -/
theorem Runs.scanRemoved (hret : s.ctl.ret = .ok) (hcd : (!bit cd i) = false) (hin : (slotAt s i).present = true) :
    Runs 1 (setDpu (.scan cd (i :: rest) :: ws) s) (cardRemoved i [.scan cd rest] (setDpu ws s)) := by
  refine Runs.work rfl (.inl hret) (congrArg Host.Outcome.next ?_)
  have hslot : (slotAt (setDpu ws s) i).present = true := hin
  simp only [scanStep, hcd, hslot]
  rfl

/-- A removal while no request of the slot is active. -/
theorem Runs.scanEmptied (hret : s.ctl.ret = .ok) (hcd : (!bit cd i) = false) (hin : (slotAt s i).present = true)
    (hidle : activeOn i s = false) :
    Runs 2 (setDpu (.scan cd (i :: rest) :: ws) s) (setDpu (.scan cd rest :: ws) (slotEmptied i s)) := by
  have hbegin : cardRemoved i [.scan cd rest] (setDpu ws s) = setDpu (.removed i :: .scan cd rest :: ws) (cardGone i s) :=
    if_neg (by rw [Bool.not_eq_true]; exact hidle)
  refine (hbegin ▸ Runs.scanRemoved rest ws hret hcd hin).trans
    (Runs.work (w := .removed i) rfl (.inl hret) (congrArg Host.Outcome.next ?_))
  exact removalEnd_cardGone i (setDpu (.scan cd rest :: ws) s)

end

/-- The work CARD_SCAN does at one slot. -/
theorem Runs.scanSlot {s : State} {i : Nat} (rest : List Nat) (ws : List Work) (h : Scannable s) (hret : s.ctl.ret = .ok)
    (hi : i < s.cfg.nslots) : ∃ k ≤ 2, Runs k (setDpu (.scan (cdetectVal s) (i :: rest) :: ws) s)
      (setDpu (.scan (cdetectVal s) rest :: ws) (Machine.scanned s i)) := by
  have hcd := cdetectVal_present h.shape hi (by have := h.small; omega)
  cases hp : s.env.present.getD i false <;> cases hs : (slotAt s i).present
  case false.false | true.true =>
    rw [scanned_same (hs.trans hp.symm)]
    exact ⟨1, by omega, .scanSame rest ws hret (hcd.trans (hp.trans hs.symm))⟩
  case true.false =>
    rw [← cardInserted_eq i h.legal hp hs]
    exact ⟨1, by omega, .scanInserted rest ws hret (hcd.trans hp) hs⟩
  case false.true =>
    have hidle : activeOn i s = false := by
      cases ha : s.st.active with
      | none => simp only [activeOn, ha]
      | some a =>
        have hne : a.slot.toNat ≠ i := by
          rintro rfl
          exact absurd (h.kept a ha hs) (by rw [hp]; decide)
        simp only [activeOn, ha, hne, decide_false]
    rw [scanned_removal hp hs]
    exact ⟨2, by omega, .scanEmptied rest ws hret (hcd.trans hp) hs hidle⟩

/-- CARD_SCAN looks at the slots in order (R505). -/
theorem Runs.scanSlots (ws : List Work) : ∀ (todo : List Nat) {s : State}, Scannable s → s.ctl.ret = .ok →
    (∀ i ∈ todo, i < s.cfg.nslots) → ∃ k ≤ 2 * todo.length,
      Runs k (setDpu (.scan (cdetectVal s) todo :: ws) s)
        (setDpu (.scan (cdetectVal s) [] :: ws) (todo.foldl Machine.scanned s))
  | [], s, _, _, _ => ⟨0, by simp, .refl _⟩
  | i :: todo, s, h, hret, hall => by
    obtain ⟨hi, hrest⟩ := List.forall_mem_cons.mp hall
    obtain ⟨hcfg, henv, hctl, -⟩ := scanned_frame s i
    obtain ⟨k, hk, hslot⟩ := Runs.scanSlot todo ws h hret hi
    obtain ⟨m, hm, hslots⟩ := Runs.scanSlots ws todo (h.scanned hi) (hctl ▸ hret) (hcfg ▸ hrest)
    have hcd : cdetectVal (scanned s i) = cdetectVal s := by rw [cdetectVal, henv]; rfl
    rw [hcd] at hslots
    exact ⟨k + m, by rw [List.length_cons]; omega, hslot.trans hslots⟩

/-- A scan with no slot left is over. -/
theorem Runs.scanEnd {s : State} (cd : Word) (ws : List Work) (hret : s.ctl.ret = .ok) :
    Runs 1 (setDpu (.scan cd [] :: ws) s) (setDpu ws s) :=
  Runs.work rfl (.inl hret) rfl

theorem foldl_scanned_ctl (todo : List Nat) (s : State) : (todo.foldl scanned s).ctl = s.ctl := by
  induction todo generalizing s with
  | nil => rfl
  | cons i todo ih => exact (ih _).trans (scanned_frame s i).2.2.1

theorem scanned_setRet (r : Code) (s : State) (i : Nat) : scanned (setRet r s) i = setRet r (scanned s i) := by
  simp only [scanned, apply_ite (setRet r)]
  rfl

/-- CARD_SCAN with the work `ws` behind it. -/
theorem Runs.cardScan {s : State} (ws : List Work) (h : Scannable s) :
    ∃ k ≤ 2 * s.cfg.nslots + 1, Runs k (cardScan (setDpu ws (setRet .ok s)))
      (setDpu ws (setRet .ok ((List.range s.cfg.nslots).foldl Machine.scanned s))) := by
  have hready : Scannable (setRet .ok s) := ⟨h.shape, h.legal, h.small, h.kept⟩
  obtain ⟨k, hk, hslots⟩ := Runs.scanSlots ws (List.range s.cfg.nslots) hready rfl fun i hi => List.mem_range.mp hi
  rw [List.foldl_hom (setRet .ok) (scanned_setRet .ok)] at hslots
  rw [List.length_range] at hk
  exact ⟨k + 1, by omega, hslots.trans (.scanEnd _ ws rfl)⟩

theorem applyEvent_cardDetect (p : BitVec 24) (s : State) : applyEvent (eventWord 7 p) s = .next (cardScan s) := by
  simp only [applyEvent, eventCode_eventWord 7 p (by decide)]

/-- Settles O31: one look at each slot, by induction on the slots still to look at. -/
theorem cardScanReportsChanges : Obligations.CardScanReportsChanges := by
  unfold Obligations.CardScanReportsChanges
  intro s hshape hr hsmall hkept
  have h : Scannable s := ⟨hshape, hr, hsmall, hkept⟩
  obtain ⟨k, hk, hscan⟩ := Runs.cardScan (.halt :: s.ctl.dpu) h
  have hend {w : Work} (hw : w.plain = true)
      (hbegin : perform w (eventEntry s) = .next (cardScan (eventEntry s))) :
      runProg [w] s = .next (setRet .ok ((List.range s.cfg.nslots).foldl scanned s)) := by
    refine (runProg_of_runs ((Runs.work (w := w) hw (.inl rfl) hbegin).trans hscan)
      (by rw [driveBound]; omega)).trans (congrArg Host.Outcome.next ?_)
    rw [← foldl_scanned_ctl (List.range s.cfg.nslots) s]
    rfl
  exact ⟨hend (w := .cardScan) rfl rfl, fun p => hend (w := .event (eventWord 7 p)) rfl (applyEvent_cardDetect p _)⟩

/-! ### A removal of the active request's slot (R505, R693) -/

section
variable {cd : Word} (rest : List Nat) (ws : List Work)

/-- The slots whose flag is the signal already are passed over. -/
theorem Runs.scanUnchanged {s : State} (hret : s.ctl.ret = .ok) : ∀ todo : List Nat,
    (∀ j ∈ todo, (!bit cd j) = (slotAt s j).present) →
    Runs todo.length (setDpu (.scan cd (todo ++ rest) :: ws) s) (setDpu (.scan cd rest :: ws) s)
  | [], _ => .refl _
  | j :: todo, hall => by
    obtain ⟨hj, htodo⟩ := List.forall_mem_cons.mp hall
    rw [List.length_cons, Nat.add_comm]
    exact (Runs.scanSame (todo ++ rest) ws hret hj).trans (Runs.scanUnchanged hret todo htodo)

end

/-- A removal's resets for the slot's active request: on the DMA path DMA_STOP and DMA_RESET, on the PIO path the mask;
then RESET_CONTROLLER (R505). -/
def abortReset (a : Active) (x : State) : State :=
  controllerReset ((if a.path = .dma then dmaReset ∘ dmaStopped else pioMasked a) x)

/-- The removal up to the request's completion, with BUS completing the resets. -/
theorem abortReset_served {x : State} (a : Active) (n : Nat) (ws : List Work) (h : ResetReady x) :
    Res.chain (drive (n + 7) (setDpu ((if a.path = .dma then dmaStopProg ++ dmaResetProg else []) ++
        (resetControllerProg ++ ws)) (pioMasked a x))) (List.replicate (if a.path = .dma then 2 else 1) serveResets)
      = drive 511 (setDpu ws (abortReset a x)) := by
  by_cases hpath : a.path = .dma
  · rw [if_pos hpath, if_pos hpath, abortReset, if_pos hpath, List.append_assoc]
    have hmask : pioMasked a x = x := by rw [pioMasked, hpath]; rfl
    rw [hmask]
    show Res.andThen (Res.andThen _ serveResets) serveResets = _
    rw [dmaStopReset_served n _ h, resetController_served 508 ws h.dmaStopped.dmaReset]
    rfl
  · rw [if_neg hpath, if_neg hpath, abortReset, if_neg hpath, List.nil_append]
    exact resetController_served (n + 4) ws (h.pioMasked a)

section
variable {a : Active} {x : State} (ha : x.st.active = some a) (ws : List Work)
include ha

theorem cardRemoved_active (rest : List Work) : cardRemoved a.slot.toNat rest (setDpu ws x)
    = setDpu ((if a.path = .dma then dmaStopProg ++ dmaResetProg else []) ++ (resetControllerProg
        ++ (.cancelActive :: .removed a.slot.toNat :: (rest ++ ws)))) (pioMasked a (cardGone a.slot.toNat x)) := by
  have hdef : cardRemoved a.slot.toNat rest (setDpu ws x)
      = push ((if a.path = .dma then dmaStopProg ++ dmaResetProg else []) ++ resetControllerProg
          ++ [.cancelActive, .removed a.slot.toNat] ++ rest)
        (if a.path = .pio then regWrite .INTMASK x.st.baseMask (cardGone a.slot.toNat (setDpu ws x))
          else cardGone a.slot.toNat (setDpu ws x)) := by
    simp [cardRemoved, activeOn, activePath, ha]
  rw [hdef]
  simp only [push, setDpu, List.append_assoc, pioMasked]
  cases a.path <;> rfl

/-- The removed slot's active request completes with NO_MEDIUM (R505, R511). -/
theorem cancelActive_host (ho : a.origin = .host) (hf : a.fatalErr = none) :
    cancelActive x = completed a .noMedium x := by
  have hdef : cancelActive x = completeActive (withActive { a with nomedium := some .noMedium } x) := by
    simp only [cancelActive, modActive, ha]
    rfl
  have hsummary : summary { a with nomedium := some .noMedium } = .noMedium := by simp [summary, firstCode, hf]
  rw [hdef, completeActive_host (a := { a with nomedium := some .noMedium }) rfl ho, hsummary]
  rfl

end

theorem slotEmptied_present {s : State} {i j : Nat} (hi : i < s.st.slots.length) (hji : j ≠ i) :
    (slotAt (slotEmptied i s) j).present = (slotAt s j).present :=
  congrArg Slot.present ((getD_modify s.st.slots i j _ hi).trans (if_neg hji))

/-- The removed request as it is before the slot's queued ones (R505). -/
def aborted (a : Active) (x : State) : State := completed a .noMedium (abortReset a x)

theorem aborted_cardGone (a : Active) (i : Nat) (x : State) : aborted a (cardGone i x) = cardGone i (aborted a x) := by
  by_cases hpath : a.path = .dma
  · simp only [aborted, abortReset, if_pos hpath]; rfl
  · simp only [aborted, abortReset, if_neg hpath]; rfl

theorem aborted_setRet (a : Active) (x : State) : aborted a (setRet .ok x) = setRet .ok (aborted a x) := by
  by_cases hpath : a.path = .dma
  · simp only [aborted, abortReset, if_pos hpath]; rfl
  · simp only [aborted, abortReset, if_neg hpath]; rfl

theorem aborted_frame (a : Active) (x : State) : (aborted a x).st.slots = x.st.slots ∧
    (aborted a x).ctl.dpu = x.ctl.dpu ∧ (aborted a x).ctl.ret = x.ctl.ret := by
  by_cases hpath : a.path = .dma
  · simp only [aborted, abortReset, if_pos hpath]; exact ⟨rfl, rfl, rfl⟩
  · simp only [aborted, abortReset, if_neg hpath]; exact ⟨rfl, rfl, rfl⟩

theorem abortReset_active (a : Active) (x : State) : (abortReset a x).st.active = x.st.active := by
  by_cases hpath : a.path = .dma
  · simp only [abortReset, if_pos hpath]; rfl
  · simp only [abortReset, if_neg hpath]; rfl

theorem abortReset_ret (a : Active) (x : State) : (abortReset a x).ctl.ret = x.ctl.ret := by
  by_cases hpath : a.path = .dma
  · simp only [abortReset, if_pos hpath]; rfl
  · simp only [abortReset, if_neg hpath]; rfl

section
variable {s : State} {cd : Word} {a : Active} {before after : List Nat} (ws : List Work) (hret : s.ctl.ret = .ok)
  (ha : s.st.active = some a)
include hret ha

/-- CARD_SCAN up to the removal of the active request's slot. -/
theorem Runs.scanToActive (hcd : (!bit cd a.slot.toNat) = false) (hin : (slotAt s a.slot.toNat).present = true)
    (hsame : ∀ j ∈ before, (!bit cd j) = (slotAt s j).present) :
    Runs (before.length + 1) (setDpu (.scan cd (before ++ a.slot.toNat :: after) :: ws) s)
      (setDpu ((if a.path = .dma then dmaStopProg ++ dmaResetProg else []) ++ (resetControllerProg ++
        (.cancelActive :: .removed a.slot.toNat :: .scan cd after :: ws))) (pioMasked a (cardGone a.slot.toNat s))) := by
  refine (Runs.scanUnchanged (a.slot.toNat :: after) ws hret before hsame).trans ?_
  exact cardRemoved_active ha ws [.scan cd after] ▸ Runs.scanRemoved after ws hret hcd hin

/-- CARD_SCAN behind the removal's resets. -/
theorem Runs.scanFromActive (ho : a.origin = .host) (hf : a.fatalErr = none) (hslot : a.slot.toNat < s.st.slots.length)
    (hsame : ∀ j ∈ after, j ≠ a.slot.toNat ∧ (!bit cd j) = (slotAt s j).present) :
    Runs (2 + after.length + 1) (setDpu (.cancelActive :: .removed a.slot.toNat :: .scan cd after :: ws)
      (abortReset a (cardGone a.slot.toNat s))) (setDpu ws (slotEmptied a.slot.toNat (aborted a s))) := by
  obtain ⟨hslots, -, hkept⟩ := aborted_frame a s
  have hcancel : cancelActive (setDpu (.removed a.slot.toNat :: .scan cd after :: ws) (abortReset a (cardGone a.slot.toNat s)))
      = setDpu (.removed a.slot.toNat :: .scan cd after :: ws) (cardGone a.slot.toNat (aborted a s)) := by
    rw [← aborted_cardGone]
    exact cancelActive_host ((abortReset_active a _).trans ha) ho hf
  have hcancelled : Runs 1 (setDpu (.cancelActive :: .removed a.slot.toNat :: .scan cd after :: ws)
      (abortReset a (cardGone a.slot.toNat s))) _ :=
    Runs.work rfl (.inl ((abortReset_ret a _).trans hret)) (congrArg Host.Outcome.next hcancel)
  have hremoved : Runs 1 (setDpu (.removed a.slot.toNat :: .scan cd after :: ws) (cardGone a.slot.toNat (aborted a s)))
      (setDpu (.scan cd after :: ws) (slotEmptied a.slot.toNat (aborted a s))) :=
    Runs.work rfl (.inl (hkept.trans hret))
      (congrArg Host.Outcome.next (removalEnd_cardGone a.slot.toNat (setDpu (.scan cd after :: ws) (aborted a s))))
  have hunchanged := Runs.scanUnchanged (cd := cd) [] ws (s := slotEmptied a.slot.toNat (aborted a s)) (hkept.trans hret) after
    fun j hj => by
      obtain ⟨hne, hj⟩ := hsame j hj
      rw [slotEmptied_present (hslots ▸ hslot) hne, slotAt, hslots]
      exact hj
  rw [List.append_nil] at hunchanged
  exact ((hcancelled.trans hremoved).trans hunchanged).trans (.scanEnd cd ws (hkept.trans hret))

end

/-- A slot that exists splits the list of the slots; it is in neither part. -/
theorem range_split {i n : Nat} (h : i < n) : ∃ before after, List.range n = before ++ i :: after ∧
    before.length + after.length < n ∧ ∀ j ∈ before ++ after, j < n ∧ j ≠ i := by
  obtain ⟨before, after, hrange⟩ := List.append_of_mem (List.mem_range.mpr h)
  have hnodup := List.nodup_middle.mp (hrange ▸ List.nodup_range (n := n))
  refine ⟨before, after, hrange, ?_, fun j hj => ⟨?_, fun hji => (List.nodup_cons.mp hnodup).1 (hji ▸ hj)⟩⟩
  · have hlen := congrArg List.length hrange
    rw [List.length_range, List.length_append, List.length_cons] at hlen
    omega
  · rw [← List.mem_range, hrange]
    exact List.perm_middle.mem_iff.mpr (List.mem_cons_of_mem _ hj)

/-- Settles O32: the scan up to the slot, the served resets, the completion, the rest of the scan. -/
theorem removalCancelsActive : Obligations.RemovalCancelsActive := by
  unfold Obligations.RemovalCancelsActive
  intro a s hp hshape hr hn ha ho hslot htuning hfatal hin hout hsame
  have h16 : s.cfg.nslots ≤ 16 := hp.1.2.1
  have hflag {i : Nat} (hi : i < s.cfg.nslots) := cdetectVal_present hshape hi (by omega)
  obtain ⟨before, after, hrange, hlen, hothers⟩ := range_split hslot
  have hunchanged : ∀ j ∈ before ++ after, j ≠ a.slot.toNat ∧ (!bit (cdetectVal s) j) = (slotAt s j).present :=
    fun j hj =>
    have ⟨hj, hne⟩ := hothers j hj
    ⟨hne, (hflag hj).trans (hsame j hj hne).symm⟩
  obtain ⟨hbefore, hafter⟩ := List.forall_mem_append.mp hunchanged
  have hready := ResetReady.begin hp hr hn
  have hto := Runs.scanToActive (s := setRet .ok s) (after := after) (.halt :: s.ctl.dpu) rfl ha ((hflag hslot).trans hout) hin
    fun j hj => (hbefore j hj).2
  have hfrom := Runs.scanFromActive (s := setRet .ok s) (.halt :: s.ctl.dpu) rfl ha ho hfatal (hshape.1 ▸ hslot) hafter
  have hbegin : Runs 1 (setDpu (.cardScan :: .halt :: s.ctl.dpu) (setRet .ok s))
      (setDpu (.scan (cdetectVal s) (before ++ a.slot.toNat :: after) :: .halt :: s.ctl.dpu) (setRet .ok s)) :=
    hrange ▸ Runs.work (w := .cardScan) rfl (.inl rfl) rfl
  have hexec : exec .cardScan s = drive 512 (setDpu (.cardScan :: .halt :: s.ctl.dpu) (setRet .ok s)) :=
    runProg_eq [.cardScan] s
  have hgone : ResetReady (cardGone a.slot.toNat (setRet .ok s)) := ⟨hready.prompt, hready.legal, hready.clear, hready.ret⟩
  obtain ⟨n, hn⟩ : ∃ n, 512 - (1 + (before.length + 1)) = n + 7 := ⟨512 - (1 + (before.length + 1)) - 7, by omega⟩
  rw [hexec, (hbegin.trans hto).drive_eq (by omega), hn, abortReset_served a n _ hgone, hfrom.ends_halt (by omega),
    aborted_setRet, ← (aborted_frame a s).2.1]
  rfl

end Sys2Proof.Machine
end

section
/-! PROOFS. The family 41_state_machine.md, DPU_RUN (R450): what one turn of the loop does, in the loop's order. -/

namespace Sys2Proof.Machine

/-! ### A turn of the loop (R450) -/

section
variable {x : State}

theorem loopBody_flush (hfatal : x.st.fatal = true) (hflush : CanFlush x) : loopBody x = some (fatalFlush x) :=
  if_pos (by rw [hfatal, (flushable_iff x).mpr hflush]; rfl)

variable (hno : ¬ (x.st.fatal = true ∧ CanFlush x))
include hno

theorem fatal_and_flushable : (x.st.fatal && flushable x) = false := by
  rw [Bool.eq_false_iff, Ne, Bool.and_eq_true, flushable_iff]
  exact hno

theorem loopBody_event {e : Word} {q : List Word} (hq : x.st.evq = e :: q) :
    loopBody x = some (push [.event e, .settleLoop] { x with st := { x.st with evq := q } }) := by
  simp only [loopBody, fatal_and_flushable hno, hq]
  rfl

variable (hq : x.st.evq = [])
include hq

theorem loopBody_ack {e : CtlEntry} (he : e ∈ x.st.ctlq) (hack : e.op = .sdioIrqAck) :
    loopBody x = some (push [.runCtl] x) := by
  have hany : x.st.ctlq.any isAck = true := List.any_eq_true.mpr ⟨e, he, decide_eq_true hack⟩
  simp only [loopBody, fatal_and_flushable hno, hq, hany]
  rfl

variable (hack : NoAck x.st.ctlq)
include hack

/-- The turn where no flush, no event and no SDIO_IRQ_ACK comes before. -/
theorem loopBody_work : loopBody x = if tuneReady x then some (push [.tuneStep] x)
    else if ctlReady x then some (push [.runCtl] x)
    else if dispatchReady x then some (push [.dispatchNext] x) else none := by
  have hany : x.st.ctlq.any isAck = false := List.any_eq_false.mpr fun e he => by simp [isAck_eq_false (hack e he)]
  simp only [loopBody, fatal_and_flushable hno, hq, hany]
  rfl

end

/-! ### DPU_RUN up to the loop's next turn -/

/-- A run has started: none is scheduled (R450). -/
def started (s : State) : State := { s with st := { s.st with dpuSched := false } }

/-- The work left behind a turn. -/
abbrev loopTail (s : State) : List Work := .dpuLoop :: .halt :: s.ctl.dpu

section
variable {s : State} (hs : s.st.dpuSched = true)
include hs

theorem dpuRun_reserved (h : ∃ e ∈ s.st.evq, bits e 0 8 = 0 ∨ 9 < bits e 0 8) :
    exec .dpuRun s = .fault .badEventWord := by
  obtain ⟨e, he, hcode⟩ := h
  have hany : s.st.evq.any reservedEvent = true := List.any_eq_true.mpr ⟨e, he, decide_eq_true hcode⟩
  simp only [exec, execDpuRun, hs, if_true]
  exact if_pos hany

variable (hlegal : ∀ e ∈ s.st.evq, 1 ≤ bits e 0 8 ∧ bits e 0 8 ≤ 9)
include hlegal

theorem dpuRun_turn : exec .dpuRun s = match loopBody (looping (started s)) with
    | some y => drive driveBound y
    | none => .next (setRet .ok (started s)) := by
  have hany : s.st.evq.any reservedEvent = false := List.any_eq_false.mpr fun e he => by
    have hcode := hlegal e he
    show ¬ decide (bits e 0 8 = 0 ∨ 10 ≤ bits e 0 8) = true
    rw [decide_eq_true_eq]
    omega
  simp only [exec, execDpuRun, hs, if_true]
  refine (if_neg (by rw [Bool.not_eq_true]; exact hany)).trans ?_
  rfl

theorem dpuRun_of_body {y : State} (h : loopBody (looping (started s)) = some y) :
    exec .dpuRun s = drive driveBound y := by
  rw [dpuRun_turn hs hlegal, h]

/-- The run ends where nothing is enabled. -/
theorem dpuRun_ends (h : loopBody (looping (started s)) = none) : exec .dpuRun s = .next (setRet .ok (started s)) := by
  rw [dpuRun_turn hs hlegal, h]

/-- A turn whose work leads to the next turn. -/
theorem dpuRun_of_runs {y t : State} {k : Nat} (h : loopBody (looping (started s)) = some y)
    (ht : t.ctl.dpu = s.ctl.dpu) (hruns : Runs k y (setDpu (loopTail s) (setRet .ok t))) (hk : k < driveBound) :
    exec .dpuRun s = .next (looping t) := by
  rw [dpuRun_of_body hs hlegal h, hruns.ends_dpuLoop hk, ← ht]
  rfl

/-- A turn of one piece of work. -/
theorem dpuRun_of_work {w : Work} {t : State} (h : loopBody (looping (started s)) = some (push [w] (looping (started s))))
    (hw : w.plain = true) (ht : t.ctl.dpu = s.ctl.dpu)
    (hperform : perform w (setDpu (loopTail s) (setRet .ok (started s))) = .next (setDpu (loopTail s) (setRet .ok t))) :
    exec .dpuRun s = .next (looping t) :=
  dpuRun_of_runs (k := 1) hs hlegal h ht (Runs.work hw (.inl rfl) hperform) (by decide)

/-- A turn that takes an event: its settle pass comes next (R450, R465). -/
theorem dpuRun_of_event {e : Word} {q : List Word} {t : State} (hno : ¬ (s.st.fatal = true ∧ CanFlush s))
    (hq : s.st.evq = e :: q) (ht : t.ctl.dpu = s.ctl.dpu)
    (hevent : applyEvent e (setDpu (.settleLoop :: loopTail s) (setRet .ok { started s with
        st := { (started s).st with evq := q } })) = .next (setDpu (.settleLoop :: loopTail s) (setRet .ok t))) :
    exec .dpuRun s = .next (push [.settleLoop] (looping t)) := by
  have hwork : Runs 1 (setDpu (.event e :: .settleLoop :: loopTail s) (setRet .ok { started s with
      st := { (started s).st with evq := q } })) _ := Runs.work (w := .event e) rfl (.inl rfl) hevent
  rw [dpuRun_of_body hs hlegal (loopBody_event (x := looping (started s)) hno hq)]
  refine (hwork.ends_settleLoop (n := driveBound) (by decide)).trans (congrArg Host.Outcome.next ?_)
  rw [loopTail, ← ht]
  rfl

end

/-! ### TUNE_STEP (R634) -/

/-- The phase word of the trial with position `idx` (R313, R632, R648). -/
theorem phaseWord_tunePos (c : Config) (idx drv : Nat) :
    phaseWord c (tunePos c idx) drv = BitVec.ofNat 32 (16 * drv + idx) := by
  unfold phaseWord tunePos
  split
  · refine congrArg (BitVec.ofNat 32) ?_
    split <;> omega
  · rw [Nat.mul_comm]

theorem driveCode_eq (c : Config) (t : TuneCtx) : driveCode c t = scanDrive c t := by
  unfold driveCode scanDrive
  cases t.scan <;> rfl

theorem tuneReady_true {s : State} {c : TuneCtx} (ha : s.st.active = none) (ht : s.st.tuning = true)
    (hc : s.st.tctx = some c) (hawait : c.await = false) : tuneReady s = true := by
  simp [tuneReady, tuneAwaiting, ha, ht, hc, hawait]

theorem tuneReady_not_tuning {s : State} (h : s.st.tuning = false) : tuneReady s = false := by simp [tuneReady, h]

theorem ctlReady_nil {s : State} (h : s.st.ctlq = []) : ctlReady s = false := by simp [ctlReady, h]

/-- A trial before its read: the phase set, the result awaited (R634). -/
def trialSet (c : TuneCtx) (s : State) : State :=
  phaseSet c.slot (BitVec.ofNat 32 (16 * scanDrive s.cfg c + c.idx)) (withTune { c with await := true } s)

/-- A trial that is due. -/
theorem tuneStep_trial {s : State} {c : TuneCtx} (ha : s.st.active = none) (ht : s.st.tuning = true)
    (hc : s.st.tctx = some c) (hawait : c.await = false) (hidx : c.idx < nph s.cfg) :
    tuneStep s = dispatchBegin (Request.fresh (probe c)) (trialSet c s) := by
  have hphase := phaseWord_tunePos s.cfg c.idx (driveCode s.cfg c)
  rw [driveCode_eq] at hphase
  simp only [tuneStep, tuneReady_true ha ht hc hawait, if_true, hc, if_pos hidx]
  rw [driveCode_eq, setPhase, hphase]
  rfl

/-! ### The turns (R450) -/

/-- The loop's body where no flush, no event and no SDIO_IRQ_ACK comes before, on the state the run starts from. -/
theorem loopBody_started {s : State} (hno : ¬ (s.st.fatal = true ∧ CanFlush s)) (hq : s.st.evq = [])
    (hack : NoAck s.st.ctlq) : loopBody (looping (started s)) =
    if tuneReady s then some (push [.tuneStep] (looping (started s)))
    else if ctlReady s then some (push [.runCtl] (looping (started s)))
    else if dispatchReady s then some (push [.dispatchNext] (looping (started s))) else none :=
  loopBody_work (x := looping (started s)) hno hq hack

section
variable {s : State} (hs : s.st.dpuSched = true) (hlegal : ∀ e ∈ s.st.evq, 1 ≤ bits e 0 8 ∧ bits e 0 8 ≤ 9)
include hs hlegal

/-- A flush with no request active (R515). -/
theorem dpuRun_flush (hfatal : s.st.fatal = true) (hflush : CanFlush s) (ha : s.st.active = none)
    (hjob : s.st.tuning = true → s.st.tctx ≠ none) : exec .dpuRun s = .next (looping (flushed (started s))) := by
  have hpath : activePath .dma (looping (started s)) = false := by
    have ha' : (looping (started s)).st.active = none := ha
    simp only [activePath, ha']
  have hbegin : fatalFlush (looping (started s)) = setDpu (loopTail s) (setRet .ok (flushed (started s))) := by
    rw [fatalFlush, hpath, if_neg (by decide), flushRest_idle (s := looping (started s)) ha hjob]
    rfl
  exact dpuRun_of_runs (k := 0) hs hlegal (loopBody_flush (x := looping (started s)) hfatal hflush) rfl
    (by rw [hbegin]; exact .refl _) (by decide)

/-- A turn that dispatches a request, by the work `w` (R456, R634). -/
theorem dpuRun_dispatched {w : Work} {r : ReqOp} {x y : State} {a : Active}
    (hbody : loopBody (looping (started s)) = some (push [w] (looping (started s)))) (hw : w.plain = true)
    (hperform : perform w (setDpu (loopTail s) (setRet .ok (started s)))
      = .ofExcept (dispatchBegin (Request.fresh r) (setDpu (loopTail s) (setRet .ok x))))
    (hx : x.st.active = none) (hslot : r.slot.toNat < x.cfg.nslots)
    (hpath : dispatchPath (Request.fresh r) (armed r (setDpu (loopTail s) (setRet .ok x)))
      = .ok (setDpu (loopTail s) (setRet .ok y)))
    (hy : y.ctl.dpu = s.ctl.dpu) (hp : Prompt y) (ha : y.st.active = some a) (har : a.toReqOp = r)
    (hfree : bit y.regs.cmd 31 = false) : exec .dpuRun s = .next (looping (issued r y)) := by
  rw [dispatchBegin_of_path (x := setRet .ok x) (y := setRet .ok y) (loopTail s) hx hslot hpath] at hperform
  have hwork : Runs 1 (push [w] (looping (started s))) _ := Runs.work hw (.inl rfl) hperform
  have hissue := Runs.issue (s := setRet .ok y) (loopTail s) hp ha rfl hfree
  rw [har] at hissue
  exact dpuRun_of_runs hs hlegal hbody (t := issued r y) hy (hwork.trans hissue) (by decide)

variable (hno : ¬ (s.st.fatal = true ∧ CanFlush s))
include hno

theorem dpuRun_stale {e : Word} {q : List Word} (hq : s.st.evq = e :: q) (hrow : ¬ rowMatches e s) :
    exec .dpuRun s = .next (push [.settleLoop] (looping { started s with st := { (started s).st with evq := q } })) := by
  obtain ⟨hlow, hhigh⟩ := hlegal e (by rw [hq]; exact List.mem_cons_self)
  exact dpuRun_of_event hs hlegal hno hq rfl (applyEvent_stale hlow hhigh hrow)

theorem dpuRun_cmdDone {p : BitVec 24} {a : Active} {q : List Word} (hq : s.st.evq = eventWord 1 p :: q)
    (ha : s.st.active = some a) (hcst : s.st.cst = .cIssuing) : exec .dpuRun s
      = .next (push [.settleLoop] (looping (commandEnded p a { started s with st := { (started s).st with evq := q } }))) := by
  refine dpuRun_of_event hs hlegal hno hq rfl ?_
  rw [applyEvent_cmdDone]
  exact congrArg Host.Outcome.next (onCmdDone_issuing p ha hcst)

variable (hq : s.st.evq = [])
include hq

theorem dpuRun_ack {pre post : List CtlEntry} {tag : Word} {slot : BitVec 4}
    (hctlq : s.st.ctlq = pre ++ ⟨.sdioIrqAck, tag, slot⟩ :: post) (hpre : NoAck pre) :
    exec .dpuRun s = .next (looping (ackRun tag slot (withCtlq (pre ++ post) (started s)))) := by
  have hmem : (⟨.sdioIrqAck, tag, slot⟩ : CtlEntry) ∈ s.st.ctlq := by simp [hctlq]
  refine dpuRun_of_work hs hlegal (loopBody_ack (x := looping (started s)) hno hq hmem rfl) rfl rfl
    (congrArg Host.Outcome.next ?_)
  rw [runCtl_ack (s := setDpu (loopTail s) (setRet .ok (started s))) hctlq hpre, runAck_eq]
  rfl

variable (hack : NoAck s.st.ctlq)
include hack

theorem dpuRun_probing {c : TuneCtx} (ha : s.st.active = none) (ht : s.st.tuning = true) (hc : s.st.tctx = some c)
    (hawait : c.await = false) (hidx : c.idx < nph s.cfg) (hp : Prompt s) (hslot : c.slot.toNat < s.cfg.nslots)
    (hfree : bit s.regs.cmd 31 = false) : exec .dpuRun s = .next (looping (probing c (started s))) := by
  have hbody : loopBody (looping (started s)) = some (push [.tuneStep] (looping (started s))) :=
    (loopBody_started hno hq hack).trans (if_pos (tuneReady_true ha ht hc hawait))
  have hpath : dispatchPath (Request.fresh (probe c))
      (armed (probe c) (setDpu (loopTail s) (setRet .ok (trialSet c (started s))))) = _ :=
    dispatchPath_pio (loopTail s) _ rfl (dispatchPrepare_skipped _ (.inr rfl))
  have hstep : tuneStep (setDpu (loopTail s) (setRet .ok (started s)))
      = dispatchBegin (Request.fresh (probe c)) (setDpu (loopTail s) (setRet .ok (trialSet c (started s)))) :=
    tuneStep_trial (s := setDpu (loopTail s) (setRet .ok (started s))) ha ht hc hawait hidx
  exact dpuRun_dispatched hs hlegal hbody rfl (congrArg Res.ofExcept hstep) ha hslot hpath rfl hp rfl rfl hfree

theorem dpuRun_tune {mode : BitVec 4} {index : BitVec 6} {pattern : List Byte} {tag : Word} {slot : BitVec 4}
    {rest : List CtlEntry} {t : State} (ha : s.st.active = none) (ht : s.st.tuning = false)
    (hctlq : s.st.ctlq = ⟨.tune mode index pattern, tag, slot⟩ :: rest)
    (hstart : exec (.tuneStart tag slot mode index pattern) (withCtlq rest (started s)) = .next t) :
    exec .dpuRun s = .next (looping t) := by
  obtain rfl : setRet .ok (tuneStart tag slot mode index pattern (withCtlq rest (started s))) = t :=
    Host.Outcome.next.inj hstart
  have hctl : ctlReady s = true := by simp [ctlReady, ha, ht, hctlq]
  have hbody : loopBody (looping (started s)) = some (push [.runCtl] (looping (started s))) := by
    rw [loopBody_started hno hq hack, tuneReady_not_tuning ht, hctl]
    rfl
  have hframe (c : Control) := tuneStart_withCtl tag slot mode index pattern c (withCtlq rest (started s))
  have hkeep : (tuneStart tag slot mode index pattern (withCtlq rest (started s))).ctl = s.ctl :=
    (congrArg State.ctl (hframe s.ctl)).trans rfl
  have hdpu : (tuneStart tag slot mode index pattern (withCtlq rest (started s))).ctl.dpu = s.ctl.dpu :=
    congrArg Control.dpu hkeep
  refine dpuRun_of_work hs hlegal hbody rfl hdpu (congrArg Host.Outcome.next ?_)
  rw [runCtl_head (s := setDpu (loopTail s) (setRet .ok (started s))) hack ha ht hctlq]
  refine (hframe { s.ctl with dpu := loopTail s, ret := .ok }).trans ?_
  rw [← hkeep]
  rfl

theorem dpuRun_dispatch {k : Nat} {r : ReqOp} {rest : List Request} (ha : s.st.active = none) (ht : s.st.tuning = false)
    (hfatal : s.st.fatal = false) (hctlq : s.st.ctlq = []) (hp : Prompt s) (hfree : bit s.regs.cmd 31 = false) (hk : 1 ≤ k)
    (hn : k ≤ s.cfg.nslots) (hbefore : ∀ j, 1 ≤ j → j < k → (slotAt s ((s.st.rr + j) % s.cfg.nslots)).queue = [])
    (hat : (slotAt s ((s.st.rr + k) % s.cfg.nslots)).queue = Request.fresh r :: rest) (hslot : r.slot.toNat < s.cfg.nslots)
    (hdata : r.data = none) : exec .dpuRun s
      = .next (looping (issued r (armed r (served ((s.st.rr + k) % s.cfg.nslots) rest (started s))))) := by
  have hready : dispatchReady s = true :=
    dispatchReady_true ha ht hfatal hctlq (i := (s.st.rr + k) % s.cfg.nslots) (List.ne_nil_of_mem (hat ▸ List.mem_cons_self))
  have hbody : loopBody (looping (started s)) = some (push [.dispatchNext] (looping (started s))) := by
    rw [loopBody_started hno hq hack, tuneReady_not_tuning ht, ctlReady_nil hctlq, hready]
    rfl
  have hnext : dispatchNext (setDpu (loopTail s) (setRet .ok (started s))) = dispatchBegin (Request.fresh r)
      (setDpu (loopTail s) (setRet .ok (served ((s.st.rr + k) % s.cfg.nslots) rest (started s)))) :=
    dispatchNext_serves (s := setDpu (loopTail s) (setRet .ok (started s))) ha ht hfatal hctlq hk hn hbefore hat
  have hpath : dispatchPath (Request.fresh r) (armed r (setDpu (loopTail s) (setRet .ok
      (served ((s.st.rr + k) % s.cfg.nslots) rest (started s))))) = _ := dispatchPath_none _ _ hdata
  exact dpuRun_dispatched hs hlegal hbody rfl (congrArg Res.ofExcept hnext) ha hslot hpath rfl hp rfl rfl hfree

theorem dpuRun_idle (h : s.st.active ≠ none ∨ (s.st.tuning = true ∧ ∃ c ∈ s.st.tctx, c.await = true) ∨
    (s.st.tuning = false ∧ s.st.ctlq = [] ∧ (s.st.fatal = true ∨ ∀ x ∈ s.st.slots, x.queue = []))) :
    exec .dpuRun s = .next (setRet .ok (started s)) := by
  refine dpuRun_ends hs hlegal ?_
  rw [loopBody_started hno hq hack]
  rcases h with h | ⟨ht, c, hc, hawait⟩ | ⟨ht, hctlq, h⟩
  · obtain ⟨a, ha⟩ := Option.ne_none_iff_exists'.mp h
    have htune : tuneReady s = false := by simp [tuneReady, ha]
    have hctl : ctlReady s = false := by simp [ctlReady, ha]
    rw [htune, hctl, dispatchReady_false (.inl h)]
    rfl
  · have htune : tuneReady s = false := by simp [tuneReady, tuneAwaiting, Option.mem_def.mp hc, hawait]
    have hctl : ctlReady s = false := by simp [ctlReady, ht]
    rw [htune, hctl, dispatchReady_false (.inr (.inl ht))]
    rfl
  · have hidle : dispatchReady s = false := dispatchReady_false (.inr (.inr (h.imp_right .inr)))
    rw [tuneReady_not_tuning ht, ctlReady_nil hctlq, hidle]
    rfl

end

/-- Settles O53: the branches of the loop's body, in its order. -/
theorem dpuRunOrder : Obligations.DpuRunOrder := by
  unfold Obligations.DpuRunOrder
  rintro s u rfl
  refine ⟨fun hs => ?unscheduled, dpuRun_reserved,
    fun hs hlegal => ⟨dpuRun_flush hs hlegal, fun hno =>
      ⟨fun e q hq => ?events, fun hq => ⟨?acks, fun hack => ?work⟩⟩⟩⟩
  case unscheduled => simp only [exec, execDpuRun, hs, Bool.false_eq_true, if_false]
  case events =>
    refine ⟨dpuRun_stale hs hlegal hno hq, ?_⟩
    rintro p a rfl ha hcst
    exact dpuRun_cmdDone hs hlegal hno (hq.trans (by rw [eventWord_append p 1 (by decide)])) ha hcst
  case acks => exact fun pre tag slot post => dpuRun_ack hs hlegal hno hq
  case work =>
    refine ⟨fun c => dpuRun_probing hs hlegal hno hq hack, fun mode index pattern tag slot rest t =>
      dpuRun_tune hs hlegal hno hq hack, fun k r rest ha ht hfatal hctlq _ => ?dispatch, dpuRun_idle hs hlegal hno hq hack⟩
    case dispatch => exact dpuRun_dispatch hs hlegal hno hq hack ha ht hfatal hctlq

end Sys2Proof.Machine
end

section
/-! PROOFS. The family 42_dma.md: the resets once and twice (R566, R680 to R685), and the chunks of a scatter list
(R553). -/

namespace Sys2Proof.Machine

/-! ### Resets, once and twice (R684, R685, R566) -/

theorem next_of_andThen {r : Res} {f : State → Res} {t : State} (h : Res.andThen r f = .next t) :
    ∃ u, r = .next u ∧ f u = .next t := by
  cases r with
  | next u => exact ⟨u, rfl, h⟩
  | fault e => cases h
  | refused e => cases h

/-- The micro-operation `prog` is a reset that leaves `f`: BUS completes it and the DPU goes on with the work behind it. -/
structure ResetLeaves (prog : List Work) (f : State → State) : Prop where
  served  : ∀ {x}, ResetReady x → ∀ ws,
    Res.andThen (drive driveBound (setDpu (prog ++ ws) x)) serveResets = drive 511 (setDpu ws (f x))
  ready   : ∀ {x}, ResetReady x → ResetReady (f x)
  twice   : ∀ x, f (f x) = f x
  ret     : ∀ x, f (setRet .ok x) = setRet .ok (f x)
  dpuKept : ∀ x, (f x).ctl.dpu = x.ctl.dpu

/-- The reset named from a state, and BUS completing it. -/
theorem ResetLeaves.once {prog : List Work} {f : State → State} (h : ResetLeaves prog f) {s : State}
    (hs : ResetReady (setRet .ok s)) :
    ∃ u, runProg prog s = .next u ∧ serveResets u = .next (setRet .ok (f s)) := by
  refine next_of_andThen ?_
  have hdpu : s.ctl.dpu = (setRet .ok (f s)).ctl.dpu := (h.dpuKept s).symm
  rw [runProg_eq, h.served hs, drive_halt 510, h.ret, hdpu, setDpu_self]

/-- A second reset after the first leaves the same state. -/
theorem ResetLeaves.onceAndTwice {prog : List Work} {f : State → State} (h : ResetLeaves prog f) {s : State}
    (hs : ResetReady (setRet .ok s)) :
    ∃ u v, runProg prog s = .next u ∧ serveResets u = .next (setRet .ok (f s)) ∧
      runProg prog (setRet .ok (f s)) = .next v ∧ serveResets v = .next (setRet .ok (f s)) := by
  obtain ⟨u, hrun, hserve⟩ := h.once hs
  obtain ⟨v, hrun', hserve'⟩ := h.once (s := setRet .ok (f s)) (h.ret s ▸ h.ready hs)
  refine ⟨u, v, hrun, hserve, hrun', ?_⟩
  rw [hserve', h.ret, h.twice]
  rfl

/-- Bits of a register cleared twice. -/
theorem and_mask_twice (v m : Word) : v &&& m &&& m = v &&& m := by rw [BitVec.and_assoc, BitVec.and_self]

/-- The FIFO-ready bits set twice. -/
theorem readied_twice (x : State) : readied (readied x) = readied x := by
  refine state_ext rfl ?_ rfl rfl rfl rfl
  show ({ x.regs with rintsts := x.regs.rintsts ||| fifoReadyBits x ||| fifoReadyBits x } : Regs) = _
  rw [BitVec.or_assoc, BitVec.or_self]
  rfl

theorem resetFifo_leaves : ResetLeaves resetFifoProg fifoReset where
  served h ws := resetFifo_served 509 ws h
  ready h := h.fifoReset
  twice x := by
    refine (congrArg readied ?_).trans (readied_twice { x with st := { x.st with
      fifo := [], partBuf := [], dmac := if bit x.regs.ctrl 5 then x.st.dmac else x.st.dmac.halted } })
    cases hen : bit x.regs.ctrl 5 <;> simp [hen, fifoReset, readied, raised, Dmac.halted]
  ret _ := rfl
  dpuKept _ := rfl

theorem ResetReady.controllerReset {x : State} (h : ResetReady x) : ResetReady (controllerReset x) where
  prompt := h.prompt
  legal  := { h.legal with
    cmd := not_mask_zero _ _ _ h.legal.cmd
    idsts := BitVec.zero_and, bmod := not_mask_zero _ _ _ h.legal.bmod }
  clear  := ⟨h.clear.1, not_mask_zero _ _ _ h.clear.2⟩
  ret    := h.ret

theorem resetController_leaves : ResetLeaves resetControllerProg controllerReset where
  served h ws := resetController_served 509 ws h
  ready h := h.controllerReset
  twice x := by simp only [controllerReset, and_mask_twice]
  ret _ := rfl
  dpuKept _ := rfl

theorem dmaReset_leaves : ResetLeaves dmaResetProg dmaReset where
  served h ws := by
    have hwait : drive driveBound (setDpu (dmaResetProg ++ ws) _) = _ :=
      dma_reset_waits _ ws 509 h.prompt h.legal h.ret
    rw [hwait, andThen_next, dma_reset_served _ _ ws h.prompt h.clear h.deadline h.ret]
  ready h := h.dmaReset
  twice x := by
    refine (congrArg readied ?_).trans (readied_twice { x with
      regs := { x.regs with idsts := 0#32, bmod := x.regs.bmod &&& ~~~0x80#32 }
      st := { x.st with
        dmac := { x.st.dmac with state := .stopped, cur := 0#32, owner := .block, moved := 0, desc := none }
        chain := none } })
    simp only [dmaReset, readied, raised, and_mask_twice]
  ret _ := rfl
  dpuKept _ := rfl

/-- Settles O33: each of the three resets leaves its effect, which is the same when it comes twice. -/
theorem resetPrimitives : Obligations.ResetPrimitives := by
  unfold Obligations.ResetPrimitives
  intro s hp hr hn
  have hready := ResetReady.begin hp hr hn
  refine ⟨resetFifo_leaves.onceAndTwice hready, resetController_leaves.onceAndTwice hready, fun hdma => ?_, fun hdma => ?_⟩
  · have hexec : ∀ x : State, x.cfg = s.cfg → exec .dmaReset x = runProg dmaResetProg x := fun x hx => if_pos (hx ▸ hdma)
    rw [hexec s rfl, hexec (setRet .ok (dmaReset s)) rfl]
    exact dmaReset_leaves.onceAndTwice hready
  · simp only [exec, execDmaReset, hdma, Bool.false_eq_true, if_false]

/-! ### The chunks of a scatter list (R553) -/

/-- Pieces of `L` bytes out of `n`: the first `k` hold all of the `n` bytes that they reach. -/
theorem sum_pieces (L n : Nat) : ∀ k, ((List.range k).map fun m => min L (n - m * L)).sum = min (k * L) n
  | 0 => by simp
  | k + 1 => by
    rw [List.range_succ, List.map_append, List.sum_append, sum_pieces L n k, Nat.succ_mul]
    simp only [List.map_cons, List.map_nil, List.sum_cons, List.sum_nil]
    omega

theorem le_ceilDiv_mul {L : Nat} (n : Nat) (hL : 0 < L) : n ≤ ceilDiv n L * L := by
  have h := Nat.div_add_mod (n + L - 1) L
  have hlt := Nat.mod_lt (n + L - 1) hL
  rw [ceilDiv, Nat.mul_comm]
  omega

@[simp] theorem segChunks_length (L : Nat) (g : Seg) : (segChunks L g).length = ceilDiv g.len.toNat L := by
  simp [segChunks]

/-- A segment's chunks hold its bytes. -/
theorem segChunks_sum {L : Nat} (g : Seg) (hL : 0 < L) : ((segChunks L g).map fun x => x.2).sum = g.len.toNat := by
  rw [segChunks, List.map_map]
  exact (sum_pieces L g.len.toNat _).trans (Nat.min_eq_right (le_ceilDiv_mul _ hL))

/-- An aligned segment's chunks are aligned where `DESC_MAX_LEN` is (R26). -/
theorem segChunks_aligned {L a : Nat} {g : Seg} (hL : L % a = 0) (haddr : g.addr.toNat % a = 0) (hlen : g.len.toNat % a = 0) :
    ∀ x ∈ segChunks L g, x.1 % a = 0 ∧ x.2 % a = 0 := by
  simp only [← Nat.dvd_iff_mod_eq_zero] at *
  intro x hx
  obtain ⟨m, -, rfl⟩ := List.mem_map.mp hx
  refine ⟨Nat.dvd_add haddr (hL.mul_left m), ?_⟩
  have hrest := Nat.dvd_sub hlen (hL.mul_left m)
  rcases min_choice L (g.len.toNat - m * L) with h | h <;> simp only [h, hL, hrest]

theorem segChunks_bounded {L : Nat} {g : Seg} : ∀ x ∈ segChunks L g, x.2 ≤ L := by
  intro x hx
  obtain ⟨m, -, rfl⟩ := List.mem_map.mp hx
  exact Nat.min_le_left _ _

theorem chunks_cons (L : Nat) (g : Seg) (sg : List Seg) : chunks L (g :: sg) = segChunks L g ++ chunks L sg := rfl

/-- `k` of R553. -/
theorem chunks_length (L : Nat) (sg : List Seg) :
    (chunks L sg).length = (sg.map fun g => (g.len.toNat + L - 1) / L).sum := by
  simp only [chunks, List.length_flatMap, segChunks_length, ceilDiv]

theorem chunks_sum {L : Nat} (hL : 0 < L) (sg : List Seg) :
    ((chunks L sg).map fun x => x.2).sum = (sg.map fun g => g.len.toNat).sum := by
  induction sg with
  | nil => rfl
  | cons g sg ih =>
    rw [chunks_cons, List.map_append, List.sum_append, segChunks_sum g hL, ih, List.map_cons, List.sum_cons]

theorem chunks_bounded {L : Nat} {sg : List Seg} : ∀ x ∈ chunks L sg, x.2 ≤ L := by
  intro x hx
  obtain ⟨g, -, hg⟩ := List.mem_flatMap.mp hx
  exact segChunks_bounded x hg

/-- The ranges of `DESC_MAX_LEN` (R24, R26). -/
theorem descMaxLen_of_valid {c : Config} (h : c.Valid) :
    0 < c.descMaxLen ∧ c.descMaxLen ≤ 8191 ∧ c.descMaxLen % c.dmaAlign = 0 := by
  obtain ⟨-, -, -, -, -, -, -, -, -, hpos, hle, halign, -⟩ := h
  exact ⟨hpos, hle, halign⟩

/-- Settles O41, segment by segment. -/
theorem chunksCoverTheList : Obligations.ChunksCoverTheList := by
  unfold Obligations.ChunksCoverTheList
  intro c sg hc
  obtain ⟨hpos, -, halign⟩ := descMaxLen_of_valid hc
  refine ⟨?cons, ?nil, chunks_length _ sg, chunks_sum hpos sg, ?aligned⟩
  case cons => rintro g rest rfl; exact chunks_cons _ g rest
  case nil => rintro rfl; rfl
  case aligned =>
    intro hsg x hx
    obtain ⟨g, hg, hxg⟩ := List.mem_flatMap.mp hx
    exact segChunks_aligned halign (hsg g hg).1 (hsg g hg).2 x hxg

end Sys2Proof.Machine
end

section
/-! PROOFS. The family 42_dma.md, DMA_PREPARE (R552, R555): the descriptors it writes as an update of memory, and the lists it
declines. -/

namespace Sys2Proof.Machine

/-! ### Words of host memory (R202, R203) -/

theorem mappedRange_iff (c : Config) (n a : Nat) :
    mappedRange c a n = true ↔ ∀ x, a ≤ x → x < a + n → mapped c x = true := by
  induction n generalizing a with
  | zero => simp only [mappedRange, true_iff]; intro x h h'; omega
  | succ n ih =>
    rw [mappedRange, Bool.and_eq_true, ih]
    constructor
    · rintro ⟨hfirst, hrest⟩ x h h'
      rcases Nat.eq_or_lt_of_le h with rfl | hlt
      · exact hfirst
      · exact hrest x hlt (by omega)
    · exact fun h => ⟨h a (Nat.le_refl a) (by omega), fun x hx hx' => h x (by omega) (by omega)⟩

/-- A load where all bytes are mapped. -/
theorem memLoad_of_mapped {s : State} {a n : Nat} (h : mappedRange s.cfg a n = true) :
    memLoad s a n = some (leVal (Memory.readBytes s.mem a n)) := if_pos h

theorem memLoad_some {s : State} {a n v : Nat} (h : memLoad s a n = some v) :
    mappedRange s.cfg a n = true ∧ leVal (Memory.readBytes s.mem a n) = v := by
  rw [memLoad] at h
  split at h
  · next hm => exact ⟨hm, Option.some.inj h⟩
  · cases h

/-- A store completes where a load does (R202). -/
theorem memStore_of_mapped {s : State} {a n : Nat} (v : Nat) (h : mappedRange s.cfg a n = true) :
    memStore s a n v = some { s with mem := Memory.writeBytes s.mem a (leBytes n v) } := if_pos h

/-- The value of the four bytes at an address. -/
def Memory.word (m : Memory) (a : Nat) : Nat := leVal (Memory.readBytes m a 4)

/-- The four bytes of a value written at an address. -/
def Memory.setWord (m : Memory) (a v : Nat) : Memory := Memory.writeBytes m a (leBytes 4 v)

namespace Memory

@[simp] theorem readBytes_length (m : Memory) (a n : Nat) : (readBytes m a n).length = n := by
  induction n generalizing a with
  | zero => rfl
  | succ n ih => rw [readBytes, List.length_cons, ih]

theorem setWord_wf {m : Memory} (a v : Nat) (h : m.wf) : (m.setWord a v).wf := writeBytes_wf _ _ _ h

theorem word_setWord_same {m : Memory} (a v : Nat) (h : m.wf) : (m.setWord a v).word a = v % 2 ^ 32 := by
  have hread := readBytes_writeBytes_same (leBytes 4 v) m a h
  rw [leBytes_length] at hread
  rw [word, setWord, hread, leVal_leBytes]
  rfl

/-- Bytes that agree make words that agree. -/
theorem word_congr {m m' : Memory} {a : Nat} (h : ∀ x, a ≤ x → x < a + 4 → m.read x = m'.read x) : m.word a = m'.word a :=
  congrArg leVal (readBytes_congr m m' 4 a fun i hi => h (a + i) (by omega) (by omega))

theorem read_setWord_outside (m : Memory) {a x : Nat} (v : Nat) (h : x < a ∨ a + 4 ≤ x) : (m.setWord a v).read x = m.read x :=
  read_writeBytes_outside _ m a x (by rwa [leBytes_length])

theorem word_setWord_other (m : Memory) {a b : Nat} (v : Nat) (h : b + 4 ≤ a ∨ a + 4 ≤ b) :
    (m.setWord a v).word b = m.word b :=
  word_congr fun x hx hx' => read_setWord_outside m v (by omega)

end Memory

/-! ### A descriptor in memory (R310, R311) -/

/-- The four words of a descriptor at `a`. -/
def DescriptorAt (m : Memory) (a d0 d1 d2 d3 : Nat) : Prop :=
  m.word a = d0 ∧ m.word (a + 4) = d1 ∧ m.word (a + 8) = d2 ∧ m.word (a + 12) = d3

/-- A descriptor's words written at `a`, `DES0` last (R210). -/
def writeDescriptor (m : Memory) (a d0 d1 d2 d3 : Nat) : Memory :=
  (((m.setWord (a + 4) d1).setWord (a + 8) d2).setWord (a + 12) d3).setWord a d0

theorem writeDescriptor_wf {m : Memory} (a d0 d1 d2 d3 : Nat) (h : m.wf) : (writeDescriptor m a d0 d1 d2 d3).wf :=
  Memory.setWord_wf _ _ (Memory.setWord_wf _ _ (Memory.setWord_wf _ _ (Memory.setWord_wf _ _ h)))

theorem writeDescriptor_stands {m : Memory} (a d0 d1 d2 d3 : Nat) (h : m.wf) :
    DescriptorAt (writeDescriptor m a d0 d1 d2 d3) a (d0 % 2 ^ 32) (d1 % 2 ^ 32) (d2 % 2 ^ 32) (d3 % 2 ^ 32) := by
  have h1 := Memory.setWord_wf (a + 4) d1 h
  have h2 := Memory.setWord_wf (a + 8) d2 h1
  have h3 := Memory.setWord_wf (a + 12) d3 h2
  refine ⟨Memory.word_setWord_same a d0 h3, ?_, ?_, ?_⟩
  · rw [writeDescriptor, Memory.word_setWord_other _ _ (by omega), Memory.word_setWord_other _ _ (by omega),
      Memory.word_setWord_other _ _ (by omega), Memory.word_setWord_same _ _ h]
  · rw [writeDescriptor, Memory.word_setWord_other _ _ (by omega), Memory.word_setWord_other _ _ (by omega),
      Memory.word_setWord_same _ _ h1]
  · rw [writeDescriptor, Memory.word_setWord_other _ _ (by omega), Memory.word_setWord_same _ _ h2]

theorem read_writeDescriptor_outside (m : Memory) {a x : Nat} (d0 d1 d2 d3 : Nat) (h : x < a ∨ a + 16 ≤ x) :
    (writeDescriptor m a d0 d1 d2 d3).read x = m.read x := by
  simp only [writeDescriptor]
  rw [Memory.read_setWord_outside _ _ (by omega), Memory.read_setWord_outside _ _ (by omega),
    Memory.read_setWord_outside _ _ (by omega), Memory.read_setWord_outside _ _ (by omega)]

theorem DescriptorAt.congr {m m' : Memory} {a d0 d1 d2 d3 : Nat} (h : DescriptorAt m a d0 d1 d2 d3)
    (hread : ∀ x, a ≤ x → x < a + 16 → m'.read x = m.read x) : DescriptorAt m' a d0 d1 d2 d3 := by
  have hword : ∀ o, o ≤ 12 → m'.word (a + o) = m.word (a + o) := fun o ho =>
    Memory.word_congr fun x hx hx' => hread x (by omega) (by omega)
  obtain ⟨h0, h1, h2, h3⟩ := h
  exact ⟨(hword 0 (by omega)).trans h0, (hword 4 (by omega)).trans h1, (hword 8 (by omega)).trans h2,
    (hword 12 (by omega)).trans h3⟩

/-- A descriptor where the engine can load it. -/
theorem DescriptorAt.loads {m : Memory} {s : State} {a d0 d1 d2 d3 : Nat} (h : DescriptorAt m a d0 d1 d2 d3)
    (hmap : mappedRange s.cfg a 16 = true) :
    memLoad { s with mem := m } a 4 = some d0 ∧ memLoad { s with mem := m } (a + 4) 4 = some d1 ∧
    memLoad { s with mem := m } (a + 8) 4 = some d2 ∧ memLoad { s with mem := m } (a + 12) 4 = some d3 := by
  have hload : ∀ o, o ≤ 12 → memLoad { s with mem := m } (a + o) 4 = some (m.word (a + o)) := fun o ho =>
    memLoad_of_mapped (s := { s with mem := m }) ((mappedRange_iff _ _ _).mpr fun x hx hx' =>
      (mappedRange_iff _ _ _).mp hmap x (by omega) (by omega))
  obtain ⟨rfl, rfl, rfl, rfl⟩ := h
  exact ⟨hload 0 (by omega), hload 4 (by omega), hload 8 (by omega), hload 12 (by omega)⟩

/-! ### The chain in memory (R552) -/

/-- The descriptors of positions `j`, `j + 1`, … of a chain of `k` written (R311). -/
def writeDescriptors (c : Config) (k : Nat) : Nat → List (Nat × Nat) → Memory → Memory
  | _, [], m => m
  | j, ch :: rest, m =>
    writeDescriptors c k (j + 1) rest (writeDescriptor m (descAddr c j) (des0 j k) ch.2 ch.1 (des3 c j k))

/-- The block can write the arena: it owns it, and all of it is mapped (R551, R157 (c)). -/
structure ArenaFree (s : State) : Prop where
  owner  : s.st.dmac.owner = .block
  mapped : ∀ x, s.cfg.ringBase ≤ x → x < s.cfg.ringBase + 16 * s.cfg.ndesc → mapped s.cfg x = true

/-- Memory does not matter to that. -/
theorem ArenaFree.withMem {s : State} (h : ArenaFree s) (m : Memory) : ArenaFree { s with mem := m } := ⟨h.owner, h.mapped⟩

theorem ArenaFree.mappedRange {s : State} (h : ArenaFree s) {a n : Nat} (ha : s.cfg.ringBase ≤ a)
    (hn : a + n ≤ s.cfg.ringBase + 16 * s.cfg.ndesc) : mappedRange s.cfg a n = true :=
  (mappedRange_iff _ _ _).mpr fun x hx hx' => h.mapped x (by omega) (by omega)

theorem ArenaFree.guardedStore {s : State} (h : ArenaFree s) {a : Nat} (v : Nat) (ha : s.cfg.ringBase ≤ a)
    (hn : a + 4 ≤ s.cfg.ringBase + 16 * s.cfg.ndesc) :
    guardedStore s a 4 v = .ok { s with mem := Memory.setWord s.mem a v } := by
  have howned : inOwnedArena s a 4 = false := by simp [inOwnedArena, h.owner]
  simp only [Machine.guardedStore, howned, Bool.false_eq_true, if_false, memStore_of_mapped v (h.mappedRange ha hn)]
  rfl

section
variable {s : State} (h : ArenaFree s) (k : Nat)
include h

theorem ArenaFree.writeDesc {j : Nat} (ch : Nat × Nat) (m : Memory) (hj : j < s.cfg.ndesc) :
    writeDesc j k ch { s with mem := m } = .ok { s with
      mem := writeDescriptor m (descAddr s.cfg j) (des0 j k) ch.2 ch.1 (des3 s.cfg j k) } := by
  have hlow : s.cfg.ringBase ≤ descAddr s.cfg j := Nat.le_add_right _ _
  have hhigh : descAddr s.cfg j + 16 ≤ s.cfg.ringBase + 16 * s.cfg.ndesc := by rw [descAddr]; omega
  have hstore (m : Memory) (o v : Nat) (ho : o ≤ 12) : Machine.guardedStore { s with mem := m } (descAddr s.cfg j + o) 4 v
      = .ok { s with mem := m.setWord (descAddr s.cfg j + o) v } :=
    (h.withMem m).guardedStore v (show s.cfg.ringBase ≤ _ by omega)
      (show _ ≤ s.cfg.ringBase + 16 * s.cfg.ndesc by omega)
  have hlast (m : Memory) := hstore m 0 (des0 j k) (by omega)
  rw [Nat.add_zero] at hlast
  rw [Machine.writeDesc, hstore m 4 ch.2 (by omega), except_ok_bind, hstore _ 8 ch.1 (by omega), except_ok_bind,
    hstore _ 12 _ (by omega), except_ok_bind, hlast]
  rfl

theorem ArenaFree.writeChain (chs : List (Nat × Nat)) (j : Nat) (m : Memory) (hj : j + chs.length ≤ s.cfg.ndesc) :
    writeChain k j chs { s with mem := m } = .ok { s with mem := writeDescriptors s.cfg k j chs m } := by
  induction chs generalizing j m with
  | nil => rfl
  | cons ch rest ih =>
    rw [List.length_cons] at hj
    rw [Machine.writeChain, h.writeDesc k ch m (by omega), except_ok_bind, ih _ _ (by omega), writeDescriptors]

end

/-- Descriptors change their own slots of the arena only. -/
theorem read_writeDescriptors_outside (c : Config) (k : Nat) {x : Nat} (chs : List (Nat × Nat)) (j : Nat) (m : Memory)
    (h : x < descAddr c j ∨ descAddr c (j + chs.length) ≤ x) : (writeDescriptors c k j chs m).read x = m.read x := by
  induction chs generalizing j m with
  | nil => rfl
  | cons ch rest ih =>
    simp only [descAddr, List.length_cons] at h ih
    rw [writeDescriptors, ih _ _ (by omega), read_writeDescriptor_outside _ _ _ _ _ (by rw [descAddr]; omega)]

theorem writeDescriptors_wf (c : Config) (k : Nat) (chs : List (Nat × Nat)) (j : Nat) {m : Memory} (h : m.wf) :
    (writeDescriptors c k j chs m).wf := by
  induction chs generalizing j m with
  | nil => exact h
  | cons ch rest ih => exact ih _ (writeDescriptor_wf _ _ _ _ _ h)

/-- Each chunk's descriptor stands in its slot, whatever was written behind it. -/
theorem writeDescriptors_stand (c : Config) (k : Nat) {ch : Nat × Nat} (chs : List (Nat × Nat)) (j i : Nat) {m : Memory}
    (h : m.wf) (hi : chs[i]? = some ch) :
    DescriptorAt (writeDescriptors c k j chs m) (descAddr c (j + i)) (des0 (j + i) k % 2 ^ 32) (ch.2 % 2 ^ 32) (ch.1 % 2 ^ 32)
      (des3 c (j + i) k % 2 ^ 32) := by
  induction chs generalizing j i m with
  | nil => cases hi
  | cons c0 rest ih =>
    have hw := writeDescriptor_wf (descAddr c j) (des0 j k) c0.2 c0.1 (des3 c j k) h
    cases i with
    | zero =>
      obtain rfl : c0 = ch := Option.some.inj hi
      exact (writeDescriptor_stands _ _ _ _ _ h).congr fun x _ hx =>
        read_writeDescriptors_outside c k rest (j + 1) _ (.inl (by simp only [descAddr] at hx ⊢; omega))
    | succ i =>
      have hrest := ih (j + 1) i hw hi
      rwa [Nat.add_right_comm j 1 i] at hrest

/-! ### DMA_PREPARE (R552, R555) -/

/-- The lists DMA_PREPARE declines, in the rule's words (R555). -/
theorem prepareDeclines_iff (c : Config) (sg : List Seg) : prepareDeclines c sg = true ↔
    (∃ g ∈ sg, g.addr.toNat % c.dmaAlign ≠ 0 ∨ g.len.toNat % c.dmaAlign ≠ 0) ∨
    (sg.map fun g => g.len.toNat).sum < c.dmaMinBytes ∨ c.ndesc < (chunks c.descMaxLen sg).length := by
  have halign : sgAligned c sg = false ↔ ∃ g ∈ sg, g.addr.toNat % c.dmaAlign ≠ 0 ∨ g.len.toNat % c.dmaAlign ≠ 0 := by
    simp only [sgAligned, List.all_eq_false, Bool.and_eq_true, decide_eq_true_eq, Decidable.not_and_iff_or_not]
  simp only [prepareDeclines, Bool.or_eq_true, Bool.not_eq_true', decide_eq_true_eq, halign, or_assoc]
  rfl

section
variable {s : State} {sg : List Seg} (hdma : s.cfg.dmaPresent = true) (hfree : ArenaFree s)
include hdma hfree

theorem dmaPrepare_declined (h : prepareDeclines s.cfg sg = true) :
    exec (.dmaPrepare sg) s = .next (setRet .dmaDeclined s) := by
  have howner : s.st.dmac.owner ≠ .engine := by rw [hfree.owner]; decide
  simp only [exec, execDmaPrepare, hdma, if_true, prepare, howner, if_false, h]

theorem dmaPrepare_built (h : prepareDeclines s.cfg sg = false) :
    exec (.dmaPrepare sg) s = .next (setRet .ok { s with
      mem := writeDescriptors s.cfg (chunks s.cfg.descMaxLen sg).length 0 (chunks s.cfg.descMaxLen sg) s.mem
      st := { s.st with chain := some ⟨(chunks s.cfg.descMaxLen sg).length, sgTotal sg⟩ } }) := by
  have howner : s.st.dmac.owner ≠ .engine := by rw [hfree.owner]; decide
  have hfits : (chunks s.cfg.descMaxLen sg).length ≤ s.cfg.ndesc := by
    by_contra hmany
    have := (prepareDeclines_iff s.cfg sg).mpr (.inr (.inr (by omega)))
    rw [h] at this
    cases this
  have hchain := hfree.writeChain (chunks s.cfg.descMaxLen sg).length (chunks s.cfg.descMaxLen sg) 0 s.mem (by omega)
  simp only [exec, execDmaPrepare, hdma, if_true, prepare, howner, if_false, h, Bool.false_eq_true, hchain, except_ok_bind]

end

theorem des0_lt (j k : Nat) : des0 j k < 2 ^ 32 := by
  unfold des0
  split <;> split <;> decide

/-- The address of a descriptor after the first is a 32-bit word (R551). -/
theorem des3_lt {c : Config} (hc : c.Valid) {j k : Nat} (hj : j < k) (hk : k ≤ c.ndesc) : des3 c j k < 2 ^ 32 := by
  obtain ⟨-, -, -, -, -, -, -, -, -, -, -, -, -, -, -, hfit, -⟩ := hc
  rw [Config.addrSpace] at hfit
  rw [des3, descAddr]
  split <;> omega

/-- Settles O39: the chain is `writeDescriptors` of the chunks, and each descriptor is read where it was written. -/
theorem dmaPrepareBuildsChain : Obligations.DmaPrepareBuildsChain := by
  unfold Obligations.DmaPrepareBuildsChain
  intro sg s hc hdma hwf howner halign hmin hfits hmap
  have hfree : ArenaFree s := ⟨howner, hmap⟩
  have hbuilt : prepareDeclines s.cfg sg = false := by
    refine Bool.eq_false_iff.mpr fun h => ?_
    rcases (prepareDeclines_iff _ _).mp h with ⟨g, hg, haddr | hlen⟩ | hsum | hmany
    · exact haddr (halign g hg).1
    · exact hlen (halign g hg).2
    · omega
    · omega
  refine ⟨_, dmaPrepare_built hdma hfree hbuilt, writeDescriptors_wf _ _ _ _ hwf, fun j x n hjx => ?_, fun x hx =>
    read_writeDescriptors_outside _ _ _ _ _ (by simpa only [descAddr, Nat.zero_add, Nat.mul_zero, Nat.add_zero] using hx)⟩
  have hj : j < (chunks s.cfg.descMaxLen sg).length := (List.getElem?_eq_some_iff.mp hjx).1
  have hn : n < 2 ^ 32 := by
    have hle : n ≤ s.cfg.descMaxLen := chunks_bounded _ (List.mem_of_getElem? hjx)
    have := (descMaxLen_of_valid hc).2.1
    omega
  have hstand := writeDescriptors_stand s.cfg (chunks s.cfg.descMaxLen sg).length _ 0 j hwf hjx
  rw [Nat.zero_add, Nat.mod_eq_of_lt (des0_lt _ _), Nat.mod_eq_of_lt (des3_lt hc hj hfits), Nat.mod_eq_of_lt hn] at hstand
  have hloads := hstand.loads (hfree.mappedRange (Nat.le_add_right _ _) (by rw [descAddr]; omega))
  simpa only [descAddr, des0, des3] using hloads

/-- Settles O40: DMA_PREPARE declines where `prepareDeclines` says so, and builds the chain otherwise. -/
theorem dmaPrepareDeclines : Obligations.DmaPrepareDeclines := by
  unfold Obligations.DmaPrepareDeclines
  intro sg s hc hdma howner hmap
  have hfree : ArenaFree s := ⟨howner, hmap⟩
  rw [← chunks_length, ← prepareDeclines_iff]
  refine ⟨⟨?declines, fun h => ⟨_, dmaPrepare_declined hdma hfree h, rfl⟩⟩, ?unchanged, ?threeBytes⟩
  case declines =>
    rintro ⟨t, ht, hret⟩
    by_contra h
    rw [dmaPrepare_built hdma hfree (Bool.eq_false_iff.mpr h)] at ht
    cases ht
    cases hret
  case unchanged =>
    intro t ht hret
    by_cases h : prepareDeclines s.cfg sg = true
    · rw [dmaPrepare_declined hdma hfree h] at ht
      cases ht
      rfl
    · rw [dmaPrepare_built hdma hfree (Bool.eq_false_iff.mpr h)] at ht
      cases ht
      cases hret
  case threeBytes =>
    rintro a halign hmin rfl
    rw [halign, hmin]
    exact ⟨⟨_, List.mem_singleton.mpr rfl, (by decide : 3 % 4 ≠ 0)⟩, (by decide : 3 + 0 < 16)⟩

end Sys2Proof.Machine
end

section
/-! PROOFS. The family 42_dma.md, the DMA engine (R561 to R564, R568): one equation for each kind of step, the beats of a
descriptor taken together, and the descriptor from its fetch to its write-back. -/

namespace Sys2Proof.Machine

/-! ### What kind of step the engine has (R564) -/

section
variable {s : State} (hrun : s.st.dmac.state = .running)
include hrun

theorem dmacStep_fetches (hdesc : s.st.dmac.desc = none) : dmacStep s = dmacFetch s := by
  simp only [dmacStep, hrun, hdesc]

theorem dmacStep_beats {d : Desc} (hdesc : s.st.dmac.desc = some d) (hmoved : s.st.dmac.moved < d.bs1) :
    dmacStep s = dmacBeat d s := by
  simp only [dmacStep, hrun, hdesc, Nat.not_le.mpr hmoved, if_false]

theorem dmacStep_writesBack {d : Desc} (hdesc : s.st.dmac.desc = some d) (hmoved : d.bs1 ≤ s.st.dmac.moved) :
    dmacStep s = dmacWriteBack d s := by
  simp only [dmacStep, hrun, hdesc, hmoved, if_true]

end

theorem dmacSteps_succ (n : Nat) (s : State) : dmacSteps (n + 1) s = dmacStep (dmacSteps n s) := by
  induction n generalizing s with
  | zero => rfl
  | succ n ih => exact ih (dmacStep s)

/-! ### Bus errors (R563) -/

theorem memStore_none {s : State} {a n : Nat} (v : Nat) (h : memLoad s a n = none) : memStore s a n v = none := by
  rw [memLoad, ite_eq_right_iff] at h
  exact if_neg fun hm => nomatch h hm

/-- A fetch that meets an unmapped word. -/
theorem dmacFetch_busError {s : State} (h : memLoad s s.st.dmac.cur.toNat 4 = none ∨
    ∃ d0 j, memLoad s s.st.dmac.cur.toNat 4 = some d0 ∧ bit (BitVec.ofNat 32 d0) 31 = true ∧ 1 ≤ j ∧ j ≤ 3 ∧
      memLoad s (s.st.dmac.cur.toNat + 4 * j) 4 = none) : dmacFetch s = busErrored s := by
  rcases h with hfirst | ⟨d0, j, hd0, hown, hj1, hj3, hhole⟩
  · simp only [dmacFetch, hfirst]
    rfl
  · simp only [dmacFetch, hd0, hown, Bool.true_eq_false, if_false]
    split
    · next d1 d2 d3 h1 h2 h3 =>
      obtain rfl | rfl | rfl : j = 1 ∨ j = 2 ∨ j = 3 := by omega
      · cases hhole.symm.trans h1
      · cases hhole.symm.trans h2
      · cases hhole.symm.trans h3
    · rfl

theorem dmacBeat_busError {s : State} (d : Desc) (hhole : memLoad s (d.bap1.toNat + s.st.dmac.moved) s.cfg.w = none)
    (hready : s.st.dmac.dir = .read ∧ s.st.fifo ≠ [] ∨ s.st.dmac.dir = .write ∧ s.st.fifo.length < s.cfg.fifoDepth) :
    dmacBeat d s = busErrored s := by
  rcases hready with ⟨hdir, hword⟩ | ⟨hdir, hroom⟩
  · obtain ⟨b, q, hq⟩ := List.exists_cons_of_ne_nil hword
    have hstore : memStore (fifoTail s) (d.bap1.toNat + s.st.dmac.moved) s.cfg.w b.toNat = none :=
      memStore_none (s := fifoTail s) _ hhole
    simp only [dmacBeat, hdir, hq, hstore]
    rfl
  · simp only [dmacBeat, hdir, hroom, if_true, hhole]
    rfl

theorem dmacWriteBack_busError {s : State} (d : Desc) (hhole : memLoad s s.st.dmac.cur.toNat 4 = none) :
    dmacWriteBack d s = busErrored s := by
  simp only [dmacWriteBack, memStore_none _ hhole]
  rfl

/-! ### Fetch, beats, write-back (R561, R562) -/

/-- The engine with the descriptor `d` and `n` of its bytes moved, the FIFO `q` and the memory `m`. -/
def holding (d : Desc) (n : Nat) (q : List Beat) (m : Memory) (s : State) : State :=
  { s with mem := m, st := { s.st with fifo := q, dmac := { s.st.dmac with desc := some d, moved := n } } }

section
variable (d : Desc) (n : Nat) (q : List Beat) (m : Memory) (s : State)

@[simp] theorem holding_cfg : (holding d n q m s).cfg = s.cfg := rfl
@[simp] theorem holding_mem : (holding d n q m s).mem = m := rfl
@[simp] theorem holding_fifo : (holding d n q m s).st.fifo = q := rfl
@[simp] theorem holding_state : (holding d n q m s).st.dmac.state = s.st.dmac.state := rfl
@[simp] theorem holding_cur : (holding d n q m s).st.dmac.cur = s.st.dmac.cur := rfl
@[simp] theorem holding_dir : (holding d n q m s).st.dmac.dir = s.st.dmac.dir := rfl
@[simp] theorem holding_desc : (holding d n q m s).st.dmac.desc = some d := rfl
@[simp] theorem holding_moved : (holding d n q m s).st.dmac.moved = n := rfl
@[simp] theorem holding_cardError : cardError (holding d n q m s) = cardError s := rfl
@[simp] theorem fifoTail_holding (b : Beat) : fifoTail (holding d n (b :: q) m s) = holding d n q m s := rfl

end

theorem dmacFetch_holds {s : State} {d0 d1 d2 d3 : Nat} (h0 : memLoad s s.st.dmac.cur.toNat 4 = some d0)
    (h1 : memLoad s (s.st.dmac.cur.toNat + 4) 4 = some d1) (h2 : memLoad s (s.st.dmac.cur.toNat + 8) 4 = some d2)
    (h3 : memLoad s (s.st.dmac.cur.toNat + 12) 4 = some d3) (hown : bit (BitVec.ofNat 32 d0) 31 = true) :
    dmacFetch s = holding ⟨BitVec.ofNat 32 d0, d1 % 2 ^ 13, BitVec.ofNat 32 d2, BitVec.ofNat 32 d3⟩ s.st.dmac.moved s.st.fifo
      s.mem s := by
  simp only [dmacFetch, h0, h1, h2, h3, hown, Bool.true_eq_false, if_false]
  rfl

/-- A FIFO word of memory's bytes (R204). -/
theorem beatOf_load {m : Memory} {a w : Nat} (hw : w ≤ 8) :
    beatOf (beatBytes w (BitVec.ofNat 64 (leVal (Memory.readBytes m a w)))) = beatOf (Memory.readBytes m a w) := by
  have hlen : (Memory.readBytes m a w).length = w := Memory.readBytes_length m a w
  have hlt : leVal (Memory.readBytes m a w) < 2 ^ 64 :=
    calc leVal (Memory.readBytes m a w) < 256 ^ w := by simpa only [hlen] using leVal_lt (Memory.readBytes m a w)
      _ ≤ 256 ^ 8 := Nat.pow_le_pow_right (by decide) hw
      _ = 2 ^ 64 := by decide
  have hbytes := leBytes_leVal (Memory.readBytes m a w)
  rw [hlen] at hbytes
  rw [beatBytes, BitVec.toNat_ofNat, Nat.mod_eq_of_lt hlt, hbytes]

section
variable {s : State} {d : Desc} {n : Nat}

/-- A beat of a read: the FIFO's oldest word to memory. -/
theorem dmacBeat_read (b : Beat) (q : List Beat) (m : Memory) (hdir : s.st.dmac.dir = .read)
    (hmap : mappedRange s.cfg (d.bap1.toNat + n) s.cfg.w = true) :
    dmacBeat d (holding d n (b :: q) m s)
      = holding d (n + s.cfg.w) q (Memory.writeBytes m (d.bap1.toNat + n) (beatBytes s.cfg.w b)) s := by
  have hstore := memStore_of_mapped (s := holding d n q m s) b.toNat hmap
  simp only [dmacBeat, holding_dir, hdir, holding_fifo, fifoTail_holding, holding_moved, holding_cfg, hstore]
  rfl

/-- A beat of a write: memory's next word to the FIFO. -/
theorem dmacBeat_write (q : List Beat) (m : Memory) (hdir : s.st.dmac.dir = .write) (hw : s.cfg.w ≤ 8)
    (hroom : q.length < s.cfg.fifoDepth) (hmap : mappedRange s.cfg (d.bap1.toNat + n) s.cfg.w = true) :
    dmacBeat d (holding d n q m s)
      = holding d (n + s.cfg.w) (q ++ [beatOf (Memory.readBytes m (d.bap1.toNat + n) s.cfg.w)]) m s := by
  have hload := memLoad_of_mapped (s := holding d n q m s) hmap
  simp only [dmacBeat, holding_dir, hdir, holding_fifo, holding_moved, holding_cfg, hroom, if_true, hload]
  rw [← beatOf_load hw]
  rfl

/-- The write-back of a descriptor whose bytes have moved (R562, R568). -/
theorem dmacWriteBack_done (q : List Beat) (m : Memory) (hmap : mappedRange s.cfg s.st.dmac.cur.toNat 4 = true) :
    dmacWriteBack d (holding d n q m s) = { descriptorDone d.des0 d.bap2 n { s with st := { s.st with fifo := q } } with
      mem := m.setWord s.st.dmac.cur.toNat (des0Back d.des0 (cardError s)).toNat } := by
  have hstore := memStore_of_mapped (s := holding d n q m s) (des0Back d.des0 (cardError s)).toNat hmap
  have hcard : cardError s = !decide (s.regs.rintsts &&& 0xAE80#32 = 0#32) := by simp [cardError, anyBit]
  simp only [dmacWriteBack, holding_cardError, holding_cur, hstore]
  cases hlast : bit d.des0 2 with
  | false =>
    by_cases herr : s.regs.rintsts &&& 0xAE80#32 = 0#32 <;>
      simp [hlast, hcard, herr, descriptorDone, holding, setIdsts, Memory.setWord]
  | true =>
    by_cases herr : s.regs.rintsts &&& 0xAE80#32 = 0#32 <;> cases hquiet : bit d.des0 1 <;> cases hdir : s.st.dmac.dir <;>
      simp [hlast, hcard, herr, hquiet, hdir, descriptorDone, holding, setIdsts, Dmac.halted, Memory.setWord]

end

/-! ### `DES0` written back (R562) -/

/-- `OWN` and `CES` of a descriptor cleared, `CES` set to what is given. -/
theorem des0Back_toNat (d0 : Nat) (ces : Bool) :
    (des0Back (BitVec.ofNat 32 d0) ces).toNat = d0 % 2 ^ 30 + if ces then 2 ^ 30 else 0 := by
  have hkept : (BitVec.ofNat 32 d0).toNat &&& (2 ^ 30 - 1) = d0 % 2 ^ 30 := by
    rw [Nat.and_two_pow_sub_one_eq_mod, BitVec.toNat_ofNat, Nat.mod_mod_of_dvd _ (by decide)]
  have hlow : d0 % 2 ^ 30 < 2 ^ 30 := Nat.mod_lt _ (by decide)
  rw [des0Back, BitVec.toNat_or, BitVec.toNat_and]
  cases ces with
  | false => exact (Nat.or_zero _).trans hkept
  | true =>
    show ((BitVec.ofNat 32 d0).toNat &&& (2 ^ 30 - 1)) ||| 2 ^ 30 = d0 % 2 ^ 30 + 2 ^ 30
    have hsum := Nat.two_pow_add_eq_or_of_lt hlow 1
    rw [Nat.mul_one] at hsum
    rw [hkept, Nat.or_comm, Nat.add_comm, hsum]

/-! ### The beats of a read (R562, R204) -/

/-- FIFO words of `w` bytes written from `a` upward. -/
def writeBeats (w : Nat) : Nat → List Beat → Memory → Memory
  | _, [], m => m
  | a, b :: q, m => writeBeats w (a + w) q (Memory.writeBytes m a (beatBytes w b))

theorem writeBeats_wf {w : Nat} (q : List Beat) (a : Nat) {m : Memory} (h : m.wf) : (writeBeats w a q m).wf := by
  induction q generalizing a m with
  | nil => exact h
  | cons b q ih => exact ih _ (Memory.writeBytes_wf _ _ _ h)

theorem read_writeBeats_outside {w x : Nat} (q : List Beat) (a : Nat) (m : Memory) (h : x < a ∨ a + w * q.length ≤ x) :
    (writeBeats w a q m).read x = m.read x := by
  induction q generalizing a m with
  | nil => rfl
  | cons b q ih =>
    rw [List.length_cons, Nat.mul_succ] at h
    rw [writeBeats, ih _ _ (by omega), Memory.read_writeBytes_outside _ _ _ _ (by rw [beatBytes, leBytes_length]; omega)]

/-- Each word is read where it was written. -/
theorem readBytes_writeBeats {w : Nat} {b : Beat} (q : List Beat) (a i : Nat) {m : Memory} (h : m.wf) (hi : q[i]? = some b) :
    (writeBeats w a q m).readBytes (a + w * i) w = beatBytes w b := by
  induction q generalizing a i m with
  | nil => cases hi
  | cons b0 q ih =>
    cases i with
    | zero =>
      obtain rfl : b0 = b := Option.some.inj hi
      have hsame := Memory.readBytes_writeBytes_same (beatBytes w b0) m a h
      rw [beatBytes, leBytes_length] at hsame
      exact (Memory.readBytes_congr _ _ w a fun i hi => read_writeBeats_outside q _ _ (.inl (by omega))).trans hsame
    | succ i =>
      have hrest := ih (a + w) i (Memory.writeBytes_wf (beatBytes w b0) m a h) hi
      rwa [Nat.add_assoc, Nat.add_comm w, ← Nat.mul_succ] at hrest

/-! ### All beats of a descriptor -/

/-- The engine runs, and the bytes of the descriptor `d`, `k` FIFO words, are mapped (R202). -/
structure BeatsMapped (s : State) (d : Desc) (k : Nat) : Prop where
  running : s.st.dmac.state = .running
  count   : d.bs1 = s.cfg.w * k
  width   : 0 < s.cfg.w ∧ s.cfg.w ≤ 8
  bytes   : ∀ x, d.bap1.toNat ≤ x → x < d.bap1.toNat + s.cfg.w * k → mapped s.cfg x = true

section
variable {s : State} {d : Desc} {k : Nat} (h : BeatsMapped s d k)
include h

theorem BeatsMapped.step {i : Nat} (hi : i < k) (q : List Beat) (m : Memory) :
    dmacStep (holding d (s.cfg.w * i) q m s) = dmacBeat d (holding d (s.cfg.w * i) q m s) ∧
    mappedRange s.cfg (d.bap1.toNat + s.cfg.w * i) s.cfg.w = true := by
  have hle : s.cfg.w * i + s.cfg.w ≤ s.cfg.w * k := Nat.mul_succ .. ▸ Nat.mul_le_mul_left _ hi
  obtain ⟨hpos, -⟩ := h.width
  refine ⟨dmacStep_beats (s := holding d _ q m s) h.running rfl (show s.cfg.w * i < d.bs1 by rw [h.count]; omega), ?_⟩
  exact (mappedRange_iff _ _ _).mpr fun x hx hx' => h.bytes x (by omega) (by omega)

theorem BeatsMapped.read (hdir : s.st.dmac.dir = .read) (q rest : List Beat) (i : Nat) (m : Memory) (hi : i + q.length ≤ k) :
    dmacSteps q.length (holding d (s.cfg.w * i) (q ++ rest) m s) = holding d (s.cfg.w * (i + q.length)) rest
      (writeBeats s.cfg.w (d.bap1.toNat + s.cfg.w * i) q m) s := by
  induction q generalizing i m with
  | nil => rfl
  | cons b q ih =>
    rw [List.length_cons] at hi
    obtain ⟨hstep, hmap⟩ := h.step (show i < k by omega) (b :: q ++ rest) m
    have hbeat := hstep.trans (dmacBeat_read b (q ++ rest) m hdir hmap)
    rw [List.length_cons, dmacSteps, hbeat, ← Nat.mul_succ, ih (i + 1) _ (by omega), writeBeats, Nat.mul_succ,
      Nat.add_assoc d.bap1.toNat, Nat.add_right_comm i]
    rfl

theorem BeatsMapped.write (hdir : s.st.dmac.dir = .write) (q : List Beat) (m : Memory) (hroom : q.length + k ≤ s.cfg.fifoDepth)
    (i : Nat) (hi : i ≤ k) :
    dmacSteps i (holding d 0 q m s) = holding d (s.cfg.w * i) (q ++ (List.range i).map fun j =>
      beatOf (Memory.readBytes m (d.bap1.toNat + s.cfg.w * j) s.cfg.w)) m s := by
  induction i with
  | zero => rw [List.range_zero, List.map_nil, List.append_nil]; rfl
  | succ i ih =>
    obtain ⟨hstep, hmap⟩ := h.step hi (q ++ (List.range i).map fun j =>
      beatOf (Memory.readBytes m (d.bap1.toNat + s.cfg.w * j) s.cfg.w)) m
    rw [dmacSteps_succ, ih (by omega), hstep, dmacBeat_write _ m hdir h.width.2 (by simp; omega) hmap, ← Nat.mul_succ,
      List.range_succ, List.map_append, List.append_assoc]
    rfl

end

/-! ### The descriptor from its fetch to its write-back -/

/-- The engine stands before a descriptor of its own, of `k` FIFO words, whose bytes are mapped and do not meet `DES0`
(R561). -/
structure BeforeDescriptor (s : State) (k d0 d1 d2 d3 : Nat) : Prop where
  valid   : s.cfg.Valid
  running : s.st.dmac.state = .running
  desc    : s.st.dmac.desc = none
  moved   : s.st.dmac.moved = 0
  load0   : memLoad s s.st.dmac.cur.toNat 4 = some d0
  load1   : memLoad s (s.st.dmac.cur.toNat + 4) 4 = some d1
  load2   : memLoad s (s.st.dmac.cur.toNat + 8) 4 = some d2
  load3   : memLoad s (s.st.dmac.cur.toNat + 12) 4 = some d3
  own     : bit (BitVec.ofNat 32 d0) 31 = true
  count   : d1 % 2 ^ 13 = s.cfg.w * k
  bytes   : ∀ x, d2 ≤ x → x < d2 + s.cfg.w * k →
    mapped s.cfg x = true ∧ (x < s.st.dmac.cur.toNat ∨ s.st.dmac.cur.toNat + 4 ≤ x)

/-- The descriptor of the four words, as the engine holds it (R561). -/
def heldDesc (d0 d1 d2 d3 : Nat) : Desc := ⟨BitVec.ofNat 32 d0, d1 % 2 ^ 13, BitVec.ofNat 32 d2, BitVec.ofNat 32 d3⟩

/-- Memory after the write-back of `DES0` (R562). -/
def desc0Back (d0 : Nat) (s : State) (m : Memory) : Memory :=
  m.setWord s.st.dmac.cur.toNat (des0Back (BitVec.ofNat 32 d0) (cardError s)).toNat

/-- The write-back changes `DES0` only. -/
theorem read_desc0Back (d0 : Nat) {s : State} (m : Memory) {x : Nat} (hx : x < s.st.dmac.cur.toNat ∨ s.st.dmac.cur.toNat + 4 ≤ x) :
    (desc0Back d0 s m).read x = m.read x := Memory.read_setWord_outside _ _ hx

theorem memLoad_lt {s : State} {a v : Nat} (h : memLoad s a 4 = some v) : v < 2 ^ 32 := by
  have hlt := leVal_lt (Memory.readBytes s.mem a 4)
  rwa [Memory.readBytes_length, (memLoad_some h).2] at hlt

section
variable {s : State} {k d0 d1 d2 d3 : Nat} (h : BeforeDescriptor s k d0 d1 d2 d3)
include h

theorem BeforeDescriptor.address : (heldDesc d0 d1 d2 d3).bap1.toNat = d2 :=
  (BitVec.toNat_ofNat _ _).trans (Nat.mod_eq_of_lt (memLoad_lt h.load2))

theorem BeforeDescriptor.fetch : dmacStep s = holding (heldDesc d0 d1 d2 d3) 0 s.st.fifo s.mem s := by
  have hfetch := dmacFetch_holds h.load0 h.load1 h.load2 h.load3 h.own
  rw [h.moved] at hfetch
  exact (dmacStep_fetches h.running h.desc).trans hfetch

theorem BeforeDescriptor.beats : BeatsMapped s (heldDesc d0 d1 d2 d3) k where
  running := h.running
  count   := h.count
  width   := by
    obtain ⟨-, -, hw, -⟩ := h.valid
    omega
  bytes   := by rw [h.address]; exact fun x hx hx' => (h.bytes x hx hx').1

theorem BeforeDescriptor.writeBack (q : List Beat) (m : Memory) :
    dmacStep (holding (heldDesc d0 d1 d2 d3) (s.cfg.w * k) q m s) = { descriptorDone (BitVec.ofNat 32 d0) (BitVec.ofNat 32 d3)
      (s.cfg.w * k) { s with st := { s.st with fifo := q } } with mem := desc0Back d0 s m } :=
  (dmacStep_writesBack (s := holding _ _ q m s) h.running rfl (Nat.le_of_eq h.count)).trans
    (dmacWriteBack_done q m (memLoad_some h.load0).1)

/-- `DES0` as memory holds it after the write-back. -/
theorem BeforeDescriptor.load_back {m : Memory} (hm : m.wf) : memLoad { s with mem := desc0Back d0 s m } s.st.dmac.cur.toNat 4
    = some (d0 % 2 ^ 30 + if s.regs.rintsts &&& 0xAE80#32 = 0#32 then 0 else 2 ^ 30) := by
  have hload := memLoad_of_mapped (s := { s with mem := desc0Back d0 s m }) (memLoad_some h.load0).1
  have hword := Memory.word_setWord_same s.st.dmac.cur.toNat (des0Back (BitVec.ofNat 32 d0) (cardError s)).toNat hm
  have hces : (if cardError s = true then 2 ^ 30 else 0) = if s.regs.rintsts &&& 0xAE80#32 = 0#32 then 0 else 2 ^ 30 := by
    simp only [cardError, anyBit, decide_eq_true_eq, ne_eq, ite_not]
  rw [Nat.mod_eq_of_lt (BitVec.isLt _)] at hword
  refine hload.trans (congrArg some (hword.trans ?_))
  rw [des0Back_toNat, hces]

/-- A descriptor of a read, with its words in the FIFO. -/
theorem BeforeDescriptor.runs_read (hdir : s.st.dmac.dir = .read) (hq : k ≤ s.st.fifo.length) :
    dmacSteps (k + 2) s = { descriptorDone (BitVec.ofNat 32 d0) (BitVec.ofNat 32 d3) (s.cfg.w * k)
      { s with st := { s.st with fifo := s.st.fifo.drop k } } with
      mem := desc0Back d0 s (writeBeats s.cfg.w d2 (s.st.fifo.take k) s.mem) } := by
  have hlen : (s.st.fifo.take k).length = k := by rw [List.length_take, Nat.min_eq_left hq]
  have hbeats := h.beats.read hdir (s.st.fifo.take k) (s.st.fifo.drop k) 0 s.mem (by omega)
  rw [List.take_append_drop, hlen, Nat.mul_zero, Nat.zero_add, Nat.add_zero, h.address] at hbeats
  rw [dmacSteps_succ, dmacSteps, h.fetch, hbeats, h.writeBack]

/-- A descriptor of a write, with room in the FIFO. -/
theorem BeforeDescriptor.runs_write (hdir : s.st.dmac.dir = .write) (hroom : s.st.fifo.length + k ≤ s.cfg.fifoDepth) :
    dmacSteps (k + 2) s = { descriptorDone (BitVec.ofNat 32 d0) (BitVec.ofNat 32 d3) (s.cfg.w * k)
      { s with st := { s.st with fifo := s.st.fifo ++ (List.range k).map (fun i =>
        beatOf (Memory.readBytes s.mem (d2 + s.cfg.w * i) s.cfg.w)) } } with mem := desc0Back d0 s s.mem } := by
  have hbeats := h.beats.write hdir s.st.fifo s.mem hroom k (Nat.le_refl k)
  rw [h.address] at hbeats
  rw [dmacSteps_succ, dmacSteps, h.fetch, hbeats, h.writeBack]

/-- The words of a read stand in memory, `DES0`'s write-back behind them. -/
theorem BeforeDescriptor.readBytes_back {i : Nat} {m : Memory} (hm : m.wf) (hq : k ≤ s.st.fifo.length) (hi : i < k) :
    (desc0Back d0 s (writeBeats s.cfg.w d2 (s.st.fifo.take k) m)).readBytes (d2 + s.cfg.w * i) s.cfg.w
      = beatBytes s.cfg.w (s.st.fifo.getD i 0#64) := by
  have hle : s.cfg.w * i + s.cfg.w ≤ s.cfg.w * k := Nat.mul_succ .. ▸ Nat.mul_le_mul_left _ hi
  have hword : (s.st.fifo.take k)[i]? = some (s.st.fifo.getD i 0#64) := by
    rw [List.getElem?_take_of_lt hi, List.getD_eq_getElem?_getD, List.getElem?_eq_getElem (by omega), Option.getD_some]
  rw [← readBytes_writeBeats (s.st.fifo.take k) d2 i hm hword]
  exact Memory.readBytes_congr _ _ _ _ fun j hj => read_desc0Back d0 _ (h.bytes _ (by omega) (by omega)).2

end

/-- Settles O42: a descriptor is its fetch, its beats and its write-back; each other step is one branch of the engine's. -/
theorem dmacRunsDescriptor : Obligations.DmacRunsDescriptor := by
  unfold Obligations.DmacRunsDescriptor
  refine ⟨?runs, fun s hrun => ⟨?suspends, ?fetchError, ?beatError, ?backError⟩⟩
  case runs =>
    intro s k d0 d1 d2 d3 hc hwf hrun hdesc hmoved h0 h1 h2 h3 hown hcount hbytes
    have h : BeforeDescriptor s k d0 d1 d2 d3 := ⟨hc, hrun, hdesc, hmoved, h0, h1, h2, h3, hown, hcount, hbytes⟩
    cases hdir : s.st.dmac.dir with
    | read =>
      have hm : Memory.wf (writeBeats s.cfg.w d2 (s.st.fifo.take k) s.mem) := writeBeats_wf _ _ hwf
      refine ⟨_, h.load_back hm, fun _ hq => ⟨h.runs_read hdir hq, fun i hi => h.readBytes_back hwf hq hi,
        fun x hx hx0 => (read_desc0Back d0 _ hx0).trans (read_writeBeats_outside _ _ _ ?_)⟩, nofun⟩
      rwa [List.length_take, Nat.min_eq_left hq]
    | write =>
      exact ⟨_, h.load_back hwf, nofun, fun _ hroom => ⟨h.runs_write hdir hroom, fun x hx => read_desc0Back d0 _ hx⟩⟩
  case suspends =>
    intro d0 hdesc h0 hown
    rw [dmacStep_fetches hrun hdesc]
    simp only [dmacFetch, h0, hown, if_true]
    rfl
  case fetchError => exact fun hdesc hhole => (dmacStep_fetches hrun hdesc).trans (dmacFetch_busError hhole)
  case beatError =>
    intro d hdesc hmoved
    rw [dmacStep_beats hrun hdesc hmoved]
    exact ⟨fun hdir hq hhole => dmacBeat_busError d hhole (.inl ⟨hdir, hq⟩),
      fun hdir hroom hhole => dmacBeat_busError d hhole (.inr ⟨hdir, hroom⟩)⟩
  case backError =>
    exact fun d hdesc hmoved hhole => (dmacStep_writesBack hrun hdesc hmoved).trans (dmacWriteBack_busError d hhole)

end Sys2Proof.Machine
end

section
/-! PROOFS. The family 43_pio.md: the cursor's walk over a scatter list (R601), the bytes PIO_PULL stores apart
from the FIFO words they come in (R603, R604), and PIO_PULL and PIO_PUSH as rows of ON_EVENT (R473, R474). -/

namespace Sys2Proof.Machine

/-! ### The `DATA` port (R127, R147) -/

/-- The FIFO is within its depth and its `DATA` port is not the DMA engine's (R147, R830). -/
structure PortOpen (s : State) : Prop where
  valid   : s.cfg.Valid
  bounded : FifoBounded s
  noDma   : bit s.regs.ctrl 5 = false

theorem fifoGeometry_of_valid {c : Config} (h : c.Valid) : c.w ≤ 8 ∧ c.fifoDepth < 2 ^ 13 := by
  obtain ⟨-, -, hw, -, -, -, hdepth, -⟩ := h
  omega

/-- `STATUS.FIFO_COUNT` (R116). -/
theorem status_fifoCount {s : State} (h : s.st.fifo.length < 2 ^ 13) :
    bits (regRead .STATUS s) 17 13 = s.st.fifo.length := by
  have hlow (b0 b1 b2 b3 b9 : Bool) (n : Nat) (hn : n < 2 ^ 13) : bits (BitVec.ofNat 32
      (bitVal b0 + 2 * bitVal b1 + 4 * bitVal b2 + 8 * bitVal b3 + 2 ^ 9 * bitVal b9 + 2 ^ 17 * n)) 17 13 = n := by
    have h0 := bitVal_le b0
    have h1 := bitVal_le b1
    have h2 := bitVal_le b2
    have h3 := bitVal_le b3
    have h9 := bitVal_le b9
    rw [bits_ofNat _ _ _ (by omega)]
    omega
  exact hlow _ _ _ _ _ _ h

section
variable {s : State} (h : PortOpen s)
include h

theorem PortOpen.count_lt : s.st.fifo.length < 2 ^ 13 :=
  Nat.lt_of_le_of_lt h.bounded (fifoGeometry_of_valid h.valid).2

theorem PortOpen.pullCount_eq : pullCount s = pulledWords s := by
  rw [pullCount, status_fifoCount h.count_lt]
  rfl

theorem PortOpen.pushCount_eq : pushCount s = pushedWords s := by
  rw [pushCount, status_fifoCount h.count_lt]
  rfl

end

/-! ### The cursor on a scatter list (R600, R601) -/

theorem streamAddrs_cons (g : Seg) (sg : List Seg) :
    streamAddrs (g :: sg) = (List.range g.len.toNat).map (g.addr.toNat + ·) ++ streamAddrs sg := List.flatMap_cons

theorem streamAddrs_length (sg : List Seg) : (streamAddrs sg).length = (sg.map fun g => g.len.toNat).sum := by
  simp [streamAddrs, List.length_flatMap]

/-- Segments of no bytes are passed over. -/
theorem nextByte_streamAddrs {a : Nat} (rest pre : List Seg) (off r : Nat)
    (hoff : off = 0 ∨ ∃ g, rest[0]? = some g ∧ off < g.len.toNat) (ha : (streamAddrs rest)[off]? = some a) :
    ∃ seg' off', nextByte rest pre.length off = some (a, seg', off') ∧
      CursorAt (pre ++ rest) ((streamAddrs pre).length + off + 1) ⟨seg', off', r⟩ := by
  induction rest generalizing pre off with
  | nil => cases ha
  | cons g rest ih =>
    rw [streamAddrs_cons] at ha
    by_cases hin : off < g.len.toNat
    · have haddr : g.addr.toNat + off = a := by
        rw [List.getElem?_append_left (by simpa using hin)] at ha
        simpa [hin] using ha
      by_cases hlast : off + 1 = g.len.toNat
      · refine ⟨pre.length + 1, 0, by simp [nextByte, hin, hlast, haddr], .inl rfl, ?_⟩
        show (((pre ++ g :: rest).take (pre.length + 1)).map _).sum + 0 = _
        simp [List.take_length_add_append, streamAddrs_length, hlast, Nat.add_assoc]
      · have hmore : off + 1 < g.len.toNat := by omega
        refine ⟨pre.length, off + 1, by simp [nextByte, hin, hlast, haddr], .inr ⟨g, by simp, hmore⟩, ?_⟩
        simp [streamAddrs_length]
        omega
    · have hzero : off = 0 := hoff.resolve_right fun ⟨x, hx, hlt⟩ => hin (by cases hx; exact hlt)
      have hempty : g.len.toNat = 0 := by omega
      subst hzero
      rw [hempty] at ha
      obtain ⟨seg', off', hnext, hcur⟩ := ih (pre ++ [g]) 0 (.inl rfl) ha
      refine ⟨seg', off', ?_, ?_⟩
      · rw [nextByte, if_neg hin]
        simpa using hnext
      · simpa [streamAddrs_length, hempty] using hcur

/-- `next_byte()` names stream byte `k` and steps the cursor to the next. -/
theorem CursorAt.next {sg : List Seg} {k a : Nat} {p : Pio} (h : CursorAt sg k p) (ha : (streamAddrs sg)[k]? = some a) :
    ∃ seg off, nextByte (sg.drop p.seg) p.seg p.off = some (a, seg, off) ∧
      CursorAt sg (k + 1) { p with seg := seg, off := off } := by
  obtain ⟨hoff, hk⟩ := h
  have hsplit : streamAddrs (sg.take p.seg) ++ streamAddrs (sg.drop p.seg) = streamAddrs sg := by
    rw [streamAddrs, streamAddrs, ← List.flatMap_append, List.take_append_drop]; rfl
  rw [← streamAddrs_length] at hk
  have hdrop : (streamAddrs (sg.drop p.seg))[p.off]? = some a := by
    rw [← hsplit, List.getElem?_append_right (by omega)] at ha
    rwa [← hk, Nat.add_sub_cancel_left] at ha
  have hseg : p.seg < sg.length := by
    by_contra hge
    rw [List.drop_eq_nil_of_le (by omega)] at hdrop
    cases hdrop
  obtain ⟨seg, off, hnext, hcur⟩ := nextByte_streamAddrs (sg.drop p.seg) (sg.take p.seg) p.off p.remaining
    (hoff.imp_right fun ⟨g, hg, hlt⟩ => ⟨g, by simpa using hg, hlt⟩) hdrop
  rw [List.length_take, Nat.min_eq_left (by omega)] at hnext
  rw [List.take_append_drop, hk] at hcur
  exact ⟨seg, off, hnext, hcur⟩

/-! ### One stream byte after another (R601) -/

section
variable {s : State} {b : Byte}

/-- The stream is the tuning buffer (R601, R609). -/
theorem storeByte_onTuneBuffer (htune : onTuneBuffer s = true) : storeByte b s =
    if s.st.pio.off < s.st.tbuf.length then .ok (setCursor s.st.pio.seg (s.st.pio.off + 1)
      { s with st := { s.st with tbuf := s.st.tbuf.set s.st.pio.off b } })
    else .error .pioCursor := if_pos htune

/-- The stream is the scatter list, which has a byte at the cursor. -/
theorem storeByte_onList {x : Nat × Nat × Nat} (hhost : onTuneBuffer s = false)
    (hnext : nextByte ((activeSg s).drop s.st.pio.seg) s.st.pio.seg s.st.pio.off = some x) :
    storeByte b s = (guardedStore s x.1 1 b.toNat).map (setCursor x.2.1 x.2.2) := by
  simp only [storeByte, hhost, Bool.false_eq_true, if_false, hnext]

/-- The scatter list has no more bytes. -/
theorem storeByte_pastEnd (hhost : onTuneBuffer s = false)
    (hnext : nextByte ((activeSg s).drop s.st.pio.seg) s.st.pio.seg s.st.pio.off = none) :
    storeByte b s = .error .pioCursor := by
  simp only [storeByte, hhost, Bool.false_eq_true, if_false, hnext]

end

/-- The stream is the scatter list `sg`, all of it mapped, and the cursor stands before byte `k`. -/
structure StreamAt (sg : List Seg) (k : Nat) (s : State) : Prop where
  list   : activeSg s = sg
  host   : onTuneBuffer s = false
  mapped : ∀ x ∈ streamAddrs sg, mapped s.cfg x = true
  cursor : CursorAt sg k s.st.pio

section
variable {sg : List Seg} {k a : Nat} {s : State} (h : StreamAt sg k s)
include h

theorem StreamAt.mappedByte (ha : (streamAddrs sg)[k]? = some a) : mappedRange s.cfg a 1 = true := by
  rw [mappedRange, h.mapped a (List.mem_of_getElem? ha)]
  rfl

theorem StreamAt.storeByte (howner : s.st.dmac.owner = .block) (ha : (streamAddrs sg)[k]? = some a) (b : Byte) :
    ∃ seg off, storeByte b s = .ok (setCursor seg off { s with mem := Memory.write s.mem a b }) ∧
      StreamAt sg (k + 1) (setCursor seg off { s with mem := Memory.write s.mem a b }) := by
  obtain ⟨seg, off, hnext, hcur⟩ := h.cursor.next ha
  have hstore : guardedStore s a 1 b.toNat = .ok { s with mem := Memory.write s.mem a b } := by
    have howned : inOwnedArena s a 1 = false := by simp [inOwnedArena, howner]
    simp [guardedStore, howned, memStore_of_mapped _ (h.mappedByte ha), leBytes, Memory.writeBytes]
  refine ⟨seg, off, ?_, h.list, h.host, h.mapped, hcur⟩
  rw [storeByte_onList h.host (by rw [h.list]; exact hnext), hstore]
  rfl

theorem StreamAt.loadByte (ha : (streamAddrs sg)[k]? = some a) :
    ∃ seg off, loadByte s = .ok (Memory.read s.mem a, setCursor seg off s) ∧ StreamAt sg (k + 1) (setCursor seg off s) := by
  obtain ⟨seg, off, hnext, hcur⟩ := h.cursor.next ha
  refine ⟨seg, off, ?_, h.list, h.host, h.mapped, hcur⟩
  simp [Machine.loadByte, h.host, h.list, hnext, memLoad_of_mapped (h.mappedByte ha), Memory.readBytes, leVal]

end

theorem StreamAt.storeBytes {sg : List Seg} (bs : List Byte) {k : Nat} {s : State} (h : StreamAt sg k s)
    (howner : s.st.dmac.owner = .block) (hlen : k + bs.length ≤ (streamAddrs sg).length) :
    ∃ seg off, CursorAt sg (k + bs.length) { s.st.pio with seg := seg, off := off } ∧
      storeBytes bs s = .ok (setCursor seg off { s with mem := writeAt s.mem (((streamAddrs sg).drop k).zip bs) }) := by
  induction bs generalizing k s with
  | nil => exact ⟨s.st.pio.seg, s.st.pio.off, h.cursor, by rw [List.zip_nil_right]; rfl⟩
  | cons b bs ih =>
    rw [List.length_cons] at hlen
    have hk : k < (streamAddrs sg).length := by omega
    obtain ⟨seg1, off1, hstore, h1⟩ := h.storeByte howner (List.getElem?_eq_getElem hk) b
    obtain ⟨seg, off, hcur, hrest⟩ := ih h1 howner (by omega)
    refine ⟨seg, off, by rwa [Nat.add_right_comm] at hcur, ?_⟩
    rw [Machine.storeBytes, hstore, except_ok_bind, hrest, List.drop_eq_getElem_cons hk]
    rfl

/-- The `n` bytes of the stream from byte `k` on. -/
def streamRead (sg : List Seg) (k n : Nat) (m : Memory) : List Byte := (((streamAddrs sg).drop k).take n).map m.read

theorem StreamAt.loadBytes {sg : List Seg} (n : Nat) {k : Nat} {s : State} (h : StreamAt sg k s)
    (hlen : k + n ≤ (streamAddrs sg).length) :
    ∃ seg off, loadBytes n s = .ok (streamRead sg k n s.mem, setCursor seg off s) ∧
      StreamAt sg (k + n) (setCursor seg off s) := by
  induction n generalizing k s with
  | zero => exact ⟨s.st.pio.seg, s.st.pio.off, rfl, h⟩
  | succ n ih =>
    have hk : k < (streamAddrs sg).length := by omega
    obtain ⟨seg1, off1, hload, h1⟩ := h.loadByte (List.getElem?_eq_getElem hk)
    obtain ⟨seg, off, hrest, hend⟩ := ih h1 (by omega)
    refine ⟨seg, off, ?_, by rwa [Nat.add_right_comm] at hend⟩
    rw [Machine.loadBytes, hload, except_ok_bind, streamRead, List.drop_eq_getElem_cons hk]
    show (Machine.loadBytes n (setCursor seg1 off1 s) >>= _) = _
    rw [hrest]
    rfl

/-- The tuning buffer with bytes stored from the cursor on, and the cursor behind them (R601, R609). -/
def tuneStored (bs : List Byte) (s : State) : State :=
  { s with st := { s.st with
    tbuf := s.st.tbuf.take s.st.pio.off ++ bs ++ s.st.tbuf.drop (s.st.pio.off + bs.length)
    pio := { s.st.pio with off := s.st.pio.off + bs.length } } }

theorem storeBytes_tuneBuffer (bs : List Byte) {s : State} (htune : onTuneBuffer s = true)
    (hlen : s.st.pio.off + bs.length ≤ s.st.tbuf.length) : storeBytes bs s = .ok (tuneStored bs s) := by
  induction bs generalizing s with
  | nil => simp [storeBytes, tuneStored]
  | cons b bs ih =>
    rw [List.length_cons] at hlen
    have hoff : s.st.pio.off < s.st.tbuf.length := by omega
    have hstore : storeByte b s = .ok (setCursor s.st.pio.seg (s.st.pio.off + 1)
        { s with st := { s.st with tbuf := s.st.tbuf.set s.st.pio.off b } }) := by
      rw [storeByte_onTuneBuffer htune, if_pos hoff]
    have hrest := ih (s := setCursor s.st.pio.seg (s.st.pio.off + 1)
      { s with st := { s.st with tbuf := s.st.tbuf.set s.st.pio.off b } }) htune
      (by show s.st.pio.off + 1 + bs.length ≤ (s.st.tbuf.set s.st.pio.off b).length; rw [List.length_set]; omega)
    have htbuf : (s.st.tbuf.set s.st.pio.off b).take (s.st.pio.off + 1) = s.st.tbuf.take s.st.pio.off ++ [b] := by
      rw [List.set_eq_take_append_cons_drop, if_pos hoff]
      simp [List.take_append, hoff.le]
    rw [storeBytes, hstore, except_ok_bind, hrest]
    simp only [tuneStored, setCursor, htbuf, List.length_cons]
    rw [List.drop_set_of_lt (by omega)]
    simp [Nat.add_assoc, Nat.add_comm 1]

/-! ### The FIFO and the bytes still to move play no part in a stream byte -/

/-- The FIFO and the bytes still to move replaced. -/
def withQueue (q : List Beat) (r : Nat) (s : State) : State :=
  { s with st := { s.st with fifo := q, pio := { s.st.pio with remaining := r } } }

theorem StreamAt.queued {sg : List Seg} {k : Nat} {s : State} (h : StreamAt sg k s) (q : List Beat) (r : Nat) :
    StreamAt sg k (withQueue q r s) := ⟨h.list, h.host, h.mapped, h.cursor⟩

theorem withQueue_self (s : State) : withQueue s.st.fifo s.st.pio.remaining s = s := rfl

theorem guardedStore_withQueue (q : List Beat) (r : Nat) (s : State) (a n v : Nat) :
    guardedStore (withQueue q r s) a n v = (guardedStore s a n v).map (withQueue q r) := by
  have hframe : guardedStore (withQueue q r s) a n v
      = (guardedStore s a n v).map (reframe s.regs (withQueue q r s).st s.ctl) :=
    guardedStore_reframe s.regs (withQueue q r s).st s.ctl s a n v rfl
  rw [hframe]
  cases hs : guardedStore s a n v with
  | error e => rfl
  | ok t => rw [guardedStore_frame hs]; rfl

theorem storeByte_withQueue (q : List Beat) (r : Nat) (b : Byte) (s : State) :
    storeByte b (withQueue q r s) = (storeByte b s).map (withQueue q r) := by
  cases htune : onTuneBuffer s with
  | true =>
    rw [storeByte_onTuneBuffer (s := withQueue q r s) htune, storeByte_onTuneBuffer htune]
    show (if s.st.pio.off < s.st.tbuf.length then _ else _) = _
    split <;> rfl
  | false =>
    cases hnext : nextByte ((activeSg s).drop s.st.pio.seg) s.st.pio.seg s.st.pio.off with
    | none =>
      rw [storeByte_pastEnd (s := withQueue q r s) htune hnext, storeByte_pastEnd htune hnext]
      rfl
    | some x =>
      rw [storeByte_onList (s := withQueue q r s) htune hnext, storeByte_onList htune hnext, guardedStore_withQueue]
      cases guardedStore s x.1 1 b.toNat <;> rfl

theorem storeBytes_withQueue (q : List Beat) (r : Nat) (bs : List Byte) (s : State) :
    storeBytes bs (withQueue q r s) = (storeBytes bs s).map (withQueue q r) := by
  induction bs generalizing s with
  | nil => rfl
  | cons b bs ih =>
    rw [storeBytes, storeBytes, storeByte_withQueue]
    cases storeByte b s with
    | error e => rfl
    | ok t => exact ih t

theorem storeBytes_append (xs ys : List Byte) (s : State) :
    storeBytes (xs ++ ys) s = (storeBytes xs s >>= storeBytes ys) := by
  induction xs generalizing s with
  | nil => rfl
  | cons x xs ih =>
    rw [List.cons_append, storeBytes, storeBytes]
    cases storeByte x s with
    | error e => rfl
    | ok t => exact ih t

theorem storeByte_regs {b : Byte} {s t : State} (h : storeByte b s = .ok t) : t.regs = s.regs := by
  unfold storeByte at h
  split at h
  · split at h
    · cases h; rfl
    · cases h
  · split at h
    · cases h
    · obtain ⟨u, hstore, hcur⟩ := except_map_ok h
      rw [← hcur, guardedStore_frame hstore]
      rfl

theorem storeBytes_regs (bs : List Byte) {s t : State} (h : storeBytes bs s = .ok t) : t.regs = s.regs := by
  induction bs generalizing s with
  | nil => cases h; rfl
  | cons b bs ih =>
    obtain ⟨u, hb, hbs⟩ := except_bind_ok h
    exact (ih hbs).trans (storeByte_regs hb)

/-! ### PIO_PULL (R603, R604) -/

/-- The stream bytes in FIFO words, of which `r` belong to the stream: the last word's high bytes are dropped (R606). -/
def streamBytes (w r : Nat) (ws : List Beat) : List Byte := (ws.flatMap (beatBytes w)).take r

theorem streamBytes_cons (w r : Nat) (x : Beat) (ws : List Beat) :
    streamBytes w r (x :: ws) = (beatBytes w x).take (min w r) ++ streamBytes w (r - min w r) ws := by
  have hlen : (beatBytes w x).length = w := leBytes_length _ _
  rw [streamBytes, List.flatMap_cons, List.take_append, hlen, streamBytes]
  congr 1
  · rw [List.take_eq_take_min, hlen, Nat.min_comm]
  · congr 1; omega

theorem streamBytes_length (w r : Nat) (ws : List Beat) : (streamBytes w r ws).length = min r (w * ws.length) := by
  have hlen : ∀ x ∈ ws, (beatBytes w x).length = w := fun x _ => leBytes_length _ _
  rw [streamBytes, List.length_take, List.length_flatMap, List.map_congr_left hlen, List.map_const', List.sum_replicate,
    smul_eq_mul, Nat.mul_comm]

/-- Words pulled are their stream bytes stored, the FIFO and the count of bytes left moved on. -/
theorem pullWords_storeBytes (ws q : List Beat) (r m : Nat) {s : State} (hdma : bit s.regs.ctrl 5 = false) :
    pullWords ws.length m (withQueue (ws ++ q) r s) = (storeBytes (streamBytes s.cfg.w r ws) s).map fun t =>
      (m + (streamBytes s.cfg.w r ws).length, withQueue q (r - (streamBytes s.cfg.w r ws).length) t) := by
  induction ws generalizing r m s with
  | nil => simp [streamBytes, pullWords, storeBytes, Except.map]
  | cons x ws ih =>
    have hread : dataRead (withQueue (x :: ws ++ q) r s) = .ok (x, withQueue (ws ++ q) r s) := dataRead_cons hdma rfl
    have hshare : ((beatBytes s.cfg.w x).take (min s.cfg.w r)).length = min s.cfg.w r := by
      rw [List.length_take, beatBytes, leBytes_length]
      omega
    rw [List.length_cons, pullWords, hread, except_ok_bind]
    show (storeBytes ((beatBytes s.cfg.w x).take (min s.cfg.w r)) (withQueue (ws ++ q) r s) >>= _) = _
    rw [storeBytes_withQueue, streamBytes_cons, storeBytes_append]
    cases hfirst : storeBytes ((beatBytes s.cfg.w x).take (min s.cfg.w r)) s with
    | error e => rfl
    | ok t =>
      have hcfg : t.cfg = s.cfg := (moves_storeBytes _ _ _ hfirst).cfg
      have hrest := ih (r - min s.cfg.w r) (m + min s.cfg.w r) (s := t) (by rw [storeBytes_regs _ hfirst]; exact hdma)
      rw [hcfg] at hrest
      rw [List.length_append, hshare, ← Nat.add_assoc, ← Nat.sub_sub]
      exact hrest

theorem length_take_pulledWords (s : State) : (s.st.fifo.take (pulledWords s)).length = pulledWords s :=
  List.length_take.trans (Nat.min_eq_left (Nat.min_le_left _ _))

theorem pulledBytes_length (s : State) : (pulledBytes s).length = min s.st.pio.remaining (s.cfg.w * pulledWords s) := by
  have hlen := streamBytes_length s.cfg.w s.st.pio.remaining (s.st.fifo.take (pulledWords s))
  rwa [length_take_pulledWords] at hlen

/-- PIO_PULL once its bytes are stored: the FIFO and the count of bytes left moved on. -/
abbrev pulled (s t : State) : State :=
  setCount (pulledBytes s).length
    (withQueue (s.st.fifo.drop (pulledWords s)) (s.st.pio.remaining - (pulledBytes s).length) t)

section
variable {s t : State} {a : Active} {drain : Bool} (h : PortOpen s) (ha : s.st.active = some a)
  (hstore : storeBytes (pulledBytes s) s = .ok t)
include h hstore

theorem PortOpen.pullWords_eq : pullWords (pullCount s) 0 s = .ok ((pulledBytes s).length,
    withQueue (s.st.fifo.drop (pulledWords s)) (s.st.pio.remaining - (pulledBytes s).length) t) := by
  have hpull := pullWords_storeBytes (s.st.fifo.take (pulledWords s)) (s.st.fifo.drop (pulledWords s)) s.st.pio.remaining 0
    h.noDma
  have hbytes : streamBytes s.cfg.w s.st.pio.remaining (s.st.fifo.take (pulledWords s)) = pulledBytes s := rfl
  rw [List.take_append_drop, withQueue_self, length_take_pulledWords, Nat.zero_add, hbytes, hstore] at hpull
  rw [h.pullCount_eq, hpull]
  rfl

include ha

/-- The only fault left is a drain's, of bytes missing without a data error (R604). -/
theorem PortOpen.pioPull_eq : pioPull drain s =
    if drain = true ∧ s.cfg.w * pulledWords s < s.st.pio.remaining ∧ a.dataErr = none then .error .pioDrainShort
    else .ok (pulled s t) := by
  have hleft : s.st.pio.remaining - (pulledBytes s).length ≠ 0 ↔ s.cfg.w * pulledWords s < s.st.pio.remaining := by
    rw [pulledBytes_length]; omega
  have herr : hasDataErr t = a.dataErr.isSome := by
    rw [hasDataErr, activeKept_storeBytes _ _ _ hstore, ha]
  rw [pioPull, h.pullWords_eq hstore, except_ok_bind]
  show (if (drain && decide (s.st.pio.remaining - (pulledBytes s).length ≠ 0) && !hasDataErr t) = true then _ else _) = _
  simp only [hleft, herr, Bool.and_eq_true, decide_eq_true_eq, Bool.not_eq_true', Option.isSome_eq_false_iff,
    Option.isNone_iff_eq_none, and_assoc]

end

/-! ### PIO_PULL and PIO_PUSH as rows of ON_EVENT (R473, R474) -/

section
variable {s : State} {a : Active} {d : DataSpec} (ha : s.st.active = some a) (hd : a.data = some d)
  (hdst : s.st.dst = .dXfer) (hpath : a.path = .pio)
include ha hd hdst hpath

theorem exec_evRxReady_pio (hdir : d.dir = .read) (q : BitVec 24) :
    exec (.evRxReady q) s = exec (.pioPull false) s :=
  exec_onEvent_rxReady ⟨a, ha, hdst, hpath, d, hd, .inl ⟨hdir, .inl (eventWord_code 3 q (by decide))⟩⟩
    (eventWord_code 3 q (by decide))

theorem exec_evTxReady_pio (hdir : d.dir = .write) (q : BitVec 24) :
    exec (.evTxReady q) s = exec .pioPush s :=
  exec_onEvent_txReady ⟨a, ha, hdst, hpath, d, hd, .inr ⟨hdir, eventWord_code 4 q (by decide)⟩⟩
    (eventWord_code 4 q (by decide))

end

/-- The scatter list of a request of HOST is the stream (R601). -/
theorem streamAt_host {s : State} {a : Active} {d : DataSpec} {k : Nat} (ha : s.st.active = some a) (horigin : a.origin = .host)
    (hd : a.data = some d) (hcur : CursorAt d.sg k s.st.pio) (hmap : ∀ x ∈ streamAddrs d.sg, mapped s.cfg x = true) :
    StreamAt d.sg k (setRet .ok s) where
  list   := by simp only [activeSg, setRet_st, ha, reqSegs, hd]
  host   := by simp [onTuneBuffer, ha, horigin]
  mapped := hmap
  cursor := hcur

/-- PIO_PULL where its bytes can be stored: a drain's fault, or a next state. -/
theorem exec_pioPull_of_stored {drain : Bool} {s t : State} {a : Active} (h : PortOpen s) (ha : s.st.active = some a)
    (hstore : storeBytes (pulledBytes s) (setRet .ok s) = .ok t) :
    (drain = false ∨ s.st.pio.remaining ≤ s.cfg.w * pulledWords s ∨ a.dataErr ≠ none →
      exec (.pioPull drain) s = .next (pulled s t)) ∧
    (drain = true → s.cfg.w * pulledWords s < s.st.pio.remaining → a.dataErr = none →
      exec (.pioPull drain) s = .fault .pioDrainShort) := by
  have hret : PortOpen (setRet .ok s) := ⟨h.valid, h.bounded, h.noDma⟩
  have hpull : exec (.pioPull drain) s = _ := congrArg Res.ofExcept (hret.pioPull_eq ha hstore)
  refine ⟨fun hfull => hpull.trans (congrArg Res.ofExcept (if_neg ?_)),
    fun hdrain hshort herr => hpull.trans (congrArg Res.ofExcept (if_pos ⟨hdrain, hshort, herr⟩))⟩
  rintro ⟨hdrain, hshort, herr⟩
  rcases hfull with hno | hle | hsome
  · exact absurd hdrain (by simp [hno])
  · exact absurd hshort (Nat.not_lt.mpr hle)
  · exact hsome herr

/-- Settles O43: the words pulled are their bytes stored one by one, in memory or in the tuning buffer. -/
theorem pioPullMovesWords : Obligations.PioPullMovesWords := by
  unfold Obligations.PioPullMovesWords
  intro drain a s ha hvalid hfifo hdma howner
  have hport : PortOpen s := ⟨hvalid, hfifo, hdma⟩
  have hcount : (pulledBytes s).length ≤ s.st.pio.remaining := pulledBytes_length s ▸ Nat.min_le_left _ _
  have hevent {d : DataSpec} {t : State} (hd : a.data = some d) (hexec : exec (.pioPull drain) s = .next t) : drain = false →
      s.st.dst = .dXfer → a.path = .pio → d.dir = .read → ∀ q, exec (.evRxReady q) s = .next t := by
    rintro rfl hdst hpath hdir q
    exact (exec_evRxReady_pio ha hd hdst hpath hdir q).trans hexec
  refine ⟨fun d k horigin hd hcur hlen hmap => ?host, fun d horigin hd hlen => ?tuning⟩
  case host =>
    obtain ⟨seg, off, hnext, hstore⟩ := (streamAt_host ha horigin hd hcur hmap).storeBytes (pulledBytes s) howner (by omega)
    obtain ⟨hmoves, hfault⟩ := exec_pioPull_of_stored (drain := drain) hport ha hstore
    exact ⟨fun hfull => ⟨⟨seg, off, s.st.pio.remaining - (pulledBytes s).length⟩, _, hnext, rfl, rfl, hmoves hfull,
      hevent hd (hmoves hfull)⟩, hfault⟩
  case tuning =>
    have htune : onTuneBuffer (setRet .ok s) = true := by simp [onTuneBuffer, ha, horigin]
    obtain ⟨hmoves, hfault⟩ := exec_pioPull_of_stored (drain := drain) hport ha
      (storeBytes_tuneBuffer (pulledBytes s) htune (show s.st.pio.off + _ ≤ s.st.tbuf.length by omega))
    exact ⟨fun hfull => ⟨_, rfl, hmoves hfull, hevent hd (hmoves hfull)⟩, hfault⟩

end Sys2Proof.Machine
end

section
/-! PROOFS. The family 43_pio.md, PIO_PUSH (R605, R606): the FIFO words made of stream bytes, one word pushed after another, and
the end of a PIO write. -/

namespace Sys2Proof.Machine

/-! ### FIFO words of stream bytes (R204, R606) -/

/-- A FIFO word keeps the bytes it was made of (R204). -/
theorem beatOf_beatBytes {w : Nat} {bs : List Byte} (hlen : bs.length ≤ w) (hw : w ≤ 8) :
    beatOf (beatBytes w (beatOf bs)) = beatOf bs := by
  have hword : leVal bs < 256 ^ w := Nat.lt_of_lt_of_le (leVal_lt bs) (Nat.pow_le_pow_right (by decide) hlen)
  have hbeat : (beatOf bs).toNat = leVal bs := (BitVec.toNat_ofNat _ _).trans
    (Nat.mod_eq_of_lt (Nat.lt_of_lt_of_le hword (Nat.pow_le_pow_right (by decide) hw)))
  rw [beatBytes, hbeat, beatOf, leVal_leBytes, Nat.mod_eq_of_lt hword, beatOf]

theorem dataWrite_beatOf {bs : List Byte} {s : State} (hdma : bit s.regs.ctrl 5 = false)
    (hroom : s.st.fifo.length < s.cfg.fifoDepth) (hlen : bs.length ≤ s.cfg.w) (hw : s.cfg.w ≤ 8) :
    dataWrite (beatOf bs) s = .ok (withQueue (s.st.fifo ++ [beatOf bs]) s.st.pio.remaining s) := by
  rw [dataWrite_room hdma _ hroom, fifoAppend, beatOf_beatBytes hlen hw]
  rfl

/-- `n` FIFO words of `w` bytes each, the last padded with zero bytes (R606). -/
def beatsOf (w n : Nat) (bs : List Byte) : List Beat :=
  (List.range n).map fun i => beatOf ((bs.drop (w * i)).take w)

theorem beatsOf_succ (w n : Nat) (bs : List Byte) :
    beatsOf w (n + 1) bs = beatOf (bs.take w) :: beatsOf w n (bs.drop w) := by
  simp [beatsOf, List.range_succ_eq_map, Nat.mul_succ, Nat.add_comm]

section
variable (sg : List Seg) (k n w : Nat) (m : Memory)

theorem streamRead_length (h : k + n ≤ (streamAddrs sg).length) : (streamRead sg k n m).length = n := by
  rw [streamRead, List.length_map, List.length_take, List.length_drop]
  omega

theorem take_streamRead : (streamRead sg k n m).take w = streamRead sg k (min w n) m := by
  rw [streamRead, ← List.map_take, List.take_take, streamRead]

theorem drop_streamRead : (streamRead sg k n m).drop w = streamRead sg (k + w) (n - w) m := by
  rw [streamRead, ← List.map_drop, List.drop_take, List.drop_drop, streamRead]

/-- The words of the `r` bytes left from stream byte `k` on: the first, and those behind it. -/
theorem beatsOf_streamRead_succ (r : Nat) : beatsOf w (n + 1) (streamRead sg k (min r (w * (n + 1))) m)
    = beatOf (streamRead sg k (min w r) m)
      :: beatsOf w n (streamRead sg (k + min w r) (min (r - min w r) (w * n)) m) := by
  rw [beatsOf_succ, take_streamRead, drop_streamRead, Nat.mul_succ]
  rcases Nat.le_total w r with hfull | hlast
  · congr 2 <;> congr 1 <;> omega
  · have hend : min r (w * n + w) - w = 0 ∧ min (r - min w r) (w * n) = 0 := by omega
    rw [hend.1, hend.2, show min w (min r (w * n + w)) = min w r by omega]
    rfl

end

/-! ### One word pushed after another (R605) -/

/-- A word pushed is the stream's next bytes, and the cursor stands behind them. -/
theorem StreamAt.pushWords_succ {sg : List Seg} {k r m n : Nat} {q : List Beat} {s : State} (h : StreamAt sg k s)
    (hlen : k + min s.cfg.w r ≤ (streamAddrs sg).length) (hdma : bit s.regs.ctrl 5 = false) (hw : s.cfg.w ≤ 8)
    (hroom : q.length < s.cfg.fifoDepth) :
    ∃ seg off, pushWords (n + 1) m (withQueue q r s) = pushWords n (m + min s.cfg.w r)
        (withQueue (q ++ [beatOf (streamRead sg k (min s.cfg.w r) s.mem)]) (r - min s.cfg.w r) (setCursor seg off s)) ∧
      StreamAt sg (k + min s.cfg.w r) (setCursor seg off s) := by
  obtain ⟨seg, off, hload, hend⟩ := (h.queued q r).loadBytes (min s.cfg.w r) hlen
  have hword := streamRead_length sg k (min s.cfg.w r) s.mem hlen
  have hwrite : dataWrite (beatOf (streamRead sg k (min s.cfg.w r) s.mem)) (withQueue q r (setCursor seg off s)) = _ :=
    dataWrite_beatOf hdma hroom (hword.trans_le (Nat.min_le_left _ _)) hw
  refine ⟨seg, off, ?_, hend.list, hend.host, hend.mapped, hend.cursor⟩
  rw [pushWords]
  show (Machine.loadBytes (min s.cfg.w r) (withQueue q r s) >>= _) = _
  rw [hload, except_ok_bind]
  show (dataWrite (beatOf (streamRead sg k (min s.cfg.w r) s.mem)) (withQueue q r (setCursor seg off s)) >>= _) = _
  rw [hwrite]
  rfl

theorem StreamAt.pushWords {sg : List Seg} (n : Nat) {k r m : Nat} {q : List Beat} {s : State} (h : StreamAt sg k s)
    (hlen : k + r ≤ (streamAddrs sg).length) (hdma : bit s.regs.ctrl 5 = false) (hw : s.cfg.w ≤ 8)
    (hroom : q.length + n ≤ s.cfg.fifoDepth) :
    ∃ seg off, pushWords n m (withQueue q r s) = .ok (m + min r (s.cfg.w * n),
        withQueue (q ++ beatsOf s.cfg.w n (streamRead sg k (min r (s.cfg.w * n)) s.mem)) (r - min r (s.cfg.w * n))
          (setCursor seg off s)) ∧
      StreamAt sg (k + min r (s.cfg.w * n)) (setCursor seg off s) := by
  induction n generalizing k r m q s with
  | zero =>
    rw [Nat.mul_zero, Nat.min_zero]
    exact ⟨s.st.pio.seg, s.st.pio.off, by simp [Machine.pushWords, beatsOf, withQueue, setCursor], h⟩
  | succ n ih =>
    obtain ⟨seg1, off1, hfirst, h1⟩ := h.pushWords_succ (n := n) (m := m) (q := q) (r := r) (by omega) hdma hw (by omega)
    obtain ⟨seg, off, hrest, hend⟩ := ih (m := m + min s.cfg.w r)
      (q := q ++ [beatOf (streamRead sg k (min s.cfg.w r) s.mem)]) h1 (r := r - min s.cfg.w r) (by omega) hdma hw
      (by rw [List.length_append, List.length_singleton, Nat.add_assoc, Nat.add_comm 1]; exact hroom)
    have hsum : min s.cfg.w r + min (r - min s.cfg.w r) (s.cfg.w * n) = min r (s.cfg.w * (n + 1)) := by
      rw [Nat.mul_succ]; omega
    refine ⟨seg, off, ?_, by rw [← hsum, ← Nat.add_assoc]; exact hend⟩
    rw [beatsOf_streamRead_succ, ← hsum, ← Nat.add_assoc, ← Nat.sub_sub, List.append_cons]
    exact hfirst.trans hrest

/-! ### PIO_PUSH (R605) -/

theorem txFinish_eq {a : Active} {s : State} (ha : s.st.active = some a) : txFinish s = pushEnded a s := by
  rw [txFinish, ha, pushEnded]
  rfl

theorem setCount_pushEnded (n : Nat) (a : Active) (s : State) :
    setCount n (pushEnded a (setRet .ok s)) = counted n (pushEnded a s) := by
  by_cases hend : s.st.pio.remaining = 0 ∧ a.txdone = false
  · have hret : pushEnded a (setRet .ok s) = _ := if_pos hend
    rw [hret, pushEnded, if_pos hend]
    rfl
  · have hret : pushEnded a (setRet .ok s) = setRet .ok s := if_neg hend
    rw [hret, pushEnded, if_neg hend]
    rfl

/-- PIO_PUSH where its words can be pushed (R605). -/
theorem exec_pioPush_of_pushed {n : Nat} {s t : State} {a : Active} (h : PortOpen s) (ha : t.st.active = some a)
    (hpush : pushWords (pushedWords s) 0 (setRet .ok s) = .ok (n, setRet .ok t)) :
    exec .pioPush s = .next (counted n (pushEnded a t)) := by
  have hret : PortOpen (setRet .ok s) := ⟨h.valid, h.bounded, h.noDma⟩
  have hcount : pushCount (setRet .ok s) = pushedWords s := hret.pushCount_eq
  show Res.ofExcept (pushWords (pushCount (setRet .ok s)) 0 (setRet .ok s) >>= _) = _
  rw [hcount, hpush, ← setCount_pushEnded, ← txFinish_eq (s := setRet .ok t) ha]
  rfl

/-- Settles O44: the words pushed are the stream's bytes loaded one by one. -/
theorem pioPushMovesWords : Obligations.PioPushMovesWords := by
  unfold Obligations.PioPushMovesWords
  intro a d k s ha horigin hd hvalid hfifo hdma hcur hlen hmap
  have hroom : s.st.fifo.length + pushedWords s ≤ s.cfg.fifoDepth := by
    have hle : s.st.fifo.length ≤ s.cfg.fifoDepth := hfifo
    have hcount : pushedWords s ≤ s.cfg.fifoDepth - s.st.fifo.length := Nat.min_le_left _ _
    omega
  obtain ⟨seg, off, hpush, hend⟩ := (streamAt_host ha horigin hd hcur hmap).pushWords (m := 0) (q := s.st.fifo)
    (pushedWords s) hlen hdma (fifoGeometry_of_valid hvalid).1 hroom
  have hcount := streamRead_length d.sg k (min s.st.pio.remaining (s.cfg.w * pushedWords s)) s.mem (by omega)
  rw [setRet_cfg] at hend
  rw [Nat.zero_add, setRet_cfg, setRet_mem] at hpush
  generalize hbytes : streamRead d.sg k (min s.st.pio.remaining (s.cfg.w * pushedWords s)) s.mem = bytes at hpush hcount
  rw [← hcount] at hpush hend
  have hexec := exec_pioPush_of_pushed (t := withQueue (s.st.fifo ++ beatsOf s.cfg.w (pushedWords s) bytes)
    (s.st.pio.remaining - bytes.length) (setCursor seg off s)) ⟨hvalid, hfifo, hdma⟩ ha hpush
  exact ⟨⟨seg, off, s.st.pio.remaining - bytes.length⟩, bytes, _, hbytes.symm, hend.cursor, rfl, rfl, hexec,
    fun hdst hpath hdir q => (exec_evTxReady_pio ha hd hdst hpath hdir q).trans hexec⟩

end Sys2Proof.Machine
end

section
/-! PROOFS. The family 44_tuning.md: the circular runs of a bitmap and the phase chosen from them, then TUNE_SELECT,
TUNE_FINISH, TUNE_STEP, the scoring of a tuning read, and TUNE_START. -/

namespace Sys2Proof.Machine

/-! ### The longest circular run (R636, R639) -/

section
variable {b : BitVec 16} {n p l m : Nat}

theorem runAt_succ : RunAt b n p (l + 1) ↔ b.getLsbD (p % n) = true ∧ RunAt b n (p + 1) l := by
  constructor
  · intro h
    refine ⟨h 0 (Nat.succ_pos l), fun i hi => ?_⟩
    rw [Nat.add_right_comm]
    exact h (i + 1) (Nat.succ_lt_succ hi)
  · rintro ⟨hfirst, hrest⟩ (_ | i) hi
    · exact hfirst
    · rw [← Nat.add_assoc, Nat.add_right_comm]
      exact hrest i (Nat.lt_of_succ_lt_succ hi)

/-- `L(s)` counts the passes from `s` on, up to its cap. -/
theorem le_runFrom_iff (k : Nat) : m ≤ runFrom b n k p ↔ m ≤ k ∧ RunAt b n p m := by
  induction k generalizing m p with
  | zero =>
    refine ⟨fun h => ⟨h, fun i hi => ?_⟩, And.left⟩
    exact absurd (Nat.lt_of_lt_of_le hi h) (Nat.not_lt_zero i)
  | succ k ih =>
    cases m with
    | zero => exact ⟨fun _ => ⟨Nat.zero_le _, fun i hi => absurd hi (Nat.not_lt_zero i)⟩, fun _ => Nat.zero_le _⟩
    | succ m =>
      rw [runAt_succ, runFrom]
      by_cases hpass : b.getLsbD (p % n) = true
      · rw [if_pos hpass, Nat.add_comm 1, Nat.succ_le_succ_iff, ih, Nat.succ_le_succ_iff]
        exact and_congr_right fun _ => (and_iff_right hpass).symm
      · rw [if_neg hpass]
        exact iff_of_false (Nat.not_succ_le_zero m) fun h => hpass h.2.1

theorem le_runLen_iff : m ≤ runLen b n p ↔ m ≤ n ∧ RunAt b n p m := le_runFrom_iff n

theorem le_listMax_iff (hm : 0 < m) (xs : List Nat) : m ≤ listMax xs ↔ ∃ x ∈ xs, m ≤ x := by
  induction xs with
  | nil => simp [listMax, Nat.pos_iff_ne_zero.mp hm]
  | cons x xs ih => rw [listMax, le_max_iff, ih, List.exists_mem_cons_iff]

/-- The longest run has `m` positions or more where some position starts `m` passes (R636). -/
theorem le_runMax_iff (hm : 0 < m) : m ≤ runMax b n ↔ m ≤ n ∧ ∃ q < n, RunAt b n q m := by
  rw [runMax, le_listMax_iff hm]
  simp only [List.mem_map, List.mem_range, exists_exists_and_eq_and, le_runLen_iff]
  exact ⟨fun ⟨q, hq, hn, hrun⟩ => ⟨hn, q, hq, hrun⟩, fun ⟨hn, q, hq, hrun⟩ => ⟨q, hq, hn, hrun⟩⟩

theorem LongestRun.runMax_eq (h : LongestRun b n p l) : runMax b n = l := by
  obtain ⟨hp, hpos, hln, hrun, -, hlonger⟩ := h
  refine Nat.le_antisymm (Nat.not_lt.mp fun hlt => ?_) ((le_runMax_iff hpos).mpr ⟨hln, p, hp, hrun⟩)
  obtain ⟨hn, q, hq, hrun'⟩ := (le_runMax_iff (Nat.succ_pos l)).mp hlt
  exact hlonger hn q hq hrun'

/-- The positions that start a longest run. -/
theorem LongestRun.runLen_eq_runMax_iff (h : LongestRun b n p l) {q : Nat} (hq : q < n) :
    runLen b n q = runMax b n ↔ RunAt b n q l := by
  rw [h.runMax_eq]
  obtain ⟨-, -, hln, -, -, hlonger⟩ := h
  refine ⟨fun heq => (le_runLen_iff.mp heq.ge).2, fun hrun => ?_⟩
  refine Nat.le_antisymm (Nat.not_lt.mp fun hlt => ?_) (le_runLen_iff.mpr ⟨hln, hrun⟩)
  obtain ⟨hn, hrun'⟩ := le_runLen_iff.mp hlt
  exact hlonger hn q hq hrun'

theorem LongestRun.runStart_eq (h : LongestRun b n p l) : runStart b n = p := by
  have hfind : ((List.range n).find? fun s => decide (runLen b n s = runMax b n)) = some p := by
    have hstarts {q : Nat} (hq : q < n) := h.runLen_eq_runMax_iff hq
    obtain ⟨hp, -, -, hrun, hleast, -⟩ := h
    refine List.find?_range_eq_some.mpr ⟨decide_eq_true ((hstarts hp).mpr hrun), List.mem_range.mpr hp, fun q hq => ?_⟩
    rw [decide_eq_false (mt (hstarts (hq.trans hp)).mp (hleast q hq))]
    rfl
  rw [runStart, hfind]
  rfl

/-! ### The phase chosen (R637, R641, R642) -/

theorem natCast_sub_mod (hn : 0 < n) (x y : Nat) : (((x + n - y % n) % n : Nat) : Int) = ((x : Int) - y) % n := by
  have hle : y % n ≤ x + n := (Nat.mod_lt y hn).le.trans (Nat.le_add_left n x)
  rw [Int.natCast_emod, Int.natCast_sub hle, Int.natCast_emod, Int.sub_emod_emod, Int.natCast_add, add_sub_right_comm,
    Int.add_emod_right]

theorem circDist_eq_circular (hn : 0 < n) (x y : Nat) : (circDist n x y : Int) = circular n x y := by
  rw [circDist, Nat.cast_min, natCast_sub_mod hn, natCast_sub_mod hn, circular]

theorem LongestRun.medianPhase_eq (h : LongestRun b n p l) : medianPhase b n = (p + (l - 1) / 2) % n := by
  rw [medianPhase, h.runStart_eq, h.runMax_eq]

theorem LongestRun.heuristicPhase_eq (h : LongestRun b n p l) (q : Nat) {m0 m1 : Nat} (h0 : m0 = (p + l / 2 - 1) % n)
    (h1 : m1 = (m0 + 1) % n) :
    heuristicPhase b n q = if circular n m1 q < circular n m0 q then m1 else m0 := by
  have hn : 0 < n := Nat.zero_lt_of_lt h.1
  simp only [heuristicPhase, h.runStart_eq, h.runMax_eq, ← h0, ← h1, ← circDist_eq_circular hn, Int.ofNat_lt]

theorem chosenPhase_median {c : Config} (prev : Option Nat) (h : LongestRun b (nph c) p l)
    (hplain : c.tunePrevHeuristic = false ∨ l % 2 = 1 ∨ prev = none) :
    chosenPhase c b prev = (p + (l - 1) / 2) % nph c := by
  rw [← h.medianPhase_eq]
  cases prev with
  | none => rfl
  | some q =>
    refine if_neg fun hheur => ?_
    rw [h.runMax_eq, Bool.and_eq_true, decide_eq_true_eq] at hheur
    obtain ⟨hon, heven⟩ := hheur
    rcases hplain with hoff | hodd | hnone
    · exact Bool.false_ne_true (hoff.symm.trans hon)
    · exact Nat.zero_ne_one (heven.symm.trans hodd)
    · cases hnone

theorem chosenPhase_heuristic {c : Config} {q : Nat} (h : LongestRun b (nph c) p l) (hon : c.tunePrevHeuristic = true)
    (heven : l % 2 = 0) : chosenPhase c b (some q) = heuristicPhase b (nph c) q :=
  if_pos (by rw [hon, h.runMax_eq, heven]; rfl)

end

/-! ### TUNE_FINISH and TUNE_SELECT (R637, R644, R647) -/

section
variable {c : TuneCtx} {s : State}

theorem phaseWord_eq (cfg : Config) (p drv : Nat) :
    phaseWord cfg p drv = BitVec.ofNat 32 (16 * drv + if cfg.fineTune then 8 * (p % 2) + p / 2 else p) := by
  unfold phaseWord
  split <;> refine congrArg (BitVec.ofNat 32) ?_ <;> omega

/-- The phase written before the slot's cache or after it (R644). -/
theorem tuneSuccess_eq (c : TuneCtx) (p : Nat) (s : State) : tuneSuccess c p c.bitmap s = tuneAccepted c p s := by
  have hslots (w : Word) (t : Tuned) :
      (s.st.slots.modify c.slot.toNat fun x => { x with smpl := w }).modify c.slot.toNat
          (fun x => { x with tuned := t, prevPhase := some p })
        = (s.st.slots.modify c.slot.toNat fun x => { x with tuned := t, prevPhase := some p }).modify c.slot.toNat
          fun x => { x with smpl := w } := by
    rw [List.modify_modify_eq, List.modify_modify_eq]
    rfl
  rw [tuneSuccess, setPhase, phaseWord_eq, driveCode_eq]
  refine state_ext rfl rfl ?_ rfl rfl rfl
  exact congrArg (fun slots => { (tuneAccepted c p s).st with slots := slots }) (hslots _ _)

variable (hc : s.st.tctx = some c)
include hc

theorem tuneFinish_noViableMode : tuneFinish .noViableMode s = tuneRejected c s := by
  have hpayload : tunePayload 0 c.bitmap = c.bitmap.zeroExtend 32 <<< 16 := by
    rw [tunePayload, ← BitVec.toNat_inj]
    simp [Nat.shiftLeft_eq, Nat.mul_comm]
  simp only [tuneFinish, hc, if_true, hpayload]
  rfl

theorem tuneFinish_other {code : Code} (h : code ≠ .noViableMode) : tuneFinish code s = tuneEnded c code 0#32 s := by
  simp only [tuneFinish, hc, if_neg h]
  rfl

theorem tuneSelect_accepts (h : scanAccepted s.cfg s.st.clkDiv c.bitmap = true) :
    tuneSelect s = tuneAccepted c (chosenPhase s.cfg c.bitmap (slotAt s c.slot.toNat).prevPhase) s := by
  simp only [tuneSelect, hc, h, if_true, tuneSuccess_eq]

theorem tuneSelect_rescans (h : scanAccepted s.cfg s.st.clkDiv c.bitmap = false) (hscan : c.scan < s.cfg.tuneRetryMax) :
    tuneSelect s = withTune { c with scan := c.scan + 1, idx := 0, bitmap := 0#16 } s := by
  simp only [tuneSelect, hc, h, Bool.false_eq_true, if_false, if_pos hscan]
  rfl

theorem tuneSelect_rejects (h : scanAccepted s.cfg s.st.clkDiv c.bitmap = false) (hscan : s.cfg.tuneRetryMax ≤ c.scan) :
    tuneSelect s = tuneRejected c s := by
  simp only [tuneSelect, hc, h, Bool.false_eq_true, if_false, if_neg (Nat.not_lt.mpr hscan)]
  exact tuneFinish_noViableMode hc

theorem exec_tuneSelect : exec .tuneSelect s = .next (setRet .ok (tuneSelect s)) := by
  simp only [exec, execTuneSelect, hc]
  rfl

theorem exec_tuneFinish (code : Code) : exec (.tuneFinish code) s = .next (setRet .ok (tuneFinish code s)) := by
  simp only [exec, execTuneFinish, hc]
  rfl

end

/-- A scan without a run of the divider's minimum is not accepted (R638). -/
theorem scanAccepted_false {cfg : Config} {div : Nat} {b : BitVec 16}
    (h : ∀ q, q < nph cfg → nph cfg < max 1 (minRunAt cfg div) ∨ ¬ RunAt b (nph cfg) q (max 1 (minRunAt cfg div))) :
    scanAccepted cfg div b = false := by
  refine decide_eq_false fun hlong => ?_
  obtain ⟨hle, q, hq, hrun⟩ := (le_runMax_iff (Nat.le_max_left 1 _)).mp hlong
  exact (h q hq).elim (Nat.not_lt.mpr hle) fun hnot => hnot hrun

/-- Settles O47: the longest run decides both acceptance and the phase. -/
theorem tuneSelectsMedian : Obligations.TuneSelectsMedian := by
  unfold Obligations.TuneSelectsMedian
  intro c s n p l hc _ hn hrun hmin
  obtain rfl : n = nph s.cfg := hn
  have haccepted : scanAccepted s.cfg s.st.clkDiv c.bitmap = true :=
    decide_eq_true (by rw [hrun.runMax_eq]; exact hmin)
  rw [exec_tuneSelect hc, tuneSelect_accepts hc haccepted]
  refine ⟨fun hplain => ?_, fun q m0 m1 hon heven hprev h0 h1 => ?_⟩
  · rw [chosenPhase_median _ hrun hplain]
  · rw [hprev, chosenPhase_heuristic hrun hon heven, hrun.heuristicPhase_eq q h0 h1]

/-- Settles O48: a scan not accepted is tried again or fails the job, and TUNE_FINISH ends it with its code. -/
theorem tuneRejectsAndFinishes : Obligations.TuneRejectsAndFinishes := by
  unfold Obligations.TuneRejectsAndFinishes
  intro c s hc
  refine ⟨fun hshort => ?rejected, ?failed, fun code hcode => ?ended⟩
  case rejected =>
    have hnot : scanAccepted s.cfg s.st.clkDiv c.bitmap = false := scanAccepted_false hshort
    rw [exec_tuneSelect hc]
    exact ⟨fun hscan => by rw [tuneSelect_rescans hc hnot hscan], fun hscan => by rw [tuneSelect_rejects hc hnot hscan]⟩
  case failed => rw [exec_tuneFinish hc, tuneFinish_noViableMode hc]
  case ended => rw [exec_tuneFinish hc, tuneFinish_other hc hcode]

/-! ### TUNE_STEP (R634) -/

theorem tuneSelect_withCtl (x : Control) (s : State) : tuneSelect (withCtl x s) = withCtl x (tuneSelect s) := by
  cases hc : s.st.tctx with
  | none => simp only [tuneSelect, withCtl, hc]
  | some c =>
    have hc' : (withCtl x s).st.tctx = some c := hc
    cases haccepted : scanAccepted s.cfg s.st.clkDiv c.bitmap with
    | true =>
      rw [tuneSelect_accepts hc haccepted, tuneSelect_accepts hc' haccepted]
      rfl
    | false =>
      rcases Nat.lt_or_ge c.scan s.cfg.tuneRetryMax with hscan | hscan
      · rw [tuneSelect_rescans hc haccepted hscan, tuneSelect_rescans hc' haccepted hscan]
        rfl
      · rw [tuneSelect_rejects hc haccepted hscan, tuneSelect_rejects hc' haccepted hscan]
        rfl

section
variable {c : TuneCtx} {s : State}

/-- TUNE_STEP named by a trace, where it dispatches nothing (R634). -/
theorem exec_tuneStep_of_ok {t : State} (hdpu : t.ctl.dpu = .halt :: s.ctl.dpu)
    (h : tuneStep (setDpu (.halt :: s.ctl.dpu) (setRet .ok s)) = .ok t) :
    exec .tuneStep s = .next (setDpu s.ctl.dpu t) :=
  runProg_only (w := .tuneStep) rfl (congrArg Res.ofExcept h) hdpu

theorem exec_tuneStep_notReady (h : tuneReady s = false) : exec .tuneStep s = .next (setRet .ok s) :=
  exec_tuneStep_of_ok rfl (if_neg (Bool.eq_false_iff.mp h))

/-- With no phase left to try, TUNE_STEP does what TUNE_SELECT does (R634). -/
theorem tuneStep_selects (hready : tuneReady s = true) (hc : s.st.tctx = some c) (hidx : nph s.cfg ≤ c.idx) :
    tuneStep s = .ok (tuneSelect s) := by
  simp only [tuneStep, hready, if_true, hc, if_neg (Nat.not_lt.mpr hidx)]

theorem exec_tuneStep_selects (hready : tuneReady s = true) (hc : s.st.tctx = some c) (hidx : nph s.cfg ≤ c.idx) :
    exec .tuneStep s = exec .tuneSelect s := by
  have hstep := tuneStep_selects (s := setDpu (.halt :: s.ctl.dpu) (setRet .ok s)) hready hc hidx
  have hinside : tuneSelect (setDpu (.halt :: s.ctl.dpu) (setRet .ok s)) = _ :=
    tuneSelect_withCtl { s.ctl with dpu := .halt :: s.ctl.dpu, ret := .ok } s
  have hctl : withCtl s.ctl (tuneSelect s) = tuneSelect s := (tuneSelect_withCtl s.ctl s).symm
  rw [hinside] at hstep
  rw [exec_tuneStep_of_ok rfl hstep, exec_tuneSelect hc, ← hctl]
  rfl

variable (ha : s.st.active = none) (ht : s.st.tuning = true) (hc : s.st.tctx = some c) (hawait : c.await = false)
  (hidx : c.idx < nph s.cfg)
include ha ht hc hawait hidx

/-- A trial is the phase set, and the dispatch of its tuning read (R634). -/
theorem exec_tuneStep_trial : exec .tuneStep s = exec (.dispatch (probe c)) (trialSet c s) := by
  have htrial := tuneStep_trial (s := setDpu (.halt :: s.ctl.dpu) (setRet .ok s)) ha ht hc hawait hidx
  show runProg [.tuneStep] s = runProg [.dispatch (Request.fresh (probe c))] _
  rw [runProg_first _ _ _ rfl, runProg_first _ _ _ rfl, List.nil_append, perform, perform, htrial]
  rfl

/-- The tuning read goes by PIO (R633). -/
theorem exec_tuneStep_probes (hp : Prompt s) (hslot : c.slot.toNat < s.cfg.nslots) (hfree : bit s.regs.cmd 31 = false) :
    exec .tuneStep s = .next (probing c s) :=
  (exec_tuneStep_trial ha ht hc hawait hidx).trans
    (dispatchByPio (probe c) (probe.probeData c) (trialSet c s) hp ha hslot hfree rfl (.inr (.inl rfl)))

end

/-- Settles O46: a trial is a dispatch, the end of a scan is TUNE_SELECT. -/
theorem tuneStepSendsRead : Obligations.TuneStepSendsRead := by
  unfold Obligations.TuneStepSendsRead
  intro c s hc
  refine ⟨fun ht ha hawait => ⟨fun hidx hp hslot hfree => ?_, fun hidx => ?_⟩, fun hoff => ?_⟩
  · exact exec_tuneStep_probes ha ht hc hawait hidx hp hslot hfree
  · exact exec_tuneStep_selects (tuneReady_true ha ht hc hawait) hc hidx
  · refine exec_tuneStep_notReady ?_
    rcases hoff with ht | ha | hawait
    · exact tuneReady_not_tuning ht
    · simp [tuneReady, ha]
    · simp [tuneReady, tuneAwaiting, hc, hawait]

/-! ### The tuning read scored (R635) -/

section
variable {c : TuneCtx} {s : State} {code : Code} (hc : s.st.tctx = some c)
include hc

theorem tuneResult_ends (hcode : code = .noMedium ∨ code = .hardFailure) :
    tuneResult code s = tuneEnded c code 0#32 s := by
  have hother : code ≠ .noViableMode := by rintro rfl; simp at hcode
  simp only [tuneResult, hc, if_pos hcode]
  exact tuneFinish_other (c := { c with await := false }) rfl hother

theorem tuneResult_scores (hmedium : code ≠ .noMedium) (hfailure : code ≠ .hardFailure) :
    tuneResult code s = withTune { c with
      await := false
      idx := c.idx + 1
      bitmap := if code = .ok ∧ s.st.tbuf.take c.pattern.length = c.pattern then
          c.bitmap ||| 1#16 <<< tunePos s.cfg c.idx
        else c.bitmap } s := by
  simp only [tuneResult, hc, if_neg (not_or.mpr ⟨hmedium, hfailure⟩), Bool.and_eq_true, decide_eq_true_eq]
  rfl

end

/-- Settles O49: COMPLETE hands the summary of a tuning read to TUNE_RESULT. -/
theorem tuningReadScored : Obligations.TuningReadScored := by
  unfold Obligations.TuningReadScored
  intro a c s ha horigin hc howner
  have hcleared : (clearActive s).st.tctx = some c := hc
  rw [exec_complete ha howner, completeActive_tuning ha horigin]
  refine ⟨fun hcode => ?_, fun hmedium hfailure => ?_⟩
  · rw [tuneResult_ends hcleared hcode]
    rfl
  · rw [tuneResult_scores hcleared hmedium hfailure]
    rfl

/-! ### TUNE_START (R631) -/

/-- Settles O45: the branches of TUNE_START, in its order. -/
theorem tuneStartFourWays : Obligations.TuneStartFourWays := by
  unfold Obligations.TuneStartFourWays
  intro tag slot mode index pattern s x
  have hexec : exec (.tuneStart tag slot mode index pattern) s
      = .next (setRet .ok (tuneStart tag slot mode index pattern s)) := rfl
  rw [hexec]
  refine ⟨fun habsent => ?absent, fun hpresent hmode => ?otherMode, fun hpresent hmode hvalid hcached => ?cached,
    fun hpresent hmode hstale => ?newJob⟩
  all_goals refine congrArg (fun t => Host.Outcome.next (setRet .ok t)) ?_
  case absent => exact if_pos habsent
  case otherMode => exact (if_neg (ne_false_of_eq_true hpresent)).trans (if_pos hmode)
  case cached =>
    exact (if_neg (ne_false_of_eq_true hpresent)).trans ((if_neg (not_not.mpr hmode)).trans (if_pos ⟨hvalid, hcached⟩))
  case newJob =>
    have hnot : ¬ (x.tuned.valid = true ∧ x.tuned.mode = mode) := by
      rintro ⟨hvalid, hcached⟩
      exact hstale.elim (fun h => Bool.false_ne_true (h.symm.trans hvalid)) fun h => h hcached
    exact (if_neg (ne_false_of_eq_true hpresent)).trans ((if_neg (not_not.mpr hmode)).trans (if_neg hnot))

end Sys2Proof.Machine
end

section
/-! PROOFS. The family 45_recovery.md: the two busy windows with a controller reset between them (R686), and the commands
ISSUE_STOP and UPDATE_CLOCK (R692, R412). -/

namespace Sys2Proof.Machine

/-! ### WAIT_NOT_BUSY (R686, R687) -/

/-- A micro-operation's poll expires with a failure: the rest is passed over, the failure is the result (R47, R724). -/
theorem dpuStep_pollFails {c : PollCond} {t : Nat} {e : PollEnd} {rest : List Work} (ws : List Work) {x : State}
    (hfail : (pollExpire e x).ctl.ret ≠ .ok) (hy : x.ctl.yields = false) (ht : t ≤ x.st.now) (hrest : PassedOver rest)
    (hlen : rest.length < driveBound) :
    dpuStep (setDpu (.poll c t e :: (rest ++ .halt :: ws)) x) = .next (setDpu ws (pollExpire e x)) := by
  have hexpire (l : List Work) : pollExpire e (setDpu l x) = setDpu l (pollExpire e x) := by cases e <;> rfl
  obtain ⟨k, hk⟩ := Nat.exists_eq_add_of_le (Nat.succ_le_of_lt hlen)
  rw [dpuStep_expired (s := setDpu _ x) rfl hy ht, setDpu_setDpu, hexpire, hk]
  exact drive_passedOver ws hfail hrest k

/-- The card is not busy: the wait is over at its first evaluation (R686). -/
theorem exec_waitNotBusy_ready {s : State} (hp : Prompt s) (hfree : bit (regRead .STATUS s) 9 = false) :
    exec .waitNotBusy s = .next (setRet .ok s) :=
  runProg_of_runs (t := setRet .ok s) (fun n => waitNotBusy_passes n _ (x := setRet .ok s) hp rfl hfree) (by decide)

/-- The card is busy: the first window is under way (R686). -/
theorem exec_waitNotBusy_busy {s : State} (hp : Prompt s) (hbusy : bit (regRead .STATUS s) 9 = true) :
    exec .waitNotBusy s = .next (setDpu (.poll .notBusy (s.st.now + ticks s.cfg s.cfg.busyTimeout) .busy ::
      .busyAgain :: .halt :: s.ctl.dpu) (setRet .ok s)) :=
  (runProg_eq waitNotBusyProg s).trans (waitNotBusy_waits 510 _ (x := setRet .ok s) hp rfl hbusy)

/-- Settles O34: the first window's expiry begins the controller reset, and the second window stands behind it. -/
theorem waitNotBusyTwoWindows : Obligations.WaitNotBusyTwoWindows := by
  unfold Obligations.WaitNotBusyTwoWindows
  refine fun s hp => ⟨exec_waitNotBusy_ready hp, fun n hr hn hbusy hfirst => ?_⟩
  have hreset : 0 < ticks s.cfg s.cfg.resetTimeout := pollTimeout_pos hp.1 (.resetClear 0x7#32)
  have hwindow : 0 < ticks s.cfg s.cfg.busyTimeout := pollTimeout_pos hp.1 .notBusy
  refine ⟨_, _, _, exec_waitNotBusy_busy hp hbusy,
    firstWindow_expires _ (x := atTick n (setRet .ok s)) hp hr hfirst,
    secondWindow_waits _ (x := atTick n (setRet .ok s)) hp hn (Nat.lt_add_of_pos_right hreset) rfl hbusy,
    fun e hready => ?ready, fun m hsecond => ?stillBusy, fun m hlate => ?notReset⟩
  case ready =>
    have hfree : pollHolds .notBusy { controllerReset (atTick n (setRet .ok s)) with env := e } = true := by
      rw [pollHolds, status_dataBusy, Bool.not_eq_true']
      exact hready
    exact (dpuStep_poll_ok .notBusy _ .busy _ { controllerReset (atTick n (setRet .ok s)) with env := e } hp.2
      (Nat.lt_add_of_pos_right hwindow) hfree).trans (drive_halt 511 _ _)
  case stillBusy =>
    exact dpuStep_pollFails (e := .busy) (rest := []) s.ctl.dpu (x := atTick m (controllerReset (setRet .ok s)))
      (by simp [pollExpire]) hp.2 hsecond (by decide) (by decide)
  case notReset =>
    exact dpuStep_pollFails (e := .fatal) (rest := [.clearPartBuf, .await .notBusy .busy]) s.ctl.dpu
      (x := atTick m (asserted 0x7#32 0#32 (setRet .ok s))) (by simp [pollExpire, raiseFatal]) hp.2 hlate (by decide)
      (by decide)

/-! ### ISSUE_STOP and UPDATE_CLOCK (R692, R412) -/

theorem exec_issueStop {s : State} {a : Active} (hp : Prompt s) (ha : s.st.active = some a)
    (hfree : bit s.regs.cmd 31 = false) : exec .issueStop s = .next (setRet .ok (stopWritten a.slot s)) := by
  have hexec : exec .issueStop s = runProg issueStopProg s := by simp only [exec, execIssueStop, ha]
  rw [hexec]
  exact runProg_of_runs (t := stopWritten a.slot (setRet .ok s)) (Runs.stop _ (s := setRet .ok s) hp rfl ha hfree)
    (by decide)

/-- UPDATE_CLOCK writes its command and waits for BUS to accept it (R412). -/
theorem exec_updateClock_waits (slot : BitVec 4) {s : State} (h : ClockReady (setRet .ok s)) :
    exec (.updateClock slot) s = .next (clockSent slot (.halt :: s.ctl.dpu) (setRet .ok s)) :=
  (runProg_eq (updateClockProg slot) s).trans (updateClock_waits 507 slot _ h)

/-- Settles O37: the stop is `Runs.stop`, the update-clock command's acceptance `serveCommand_clockSent`. -/
theorem stopAndClockCommands : Obligations.StopAndClockCommands := by
  unfold Obligations.StopAndClockCommands
  refine fun s hp hfree => ⟨fun a ha => exec_issueStop hp ha hfree, fun slot hidle => ?_⟩
  have hready : ClockReady (setRet .ok s) := ⟨hp, rfl, hfree⟩
  exact ⟨_, exec_updateClock_waits slot hready,
    (serveCommand_clockSent slot _ hready hidle).trans (drive_halt 511 _ _)⟩

end Sys2Proof.Machine
end

section
/-! PROOFS. The family 60_exceptions.md, SDIO interrupts (R740, R479): the slots of the mask one after another, each found as
the event found it. -/

namespace Sys2Proof.Machine

/-- The slots of a list disabled and reported, in the list's order (R740). -/
def sdioReported (l : List Nat) (s : State) : State :=
  { s with
    regs := { s.regs with intmask := clearSlotBits l s.regs.intmask }
    st := { s.st with
      slots := s.st.slots.mapIdx fun j x => if j ∈ l then { x with sdioEn := false } else x
      baseMask := clearSlotBits l s.st.baseMask
      cport := s.st.cport ++ l.map fun i => plainRecord .sdio 0#32 i .ok 0#32 } }

theorem sdioReported_nil (s : State) : sdioReported [] s = s := by
  have hslots : (s.st.slots.mapIdx fun j x => if j ∈ ([] : List Nat) then { x with sdioEn := false } else x) = s.st.slots :=
    List.ext_getElem? fun j => by simp
  rw [sdioReported, hslots]
  simp [clearSlotBits]

theorem sdioReported_cons (i : Nat) (l : List Nat) (s : State) :
    sdioReported l (sdioReported [i] s) = sdioReported (i :: l) s := by
  have hslots : (s.st.slots.mapIdx fun j x => if j ∈ [i] then { x with sdioEn := false } else x).mapIdx
      (fun j x => if j ∈ l then { x with sdioEn := false } else x)
      = s.st.slots.mapIdx fun j x => if j ∈ i :: l then { x with sdioEn := false } else x := by
    rw [List.mapIdx_mapIdx]
    congr 1
    funext j x
    by_cases hi : j = i <;> by_cases hl : j ∈ l <;> simp [hi, hl]
  simp only [sdioReported, hslots, clearSlotBits, List.foldl_cons, List.foldl_nil, List.map_cons, List.map_nil,
    List.append_assoc, List.singleton_append]

/-- One slot (R740). `INTMASK` holds no reserved bit, so that its write need not spare one (R110). -/
theorem sdioNotify_eq (i : Nat) {s : State} (hr : RegsLegal s) : sdioNotify i s = sdioReported [i] s := by
  have hmask : s.regs.intmask &&& ~~~(1#32 <<< (16 + i)) &&& intmaskBits s.cfg = s.regs.intmask &&& ~~~(1#32 <<< (16 + i)) :=
    and_of_masked (not_mask_zero _ _ _ hr.intmask) (by rw [BitVec.not_not]; exact BitVec.and_not_self _)
  have hslots : s.st.slots.modify i (fun x => { x with sdioEn := false })
      = s.st.slots.mapIdx fun j x => if j ∈ [i] then { x with sdioEn := false } else x := by
    apply List.ext_getElem?
    intro j
    rw [List.getElem?_modify, List.getElem?_mapIdx]
    by_cases hj : i = j
    · simp [hj]
    · simp [hj, Ne.symm hj]
  refine state_ext rfl ?_ ?_ rfl rfl rfl
  · show { s.regs with intmask := s.regs.intmask &&& ~~~bitAt (16 + i) &&& intmaskBits s.cfg } = _
    rw [bitAt_eq, hmask]
    rfl
  · show { s.st with
      slots := s.st.slots.modify i (fun x => { x with sdioEn := false })
      baseMask := s.st.baseMask &&& ~~~bitAt (16 + i)
      cport := s.st.cport ++ [plainRecord .sdio 0#32 i .ok 0#32] } = _
    rw [bitAt_eq, hslots]
    rfl

theorem regsLegal_sdioReported (l : List Nat) {s : State} (hr : RegsLegal s) : RegsLegal (sdioReported l s) := by
  induction l generalizing s with
  | nil => rw [sdioReported_nil]; exact hr
  | cons i l ih =>
    rw [← sdioReported_cons]
    exact ih { hr with intmask := not_mask_zero _ _ _ hr.intmask }

/-- A slot reported leaves the others as the event found them. -/
theorem sdioHit_sdioReported (p : BitVec 24) (s : State) {i j : Nat} (h : j ≠ i) :
    sdioHit p (sdioReported [i] s) j = sdioHit p s j := by
  have hslot : slotAt (sdioReported [i] s) j = slotAt s j := by
    simp [slotAt, sdioReported, List.getD_eq_getElem?_getD, List.getElem?_mapIdx, h]
  rw [sdioHit, hslot, sdioHit]

theorem bit_zeroExtend (p : BitVec 24) (i : Nat) : bit (p.zeroExtend 32) i = p.getLsbD i := by
  rw [bit_eq_getLsbD, BitVec.getLsbD_setWidth]
  by_cases hi : i < 32
  · simp [hi]
  · simp [hi, BitVec.getLsbD_of_ge p i (by omega)]

/-- The slots of a list, each once (R740). -/
theorem onSdioIrq_eq (p : BitVec 24) {l : List Nat} (hl : l.Nodup) {s : State} (hr : RegsLegal s) :
    onSdioIrq (p.zeroExtend 32) l s = sdioReported (l.filter (sdioHit p s)) s := by
  induction l generalizing s with
  | nil => exact (sdioReported_nil s).symm
  | cons i l ih =>
    obtain ⟨hi, hl⟩ := List.nodup_cons.mp hl
    rw [onSdioIrq, bit_zeroExtend]
    change onSdioIrq (p.zeroExtend 32) l (if sdioHit p s i then _ else s) = _
    by_cases hit : sdioHit p s i = true
    · have hothers : l.filter (sdioHit p (sdioReported [i] s)) = l.filter (sdioHit p s) :=
        List.filter_congr fun j hj => sdioHit_sdioReported p s (ne_of_mem_of_not_mem hj hi)
      rw [if_pos hit, sdioNotify_eq i hr, ih hl (regsLegal_sdioReported _ hr), hothers, sdioReported_cons,
        List.filter_cons_of_pos hit]
    · rw [if_neg hit, ih hl hr, List.filter_cons_of_neg hit]

theorem applyEvent_sdioIrq (p : BitVec 24) (s : State) :
    applyEvent (eventWord 8 p) s = .next (onSdioIrq (p.zeroExtend 32) (List.range s.cfg.nslots) s) := by
  simp only [applyEvent, eventCode_eventWord 8 p (by decide), eventPayload_eventWord 8 (by decide)]

/-- Settles O22: the row's walk over the slots is `onSdioIrq_eq`. -/
theorem sdioInterruptReported : Obligations.SdioInterruptReported := by
  unfold Obligations.SdioInterruptReported
  intro p s hshape hr _
  obtain ⟨hlen, -⟩ := hshape
  have hrow : exec (.evSdioIrq p) s
      = .next (setRet .ok (sdioReported ((List.range s.cfg.nslots).filter (sdioHit p s)) s)) := by
    refine runProg_event _ s _ ?_ rfl
    rw [applyEvent_sdioIrq, onSdioIrq_eq p List.nodup_range (show RegsLegal (eventEntry s) from hr)]
    rfl
  have hslots : (s.st.slots.mapIdx fun j x =>
        if j ∈ (List.range s.cfg.nslots).filter (sdioHit p s) then { x with sdioEn := false } else x)
      = s.st.slots.mapIdx fun i x => if sdioHit p s i then { x with sdioEn := false } else x := by
    refine List.mapIdx_eq_mapIdx_iff.mpr fun j hj => ?_
    simp [show j < s.cfg.nslots from hlen ▸ hj]
  rw [hrow, sdioReported, hslots]
  rfl

end Sys2Proof.Machine
end

section
/-! PROOFS. The family 60_exceptions.md, IRQ_DISPATCH and WATCHDOG_CHECK (R728 to R731, R745): what a post makes of the queue
(R148), the events of a snapshot posted one after another, and the two agents' steps. -/

namespace Sys2Proof.Machine

/-! ### A post, seen by the queued event of a code (R148) -/

theorem queuedEvent_eq_none (c : Nat) (q : List Word) : queuedEvent c q = none ↔ c ∉ q.map eventCode := by
  simp only [queuedEvent, List.find?_eq_none, List.mem_map, decide_eq_true_eq, not_exists, not_and]
  rfl

theorem eventCode_of_queuedEvent {c : Nat} {q : List Word} {x : Word} (h : queuedEvent c q = some x) : eventCode x = c := by
  show bits x 0 8 = c
  simpa using List.find?_some h

/-- What is queued of an event's code after its post: the event, merged into a queued one (R148). -/
def merged (old : Option Word) (e : Word) : Word := old.elim e fun x => mergeEvent x e

theorem queuedEvent_postTo (c : Nat) (e : Word) (q : List Word) :
    queuedEvent c (postTo e q) = if c = eventCode e then some (merged (queuedEvent c q) e) else queuedEvent c q := by
  by_cases hany : (q.any fun x => decide (eventCode x = eventCode e)) = true
  · -- the event is merged in place, which keeps the code of every word
    have hcode : (fun x => decide (eventCode (if eventCode x = eventCode e then mergeEvent x e else x) = c))
        = fun x => decide (eventCode x = c) := by
      funext x
      split
      · next h => rw [eventCode_mergeEvent h]
      · rfl
    have hmap : queuedEvent c (postTo e q)
        = (queuedEvent c q).map fun x => if eventCode x = eventCode e then mergeEvent x e else x := by
      rw [postTo, if_pos hany, queuedEvent, List.find?_map]
      exact congrArg (fun p => Option.map _ (q.find? p)) hcode
    rw [hmap]
    cases hq : queuedEvent c q with
    | none =>
      have hc : c ≠ eventCode e := fun h => (queuedEvent_eq_none c q).mp hq (by simpa [h] using hany)
      rw [if_neg hc, Option.map_none]
    | some x => simp only [Option.map_some, eventCode_of_queuedEvent hq, merged, Option.elim_some, apply_ite some]
  · -- the event joins the queue at its end
    rw [postTo, if_neg hany, queuedEvent, List.find?_append, ← queuedEvent]
    by_cases hc : c = eventCode e
    · have hnone : queuedEvent c q = none := (queuedEvent_eq_none c q).mpr (by simpa [hc] using hany)
      rw [if_pos hc, hnone, hc]
      simp [merged, eventCode]
    · rw [if_neg hc, List.find?_singleton]
      simp [show bits e 0 8 ≠ c from Ne.symm hc]

/-! ### Events of different codes posted one after another -/

/-- The queue after the events of a list are posted in order. -/
def posted (es q : List Word) : List Word := es.foldl (fun q e => postTo e q) q

theorem postAll_eq (es : List Word) (s : State) : postAll es s = { s with st := { s.st with evq := posted es s.st.evq } } := by
  induction es generalizing s with
  | nil => rfl
  | cons e es ih => rw [postAll, ih]; rfl

theorem posted_codes {es : List Word} (hes : (es.map eventCode).Nodup) (q : List Word) :
    (posted es q).map eventCode = q.map eventCode ++ (es.map eventCode).filter (fun c => decide (queuedEvent c q = none)) := by
  induction es generalizing q with
  | nil => simp [posted]
  | cons e es ih =>
    obtain ⟨he, hes⟩ := List.nodup_cons.mp hes
    have hrest : (es.map eventCode).filter (fun c => decide (queuedEvent c (postTo e q) = none))
        = (es.map eventCode).filter (fun c => decide (queuedEvent c q = none)) :=
      List.filter_congr fun c hc => by rw [queuedEvent_postTo, if_neg (ne_of_mem_of_not_mem hc he)]
    have hstep : posted (e :: es) q = posted es (postTo e q) := rfl
    rw [hstep, ih hes, hrest, postTo_codes, List.append_assoc, List.map_cons, List.filter_cons]
    by_cases hq : eventCode e ∈ q.map eventCode
    · rw [if_pos hq, if_neg (by simpa [queuedEvent_eq_none] using hq), List.nil_append]
    · rw [if_neg hq, if_pos (by simpa [queuedEvent_eq_none] using hq), List.singleton_append]

theorem queuedEvent_posted {es : List Word} (hes : (es.map eventCode).Nodup) (c : Nat) (q : List Word) :
    queuedEvent c (posted es q)
      = (queuedEvent c es).elim (queuedEvent c q) fun e => some (merged (queuedEvent c q) e) := by
  induction es generalizing q with
  | nil => rfl
  | cons e es ih =>
    obtain ⟨he, hes⟩ := List.nodup_cons.mp hes
    have hstep : posted (e :: es) q = posted es (postTo e q) := rfl
    rw [hstep, ih hes, queuedEvent_postTo]
    by_cases hc : c = eventCode e
    · have hnone : queuedEvent c es = none := (queuedEvent_eq_none c es).mpr (hc ▸ he)
      have hfirst : queuedEvent c (e :: es) = some e := List.find?_cons_of_pos (by simp [hc, eventCode])
      rw [if_pos hc, hnone, hfirst]
      rfl
    · have hlater : queuedEvent c (e :: es) = queuedEvent c es :=
        List.find?_cons_of_neg (by simpa [eventCode] using Ne.symm hc)
      rw [if_neg hc, hlater]

/-! ### Event words (R304) -/

theorem eventWord_truncate {c : Nat} (hc : c < 256) (p : Word) :
    eventWord c (p.truncate 24) = p <<< 8 ||| BitVec.ofNat 32 c := by
  rw [eventWord_append _ c hc]
  apply BitVec.eq_of_getLsbD_eq
  intro i hi
  rw [BitVec.getLsbD_append, BitVec.getLsbD_or, BitVec.getLsbD_shiftLeft, BitVec.getLsbD_ofNat, BitVec.getLsbD_ofNat,
    BitVec.truncate, BitVec.getLsbD_setWidth]
  by_cases h8 : i < 8
  · simp [h8, hi]
  · have hpow : 2 ^ 8 ≤ 2 ^ i := Nat.pow_le_pow_right (by decide) (by omega)
    have hbit : c.testBit i = false := Nat.testBit_eq_false_of_lt (by omega)
    simp [h8, hi, hbit, show i - 8 < 24 by omega]

/-- An event word holds the bits of its code (R304). -/
theorem or_eventCode (x : Word) : x ||| BitVec.ofNat 32 (eventCode x) = x := by
  apply BitVec.eq_of_getLsbD_eq
  intro i hi
  have hcode : (eventCode x).testBit i = (decide (i < 8) && x.getLsbD i) := by
    rw [eventCode, bits, pow_zero, Nat.div_one, Nat.testBit_mod_two_pow]
    rfl
  rw [BitVec.getLsbD_or, BitVec.getLsbD_ofNat, hcode]
  cases x.getLsbD i <;> simp

/-- How IRQ's events, none of them WATCHDOG, are merged (R148). -/
theorem merged_eventWord {c : Nat} (h8 : c ≤ 8) (p : Word) (q : List Word) :
    some (merged (queuedEvent c q) (eventWord c (p.truncate 24))) = queuedAfter c (queuedEvent c q) (some p) := by
  cases hq : queuedEvent c q with
  | none => rw [merged, Option.elim_none, eventWord_truncate (by omega), queuedAfter]
  | some x =>
    rw [merged, Option.elim_some, queuedAfter, mergeEvent, eventCode_eventWord c _ (by omega),
      if_neg (show c ≠ 9 by omega), eventWord_truncate (by omega), BitVec.or_comm (p <<< 8), ← BitVec.or_assoc,
      ← eventCode_of_queuedEvent hq, or_eventCode]

/-! ### The events of a snapshot (R730, R731) -/

theorem irqEvents_eq (m d : Word) : irqEvents m d = (snapshotEvents m d).map fun x => eventWord x.1 (x.2.truncate 24) := by
  have hif (p : Prop) [Decidable p] (c : Nat) (w : Word) : eventIf (decide p) c w
      = (if p then [(c, w)] else []).map fun x => eventWord x.1 (x.2.truncate 24) := by
    by_cases h : p <;> simp [eventIf, h]
  have hbit (b : Bool) (c : Nat) (w : Word) : eventIf b c w
      = (if b = true then [(c, w)] else []).map fun x => eventWord x.1 (x.2.truncate 24) := by
    rw [← hif, Bool.decide_eq_true]
  have herr : (decide (m &&& 0xAE80#32 ≠ 0#32) || bit d 2 || bit d 4)
      = decide (m &&& 0xAE80#32 ≠ 0#32 ∨ bit d 2 = true ∨ bit d 4 = true) := by
    simp [Bool.or_assoc]
  have hdma : (bit d 0 || bit d 1) = decide (bit d 0 = true ∨ bit d 1 = true) := by simp
  simp only [irqEvents, snapshotEvents, List.map_append, herr, hdma, anyBit, hif, hbit, dataErrPayload]

/-- The codes of a snapshot's events, in their fixed order (R730). -/
theorem snapshotEvents_codes (m d : Word) : ((snapshotEvents m d).map fun x => x.1).Sublist [7, 1, 2, 3, 4, 5, 6, 8] := by
  have hif (p : Prop) [Decidable p] (c : Nat) (w : Word) : ((if p then [(c, w)] else []).map fun x => x.1).Sublist [c] := by
    by_cases h : p <;> simp [h]
  simp only [snapshotEvents, List.map_append]
  exact (((((((hif _ 7 _).append (hif _ 1 _)).append (hif _ 2 _)).append (hif _ 3 _)).append (hif _ 4 _)).append
    (hif _ 5 _)).append (hif _ 6 _)).append (hif _ 8 _)

theorem snapshotEvents_code_le {m d : Word} {x : Nat × Word} (hx : x ∈ snapshotEvents m d) : x.1 ≤ 8 := by
  have hall : ∀ c ∈ [7, 1, 2, 3, 4, 5, 6, 8], c ≤ 8 := by decide
  exact hall _ ((snapshotEvents_codes m d).subset (List.mem_map_of_mem hx))

theorem irqEvents_eventCodes (m d : Word) : (irqEvents m d).map eventCode = (snapshotEvents m d).map fun x => x.1 := by
  rw [irqEvents_eq, List.map_map]
  exact List.map_congr_left fun x hx => eventCode_eventWord _ _ (Nat.lt_of_le_of_lt (snapshotEvents_code_le hx) (by decide))

theorem irqEvents_nodup (m d : Word) : ((irqEvents m d).map eventCode).Nodup := by
  rw [irqEvents_eventCodes]
  exact (snapshotEvents_codes m d).nodup (by decide)

/-- The words of coded events are found by the events' codes. -/
theorem queuedEvent_words (c : Nat) {l : List (Nat × Word)} (hl : ∀ x ∈ l, x.1 ≤ 8) :
    queuedEvent c (l.map fun x => eventWord x.1 (x.2.truncate 24))
      = (l.find? fun x => decide (x.1 = c)).map fun x => eventWord x.1 (x.2.truncate 24) := by
  induction l with
  | nil => rfl
  | cons x l ih =>
    obtain ⟨hx, hl⟩ := List.forall_mem_cons.mp hl
    have hcode : bits (eventWord x.1 (x.2.truncate 24)) 0 8 = x.1 := eventWord_code _ _ (by omega)
    rw [List.map_cons, queuedEvent, List.find?_cons, List.find?_cons, ← queuedEvent, ih hl, hcode]
    split <;> rfl

/-- The queue after a snapshot's events are posted (R148, R730). -/
theorem queuedEvent_snapshot (m d : Word) (c : Nat) (q : List Word) :
    queuedEvent c (posted (irqEvents m d) q) = queuedAfter c (queuedEvent c q)
      (((snapshotEvents m d).find? fun x => decide (x.1 = c)).map fun x => x.2) := by
  rw [queuedEvent_posted (irqEvents_nodup m d), irqEvents_eq, queuedEvent_words c fun x hx => snapshotEvents_code_le hx]
  cases hfind : (snapshotEvents m d).find? fun x => decide (x.1 = c) with
  | none => cases queuedEvent c q <;> rfl
  | some x =>
    obtain rfl : x.1 = c := by simpa using List.find?_some hfind
    exact merged_eventWord (snapshotEvents_code_le (List.mem_of_find?_eq_some hfind)) x.2 q

/-! ### IRQ (R728, R730) -/

/-- The `FSM` field of `IDSTS` is none of the bits an interrupt reads (R123). -/
theorem idstsVal_interrupts (s : State) :
    idstsVal s &&& s.regs.idinten &&& 0x337#32 = s.regs.idsts &&& s.regs.idinten &&& 0x337#32 := by
  have hfsm (v w : Word) : (v ||| 0x2000#32) &&& w &&& 0x337#32 = v &&& w &&& 0x337#32 := by
    have hout : 0x2000#32 &&& (w &&& 0x337#32) = 0#32 := by
      rw [BitVec.and_comm w, ← BitVec.and_assoc, show 0x2000#32 &&& 0x337#32 = 0#32 by decide, BitVec.zero_and]
    rw [BitVec.and_assoc, BitVec.and_or_distrib_right, hout, BitVec.or_zero, BitVec.and_assoc]
  unfold idstsVal
  split
  · exact hfsm _ _
  · rw [BitVec.or_zero]

theorem irqLine_iff (s : State) : irqLine s = true ↔ bit s.regs.ctrl 4 = true ∧
    (s.regs.rintsts &&& s.regs.intmask ≠ 0#32 ∨ s.regs.idsts &&& s.regs.idinten &&& 0x337#32 ≠ 0#32) := by
  rw [irqLine, Bool.and_eq_true, Bool.or_eq_true, decide_eq_true_eq, anyBit, decide_eq_true_eq, idstsVal_interrupts]
  rfl

/-- What is acknowledged is what was latched and enabled. -/
theorem and_not_and (v m : Word) : v &&& ~~~(v &&& m) = v &&& ~~~m := by
  rw [BitVec.not_and, BitVec.and_or_distrib_left, BitVec.and_not_self]
  exact BitVec.zero_or

theorem irqDispatch_eq {s : State} {m d : Word} (hm : m = s.regs.rintsts &&& s.regs.intmask)
    (hd : d = s.regs.idsts &&& s.regs.idinten &&& 0x337#32) (hr : RegsLegal s) : irqDispatch s = { s with
      regs := { s.regs with rintsts := s.regs.rintsts &&& ~~~s.regs.intmask, idsts := s.regs.idsts &&& ~~~d }
      st := { s.st with evq := posted (irqEvents m d) s.st.evq, dpuSched := true } } := by
  have hsnap : idstsSnapshot s = d := (idstsVal_interrupts s).trans hd.symm
  have hmask : regRead .MINTSTS s = m := hm.symm
  have hack : regWrite .RINTSTS m s = { s with regs := { s.regs with rintsts := s.regs.rintsts &&& ~~~s.regs.intmask } } := by
    rw [regWrite, hm, and_not_and]
  have hlegal : RegsLegal { s with regs := { s.regs with rintsts := s.regs.rintsts &&& ~~~s.regs.intmask } } :=
    { hr with rintsts := not_mask_zero _ _ _ hr.rintsts }
  simp only [irqDispatch, hsnap, hmask, hack, regWrite_idsts hlegal, postAll_eq]

theorem step_irq {s : State} {rest : List Stimulus} (h : s.ctl.agenda = .irq :: rest) :
    step s = if irqLine s = true then exec .irqDispatch (withAgenda rest s) else .next (withAgenda rest s) := by
  simp only [step, advance, nextStimulus, h, react]
  rfl

/-! ### TIMER (R745) -/

theorem watchdogCheck_quiet {s : State} (h : s.st.wd.armed = false ∨ s.st.now + 1 < s.st.wd.deadline) :
    watchdogCheck s = atTick (s.st.now + 1) s := by
  have hno : watchdogExpired s.st.wd (s.st.now + 1) = false := by
    rcases h with h | h <;> simp [watchdogExpired, h]
  simp only [watchdogCheck, hno]
  rfl

theorem watchdogCheck_expired {s : State} (harmed : s.st.wd.armed = true) (hdue : s.st.wd.deadline ≤ s.st.now + 1) :
    watchdogCheck s = { s with st := { s.st with
      now := s.st.now + 1, wd := { s.st.wd with armed := false }
      evq := postTo (eventWord 9 (s.st.wd.seq.truncate 24)) s.st.evq, dpuSched := true } } := by
  have hyes : watchdogExpired s.st.wd (s.st.now + 1) = true := by simp [watchdogExpired, harmed, hdue]
  simp only [watchdogCheck, hyes]
  rfl

/-- A newer WATCHDOG takes the place of one still queued (R148). -/
theorem merged_watchdog (old : Option Word) (p : BitVec 24) : merged old (eventWord 9 p) = eventWord 9 p := by
  cases old with
  | none => rfl
  | some x => simp [merged, mergeEvent, eventCode_eventWord]

/-- Settles O54: the snapshot's events are posted by `posted`, the watchdog's by one `postTo`. -/
theorem interruptAndTimerPost : Obligations.InterruptAndTimerPost := by
  unfold Obligations.InterruptAndTimerPost
  refine ⟨fun s m d hm hd hr _ => ⟨⟨posted (irqEvents m d) s.st.evq, ?dispatch, ?codes, fun c => ?queued⟩, fun rest h => ?line⟩,
    fun s _ => ⟨fun h => ?quiet, fun harmed hdue => ⟨postTo (eventWord 9 (s.st.wd.seq.truncate 24)) s.st.evq, ?expired,
      ?own, fun hnone => ?appended, ?order, fun c hc => ?others⟩⟩⟩
  case dispatch => exact congrArg Host.Outcome.next (irqDispatch_eq hm hd hr)
  case codes =>
    rw [← irqEvents_eventCodes]
    exact posted_codes (irqEvents_nodup m d) s.st.evq
  case queued => exact queuedEvent_snapshot m d c s.st.evq
  case line =>
    rw [step_irq h]
    exact if_congr (by rw [irqLine_iff, hm, hd]) rfl rfl
  case quiet => exact congrArg Host.Outcome.next (watchdogCheck_quiet h)
  case expired => exact congrArg Host.Outcome.next (watchdogCheck_expired harmed hdue)
  all_goals have hcode : eventCode (eventWord 9 (s.st.wd.seq.truncate 24)) = 9 := eventCode_eventWord 9 _ (by decide)
  case own =>
    rw [queuedEvent_postTo, hcode, if_pos rfl, merged_watchdog, eventWord_truncate (by decide)]
  case appended =>
    have hfresh : ¬ (s.st.evq.any fun x => decide (eventCode x = 9)) = true := by
      simpa using (queuedEvent_eq_none 9 s.st.evq).mp hnone
    rw [postTo, hcode, if_neg hfresh, eventWord_truncate (by decide)]
  case order =>
    have hcodes := postTo_codes (eventWord 9 (s.st.wd.seq.truncate 24)) s.st.evq
    rw [hcode] at hcodes
    refine hcodes.trans (congrArg (_ ++ ·) ?_)
    rw [← ite_not]
    exact if_congr (queuedEvent_eq_none 9 s.st.evq).symm rfl rfl
  case others => rw [queuedEvent_postTo, hcode, if_neg hc]

end Sys2Proof.Machine
end

section
/-! PROOFS. The family 60_exceptions.md, the environment agent BUS (R760 to R769): one equation for each of its acts, the
contract as one proposition that admits the act or makes it a model fault. -/

namespace Sys2Proof.Machine

/-! ### An act within its contract and outside it (R769) -/

section
variable {b : BusAct} {s t : State} {P : Prop} [Decidable P] (hact : busAct b s = busStepIf (decide P) t)
include hact

theorem busStep_within (h : P) : busStep b s = .next (readied t) := by
  rw [busStep, hact, busStepIf, if_pos (decide_eq_true h), andThen_next, raiseReady_eq]

theorem busStep_outside (h : ¬ P) : busStep b s = .fault .busContract := by
  rw [busStep, hact, busStepIf, if_neg (by simpa using h), andThen_fault]

end

/-- Every step of BUS leaves the FIFO-ready bits (R762, R763). -/
theorem busStep_readied {b : BusAct} {s t : State} (h : busStep b s = .next t) : t = readied t := by
  obtain ⟨u, -, hready⟩ := andThen_eq_next h
  obtain rfl : readied u = t := by rw [← raiseReady_eq]; exact Host.Outcome.next.inj hready
  exact (readied_twice u).symm

theorem readied_idle {s : State} (h : xferHolds s = false) : readied s = s := by
  rw [← raiseReady_eq, raiseReady_idle h]

/-- With no FIFO-ready bit to raise, or with it raised, a step of BUS leaves them as they are. -/
theorem readied_of_raised {s : State} (h : s.regs.rintsts ||| readyBits s = s.regs.rintsts) : readied s = s := by
  by_cases hx : xferHolds s = true
  · rw [← raiseReady_eq, raiseReady, if_pos hx, raise, h]
  · exact readied_idle (by simpa using hx)

/-! ### Commands (R760, R761, R764, R766) -/

theorem busAct_acceptCmd (s : State) : busAct .acceptCmd s = busStepIf
    (decide (bit s.regs.cmd 31 = true ∧ (bit s.regs.cmd 13 = false ∨ xferHolds s = false))) (acceptCommand s) := by
  rw [busAct, startCmd]
  cases bit s.regs.cmd 31 <;> cases bit s.regs.cmd 13 <;> cases xferHolds s <;> rfl

/-- The environment once BUS has accepted a command that is no update-clock (R760, R764). -/
def commandBegun (s : State) : Env := { s.env with
  lastSlot := some (cardNumber s.regs.cmd)
  signalled := s.env.signalled.set (cardNumber s.regs.cmd) false
  cmds := s.env.cmds ++ [latch s]
  xfer := if bit s.regs.cmd 9 then some (xferOf s.regs)
    else s.env.xfer.map fun x => { x with
      aborted := x.aborted || (bit s.regs.cmd 14 && decide (x.slot = cardNumber s.regs.cmd)) } }

/-- A stop abandons the transfer on its slot, any other command none (R764). -/
theorem map_abortOn (stop : Bool) (slot : Nat) (x : Option WireXfer) :
    (if stop then x.map (abortOn slot) else x) = x.map fun x => { x with
      aborted := x.aborted || (stop && decide (x.slot = slot)) } := by
  cases x with
  | none => cases stop <;> rfl
  | some x =>
    cases stop
    · simp
    · by_cases h : x.slot = slot <;> simp [abortOn, h]

theorem acceptCommand_eq (s : State) : acceptCommand s = { s with
    regs := { s.regs with cmd := s.regs.cmd &&& 0x7FFFFFFF#32 }
    env := if bit s.regs.cmd 21 then { s.env with
        lastSlot := some (cardNumber s.regs.cmd), effDiv := s.regs.clkdiv, effEna := s.regs.clkena }
      else commandBegun s } := by
  rw [commandBegun, ← map_abortOn, acceptCommand]
  by_cases h21 : bit s.regs.cmd 21 = true
  · simp only [h21, if_true]
  · simp only [h21]
    by_cases h9 : bit s.regs.cmd 9 = true <;> by_cases h14 : bit s.regs.cmd 14 = true <;> simp [h9, h14, setXfer]

theorem busySignalled_eq (s : State) :
    busySignalled s = (bit s.regs.cmd 14 || decide (∃ a ∈ s.st.active, a.cmd.resp = .shortBusy)) := by
  unfold busySignalled
  cases s.st.active <;> simp

section
variable {s : State} {c : WireCmd} {rest : List WireCmd} (hcmds : s.env.cmds = c :: rest)
  (rto rcrc re busy : Bool) (r0 r1 r2 r3 : Word)

/-- What a command's end may say: no more than that it ended, or what its response allows (R761, R767). -/
def EndAllowed (c : WireCmd) (rto rcrc re busy : Bool) : Prop :=
  (rto = false ∧ rcrc = false ∧ re = false ∧ busy = false) ∨ (bit c.cmd 6 = true ∧ (busy = false ∨ c.signals = true))

theorem endAllowed_iff : EndAllowed c rto rcrc re busy ↔
    ((!(rto || rcrc || re) || bit c.cmd 6) && (!busy || c.signalsBusy)) = true := by
  rw [EndAllowed, WireCmd.signalsBusy]
  generalize bit c.cmd 6 = expects
  generalize c.signals = signals
  revert rto rcrc re busy expects signals
  decide

include hcmds in
theorem cmdDone_within (h : EndAllowed c rto rcrc re busy) : busStep (.cmdDone rto rcrc re busy r0 r1 r2 r3) s
    = .next (readied (commandEnd c rto rcrc re busy r0 r1 r2 r3 s)) := by
  rw [busStep, busAct, hcmds]
  simp only [(endAllowed_iff rto rcrc re busy).mp h, if_true, andThen_next, raiseReady_eq]

include hcmds in
theorem cmdDone_outside (h : ¬ EndAllowed c rto rcrc re busy) :
    busStep (.cmdDone rto rcrc re busy r0 r1 r2 r3) s = .fault .busContract := by
  rw [endAllowed_iff] at h
  rw [busStep, busAct, hcmds]
  simp only [h]
  rfl

end

/-- The response registers after a command's end (R113, R761). -/
theorem response_written (c : WireCmd) (rto : Bool) (r0 r1 r2 r3 : Word) (r : Regs) :
    (if bit c.cmd 6 && !rto then writeResp c r0 r1 r2 r3 r else r) = { r with
      resp0 := if bit c.cmd 6 = true ∧ rto = false then r0 else r.resp0
      resp1 := if bit c.cmd 6 = true ∧ rto = false ∧ bit c.cmd 7 = true then r1 else r.resp1
      resp2 := if bit c.cmd 6 = true ∧ rto = false ∧ bit c.cmd 7 = true then r2 else r.resp2
      resp3 := if bit c.cmd 6 = true ∧ rto = false ∧ bit c.cmd 7 = true then r3 else r.resp3 } := by
  cases rto <;> cases h6 : bit c.cmd 6 <;> cases h7 : bit c.cmd 7 <;> simp [writeResp, h7]

theorem doubt_eq (c : WireCmd) (rto re : Bool) (x : Option WireXfer) : doubt c (rto || re) x = x.map fun x =>
    if (rto = true ∨ re = true) ∧ bit c.cmd 9 = true ∧ x.slot = bits c.cmd 16 5 then { x with doubtful := true } else x := by
  simp only [doubt, Bool.and_eq_true, Bool.or_eq_true, decide_eq_true_eq, and_assoc]
  rfl

/-! ### Data (R762 to R764) -/

section
variable {s : State} {x : WireXfer} (hx : s.env.xfer = some x)
include hx

theorem busAct_pushWord (w : Beat) : busAct (.pushWord w) s = busStepIf
    (decide (x.dir = .read ∧ x.aborted = false ∧ s.st.fifo.length < s.cfg.fifoDepth ∧ x.moved < wordsOf s.cfg x))
    (withXfer (some (wordMoved s.cfg x)) (fifoAppend w s)) := by
  simp only [busAct, hx, Bool.decide_and, Bool.and_assoc, Bool.decide_eq_false]
  rfl

theorem busAct_popWord : busAct .popWord s = busStepIf
    (decide (x.dir = .write ∧ x.aborted = false ∧ s.st.fifo ≠ [] ∧ x.moved < wordsOf s.cfg x))
    (withXfer (some (wordMoved s.cfg x)) (fifoTail s)) := by
  simp only [busAct, hx, Bool.decide_and, Bool.and_assoc, Bool.decide_eq_false]
  rfl

theorem busAct_writeBusy : busAct .writeBusy s = busStepIf
    (decide (x.dir = .write ∧ x.aborted = false ∧ wordsOf s.cfg x ≤ x.moved))
    { s with env := { s.env with busy := s.env.busy.set x.slot true } } := by
  simp only [busAct, hx, Bool.decide_and, Bool.and_assoc, Bool.decide_eq_false]
  rfl

theorem busAct_dataErr (v : Word) : busAct (.dataErr v) s = busStepIf
    (decide (x.aborted = false ∧ v ≠ 0#32 ∧ v &&& ~~~errorMask s x = 0#32))
    (withXfer (some { x with failed := true }) (raised v s)) := by
  simp only [busAct, hx, Bool.decide_and, Bool.and_assoc, Bool.decide_eq_false]
  rfl

theorem busAct_dataOver : busAct .dataOver s = busStepIf
    (decide (x.failed = true ∨ x.aborted = true ∨ wordsOf s.cfg x ≤ x.moved))
    (withXfer none (raised 0x8#32 s)) := by
  simp only [busAct, hx, Bool.decide_or, Bool.or_assoc, Bool.decide_eq_true]
  rfl

theorem readyBits_aborted (ha : x.aborted = true) : readyBits s = 0#32 := by
  simp only [readyBits, hx, ha, if_true]

theorem readyBits_read (ha : x.aborted = false) (hd : x.dir = .read) :
    readyBits s = if bits s.regs.fifoth 16 12 < s.st.fifo.length then 0x20#32 else 0#32 := by
  simp only [readyBits, hx, ha, hd]
  rfl

theorem readyBits_write (ha : x.aborted = false) (hd : x.dir = .write) : readyBits s
    = if s.st.fifo.length ≤ bits s.regs.fifoth 0 12 ∧ x.moved < wordsOf s.cfg x then 0x10#32 else 0#32 := by
  simp only [readyBits, hx, ha, hd]
  rfl

theorem readyBits_none (h : x.aborted = true ∨ (x.dir = .read ∧ s.st.fifo.length ≤ bits s.regs.fifoth 16 12) ∨
    (x.dir = .write ∧ (bits s.regs.fifoth 0 12 < s.st.fifo.length ∨ wordsOf s.cfg x ≤ x.moved))) : readyBits s = 0#32 := by
  cases ha : x.aborted with
  | true => exact readyBits_aborted hx ha
  | false =>
    rcases h with h | ⟨hd, h⟩ | ⟨hd, h⟩
    · rw [ha] at h; cases h
    · rw [readyBits_read hx ha hd, if_neg (by omega)]
    · rw [readyBits_write hx ha hd, if_neg (by omega)]

/-- A card goes busy after the last word of a write, which asks for no word any more (R763). -/
theorem writeBusy_next (hd : x.dir = .write) (ha : x.aborted = false) (h : wordsOf s.cfg x ≤ x.moved) :
    busStep .writeBusy s = .next { s with env := { s.env with busy := s.env.busy.set x.slot true } } := by
  have hnone : readyBits { s with env := { s.env with busy := s.env.busy.set x.slot true } } = 0#32 :=
    readyBits_none (x := x) hx (.inr (.inr ⟨hd, .inr h⟩))
  rw [busStep_within (busAct_writeBusy hx) ⟨hd, ha, h⟩, readied_of_raised (by rw [hnone, BitVec.or_zero])]

/-- A transfer that has failed raises no FIFO-ready bit (R762, R763). -/
theorem dataErr_next {v : Word} (ha : x.aborted = false) (hv : v ≠ 0#32) (h : v &&& ~~~errorMask s x = 0#32) :
    busStep (.dataErr v) s = .next (withXfer (some { x with failed := true }) (raised v s)) :=
  (busStep_within (busAct_dataErr hx v) ⟨ha, hv, h⟩).trans (congrArg Host.Outcome.next (readied_idle rfl))

theorem dataOver_next (h : x.failed = true ∨ x.aborted = true ∨ wordsOf s.cfg x ≤ x.moved) :
    busStep .dataOver s = .next (withXfer none (raised 0x8#32 s)) :=
  (busStep_within (busAct_dataOver hx) h).trans (congrArg Host.Outcome.next (readied_idle rfl))

end

theorem busAct_fifoReady (s : State) : busAct .fifoReady s = busStepIf (decide (readyBits s ≠ 0#32)) (raised (readyBits s) s) :=
  rfl

/-- The FIFO-ready bit raised alone (R762, R763). -/
theorem fifoReady_raises {s : State} {v : Word} (h : readyBits s = v) (hv : v ≠ 0#32) :
    busStep .fifoReady s = .next (raised v s) := by
  subst h
  rw [busStep_within (busAct_fifoReady s) hv, readied_of_raised]
  show s.regs.rintsts ||| readyBits s ||| readyBits s = s.regs.rintsts ||| readyBits s
  rw [BitVec.or_assoc, BitVec.or_self]

theorem errorMask_read {s : State} {x : WireXfer} (hd : x.dir = .read) : errorMask s x = 0xA280#32 |||
    if s.st.fifo.length = s.cfg.fifoDepth ∧ x.moved < wordsOf s.cfg x then 0xC00#32 else 0#32 := by
  simp only [errorMask, fifoStalled, hd, ← Bool.decide_and, decide_eq_true_eq, and_comm]
  rfl

theorem errorMask_write {s : State} {x : WireXfer} (hd : x.dir = .write) : errorMask s x = 0x8080#32 |||
    if s.st.fifo = [] ∧ x.moved < wordsOf s.cfg x then 0xC00#32 else 0#32 := by
  simp only [errorMask, fifoStalled, hd, ← Bool.decide_and, decide_eq_true_eq, and_comm]
  rfl

/-! ### Resets, signals (R765, R767) -/

theorem busAct_resetDone (ctl fifo dma : Bool) (s : State) : busAct (.resetDone ctl fifo dma) s = busStepIf
    (decide ((ctl = true → bit s.regs.ctrl 0 = true) ∧ (fifo = true → bit s.regs.ctrl 1 = true) ∧
      (dma = true → bit s.regs.ctrl 2 = true ∨ bit s.regs.bmod 0 = true))) (completeResets ctl fifo dma s) := by
  rw [busAct, dmaResetPending]
  congr 1
  cases ctl <;> cases fifo <;> cases dma <;> simp [Bool.and_assoc]

/-- A signal of a slot reads false where there is no such slot. -/
theorem decide_signal (l : List Bool) (i : Nat) : decide (l[i]? = some true) = l.getD i false := by
  rw [List.getD_eq_getElem?_getD]
  cases l[i]? <;> simp

theorem busAct_setPresent (i : Nat) (b : Bool) (s : State) : busAct (.setPresent i b) s = busStepIf
    (decide (i < s.cfg.nslots ∧ s.env.present.getD i false ≠ b))
    (raised 0x1#32 { s with env := { s.env with present := s.env.present.set i b } }) := by
  rw [busAct, Bool.decide_and]
  rfl

theorem busAct_sdioInt (i : Nat) (s : State) : busAct (.sdioInt i) s = busStepIf
    (decide (i < s.cfg.nslots ∧ s.env.present[i]? = some true)) (raised (1#32 <<< (16 + i)) s) := by
  rw [busAct, bitAt_eq, Bool.decide_and, decide_signal]
  rfl

theorem busAct_cardBusy (i : Nat) (s : State) : busAct (.cardBusy i) s = busStepIf
    (decide (s.env.signalled[i]? = some true)) { s with env := { s.env with busy := s.env.busy.set i true } } := by
  rw [busAct, decide_signal]

theorem busAct_busyEnd (i : Nat) (s : State) : busAct (.busyEnd i) s = busStepIf
    (decide (s.env.busy[i]? = some true)) { s with env := { s.env with busy := s.env.busy.set i false } } := by
  rw [busAct, decide_signal]

/-! ### The statement -/

/-- Settles O60: each act by its equation, `busStep_within` where its contract holds and `busStep_outside` where it does
not. -/
theorem busServesCommands : Obligations.BusServesCommands := by
  unfold Obligations.BusServesCommands
  refine ⟨?commands, ?transfer, ?signals⟩
  case commands =>
    rintro s w rfl
    refine ⟨fun h31 h => ?accepted, fun h => ?waits, fun h rto rcrc re busy r0 r1 r2 r3 => ?noCommand,
      fun c rest rto rcrc re busy r0 r1 r2 r3 h => ⟨fun hout => ?excess, fun hin => ?ended⟩⟩
    case accepted =>
      rw [busStep_within (busAct_acceptCmd s) ⟨h31, h⟩, acceptCommand_eq, commandBegun, latch, busySignalled_eq]
      rfl
    case waits => exact busStep_outside (busAct_acceptCmd s) (by grind)
    case noCommand => simp only [busStep, busAct, h, andThen_fault]
    case excess => exact cmdDone_outside h _ _ _ _ _ _ _ _ (by rw [EndAllowed]; grind)
    case ended =>
      rw [cmdDone_within h _ _ _ _ _ _ _ _ hin, commandEnd, response_written, doubt_eq, h, WireCmd.signalsBusy]
      simp only [Bool.and_eq_true]
      rfl
  case transfer =>
    intro s x hx _
    refine ⟨fun w => ⟨fun h => busStep_within (busAct_pushWord hx w) h, fun h => ?pushOut⟩, fun w q hq hd ha hleft => ?pop,
      fun h => ?popOut, fun ha hd h => ?rxdr, fun ha hd h hleft => ?txdr, fun h => ?noReady,
      fun v hv ha => ⟨fun hd h => ?readErr, fun hd h => ?writeErr⟩, fun v h => ?errOut,
      writeBusy_next hx, fun h => ?writeBusyOut, dataOver_next hx, fun hf ha h => ?dataOverOut⟩
    case pushOut => exact busStep_outside (busAct_pushWord hx w) (by grind)
    case pop =>
      have htail : fifoTail s = { s with st := { s.st with fifo := q } } := by rw [fifoTail, hq]; rfl
      rw [busStep_within (busAct_popWord hx) ⟨hd, ha, by simp [hq], hleft⟩, htail]
    case popOut => exact busStep_outside (busAct_popWord hx) (by grind)
    case rxdr => exact fifoReady_raises ((readyBits_read hx ha hd).trans (if_pos h)) (by decide)
    case txdr => exact fifoReady_raises ((readyBits_write hx ha hd).trans (if_pos ⟨h, hleft⟩)) (by decide)
    case noReady => exact busStep_outside (busAct_fifoReady s) (not_not.mpr (readyBits_none hx h))
    case readErr => exact dataErr_next hx ha hv (by rw [errorMask_read hd]; exact h)
    case writeErr => exact dataErr_next hx ha hv (by rw [errorMask_write hd]; exact h)
    case errOut =>
      refine busStep_outside (busAct_dataErr hx v) ?_
      rintro ⟨ha, hv, hmask⟩
      rcases h with h | h | ⟨hd, h⟩ | ⟨hd, h⟩
      · exact hv h
      · rw [ha] at h; cases h
      · exact h (by rw [← errorMask_read hd]; exact hmask)
      · exact h (by rw [← errorMask_write hd]; exact hmask)
    case writeBusyOut => exact busStep_outside (busAct_writeBusy hx) (by grind)
    case dataOverOut => exact busStep_outside (busAct_dataOver hx) (by grind)
  case signals =>
    intro s
    refine ⟨fun b t h => busStep_readied h, fun hx b hb => ?noTransfer, fun ctl fifo dma h => ?reset, fun i b h => ?present,
      fun i h => ?absent, fun i h => busStep_outside (busAct_busyEnd i s) h,
      fun i h => busStep_outside (busAct_cardBusy i s) h, fun i h => busStep_within (busAct_cardBusy i s) h,
      fun i _ hi => ⟨fun b h => ?changed, fun h => busStep_within (busAct_sdioInt i s) ⟨hi, h⟩,
        fun h => busStep_within (busAct_busyEnd i s) h⟩⟩
    case noTransfer =>
      have hready : readyBits s = 0#32 := by simp only [readyBits, hx]
      rcases hb with ⟨w, rfl⟩ | rfl | rfl | rfl | ⟨v, rfl⟩ | rfl
      case inr.inr.inl => exact busStep_outside (busAct_fifoReady s) (not_not.mpr hready)
      all_goals simp only [busStep, busAct, hx, andThen_fault]
    case reset => exact busStep_outside (busAct_resetDone ctl fifo dma s) (by grind)
    case present =>
      refine busStep_outside (busAct_setPresent i b s) ?_
      rintro ⟨hi, hne⟩
      rcases h with h | h
      · omega
      · exact hne (by rw [List.getD_eq_getElem?_getD, h]; rfl)
    case absent => exact busStep_outside (busAct_sdioInt i s) (by grind)
    case changed =>
      refine busStep_within (busAct_setPresent i b s) ⟨hi, ?_⟩
      rw [List.getD_eq_getElem?_getD, h]
      cases b <;> decide

end Sys2Proof.Machine
end

section
/-! PROOFS. The family 70_reset_and_hazards.md: the state after reset (R800, R801), and CONTROLLER_INIT (R811): the values it
writes, its resets which BUS completes one after another, and where they expire. -/

namespace Sys2Proof.Machine

/-! ### Reset (R800, R801) -/

theorem forms_reset : Forms State.reset where
  idle _ := ⟨rfl, rfl⟩
  fifo   := Nat.zero_le _
  evq    := ⟨List.Pairwise.nil, List.forall_mem_nil _⟩
  shape  := ⟨rfl, rfl, rfl, rfl, rfl⟩
  desc h := absurd rfl h
  regs   := by constructor <;> decide

/-- Settles O55: the reset state is the values written out; before CONTROLLER_INIT the operation's own check refuses every
other one. -/
theorem resetState : Obligations.ResetState := by
  unfold Obligations.ResetState
  refine ⟨rfl, rfl, by decide, by decide, by decide, by decide, by decide, by decide, rfl, rfl,
    ⟨List.Pairwise.nil, List.forall_mem_nil _⟩, forms_reset, fun op slot ws hop hlegal => ?refused, ?accepted⟩
  case refused => exact exec_hostInstr_refused (refusalOf_notReady hlegal hop rfl)
  case accepted =>
    exact congrArg Host.Outcome.next (acceptCtl_accepted .controllerInit (by decide))

/-! ### The values CONTROLLER_INIT writes (R811) -/

/-- `INTMASK`'s value at CONTROLLER_INIT has its bits among those of every configuration (R110). -/
theorem initIntmask_kept (c : Config) : 0xBFCF#32 &&& intmaskBits c = 0xBFCF#32 := by
  refine and_of_masked (m := 0xFFFF0000#32) (by decide) ?_
  rw [intmaskBits, BitVec.not_or, ← BitVec.and_assoc]
  exact BitVec.zero_and

theorem ofNat_shiftLeft_16 {n : Nat} (h : n < 2 ^ 16) : BitVec.ofNat 32 (n <<< 16) = BitVec.ofNat 32 n <<< 16 := by
  apply BitVec.eq_of_toNat_eq
  rw [BitVec.toNat_shiftLeft, BitVec.toNat_ofNat, BitVec.toNat_ofNat, Nat.mod_eq_of_lt (by omega : n < 2 ^ 32)]

/-- The fields of `FIFOTH` lie side by side (R117). -/
theorem initFifoth_eq {c : Config} (h : c.fifoDepth ≤ 4096) : initFifoth c
    = 0x20000000#32 ||| BitVec.ofNat 32 (c.fifoDepth / 2 - 1) <<< 16 ||| BitVec.ofNat 32 (c.fifoDepth / 2) := by
  have hrx : c.fifoDepth / 2 - 1 < 2 ^ 13 := by omega
  have htx : c.fifoDepth / 2 < 2 ^ 16 := by omega
  have hsum : 2 * 2 ^ 28 + (c.fifoDepth / 2 - 1) * 2 ^ 16 + c.fifoDepth / 2
      = (2 ^ 13 * 1 + (c.fifoDepth / 2 - 1)) <<< 16 + c.fifoDepth / 2 := by rw [Nat.shiftLeft_eq]; omega
  rw [initFifoth, hsum, Nat.shiftLeft_add_eq_or_of_lt htx, Nat.two_pow_add_eq_or_of_lt hrx, Nat.shiftLeft_or_distrib,
    BitVec.ofNat_or, BitVec.ofNat_or, ofNat_shiftLeft_16 (Nat.lt_trans hrx (by decide))]
  rfl

/-- `FIFOTH`'s value at CONTROLLER_INIT has no reserved bit (R117). -/
theorem initFifoth_mask {c : Config} (h : c.fifoDepth ≤ 4096) : initFifoth c &&& 0x8000F000#32 = 0#32 := by
  refine and_zero_of_fields [(12, 4), (31, 1)] ?_ (by decide)
  simp only [List.forall_mem_cons, List.not_mem_nil, false_imp_iff, implies_true, and_true]
  have hlt : 2 * 2 ^ 28 + (c.fifoDepth / 2 - 1) * 2 ^ 16 + c.fifoDepth / 2 < 2 ^ 31 := by omega
  refine ⟨(bits_ofNat_of_le _ (by decide)).trans (by omega), (bits_ofNat_of_le _ (by decide)).trans ?_⟩
  rw [Nat.div_eq_of_lt hlt, Nat.zero_mod]

/-- The interrupt enable set in `CTRL` while the DMA engine stands still, so that the write need not stop it (R103, R560). -/
theorem regSet_ctrl_intEnable {s : State} (h : s.regs.ctrl &&& 0xFDFFFFC8#32 = 0#32)
    (hdmac : s.st.dmac.halted = s.st.dmac) :
    regSet .CTRL 0x10#32 s = { s with regs := { s.regs with ctrl := s.regs.ctrl ||| 0x10#32 } } := by
  have hset := sticky_set (v := s.regs.ctrl) (m := 0x10#32) (a := 0x02000030#32) (b := 0x7#32) h (by decide)
  rw [regSet, regRead, regWrite_ctrl, hset, hdmac, ite_self]

/-- CONTROLLER_INIT's writes one after another, while the DMA engine stands still (R811). -/
theorem initRegs_eq {x : State} (hdepth : x.cfg.fifoDepth ≤ 4096) (hr : RegsLegal x)
    (hdmac : x.st.dmac.halted = x.st.dmac) : initRegs x = initialised x := by
  have hintmask := initIntmask_kept x.cfg
  have hfifoth : initFifoth x.cfg &&& 0x7FFF0FFF#32 = _ :=
    (and_of_masked (initFifoth_mask hdepth) (by decide)).trans (initFifoth_eq hdepth)
  rw [intmaskBits] at hintmask
  cases hdma : x.cfg.dmaPresent <;>
    simp [initRegs, initialised, regSet_ctrl_intEnable, hr.ctrl, hdmac, hdma, hintmask, hfifoth, regWrite, initFields,
      Slot.initialised]

/-- No value CONTROLLER_INIT writes has a reserved bit. -/
theorem regsLegal_initialised {x : State} (hdepth : x.cfg.fifoDepth ≤ 4096) (hr : RegsLegal x) :
    RegsLegal (initialised x) where
  ctrl     := or_mask_zero _ _ _ hr.ctrl (by decide)
  clkdiv   := BitVec.zero_and
  cmd      := hr.cmd
  bmod     := hr.bmod
  smplCtrl := BitVec.zero_and
  rintsts  := BitVec.zero_and
  idsts    := by
    show (if x.cfg.dmaPresent then x.regs.idsts &&& ~~~0x337#32 else x.regs.idsts) &&& _ = _
    split
    · exact not_mask_zero _ _ _ hr.idsts
    · exact hr.idsts
  idinten  := by
    show (if x.cfg.dmaPresent then 0x317#32 else x.regs.idinten) &&& _ = _
    split
    · decide
    · exact hr.idinten
  fifoth   := (congrArg (· &&& 0x8000F000#32) (initFifoth_eq hdepth)).symm.trans (initFifoth_mask hdepth)
  blksiz   := hr.blksiz
  clkena   := BitVec.zero_and
  ctype    := BitVec.zero_and
  intmask  := by
    show 0xBFCF#32 &&& ~~~intmaskBits x.cfg = 0#32
    rw [← initIntmask_kept x.cfg, BitVec.and_assoc, BitVec.and_not_self]
    exact BitVec.and_zero
  uhs      := BitVec.zero_and

/-! ### CONTROLLER_INIT's work -/

/-- CONTROLLER_INIT's resets (R811). -/
def initReset (x : State) : State := (if x.cfg.dmaPresent then dmaReset else id) (controllerReset x)

/-- The work between its controller reset and its record (R811). -/
def initTail (c : Config) : List Work := (if c.dmaPresent then dmaResetProg else []) ++ [.initRegs, .cardScan]

theorem initTail_passedOver (c : Config) : PassedOver (initTail c) ∧ (initTail c).length ≤ 5 := by
  unfold initTail
  cases c.dmaPresent with
  | false => exact ⟨passedOver_of_all rfl, by decide⟩
  | true => exact ⟨passedOver_of_all rfl, by decide⟩

theorem initProg_eq (c : Config) (tag : Word) (ws : List Work) :
    initProg c tag ++ ws = resetControllerProg ++ (initTail c ++ .ctlEnd tag 0#4 0#32 :: ws) := by
  simp only [initProg, initTail, List.append_assoc, List.cons_append, List.nil_append]

/-- After the resets the engine can be reset again, and the DMA engine stands still (R682, R685). -/
theorem initReset_spec {x : State} (h : ResetReady x) :
    ResetReady (initReset x) ∧ (initReset x).st.dmac.halted = (initReset x).st.dmac := by
  unfold initReset
  split
  · exact ⟨h.controllerReset.dmaReset, rfl⟩
  · exact ⟨h.controllerReset, rfl⟩

theorem initReset_setRet (x : State) : initReset (setRet .ok x) = setRet .ok (initReset x) := by
  cases h : x.cfg.dmaPresent <;> simp only [initReset, setRet_cfg, h] <;> rfl

theorem initReset_frame (x : State) : (initReset x).cfg = x.cfg ∧ (initReset x).st.slots = x.st.slots ∧
    (initReset x).st.active = x.st.active ∧ (initReset x).st.tbuf = x.st.tbuf ∧ (initReset x).ctl = x.ctl ∧
    (initReset x).env = { x.env with cmds := [], xfer := none } := by
  cases h : x.cfg.dmaPresent <;> simp only [initReset, h] <;> exact ⟨rfl, rfl, rfl, rfl, rfl, rfl⟩

/-- DMA_RESET waits, BUS completes it, and the DPU goes on with the work behind (R566). -/
theorem dmaReset_served (n : Nat) (ws : List Work) {x : State} (h : ResetReady x) :
    Res.andThen (drive (n + 3) (setDpu (dmaResetProg ++ ws) x)) serveResets = drive 511 (setDpu ws (dmaReset x)) := by
  rw [dma_reset_waits x ws n h.prompt h.legal h.ret, andThen_next,
    dma_reset_served x _ ws h.prompt h.clear h.deadline h.ret]

/-- BUS completes CONTROLLER_INIT's resets one after another (R811). -/
theorem initResets_served (ws : List Work) {x : State} (h : ResetReady x) :
    Res.chain (drive 511 (setDpu (resetControllerProg ++ (initTail x.cfg ++ ws)) x))
      (List.replicate (if x.cfg.dmaPresent then 2 else 1) serveResets)
      = drive 511 (setDpu (.initRegs :: .cardScan :: ws) (initReset x)) := by
  unfold initReset initTail
  cases x.cfg.dmaPresent with
  | false => exact resetController_served 508 (.initRegs :: .cardScan :: ws) h
  | true =>
    show Res.andThen (Res.andThen _ serveResets) serveResets = _
    rw [resetController_served 508 _ h]
    exact dmaReset_served 508 (.initRegs :: .cardScan :: ws) h.controllerReset

/-- CARD_SCAN can look at the slots after CONTROLLER_INIT's writes: no request is active. -/
theorem scannable_initialised {x : State} (h : ResetReady x) (hshape : ShapeOk x) (hactive : x.st.active = none)
    (hdepth : x.cfg.fifoDepth ≤ 4096) (hsmall : x.cfg.nslots ≤ 16) : Scannable (initialised x) where
  shape := by
    obtain ⟨hslots, hrest⟩ := hshape
    exact ⟨(List.length_map ..).trans hslots, hrest⟩
  legal := regsLegal_initialised hdepth h.legal
  small := hsmall
  kept a ha := by
    have hnone : (initialised x).st.active = none := hactive
    rw [hnone] at ha
    cases ha

/-- The ranges of `NSLOTS` and `FIFO_DEPTH` (R20, R23). -/
theorem slotsAndFifo_of_valid {c : Config} (h : c.Valid) : c.nslots ≤ 16 ∧ c.fifoDepth ≤ 4096 := by
  obtain ⟨-, hslots, -, -, -, -, hdepth, -⟩ := h
  exact ⟨hslots, hdepth⟩

/-- Behind the resets the registers and the fields are written, and CARD_SCAN runs (R811, R505). -/
theorem Runs.initialise (ws : List Work) {x : State} (h : ResetReady x) (hshape : ShapeOk x)
    (hactive : x.st.active = none) (hdmac : x.st.dmac.halted = x.st.dmac) :
    ∃ k ≤ 2 * x.cfg.nslots + 3, Runs k (setDpu (.initRegs :: .cardScan :: ws) x)
      (setDpu ws (setRet .ok ((List.range x.cfg.nslots).foldl scanned (initialised x)))) := by
  obtain ⟨hsmall, hdepth⟩ := slotsAndFifo_of_valid h.prompt.1
  have hregs : initRegs (setDpu (.cardScan :: ws) x) = setDpu (.cardScan :: ws) (initialised x) :=
    initRegs_eq (x := setDpu (.cardScan :: ws) x) hdepth h.legal hdmac
  have hret : initialised x = setRet .ok (initialised x) := by
    rw [← (h.ret : (initialised x).ctl.ret = .ok)]
    rfl
  have hinit : Runs 1 (setDpu (.initRegs :: .cardScan :: ws) x) (setDpu (.cardScan :: ws) (setRet .ok (initialised x))) :=
    Runs.work (w := .initRegs) rfl (.inl h.ret) (congrArg Host.Outcome.next (hret ▸ hregs))
  have hcard : Runs 1 (setDpu (.cardScan :: ws) (setRet .ok (initialised x)))
      (Machine.cardScan (setDpu ws (setRet .ok (initialised x)))) := Runs.work (w := .cardScan) rfl (.inl rfl) rfl
  obtain ⟨k, hk, hscan⟩ := Runs.cardScan ws (scannable_initialised h hshape hactive hdepth hsmall)
  have hlen : k ≤ 2 * x.cfg.nslots + 1 := hk
  exact ⟨1 + 1 + k, by omega, (hinit.trans hcard).trans hscan⟩

/-- The work behind the resets ends with the record OK (R811). -/
theorem initWork_ends (tag : Word) (ws : List Work) {x : State} (h : ResetReady x) (hshape : ShapeOk x)
    (hactive : x.st.active = none) (hdmac : x.st.dmac.halted = x.st.dmac) :
    drive 511 (setDpu (.initRegs :: .cardScan :: .ctlEnd tag 0#4 0#32 :: .halt :: ws) x) = .next (setDpu ws
      (recorded (plainRecord .ctl tag 0 .ok 0#32)
        (setRet .ok ((List.range x.cfg.nslots).foldl scanned (initialised x))))) := by
  obtain ⟨k, hk, hrun⟩ := Runs.initialise (.ctlEnd tag 0#4 0#32 :: .halt :: ws) h hshape hactive hdmac
  have hsmall := (slotsAndFifo_of_valid h.prompt.1).1
  rw [hrun.drive_eq (by omega), show 511 - k = 509 - k + 2 by omega]
  exact drive_ctlEnd_ok _ tag 0#4 0#32 ws rfl

section
variable {s : State} {tag : Word} {slot : BitVec 4} {rest : List CtlEntry} (hack : NoAck s.st.ctlq)
  (hactive : s.st.active = none) (htuning : s.st.tuning = false)
  (hq : s.st.ctlq = ⟨.controllerInit, tag, slot⟩ :: rest) (hp : Prompt s) (hr : RegsLegal s) (hn : NoReset s)
include hack hactive htuning hq

/-- CONTROLLER_INIT at the head of the control queue: its work begins (R417, R811). -/
theorem exec_runCtl_init : exec .runCtl s = drive 511 (setDpu (resetControllerProg ++
    (initTail s.cfg ++ .ctlEnd tag 0#4 0#32 :: .halt :: s.ctl.dpu)) (begun rest s)) := by
  rw [exec_runCtl_work hack hactive htuning hq (ws := initProg s.cfg tag) fun _ => rfl, initProg_eq]

include hp hr

/-- CONTROLLER_INIT waits in its controller reset (R811, R685). -/
theorem exec_runCtl_initWaits : exec .runCtl s = .next (setDpu (.poll (.resetClear 0x7#32)
    (s.st.now + ticks s.cfg s.cfg.resetTimeout) .fatal :: (.clearPartBuf :: initTail s.cfg ++
      .ctlEnd tag 0#4 0#32 :: .halt :: s.ctl.dpu)) (asserted 0x7#32 0#32 (begun rest s))) :=
  (exec_runCtl_init hack hactive htuning hq).trans (resetController_waits (s := begun rest s) _ 508 hp hr rfl)

include hn

/-- BUS completes the resets: the record is OK (R811). -/
theorem init_ends (hshape : ShapeOk s) :
    Res.chain (exec .runCtl s) (List.replicate (if s.cfg.dmaPresent then 2 else 1) serveResets)
      = .next (setRet .ok (recorded (plainRecord .ctl tag 0 .ok 0#32) ((List.range s.cfg.nslots).foldl scanned
        (initialised (initReset (withCtlq rest s)))))) := by
  have hready : ResetReady (begun rest s) := ⟨hp, hr, hn, rfl⟩
  obtain ⟨hreset, hdmac⟩ := initReset_spec hready
  obtain ⟨hcfg, hslots, hidle, htbuf, -, henv⟩ := initReset_frame (begun rest s)
  have hshape' : ShapeOk (initReset (begun rest s)) := by rw [ShapeOk, hcfg, hslots, htbuf, henv]; exact hshape
  rw [exec_runCtl_init hack hactive htuning hq]
  refine (initResets_served _ hready).trans ?_
  refine (initWork_ends tag s.ctl.dpu hreset hshape' (hidle.trans hactive) hdmac).trans ?_
  have hinit : initialised (initReset (begun rest s)) = setRet .ok (initialised (initReset (withCtlq rest s))) :=
    congrArg initialised (initReset_setRet (withCtlq rest s))
  have hdpu : s.ctl.dpu
      = ((List.range s.cfg.nslots).foldl scanned (initialised (initReset (withCtlq rest s)))).ctl.dpu := by
    obtain ⟨-, -, -, -, hkept, -⟩ := initReset_frame (withCtlq rest s)
    rw [foldl_scanned_ctl]
    exact (congrArg Control.dpu hkept).symm
  rw [hcfg, hinit, List.foldl_hom (setRet .ok) (scanned_setRet .ok), hdpu]
  rfl

/-- BUS completes the controller reset, and with a DMA engine its reset is under way (R811, R566). -/
theorem init_dmaWaits (hdma : s.cfg.dmaPresent = true) {u : State} (hu : exec .runCtl s = .next u) :
    serveResets u = .next (setDpu (.poll .dmaResetClear (s.st.now + ticks s.cfg s.cfg.resetTimeout) .fatal ::
      ([.dmaRelease, .initRegs, .cardScan] ++ .ctlEnd tag 0#4 0#32 :: .halt :: s.ctl.dpu))
      (asserted 0x4#32 0x1#32 (controllerReset (begun rest s)))) := by
  have hready : ResetReady (begun rest s) := ⟨hp, hr, hn, rfl⟩
  have hreset := hready.controllerReset
  have htail : initTail s.cfg = dmaResetProg ++ [.initRegs, .cardScan] := by rw [initTail, if_pos hdma]
  have hserved := resetController_served 508 (initTail s.cfg ++ .ctlEnd tag 0#4 0#32 :: .halt :: s.ctl.dpu) hready
  rw [← exec_runCtl_init hack hactive htuning hq, hu, andThen_next] at hserved
  rw [hserved, htail, List.append_assoc]
  exact dma_reset_waits _ _ 508 hreset.prompt hreset.legal hreset.ret

end

/-- Settles O52: the resets BUS completes, the writes and the scan behind them, and the poll of either reset expiring. -/
theorem controllerInitRuns : Obligations.ControllerInitRuns := by
  unfold Obligations.ControllerInitRuns
  intro s tag slot rest hp hr hn hshape hq hrest hactive htuning
  have hack : NoAck s.st.ctlq := by
    rw [hq]
    exact List.forall_mem_cons.mpr ⟨by simp, hrest⟩
  have hwaits := exec_runCtl_initWaits hack hactive htuning hq hp hr
  obtain ⟨hover, hlen⟩ := initTail_passedOver s.cfg
  refine ⟨init_ends hack hactive htuning hq hp hr hn hshape, _, hwaits, fun n ht => ⟨?controller, fun hdma => ?dma⟩⟩
  case controller =>
    exact dpuStep_ctlFatal (rest := .clearPartBuf :: initTail s.cfg) (x := asserted 0x7#32 0#32 (begun rest s)) hp.2 ht
      (List.forall_mem_cons.mpr ⟨⟨rfl, rfl⟩, hover⟩) (by rw [List.length_cons, driveBound]; omega)
  case dma =>
    exact ⟨_, init_dmaWaits hack hactive htuning hq hp hr hn hdma hwaits,
      dpuStep_ctlFatal (x := asserted 0x4#32 0x1#32 (controllerReset (begun rest s))) hp.2 ht (passedOver_of_all rfl)
        (Nat.le_of_ble_eq_true rfl)⟩

end Sys2Proof.Machine
end
